-- ==== Sys2Proof/Word.lean ====
section
/-! DEFINITION. The word types of the VG418: bytes of the serial port and of frames, station
addresses, and the wider values of registers and check values. -/

namespace Sys2Proof

/-- A byte of a register, a record or a frame payload. -/
abbrev Byte := BitVec 8

/-- A station address, S0 to S15 (section 1.4 of the introduction). -/
abbrev Addr := BitVec 4

/-- A 16-bit register value. -/
abbrev Half := BitVec 16

/-- A 32-bit check value or digest (R105). -/
abbrev Word := BitVec 32

end Sys2Proof
end

