-- ==== Sys2Proof/Syntax.lean ====
section
/-! DEFINITION. The commands of the VG418: one constructor of Instr per row of spec/opcode_table.json,
with the row's operands. -/

namespace Sys2Proof

/-- A frame as bits on the line, field by field as sampled (section 12.6): 7 contention bits, 4 kind
bits, 8 length bits, the payload bytes, 32 check bits. -/
structure RawFrame where
  contention : BitVec 7
  kind       : BitVec 4
  length     : Byte
  payload    : List Byte
  check      : Word
deriving DecidableEq, Repr

/-- The frame at whose end FRAME_ACCEPTED stands: this station's own, or one it received. -/
inductive LineFrame where
  | own
  | received (f : RawFrame)
deriving DecidableEq, Repr

/-- The frame at whose end FRAME_VOIDED stands. `bitErrorAt` is the number of bits sampled after the start
bit at this station's bit error (R8), if it had one: as a receiver, three samples of one bit that did not all
agree; as the transmitter, a level sampled other than the one it drove. -/
inductive VoidedFrame where
  | own (bitErrorAt : Option Nat)
  | received (f : RawFrame) (bitErrorAt : Option Nat)
deriving DecidableEq, Repr

/-- The pins that a warm reset samples: the levels of ADDR[3:0] and, at the first sample after the reset, of
TRG[3:0] (R3, R165). -/
structure ResetPins where
  addr : Addr
  trg : BitVec 4
deriving DecidableEq, Repr

/-- Where in the frame on the line a change of state comes (R19), the start bit being bit time 0 (log 10):
whether the station is making an error hold as a receiver then, and the first bit time of that hold, or of the
one by which it aborts a frame of its own. With `frameEnds` the frame ends at the same moment and its end is
taken after the change (R82): no hold is left to wait for (log 43). -/
structure HoldPlace where
  rxHold : Bool
  start : Nat
  frameEnds : Bool
deriving DecidableEq, Repr

/-- No hold to wait for. -/
def HoldPlace.none : HoldPlace := ⟨false, 0, false⟩

/-- What a warm reset finds outside the records: the pins it samples, and the hold that it waits for. -/
structure ResetInputs extends ResetPins, HoldPlace
deriving DecidableEq, Repr

/-- A byte of a transaction (R178): the command byte that follows a fall of CSn, with the write flag of its top
bit (log 39), or a data byte of a write; `ins` is what a warm reset finds, where the byte starts one. -/
inductive PortByte where
  | command (write : Bool)
  | data (byte : Byte) (ins : ResetInputs)
deriving DecidableEq, Repr

/-- The lease classes that have parameters (R117). -/
inductive LeaseClass where
  | one | two | three
deriving DecidableEq, Repr

/-- A write of one configuration field, with the value its register takes (R182). The index of a token
kind is the one KIND_SEL holds. -/
inductive ConfigWrite where
  | tokenKind (value : Byte)
  | presencePeriod (value : Byte)
  | dropout (value : Half)
  | digestInterval (value : Half)
  | tickDiv (value : Half)
  | bitDiv (value : Byte)
  | flags (value : Byte)
  | lease (cls : LeaseClass) (len w v : Half) (strict : Byte)
deriving DecidableEq, Repr

/-- The commands, one per row of the table, in the table's order. -/
inductive Instr where
  /-- POWER_ON_RESET (R87), with the levels of ADDR[3:0] and TRG[3:0] at the reset. -/
  | powerOnReset (addr : Addr) (trg : BitVec 4)
  /-- RSTN_WARM_RESET (R184): the whole of an assertion of RSTn that lasts `clks` CLK periods (log 40). -/
  | rstnWarmReset (clks : Nat) (pins : ResetPins) (place : HoldPlace)
  /-- WARM_RESET (R184): 1 written to CONTROL.WARM_RESET. -/
  | warmReset (pins : ResetPins) (place : HoldPlace)
  /-- PORT_READY (R184). -/
  | portReady
  /-- COMMIT (R183): 1 written to CONTROL.COMMIT. -/
  | commit
  /-- COMMIT_COMPLETE (R183). -/
  | commitComplete
  /-- CONFIG_WRITE (R182). -/
  | configWrite (w : ConfigWrite)
  /-- REGISTER_WRITE (R178): one byte of a transaction: a data byte of a write, at the address that stands,
  or a command byte with its address (log 39). -/
  | registerWrite (addr : BitVec 7) (data : PortByte)
  /-- TRANSACTION_END (R178): CSn rises. -/
  | transactionEnd
  /-- REQ_DATA (R179): one byte written to the request window. -/
  | reqData (data : Byte)
  /-- CMP_DATA (R180): one byte read from the completion window. -/
  | cmpData
  /-- EVENT_CLEAR (R168). -/
  | eventClear (value : Half)
  /-- IRQ_EN (R170). -/
  | irqEn (value : Half)
  /-- WAKE_EN (R170). -/
  | wakeEn (value : Half)
  /-- WAKE_ANY (R170). -/
  | wakeAny (value : Bool)
  /-- SIGNAL_LATCH_CLEAR (R167). -/
  | signalLatchClear (value : Byte)
  /-- ERR_STATUS_CLEAR (R172). -/
  | errStatusClear (value : Half)
  /-- ERR_MASK (R173). -/
  | errMask (value : Half)
  /-- ERR_FIRST_CLEAR (R174): a write of any value. -/
  | errFirstClear (value : Byte)
  /-- SLOT_ENABLE (R153): the ENABLE field of the slot of SLOT_SEL. -/
  | slotEnable (value : Bool)
  /-- SLOT_CTRL (R185): the whole register of the slot of SLOT_SEL. -/
  | slotCtrl (value : Byte)
  /-- FIRE (R154): 1 written to the FIRE bit of the slot of SLOT_SEL. -/
  | fire
  /-- TRIGGER_FLAG_CLEAR (R155), on the slot of SLOT_SEL. -/
  | triggerFlagClear
  /-- MISSED_CLEAR (R152), on the slot of SLOT_SEL. -/
  | missedClear
  /-- TRG_EDGE (R154): the synchronised level of TRGn becomes `level`. -/
  | trgEdge (pin : BitVec 2) (level : Bool)
  /-- ACQUIRE (R138), the head of the request FIFO. -/
  | acquire
  /-- RELEASE (R140). -/
  | release
  /-- RENEW (R141). -/
  | renew
  /-- CANCEL (R142). -/
  | cancel
  /-- SIGNAL (R146). -/
  | signal
  /-- QUERY (R147). -/
  | query
  /-- DETACH (R148). -/
  | detach
  /-- JOIN (R149). -/
  | join
  /-- UNKNOWN_REQUEST (R149). -/
  | unknownRequest
  /-- SLOT_ISSUE (R156). -/
  | slotIssue
  /-- HELD_WITHDRAW_PLACE (R145). -/
  | heldWithdrawPlace
  /-- LINE_WAIT_DONE (R2). -/
  | lineWaitDone
  /-- IDLE_GAP (R2). -/
  | idleGap
  /-- TRANSMIT_START (R6): a start boundary at which stations with these contention values start too. -/
  | transmitStart (rivals : List (BitVec 7))
  /-- YIELD_TIMEOUT (R15). -/
  | yieldTimeout
  /-- FRAME_ACCEPTED (R10). -/
  | frameAccepted (f : LineFrame)
  /-- FRAME_VOIDED (R10). -/
  | frameVoided (f : VoidedFrame)
  /-- ABORT_HOLD_END (R19). -/
  | abortHoldEnd
  /-- TICK (R115). -/
  | tick
  /-- LEASE_EXPIRY (R121), of the record that names the token. -/
  | leaseExpiry (token : BitVec 6)
  /-- PRESENCE_TIMER_EXPIRY (R72). -/
  | presenceTimerExpiry
  /-- DROPOUT_EXPIRY (R69), of one peer's counter. -/
  | dropoutExpiry (peer : Addr)
  /-- LISTEN_INTERVAL_END (R76). -/
  | listenIntervalEnd
  /-- SNAPSHOT_TIMER_EXPIRY (R96), with the place in the frame on the line that the end of a join falls in. -/
  | snapshotTimerExpiry (place : HoldPlace)
  /-- DIGEST_TIMER_EXPIRY (R108). -/
  | digestTimerExpiry
  /-- POWER_FAIL (R19). -/
  | powerFail
deriving DecidableEq, Repr

end Sys2Proof
end

