-- ==== Sys2Proof/Config.lean ====
section
/-! DEFINITION. What the manual fixes for every part as a number, and the free values: constants with
no body, for what the manual leaves open. -/

namespace Sys2Proof.Config

/-- The most payload bytes a frame may have (R4). -/
def maxPayload : Nat := 96

/-- Bit times of a frame with no payload, from its start bit to the end of its objection window
(section 12.6: 54 + 8 × length). -/
def frameOverhead : Nat := 54

/-- Bit times of the longest frame (R2: 822). -/
def longestFrame : Nat := frameOverhead + 8 * maxPayload

/-- The idle gap in bit times (R2). -/
def idleGapBits : Nat := 8

/-- The recessive bit times a station waits for when it begins to take part in the line (R2: 830). -/
def lineWaitBits : Nat := longestFrame + idleGapBits

/-- The recessive bit times that end the yield state (R15). -/
def yieldBits : Nat := 24

/-- The limit of both fault counters (R16, R17). -/
def faultLimit : Nat := 64

/-- The step by which a fault counter rises (R16). -/
def faultStep : Nat := 4

/-- Records the request FIFO holds (R132). -/
def reqFifoDepth : Nat := 8

/-- Frames the outgoing list holds (R136). -/
def outgoingDepth : Nat := 8

/-- Completion places of the part (R133). -/
def places : Nat := 16

/-- The CLK periods for which RSTn is to be asserted so that a warm reset surely starts (R184). -/
def resetClks : Nat := 2

/-- FREE VALUE (log 14). The revision byte of the ID register, which R181 names and gives no value. -/
opaque revision : Byte

/-- FREE VALUE (log 12). Whether an RSTn assertion shorter than 2 CLK periods starts a warm reset:
R184 says it may start one or may be ignored. Applied to State.freeCount. -/
opaque shortResetStarts : Nat → Bool

/-- FREE VALUE (log 13). Whether FIRE acts before the flag clearings of the same write of SLOT_STATUS;
the manual gives no order. Applied to State.freeCount. -/
opaque fireBeforeClears : Nat → Bool

end Sys2Proof.Config
end

