-- ==== Sys2Proof/Machine/State.lean ====
section
/-! DEFINITION. The state of the VG418, block by block as section 1.5 of the introduction lists them,
and the state after a power-on reset. Plain data throughout. -/

namespace Sys2Proof.Machine

/-- The grade, fused at manufacture (section 1.3 of the introduction, R181). -/
inductive Grade where
  | vg418 | vg418l
deriving DecidableEq, Repr

/-- N, the number of tokens of a grade. -/
def Grade.tokens : Grade → Nat
  | .vg418 => 64
  | .vg418l => 32

/-- The number of trigger slots of a grade. -/
def Grade.slots : Grade → Nat
  | .vg418 => 4
  | .vg418l => 2

/-! ## Configuration (R182, R183) -/

/-- The parameters of a lease class (R117). -/
structure ClassParams where
  len : Half
  w : Half
  v : Half
  strict : Bool
deriving DecidableEq, Repr

/-- The configuration fields of R182. Token kinds are kept for all 64 indices, as written. -/
structure ConfigFields where
  kinds : List Byte
  presencePeriod : Byte
  dropout : BitVec 10
  digestInterval : Half
  class1 : ClassParams
  class2 : ClassParams
  class3 : ClassParams
  tickDiv : Half
  bitDiv : Byte
  divergenceFatal : Bool
  autojoin : Bool
deriving DecidableEq, Repr

/-- The codes of CONFIG_STATUS (R183). -/
inductive ConfigStatus where
  | uncommitted | busy | committed | kindGrade | dropoutRange | leaseRange | digestRange
deriving DecidableEq, Repr

/-- The configuration block: fields, CONFIG_STATUS with its detail byte, and CONFIG_DIGEST (R107). -/
structure ConfigBlock where
  fields : ConfigFields
  status : ConfigStatus
  detail : Byte
  digest : Word
deriving DecidableEq, Repr

/-! ## The token table (R20 to R25) -/

/-- The kind of a token (R20). -/
inductive TokenKind where
  | exclusive
  | pool (capacity : Nat)
deriving DecidableEq, Repr

/-- A holder record (R22). -/
structure Holder where
  station : Addr
  units : Nat
deriving DecidableEq, Repr

/-- A waiter record (R24). -/
structure Waiter where
  station : Addr
  units : Nat
  list : List Nat
  position : Nat
deriving DecidableEq, Repr

/-- What the latest change to an entry was (R25). -/
inductive LastChange where
  | none | claimed | released | forfeited | withdrawn | evicted
deriving DecidableEq, Repr

/-- One entry of the token table (R20). -/
structure Entry where
  kind : TokenKind
  holders : List Holder
  waiters : List Waiter
  change : LastChange
deriving DecidableEq, Repr

/-- A free entry of a kind: no holders, an empty queue, last change NONE (R45, R47, R48). -/
def Entry.free (k : TokenKind) : Entry := ⟨k, [], [], .none⟩

/-! ## Frames (R3, section 12.6) -/

/-- The mode of a claim, WAIT or TRY. -/
inductive ClaimMode where
  | wait | tryNow
deriving DecidableEq, Repr

/-- The cause of a RELEASE (R33). -/
inductive ReleaseCause where
  | host | expired
deriving DecidableEq, Repr

/-- The cause of an EVICT (R36). -/
inductive EvictCause where
  | dropout | self
deriving DecidableEq, Repr

/-- The state a PRESENCE carries (R71). -/
inductive PresenceState where
  | listening | joining | active
deriving DecidableEq, Repr

/-- The content of a frame, by kind (the table of R3). A SNAP carries an entry without its last change. -/
inductive Frame where
  | evict (target : Addr) (cause : EvictCause)
  | release (cause : ReleaseCause) (tokens : List Nat)
  | withdraw (origin : Nat)
  | claim (mode : ClaimMode) (units : Nat) (tokens : List Nat)
  | signal (mask : Half) (code : BitVec 3)
  | snapreq (donor : Addr) (start : Nat)
  | snap (joiner : Addr) (index : Nat) (kind : TokenKind) (holders : List Holder) (waiters : List Waiter)
  | digest (value : Word)
  | presence (state : PresenceState) (digest : Word)
deriving DecidableEq, Repr

/-! ## Membership and presence (R66 to R76) -/

/-- The membership states (R66). -/
inductive MState where
  | unconfigured | listening | joining | active | leaving | detached
deriving DecidableEq, Repr

/-- The peer states (R67). -/
inductive PeerState where
  | absent | listening | joining | active
deriving DecidableEq, Repr

/-- Whether a peer's last PRESENCE carried this station's configuration digest (R67). -/
inductive MatchState where
  | unknown | matching | mismatch
deriving DecidableEq, Repr

/-- The result of the last comparison of a peer's DIGEST (R67, R110). -/
inductive DigestStatus where
  | none | agree | disagree
deriving DecidableEq, Repr

/-- One entry of the presence table (R67). -/
structure Peer where
  state : PeerState
  dropout : Nat
  config : MatchState
  digest : DigestStatus
deriving DecidableEq, Repr

/-- A cleared entry of the presence table (R67). -/
def Peer.cleared : Peer := ⟨.absent, 0, .unknown, .none⟩

/-- The Membership Controller's records. A timer is none while stopped; at some 0 its end has come and
is still to be acted on (log 4). -/
structure Member where
  state : MState
  peers : List Peer
  presenceTimer : Option Nat
  presenceWant : Bool
  evictWants : List (Addr × EvictCause)
  listenTimer : Option Nat
  activeSeen : Bool
deriving DecidableEq, Repr

/-! ## The Snapshot Engine (R88, R99) -/

/-- The joiner's engine states (R88). -/
inductive Engine where
  | idle | seeking | requesting | receiving
deriving DecidableEq, Repr

/-- Why the last join ended in JOIN_FAILED (R88). -/
inductive JoinCause where
  | none | donorLimit | withdrawUnresolved
deriving DecidableEq, Repr

/-- The joiner's records and the donor's service list of (joiner, next index). `lapsed` is the failure count of a
join that another error ended at the moment of its snapshot timer's end, whose expiry is still to be taken (R82,
log 43). -/
structure Snap where
  cursor : Nat
  engine : Engine
  donor : Option Addr
  failures : Nat
  timer : Option Nat
  cause : JoinCause
  service : List (Addr × Nat)
  lapsed : Option Nat
deriving DecidableEq, Repr

/-! ## The Digest Unit and the time base -/

/-- The digest timer and the DIGEST want (R108). -/
structure DigestUnit where
  timer : Option Nat
  want : Bool
deriving DecidableEq, Repr

/-- The tick prescaler (R115). -/
structure TimeBase where
  running : Bool
  prescaler : Half
deriving DecidableEq, Repr

/-! ## Requests and completions (chapter 8) -/

/-- Who made a claim or a request (R118, R135). -/
inductive Source where
  | host
  | slot (n : BitVec 2)
deriving DecidableEq, Repr

/-- The request kinds (section 12.7). -/
inductive ReqKind where
  | acquire | release | renew | cancel | signal | query | detach | join
deriving DecidableEq, Repr

/-- The 8 bytes of a request record (section 12.7). -/
structure Request where
  code : Byte
  tag : Byte
  b2 : Byte
  b3 : Byte
  b4 : Byte
  b5 : Byte
  b6 : Byte
  b7 : Byte
deriving DecidableEq, Repr

/-- The phases of a pending entry (R135). -/
inductive Phase where
  | outgoing | waiting | withdrawing | releasing | signalling
deriving DecidableEq, Repr

/-- A pending entry (R135), with the WITHDRAW held on a slot's claim entry (R145). Fields that do not
apply to a kind are none, empty or 0. -/
structure PendEntry where
  tag : Byte
  source : Source
  kind : ReqKind
  origin : Option Nat
  list : List Nat
  units : Nat
  cls : Nat
  phase : Phase
  progress : List Nat
  heldWithdraw : Bool
deriving DecidableEq, Repr

/-- A frame on the outgoing list with the pending-table number of the entry it serves (R136). -/
structure OutFrame where
  entry : Nat
  frame : Frame
deriving DecidableEq, Repr

/-- The status codes of completions (section 8.12). -/
inductive Status where
  | empty | granted | unavailable | released | renewed | tooEarly | forfeited | tooLate | notHeld
  | noLease | withdrawn | done | notFound | sent | queryResult | evicted | detached | notActive
  | wrongState | badRequest | unsupported | conflict | slotOwned
deriving DecidableEq, Repr

/-- A completion record (R137, section 12.7): status, tag, source, request kind code, and bytes 3 to 7. -/
structure Completion where
  status : Status
  tag : Byte
  source : Source
  kind : BitVec 4
  info : Byte
  d0 : Byte
  d1 : Byte
  d2 : Byte
  d3 : Byte
deriving DecidableEq, Repr

/-- The Request Unit's collections and the assembly buffer of the request window (R179). -/
structure Requests where
  asm : List Byte
  fifo : List Request
  pend : List (Option PendEntry)
  outgoing : List OutFrame
  cmp : List Completion
deriving DecidableEq, Repr

/-! ## Leases (R118) -/

/-- The stage of a lease (R118). -/
inductive LeaseState where
  | running | warned | releasePending | expiredPending
deriving DecidableEq, Repr

/-- A lease record (R118). -/
structure Lease where
  tokens : List Nat
  units : Nat
  cls : Nat
  counter : Nat
  state : LeaseState
  source : Source
  tag : Byte
deriving DecidableEq, Repr

/-! ## Trigger slots (R152) -/

/-- The slot modes (R152). -/
inductive SlotMode where
  | single | follow
deriving DecidableEq, Repr

/-- The slot states (R152). -/
inductive SlotState where
  | disabled | armed | triggered | claiming | withdrawing | held | releasing
deriving DecidableEq, Repr

/-- The causes of SLOT events (R152). -/
inductive SlotCause where
  | none | missed | badMode | badSpec | conflict | aborted | expired
deriving DecidableEq, Repr

/-- The claim specification of a slot, as the bytes of SLOT_SPEC hold it; a token byte beyond the list length is
held as written (log 47). -/
structure SlotSpec where
  listLen : Byte
  t0 : Byte
  t1 : Byte
  t2 : Byte
  t3 : Byte
  units : Byte
  cls : Byte
  tag : Byte
deriving DecidableEq, Repr

/-- A trigger slot (R152), its GNT output (R158) and the place it holds (R134). ENABLE and the trigger
flag are views of the state (log 26). -/
structure Slot where
  mode : SlotMode
  source : BitVec 3
  code : BitVec 3
  spec : SlotSpec
  state : SlotState
  missed : Bool
  stop : Bool
  cause : SlotCause
  pin : Bool
  gnt : Bool
  heldPlace : Bool
deriving DecidableEq, Repr

/-- A slot after a reset (R152), with the reference level of its pin (R154). The three token bytes beyond the
claim list [T0] are 0 (log 47). -/
def Slot.initial (pin : Bool) : Slot :=
  ⟨.single, 0, 0, ⟨1, 0, 0, 0, 0, 1, 0, 0⟩, .disabled, false, false, .none, pin, false, false⟩

/-! ## Events and errors (chapters 10 and 11) -/

/-- The event register's latched events, the enables, WAKE_ANY and the signal latch (R167 to R171).
CMP_READY, bit 0, is a view of the completion FIFO (log 26). -/
structure Events where
  latched : Half
  irqEn : Half
  wakeEn : Half
  wakeAny : Bool
  latch : Byte
deriving DecidableEq, Repr

/-- The nine events (R169). -/
inductive Event where
  | cmpReady | leaseWarn | leaseExpired | signal | membership | peer | slot | error | reqDropped
deriving DecidableEq, Repr

/-- The twelve error kinds (section 11.1). -/
inductive ErrKind where
  | rxCheck | txVoided | peerConfig | digestDisagree | donorLost | earlyRenew
  | rxLimit | txLimit | configConflict | divergence | joinFailed | evicted
deriving DecidableEq, Repr

/-- Where the header log's frame came from (R174). -/
inductive HeaderOrigin where
  | noFrame | received | sent
deriving DecidableEq, Repr

/-- The header log (R174). The contention value holds class and sender. -/
structure Header where
  origin : HeaderOrigin
  contention : BitVec 7
  kind : BitVec 4
  length : Byte
  payload : List Byte
deriving DecidableEq, Repr

/-- The header log with no frame: every other field 0 (R174). -/
def Header.noFrame : Header := ⟨.noFrame, 0, 0, 0, List.replicate 8 0⟩

/-- The Error Log (R172 to R174). -/
structure Errors where
  status : Half
  mask : Half
  first : Option ErrKind
  header : Header
deriving DecidableEq, Repr

/-! ## The Line Interface (chapter 1) -/

/-- Where the Line Interface stands on the line: not taking part, in the wait of R2, within a frame, in
the idle gap after one, or at start boundaries. -/
inductive LinePhase where
  | off | waiting | inFrame | gap | idle
deriving DecidableEq, Repr

/-- This station's own frame on the line, and the pending-table number it serves when it came from the
outgoing list (R136). -/
structure TxFrame where
  frame : Frame
  entry : Option Nat
deriving DecidableEq, Repr

/-- The change of state that waits for the end of a hold (R19). -/
inductive HeldChange where
  | warmReset
  | leave (dest : MState) (status : Status)
deriving DecidableEq, Repr

/-- An error hold that a change of state waits for: the abort of an own frame (`own`), which stays on the line to
the hold's end (R10, R136), or a hold as a receiver (R19), and its first bit time, the start bit being bit time
0. -/
structure Hold where
  own : Option TxFrame
  change : HeldChange
  start : Nat
deriving DecidableEq, Repr

/-- A frame that ended at the very moment at which this station left the line, its end still to be taken (R82,
log 43): the station's own, or another's. -/
inductive EndedFrame where
  | own (tx : TxFrame)
  | received
deriving DecidableEq, Repr

/-- The Line Interface's records. `recessive` is the count of R2 and R15 as far as the commands tell it;
`begun` is the levels, start bit first, that this station has driven of a frame of its own on the line that it
sends no more, having lost contention (R6) or aborting (R19); `driven` is the first and last bit time, counted
from the start bit as 0, that this station's latest objection, or its latest error hold as a receiver or as a
transmitter, drove dominant (R9); `ended` is the frame whose end falls at the moment at which the station left
the line (R82). -/
structure Line where
  phase : LinePhase
  recessive : Nat
  tx : Option TxFrame
  begun : List Bool
  yielding : Bool
  rfc : Nat
  tfc : Nat
  hold : Option Hold
  driven : Option (Nat × Nat)
  ended : Option EndedFrame
  bitDiv : Option Byte
deriving DecidableEq, Repr

/-! ## The Serial Port (R178 to R180) -/

/-- Whether the port answers transactions: it does not from the start of a warm reset until PORT_READY,
nor before a hold that the reset waits for has ended (R178, R184). -/
inductive PortState where
  | answering | inReset | readyAtHoldEnd
deriving DecidableEq, Repr

/-- A completion record being read: its bytes, whether it is the head record, and the bytes read (R180). -/
structure CmpRead where
  record : List Byte
  isHead : Bool
  taken : Nat
deriving DecidableEq, Repr

/-- The transaction between a fall and the next rise of CSn (R178): none, a write, a read, or one of which
the rest is ignored because a warm reset fell into it (R184). -/
inductive Txn where
  | closed | write | read | ignored
deriving DecidableEq, Repr

/-- A register being read: its lowest address, and its bytes as captured at the first byte read (R178). -/
structure RegRead where
  base : BitVec 7
  bytes : List Byte
deriving DecidableEq, Repr

/-- The Serial Port: the transaction in progress, the address of its next data byte, the multi-byte register
being written, the register and the completion being read, SDO, and the selectors of the views (R185). -/
structure Port where
  state : PortState
  txn : Txn
  addr : BitVec 7
  wr : Option (BitVec 7 × List Byte)
  rd : Option RegRead
  cmp : Option CmpRead
  sdo : Option Byte
  leaseSel : BitVec 6
  pendSel : BitVec 4
  peerSel : BitVec 4
  slotSel : BitVec 2
  kindSel : BitVec 6
deriving DecidableEq, Repr

/-! ## The whole state -/

/-- The whole part, with the queue of the commands that wait. `addrPins` and `trgPins` are the levels that a
reset samples: as the latest reset command told them, and for TRG as the edges since have changed them. -/
structure State where
  grade : Grade
  powered : Bool
  addrPins : Addr
  trgPins : BitVec 4
  station : Addr
  config : ConfigBlock
  line : Line
  table : List Entry
  member : Member
  snap : Snap
  digest : DigestUnit
  time : TimeBase
  leases : List Lease
  req : Requests
  slots : List Slot
  events : Events
  errors : Errors
  port : Port
  freeCount : Nat
  pending : List Instr
deriving DecidableEq, Repr

/-- Why a command could stop the part. No meaning of this model raises a fault: every command leaves a
next state. `unreachable` stands only so that the type has a value; nothing answers with it (safe). -/
inductive Fault where
  | unreachable
deriving DecidableEq, Repr

/-- Why a command could be refused. `notModelled` is the interface's name for a row without a meaning;
no row is without one, so nothing answers with it (safe). -/
inductive Refusal where
  | notModelled (mnemonic : String)
deriving DecidableEq, Repr

/-! ## The state after a power-on reset -/

/-- The configuration fields' power-on values (R182, R117). -/
def ConfigFields.initial : ConfigFields where
  kinds := List.replicate 64 0
  presencePeriod := 20
  dropout := 100
  digestInterval := 1000
  class1 := ⟨1000, 250, 100, false⟩
  class2 := ⟨10000, 2500, 1000, false⟩
  class3 := ⟨60000, 15000, 6000, false⟩
  tickDiv := 15999
  bitDiv := 15
  divergenceFatal := true
  autojoin := false

/-- The configuration block after power-on (R182, R183, R107). -/
def ConfigBlock.initial : ConfigBlock := ⟨.initial, .uncommitted, 0, 0⟩

/-- The Line Interface after either reset (R15, R17, R18). -/
def Line.initial : Line := ⟨.off, 0, none, [], false, 0, 0, none, none, none, none⟩

/-- The Membership Controller after power-on (R87). -/
def Member.initial : Member :=
  ⟨.unconfigured, List.replicate 16 Peer.cleared, none, false, [], none, false⟩

/-- The Snapshot Engine after either reset (R88, R99). -/
def Snap.initial : Snap := ⟨0, .idle, none, 0, none, .none, [], none⟩

/-- The Digest Unit's timer and want after either reset (R108). -/
def DigestUnit.initial : DigestUnit := ⟨none, false⟩

/-- The Request Unit after either reset (R132, R135 to R137, R179). -/
def Requests.initial : Requests := ⟨[], [], List.replicate 16 none, [], []⟩

/-- The Event Unit after either reset (R171). -/
def Events.initial : Events := ⟨0, 0, 0, false, 0⟩

/-- The Error Log after power-on (R177). -/
def Errors.initial : Errors := ⟨0, 0, none, .noFrame⟩

/-- The Serial Port after power-on: selectors 0 (R185), no transaction begun. -/
def Port.initial : Port := ⟨.answering, .closed, 0, none, none, none, none, 0, 0, 0, 0, 0⟩

/-- The part right after a power-on reset. The grade and the levels of ADDR and TRG are DESIGN CHOICES
of log 1, the kind EXCLUSIVE of an entry before the first successful commit that of log 46, and the token bytes
of a slot beyond its list that of log 47; the rest is as the chapters give it. -/
def State.reset : State where
  grade := .vg418
  powered := true
  addrPins := 0
  trgPins := 0
  station := 0
  config := .initial
  line := .initial
  table := List.replicate 64 (Entry.free .exclusive)
  member := .initial
  snap := .initial
  digest := .initial
  time := ⟨false, 0⟩
  leases := []
  req := .initial
  slots := List.replicate 4 (Slot.initial false)
  events := .initial
  errors := .initial
  port := .initial
  freeCount := 0
  pending := []

end Sys2Proof.Machine
end

