-- ==== Sys2Proof/Machine/Ops.lean ====
section
/-! DEFINITION. The named operations on the state's parts that every family uses: setters, byte and
bit-field helpers, the token table's entries, the pending table, the completion FIFO, and the wrappers
that say when a command acts at all. -/

namespace Sys2Proof.Machine

/-- This station's own frame on the line: the one it sends, or the one it aborts, to the end of that hold (R10,
R19, R136). -/
def Line.ownFrame (l : Line) : Option TxFrame :=
  match l.tx with
  | some x => some x
  | none => l.hold.bind Hold.own

/-- The outcome type of every meaning. -/
abbrev Result := Host.Outcome State Fault Refusal

/-! ## Setters, one per block -/

def State.withConfig (s : State) (x : ConfigBlock) : State := { s with config := x }
def State.withLine (s : State) (x : Line) : State := { s with line := x }
def State.withTable (s : State) (x : List Entry) : State := { s with table := x }
def State.withMember (s : State) (x : Member) : State := { s with member := x }
def State.withSnap (s : State) (x : Snap) : State := { s with snap := x }
def State.withDigest (s : State) (x : DigestUnit) : State := { s with digest := x }
def State.withTime (s : State) (x : TimeBase) : State := { s with time := x }
def State.withLeases (s : State) (x : List Lease) : State := { s with leases := x }
def State.withReq (s : State) (x : Requests) : State := { s with req := x }
def State.withSlots (s : State) (x : List Slot) : State := { s with slots := x }
def State.withEvents (s : State) (x : Events) : State := { s with events := x }
def State.withErrors (s : State) (x : Errors) : State := { s with errors := x }
def State.withPort (s : State) (x : Port) : State := { s with port := x }
def State.withTrgPins (s : State) (x : BitVec 4) : State := { s with trgPins := x }

/-! ## Bytes, nibbles and bit fields -/

/-- The upper nibble of a byte. -/
def hiNibble (b : Byte) : Nat := b.toNat / 16

/-- The lower nibble of a byte. -/
def loNibble (b : Byte) : Nat := b.toNat % 16

/-- A byte of two nibbles. -/
def nibbles (hi lo : Nat) : Byte := BitVec.ofNat 8 (hi % 16 * 16 + lo % 16)

/-- A number as a byte (a token, an index, a count). -/
def byteOf (n : Nat) : Byte := BitVec.ofNat 8 n

/-- Bit n of a byte, as a byte: how a flag stands in a register. -/
def flagBit (b : Bool) (n : Nat) : Byte := if b then BitVec.ofNat 8 (2 ^ n) else 0

/-- The two bytes of a 16-bit register, most significant first (R178). -/
def bytes16 (h : Half) : List Byte := [h.extractLsb' 8 8, h.extractLsb' 0 8]

/-- The four bytes of a 32-bit register, most significant first (R178). -/
def bytes32 (w : Word) : List Byte :=
  [w.extractLsb' 24 8, w.extractLsb' 16 8, w.extractLsb' 8 8, w.extractLsb' 0 8]

/-- A 16-bit value from its bytes, most significant first. -/
def half (hi lo : Byte) : Half := hi ++ lo

/-- A 32-bit value from its bytes, most significant first. -/
def word (b3 b2 b1 b0 : Byte) : Word := b3 ++ b2 ++ b1 ++ b0

/-- Strictly ascending, the order of every list of tokens (section 1.8 of the introduction). -/
def ascending : List Nat → Bool
  | [] => true
  | [_] => true
  | a :: b :: rest => decide (a < b) && ascending (b :: rest)

/-- Four token bytes, the list and then zeros. -/
def tokenByte (list : List Nat) (i : Nat) : Byte := byteOf (list.getD i 0)

/-! ## Identity and membership -/

/-- N, the number of tokens of the part's grade. -/
def State.n (s : State) : Nat := s.grade.tokens

/-- Taking part in the line (section 1.8 of the introduction). -/
def MState.takesPart : MState → Bool
  | .listening | .joining | .active | .leaving => true
  | .unconfigured | .detached => false

/-- ACTIVE or LEAVING, the states with a valid table (R45). -/
def MState.hasTable : MState → Bool
  | .active | .leaving => true
  | .unconfigured | .listening | .joining | .detached => false

def State.takesPart (s : State) : Bool := s.member.state.takesPart

/-- The configuration is committed: CONFIG_STATUS shows COMMITTED (R183). -/
def State.committed (s : State) : Bool := decide (s.config.status = .committed)

/-- P, the presence period (R182). -/
def State.presencePeriod (s : State) : Nat := s.config.fields.presencePeriod.toNat

/-- D, the dropout time (R182). -/
def State.dropoutTime (s : State) : Nat := s.config.fields.dropout.toNat

/-- I, the digest interval (R182). -/
def State.digestInterval (s : State) : Nat := s.config.fields.digestInterval.toNat

/-- The parameters of a lease class 1 to 3 (R117). -/
def State.classParams (s : State) (cls : Nat) : ClassParams :=
  if cls = 1 then s.config.fields.class1 else if cls = 2 then s.config.fields.class2
  else s.config.fields.class3

/-! ## Token kinds and entries -/

/-- The kind a TOKEN_KIND value stands for (R182): 0 exclusive, otherwise a pool of that capacity. -/
def TokenKind.ofByte (b : Byte) : TokenKind := if b = 0 then .exclusive else .pool b.toNat

/-- The TOKEN_KIND value of a kind. -/
def TokenKind.byte : TokenKind → Byte
  | .exclusive => 0
  | .pool c => byteOf c

/-- The capacity of a kind (R21). -/
def TokenKind.capacity : TokenKind → Nat
  | .exclusive => 1
  | .pool c => c

def TokenKind.isExclusive : TokenKind → Bool
  | .exclusive => true
  | .pool _ => false

/-- The units a list of holder records holds. -/
def heldUnits (hs : List Holder) : Nat := (hs.map Holder.units).sum

/-- The free units of an entry (R21). -/
def Entry.freeUnits (e : Entry) : Nat := e.kind.capacity - heldUnits e.holders

/-- An entry is free to a request of u units (R21). -/
def Entry.freeTo (e : Entry) (u : Nat) : Bool :=
  match e.kind with
  | .exclusive => e.holders.isEmpty
  | .pool c => e.waiters.isEmpty && decide (u + heldUnits e.holders ≤ c)

/-- A station holds an entry. -/
def Entry.heldBy (e : Entry) (a : Addr) : Bool := e.holders.any (fun h => h.station == a)

/-- A station waits on an entry. -/
def Entry.waitedBy (e : Entry) (a : Addr) : Bool := e.waiters.any (fun w => w.station == a)

/-- The entry of a token index; an index with no entry reads as a free exclusive one, which no rule
meets (section 2.1). -/
def entryAt (t : List Entry) (k : Nat) : Entry := t.getD k (Entry.free .exclusive)

/-- Every entry cleared, its kind kept (R45, R47, R48). -/
def clearEntries (t : List Entry) : List Entry := t.map (fun e => Entry.free e.kind)

/-- The entries of the first n configured kinds, all free (R20). -/
def tableOfKinds (kinds : List Byte) (n : Nat) : List Entry :=
  (kinds.take n).map (fun b => Entry.free (TokenKind.ofByte b))

/-! ## Completions and the pending table -/

/-- Numeric status codes (section 12.7). -/
def Status.code : Status → Byte
  | .empty => 0x00 | .granted => 0x01 | .unavailable => 0x02 | .released => 0x03
  | .renewed => 0x04 | .tooEarly => 0x05 | .forfeited => 0x06 | .tooLate => 0x07
  | .notHeld => 0x08 | .noLease => 0x09 | .withdrawn => 0x0A | .done => 0x0B
  | .notFound => 0x0C | .sent => 0x0D | .queryResult => 0x0E | .evicted => 0x0F
  | .detached => 0x10 | .notActive => 0x11 | .wrongState => 0x12 | .badRequest => 0x13
  | .unsupported => 0x14 | .conflict => 0x15 | .slotOwned => 0x16

/-- Source codes: 0 for HOST and 8 + n for slot n (R185). -/
def Source.code : Source → Nat
  | .host => 0
  | .slot n => 8 + n.toNat

/-- Request kind codes (section 12.7). -/
def ReqKind.code : ReqKind → Nat
  | .acquire => 1 | .release => 2 | .renew => 3 | .cancel => 4
  | .signal => 5 | .query => 6 | .detach => 7 | .join => 8

/-- The 8 bytes of a completion record (section 12.7). -/
def Completion.bytes (c : Completion) : List Byte :=
  [c.status.code, c.tag, nibbles c.source.code c.kind.toNat, c.info, c.d0, c.d1, c.d2, c.d3]

/-- A completion of the host with nothing further: bytes 3 to 7 are 0 (log 16). -/
def Completion.bare (st : Status) (tag : Byte) (src : Source) (kind : Nat) : Completion :=
  ⟨st, tag, src, BitVec.ofNat 4 kind, 0, 0, 0, 0, 0⟩

/-- A completion of a single-token status: list length 1 and the token in byte 4 (section 12.7). -/
def Completion.one (st : Status) (tag : Byte) (src : Source) (kind : Nat) (token : Byte) : Completion :=
  ⟨st, tag, src, BitVec.ofNat 4 kind, nibbles 1 0, token, 0, 0, 0⟩

/-- A completion that carries a list of tokens and a low nibble of byte 3 (section 12.7). -/
def Completion.listed (st : Status) (tag : Byte) (src : Source) (kind : Nat) (list : List Nat)
    (low : Nat) : Completion :=
  ⟨st, tag, src, BitVec.ofNat 4 kind, nibbles list.length low, tokenByte list 0, tokenByte list 1,
    tokenByte list 2, tokenByte list 3⟩

/-- The WITHDRAWN completion: the number of tokens released, the origin token, the tokens (section 12.7). -/
def Completion.withdrawn (tag : Byte) (src : Source) (units origin : Nat) (released : List Nat) :
    Completion :=
  ⟨.withdrawn, tag, src, BitVec.ofNat 4 ReqKind.acquire.code, nibbles released.length units,
    byteOf origin, tokenByte released 0, tokenByte released 1, tokenByte released 2⟩

/-- A completion record enters the completion FIFO (R137). -/
def pushCompletion (c : Completion) (s : State) : State :=
  s.withReq { s.req with cmp := s.req.cmp ++ [c] }

/-- The pending entry of a number (R135). -/
def State.pendAt (s : State) (n : Nat) : Option PendEntry := s.req.pend.getD n none

/-- The pending entry of a number is replaced; none makes the number free. -/
def setPend (n : Nat) (e : Option PendEntry) (s : State) : State :=
  s.withReq { s.req with pend := s.req.pend.set n e }

/-- The lowest free pending-table number (R135). -/
def State.freePend (s : State) : Nat := s.req.pend.findIdx (fun e => e.isNone)

/-- A new entry takes the lowest free number (R135). -/
def addPend (e : PendEntry) (s : State) : State := setPend s.freePend (some e) s

/-- The number of the first entry with a property, if one has it. -/
def State.findPend (s : State) (p : PendEntry → Bool) : Option Nat :=
  let i := s.req.pend.findIdx (fun e => e.any p)
  if i < s.req.pend.length then some i else none

/-- The claim entry with an origin token (R135: at most one has it). -/
def State.claimOf (s : State) (origin : Nat) : Option Nat :=
  s.findPend (fun e => e.kind == .acquire && e.origin == some origin)

/-- The claim entry of a slot. -/
def State.claimOfSlot (s : State) (n : BitVec 2) : Option Nat :=
  s.findPend (fun e => e.kind == .acquire && e.source == .slot n)

/-- The CANCEL entry that waits for a claim (R143, R144). -/
def State.cancelOf (s : State) (origin : Nat) : Option Nat :=
  s.findPend (fun e => e.kind == .cancel && e.origin == some origin)

/-- The number of pending entries. -/
def State.pendCount (s : State) : Nat := (s.req.pend.filter (fun e => e.isSome)).length

/-- The places held by trigger slots (R134). -/
def State.slotPlaces (s : State) : Nat := (s.slots.filter (fun x => x.heldPlace)).length

/-- The places reserved (R133). -/
def State.reserved (s : State) : Nat := s.pendCount + s.req.cmp.length + s.slotPlaces

/-- The WITHDRAWs held on slots' claim entries (R145). -/
def State.heldWithdraws (s : State) : Nat :=
  (s.req.pend.filter (fun e => e.any PendEntry.heldWithdraw)).length

/-- The outgoing places left to the dispatcher, a slot issue or a new WITHDRAW: a held WITHDRAW takes a
place before them (R145). -/
def State.outgoingFree (s : State) : Nat :=
  Config.outgoingDepth - s.req.outgoing.length - s.heldWithdraws

/-- A frame is placed on the outgoing list (R136). -/
def addOutgoing (f : OutFrame) (s : State) : State :=
  s.withReq { s.req with outgoing := s.req.outgoing ++ [f] }

/-- The frames with a property leave the outgoing list (R136). -/
def removeOutgoing (p : OutFrame → Bool) (s : State) : State :=
  s.withReq { s.req with outgoing := s.req.outgoing.filter (fun f => !p f) }

/-- The frame of an entry that is on the outgoing list is a CLAIM. -/
def OutFrame.isClaim (f : OutFrame) : Bool :=
  match f.frame with
  | .claim _ _ _ => true
  | _ => false

/-- The frame of an entry that is on the outgoing list is a WITHDRAW. -/
def OutFrame.isWithdraw (f : OutFrame) : Bool :=
  match f.frame with
  | .withdraw _ => true
  | _ => false

/-- The frame of an entry that is on the outgoing list is a SIGNAL. -/
def OutFrame.isSignal (f : OutFrame) : Bool :=
  match f.frame with
  | .signal _ _ => true
  | _ => false

/-! ## When a command acts -/

/-- A command acts on a part that has supply; a part without it does nothing (log 23). -/
def live (f : State → State) (s : State) : Result := .next (if s.powered then f s else s)

/-- The port answers transactions (R178, R184). -/
def State.portAnswers (s : State) : Bool := s.powered && decide (s.port.state = .answering)

/-- The port takes the next data byte: it answers, and the rest of the transaction is not to be ignored. -/
def State.portOpen (s : State) : Bool := s.portAnswers && decide (s.port.txn ≠ .ignored)

end Sys2Proof.Machine
end

