-- ==== Sys2Proof/Machine/CheckEngine.lean ====
section
/-! DEFINITION. The check engine of chapter 6, the entry encoding of section 12.6, and the two digests. -/

namespace Sys2Proof.Machine

/-- The generator polynomial of R105. -/
def polynomial : Word := 0x1EDC6F41

/-- One data bit of the check engine (R105). -/
def checkBit (r : Word) (b : Bool) : Word :=
  if b == r.msb then r <<< 1 else (r <<< 1) ^^^ polynomial

/-- The bits of a byte from the most significant to the least significant. -/
def byteBits (b : Byte) : List Bool :=
  [b.getLsbD 7, b.getLsbD 6, b.getLsbD 5, b.getLsbD 4, b.getLsbD 3, b.getLsbD 2, b.getLsbD 1, b.getLsbD 0]

/-- One byte of the check engine. -/
def checkByte (r : Word) (b : Byte) : Word := (byteBits b).foldl checkBit r

/-- The check value of a sequence of bytes (R105). -/
def checkValue (bs : List Byte) : Word := ~~~(bs.foldl checkByte (BitVec.allOnes 32))

/-- The bytes of a holder record in an entry encoding. -/
def holderBytes (h : Holder) : List Byte := [nibbles h.station.toNat h.units]

/-- The bytes of a waiter record in an entry encoding. -/
def waiterBytes (w : Waiter) : List Byte :=
  [nibbles w.station.toNat w.units, nibbles w.list.length w.position] ++ w.list.map byteOf

/-- The entry encoding (section 12.6): kind, counts, holders in grant order, waiters in queue order. -/
def encodeEntry (kind : TokenKind) (holders : List Holder) (waiters : List Waiter) : List Byte :=
  [kind.byte, nibbles holders.length waiters.length] ++ holders.flatMap holderBytes ++
    waiters.flatMap waiterBytes

def Entry.encode (e : Entry) : List Byte := encodeEntry e.kind e.holders e.waiters

/-- The table digest of a table (R106). -/
def digestOf (t : List Entry) : Word := checkValue (t.flatMap Entry.encode)

/-- The table digest as the Digest Unit keeps it, and TABLE_DIGEST shows it: of the replica in ACTIVE
and LEAVING, 0 in every other state (R106). -/
def State.tableDigest (s : State) : Word :=
  if s.member.state.hasTable then digestOf s.table else 0

/-- The configuration digest of the fields (R107): N, then the TOKEN_KIND of each index below N. -/
def configDigest (n : Nat) (f : ConfigFields) : Word := checkValue (byteOf n :: f.kinds.take n)

end Sys2Proof.Machine
end

