-- ==== Sys2Proof/Machine/Frames.lean ====
section
/-! DEFINITION. Frames: their payloads and check value as a station builds them (R3 to R5, section 12.6),
the receive check with the bit at which a failure is detected (R8, R9), and headers for the header log. -/

namespace Sys2Proof.Machine

/-! ## Building a frame -/

/-- The kind code of a frame (the table of R3). -/
def Frame.kindCode : Frame → Nat
  | .evict _ _ => 1 | .release _ _ => 2 | .withdraw _ => 3 | .claim _ _ _ => 4 | .signal _ _ => 5
  | .snapreq _ _ => 6 | .snap _ _ _ _ _ => 7 | .digest _ => 8 | .presence _ _ => 9

/-- The class code of a kind code, or none where the code names no kind (the table of R3). -/
def classOfKind (code : Nat) : Option Nat :=
  [none, some 0, some 1, some 2, some 3, some 4, some 5, some 5, some 6, some 7].getD code none

/-- The class code of a frame (R3). -/
def Frame.classCode (f : Frame) : Nat := (classOfKind f.kindCode).getD 0

/-- The contention field: class code × 16 + address (R3). -/
def contentionOf (cls : Nat) (a : Addr) : BitVec 7 := BitVec.ofNat 7 (cls * 16 + a.toNat)

/-- Codes of the modes, causes and states a payload carries (section 12.6). -/
def ClaimMode.code : ClaimMode → Nat
  | .wait => 0
  | .tryNow => 1

def ReleaseCause.code : ReleaseCause → Nat
  | .host => 0
  | .expired => 1

def EvictCause.code : EvictCause → Nat
  | .dropout => 0
  | .self => 1

def PresenceState.code : PresenceState → Nat
  | .listening => 1
  | .joining => 2
  | .active => 3

/-- The payload bytes of a frame (section 12.6). -/
def Frame.payload : Frame → List Byte
  | .evict t c => [byteOf t.toNat, byteOf c.code]
  | .release c l => nibbles c.code l.length :: l.map byteOf
  | .withdraw o => [byteOf o]
  | .claim m u l => nibbles m.code l.length :: byteOf u :: l.map byteOf
  | .signal mask code => bytes16 mask ++ [byteOf code.toNat]
  | .snapreq d i => [byteOf d.toNat, byteOf i]
  | .snap j i k hs ws => byteOf j.toNat :: byteOf i :: encodeEntry k hs ws
  | .digest d => bytes32 d
  | .presence st d => byteOf st.code :: bytes32 d

/-- The three header bytes that the check value covers (section 12.6). -/
def headerBytes (contention : BitVec 7) (kind : BitVec 4) (length : Byte) : List Byte :=
  [contention.setWidth 8, nibbles kind.toNat 0, length]

/-- The check field over contention, kind, length and payload (R5). -/
def frameCheck (contention : BitVec 7) (kind : BitVec 4) (length : Byte) (payload : List Byte) : Word :=
  checkValue (headerBytes contention kind length ++ payload)

/-- A frame as its sender puts it on the line (R3 to R5). -/
def Frame.toRaw (sender : Addr) (f : Frame) : RawFrame :=
  let contention := contentionOf f.classCode sender
  let kind := BitVec.ofNat 4 f.kindCode
  let length := byteOf f.payload.length
  ⟨contention, kind, length, f.payload, frameCheck contention kind length f.payload⟩

/-- The bits of a field, most significant first. -/
def fieldBits {w : Nat} (x : BitVec w) : List Bool := (List.range w).map x.getMsbD

/-- The levels of a frame bit time by bit time, dominant false (R2, section 12.6): the start bit, the fields in
their order, and the objection window, which the sender leaves recessive. -/
def levelsOf (f : RawFrame) : List Bool :=
  [false] ++ fieldBits f.contention ++ fieldBits f.kind ++ fieldBits f.length ++
    f.payload.flatMap fieldBits ++ fieldBits f.check ++ [true, true]

/-! ## The fields of a frame as sampled -/

/-- The sender: the lower four bits of the contention field (R3). -/
def senderOf (f : RawFrame) : Addr := f.contention.setWidth 4

/-- The class code: the upper three bits of the contention field (R3). -/
def classFieldOf (f : RawFrame) : Nat := f.contention.toNat / 16

/-- The payload bytes of a frame as sampled, as many as its length field gives. -/
def payloadOf (f : RawFrame) : List Byte :=
  (f.payload ++ List.replicate f.length.toNat 0).take f.length.toNat

/-! ## The receive check (R8) -/

/-- A failure of the receive check: the number of bits sampled after the start bit when it is detected,
and whether the length field is its cause (R8, R9). -/
structure Failure where
  bits : Nat
  lengthCause : Bool
deriving DecidableEq, Repr

/-- A condition that the receive check asks for at a bit. -/
def need (ok : Bool) (bits : Nat) : Except Failure Unit := if ok then .ok () else .error ⟨bits, false⟩

/-- A condition on the length field, asked for at a bit. -/
def needLength (ok : Bool) (bits : Nat) : Except Failure Unit :=
  if ok then .ok () else .error ⟨bits, true⟩

/-- Bits sampled after the start bit when the contention, kind and length fields have ended. -/
def contentionEnd : Nat := 7
def kindEnd : Nat := 11
def lengthEnd : Nat := 19

/-- Bits sampled after the start bit when `n` payload bits have been. -/
def payloadBit (n : Nat) : Nat := lengthEnd + n

/-- A list of tokens: each below N, strictly ascending, EXCLUSIVE when the list has more than one, and
of capacity no less than the units (R8). Each is checked at the end of its byte. -/
def checkTokens (t : List Entry) (multi : Bool) (units : Nat) :
    List Byte → Option Nat → Nat → Except Failure (List Nat)
  | [], _, _ => .ok []
  | b :: rest, last, bits => do
    let k := (entryAt t b.toNat).kind
    let up := match last with
      | none => true
      | some p => decide (p < b.toNat)
    need (decide (b.toNat < t.length) && up && (!multi || k.isExclusive) && decide (units ≤ k.capacity))
      (bits + 8)
    let l ← checkTokens t multi units rest (some b.toNat) (bits + 8)
    pure (b.toNat :: l)

/-- The holder records of a SNAP entry: no station twice, no units above a pool's capacity (R8). Counts that
cannot fit the length are found where the payload runs out (log 8). -/
def scanHolders (kind : TokenKind) : Nat → List Byte → Nat → List Addr → Nat →
    Except Failure (List Holder × List Byte × Nat × List Addr)
  | 0, bs, bits, seen, _ => .ok ([], bs, bits, seen)
  | _ + 1, [], bits, _, _ => .error ⟨bits, true⟩
  | n + 1, b :: bs, bits, seen, held => do
    let a : Addr := BitVec.ofNat 4 (hiNibble b)
    need (!seen.contains a) (bits + 4)
    need (kind.isExclusive || decide (held + loNibble b ≤ kind.capacity)) (bits + 8)
    let r ← scanHolders kind n bs (bits + 8) (a :: seen) (held + loNibble b)
    pure (⟨a, loNibble b⟩ :: r.1, r.2)

/-- The waiter records of a SNAP entry: no station twice, lists by the list rules, positions below the
list length; the last record's list length settles the length of the frame (R8, R4), and counts that cannot fit
it are found where the payload runs out (log 8). -/
def scanWaiters (t : List Entry) : Nat → List Byte → Nat → List Addr → Except Failure (List Waiter)
  | 0, _, _, _ => .ok []
  | n + 1, a :: b :: bs, bits, seen => do
    let st : Addr := BitVec.ofNat 4 (hiNibble a)
    need (!seen.contains st) (bits + 4)
    need (decide (1 ≤ hiNibble b) && decide (hiNibble b ≤ 4)) (bits + 12)
    needLength (if n = 0 then bs.length == hiNibble b else decide (hiNibble b ≤ bs.length)) (bits + 12)
    need (decide (loNibble b < hiNibble b)) (bits + 16)
    let l ← checkTokens t (decide (1 < hiNibble b)) 0 (bs.take (hiNibble b)) none (bits + 16)
    let r ← scanWaiters t n (bs.drop (hiNibble b)) (bits + 16 + 8 * hiNibble b) (st :: seen)
    pure (⟨st, loNibble a, l, loNibble b⟩ :: r)
  | _ + 1, [a], bits, seen => do
    need (!seen.contains (BitVec.ofNat 4 (hiNibble a))) (bits + 4)
    .error ⟨bits + 8, true⟩
  | _ + 1, [], bits, _ => .error ⟨bits, true⟩

/-- The payload of a SNAP (R4, R8). -/
def checkSnap (t : List Entry) (p : List Byte) : Except Failure Frame := do
  needLength (decide (4 ≤ p.length)) lengthEnd
  let j := p.getD 0 0
  let i := p.getD 1 0
  let k := p.getD 2 0
  let c := p.getD 3 0
  need (hiNibble j == 0) (payloadBit 8)
  need (decide (i.toNat < t.length)) (payloadBit 16)
  let kind := (entryAt t i.toNat).kind
  need (k == kind.byte) (payloadBit 24)
  need (decide (hiNibble c ≤ if kind.isExclusive then 1 else 8)) (payloadBit 28)
  needLength (loNibble c != 0 || p.length == 4 + hiNibble c) (payloadBit 32)
  let h ← scanHolders kind (hiNibble c) (p.drop 4) (payloadBit 32) [] 0
  let ws ← scanWaiters t (loNibble c) h.2.1 h.2.2.1 h.2.2.2
  pure (.snap (j.setWidth 4) i.toNat kind h.1 ws)

/-- The payload of a RELEASE (R4, R8). -/
def checkRelease (t : List Entry) (p : List Byte) : Except Failure Frame := do
  needLength (!p.isEmpty) lengthEnd
  let b := p.getD 0 0
  need (decide (hiNibble b ≤ 1)) (payloadBit 4)
  need (decide (1 ≤ loNibble b) && decide (loNibble b ≤ 4)) (payloadBit 8)
  needLength (p.length == 1 + loNibble b) (payloadBit 8)
  let l ← checkTokens t (decide (1 < loNibble b)) 0 (p.drop 1) none (payloadBit 8)
  pure (.release (if hiNibble b = 0 then .host else .expired) l)

/-- The payload of a CLAIM (R4, R8, R51). -/
def checkClaim (t : List Entry) (p : List Byte) : Except Failure Frame := do
  needLength (!p.isEmpty) lengthEnd
  let b := p.getD 0 0
  let u := (p.getD 1 0).toNat
  need (decide (hiNibble b ≤ 1)) (payloadBit 4)
  need (decide (1 ≤ loNibble b) && decide (loNibble b ≤ 4)) (payloadBit 8)
  need (hiNibble b == 0 || loNibble b == 1) (payloadBit 8)
  needLength (p.length == 2 + loNibble b) (payloadBit 8)
  need (decide (1 ≤ u)) (payloadBit 16)
  let l ← checkTokens t (decide (1 < loNibble b)) u (p.drop 2) none (payloadBit 16)
  pure (.claim (if hiNibble b = 0 then .wait else .tryNow) u l)

/-- The payload of a frame of a kind, checked field by field (R4, R8). -/
def checkPayload (t : List Entry) (code : Nat) (p : List Byte) : Except Failure Frame :=
  let b := p.getD 0 0
  if code = 1 then do
    needLength (p.length == 2) lengthEnd
    need (hiNibble b == 0) (payloadBit 8)
    need (decide ((p.getD 1 0).toNat ≤ 1)) (payloadBit 16)
    pure (.evict (b.setWidth 4) (if p.getD 1 0 = 0 then .dropout else .self))
  else if code = 2 then checkRelease t p
  else if code = 3 then do
    needLength (p.length == 1) lengthEnd
    need (decide (b.toNat < t.length)) (payloadBit 8)
    pure (.withdraw b.toNat)
  else if code = 4 then checkClaim t p
  else if code = 5 then do
    needLength (p.length == 3) lengthEnd
    need (decide ((p.getD 2 0).toNat ≤ 7)) (payloadBit 24)
    pure (.signal (half b (p.getD 1 0)) ((p.getD 2 0).setWidth 3))
  else if code = 6 then do
    needLength (p.length == 2) lengthEnd
    need (hiNibble b == 0) (payloadBit 8)
    need (decide ((p.getD 1 0).toNat < t.length)) (payloadBit 16)
    pure (.snapreq (b.setWidth 4) (p.getD 1 0).toNat)
  else if code = 7 then checkSnap t p
  else if code = 8 then do
    needLength (p.length == 4) lengthEnd
    pure (.digest (word b (p.getD 1 0) (p.getD 2 0) (p.getD 3 0)))
  else do
    needLength (p.length == 5) lengthEnd
    need (decide (1 ≤ b.toNat) && decide (b.toNat ≤ 3)) (payloadBit 8)
    pure (.presence (if b = 1 then .listening else if b = 2 then .joining else .active)
      (word (p.getD 1 0) (p.getD 2 0) (p.getD 3 0) (p.getD 4 0)))

/-- The receive check of a whole frame at the station `self` with the table `t` (R8): the frame's
content, or its first failure. -/
def receiveCheck (t : List Entry) (self : Addr) (f : RawFrame) : Except Failure Frame := do
  need (senderOf f != self) contentionEnd
  need (classOfKind f.kind.toNat == some (classFieldOf f)) kindEnd
  needLength (decide (f.length.toNat ≤ Config.maxPayload)) lengthEnd
  let c ← checkPayload t f.kind.toNat (payloadOf f)
  need (f.check == frameCheck f.contention f.kind f.length (payloadOf f))
    (payloadBit (8 * f.length.toNat) + 32)
  pure c

/-- A bit error as a failure; its cause is the length field when it falls in that (R9). -/
def bitErrorFailure (k : Nat) : Failure := ⟨k, decide (kindEnd < k ∧ k ≤ lengthEnd)⟩

/-- The failure a station finds in a frame, from the receive check and from a bit whose three samples
disagree, whichever comes first (R8). Of two failures at the same bit the manual does not say which one
settles how the window is reckoned (R9): the bit error counts before one that the receive check finds, and in
the receive check a field out of range counts before a disagreeing length (log 35). -/
def failureOf (t : List Entry) (self : Addr) (f : RawFrame) (bitErrorAt : Option Nat) : Option Failure :=
  let found := match receiveCheck t self f with
    | .ok _ => none
    | .error e => some e
  match bitErrorAt, found with
  | none, r => r
  | some k, none => some (bitErrorFailure k)
  | some k, some e => if k ≤ e.bits then some (bitErrorFailure k) else some e

/-- The bit times of the frame as a station that objects to it, or gives up sending it, reckons it (R9): the
longest frame when the failure came before the whole length field, or from it. -/
def reckonedBits (f : RawFrame) (e : Failure) : Nat :=
  if e.bits < lengthEnd || e.lengthCause then Config.longestFrame
  else Config.frameOverhead + 8 * f.length.toNat

/-- The bit times such a station drives dominant, the start bit being bit time 0 (R9): from the one after the
failure to the end of the objection window. A failure at the end of the check field gives the two bits of the
window. -/
def objectionSpan (f : RawFrame) (e : Failure) : Nat × Nat := (e.bits + 1, reckonedBits f e - 1)

/-! ## Headers for the header log (R174) -/

/-- The bits of a field that a station had sampled when `reached` bits of the frame had been; the field
begins after `start` bits, most significant first, and the bits not reached read 0. -/
def reachedField {w : Nat} (reached start : Nat) (x : BitVec w) : BitVec w :=
  x &&& (BitVec.allOnes w <<< (w - (reached - start)))

/-- The header of a frame as received, as far as `reached` bits (R9, R174). -/
def headerReceived (reached : Nat) (f : RawFrame) : Header where
  origin := .received
  contention := reachedField reached 0 f.contention
  kind := reachedField reached contentionEnd f.kind
  length := reachedField reached kindEnd f.length
  payload := (List.range 8).map
    (fun i => reachedField reached (payloadBit (8 * i)) ((payloadOf f).getD i 0))

/-- The header of a whole frame as received (R174). -/
def headerWhole (f : RawFrame) : Header := headerReceived (payloadBit (8 * f.length.toNat) + 32) f

/-- The header of a frame as sent (R174). -/
def headerSent (sender : Addr) (f : Frame) : Header :=
  let r := f.toRaw sender
  ⟨.sent, r.contention, r.kind, r.length, (List.range 8).map (fun i => r.payload.getD i 0)⟩

/-! ## Contention (R6, R7) -/

/-- One contention bit after another: the line is dominant (false) when any station still sending drives
it so; a station that drives recessive and samples dominant is out, and so is each rival (R6, R7).
The answer is whether this station is still sending at the end of the field. -/
def contend : List Bool → List (List Bool) → Bool
  | [], _ => true
  | b :: own, rivals =>
    let line := b && rivals.all (fun r => r.headD true)
    if b && !line then false
    else contend own ((rivals.filter (fun r => r.headD true == line)).map List.tail)

/-- The levels that this station drives in the contention field: all of them, or those up to the bit at which
it loses, in which it still drove recessive (R6). -/
def contentionLevels : List Bool → List (List Bool) → List Bool
  | [], _ => []
  | b :: own, rivals =>
    let line := b && rivals.all (fun r => r.headD true)
    if b && !line then [b]
    else b :: contentionLevels own ((rivals.filter (fun r => r.headD true == line)).map List.tail)

/-- The levels of the start bit and of the contention field as far as this station drives them (R6). -/
def levelsBegun (own : BitVec 7) (rivals : List (BitVec 7)) : List Bool :=
  false :: contentionLevels (fieldBits own) (rivals.map fieldBits)

/-- A station that starts at the same boundary as these rivals wins the contention (R7). -/
def wins (own : BitVec 7) (rivals : List (BitVec 7)) : Bool :=
  contend (fieldBits own) (rivals.map fieldBits)

end Sys2Proof.Machine
end

