-- ==== Sys2Proof/Machine/Flags.lean ====
section
/-! DEFINITION. The Event Unit and the Error Log: setting events, IRQn and WAKE, logging errors (chapters
10 and 11). -/

namespace Sys2Proof.Machine

/-- The bit of an event in EVENT, IRQ_EN and WAKE_EN (section 12.5). -/
def Event.bit : Event → Nat
  | .cmpReady => 0 | .leaseWarn => 1 | .leaseExpired => 2 | .signal => 3 | .membership => 4
  | .peer => 5 | .slot => 6 | .error => 7 | .reqDropped => 8

/-- The value with the event's bit set. -/
def Event.mask (e : Event) : Half := BitVec.ofNat 16 (2 ^ e.bit)

/-- The bits of the nine events. -/
def eventMask : Half := 0x01FF

/-- The bits of the eight latched events. -/
def latchedMask : Half := 0x01FE

/-- A latched event is set by its cause (R168). -/
def setEvent (e : Event) (s : State) : State :=
  s.withEvents { s.events with latched := s.events.latched ||| e.mask }

/-- A latched event is set when a condition holds. -/
def setEventIf (c : Bool) (e : Event) (s : State) : State := if c then setEvent e s else s

/-- CMP_READY: the completion FIFO holds at least one record (R169). -/
def State.cmpReady (s : State) : Bool := !s.req.cmp.isEmpty

/-- The EVENT register: the latched events and the level CMP_READY (R169). -/
def State.eventWord (s : State) : Half :=
  (s.events.latched &&& latchedMask) ||| (if s.cmpReady then Event.cmpReady.mask else 0)

/-- IRQn is asserted: an event is set whose interrupt enable is 1 (R170). It is deasserted during a warm
reset, in which the port does not answer. -/
def State.irqAsserted (s : State) : Bool := s.portAnswers && (s.eventWord &&& s.events.irqEn != 0)

/-- WAKE is asserted: an event is set whose wake enable is 1, or any event with WAKE_ANY (R170). It is
deasserted during a warm reset. -/
def State.wakeAsserted (s : State) : Bool :=
  s.portAnswers && ((s.eventWord &&& s.events.wakeEn != 0) || (s.events.wakeAny && s.eventWord != 0))

/-! ## The Error Log -/

/-- The bit of an error kind in ERR_STATUS and ERR_MASK (section 12.5). -/
def ErrKind.bit : ErrKind → Nat
  | .rxCheck => 0 | .txVoided => 1 | .peerConfig => 2 | .digestDisagree => 3 | .donorLost => 4
  | .earlyRenew => 5 | .rxLimit => 6 | .txLimit => 7 | .configConflict => 8 | .divergence => 9
  | .joinFailed => 10 | .evicted => 11

/-- The value with the kind's bit set. -/
def ErrKind.mask (k : ErrKind) : Half := BitVec.ofNat 16 (2 ^ k.bit)

/-- The bits of the twelve kinds. -/
def errorMask : Half := 0x0FFF

/-- A kind is masked (R173). -/
def State.masked (s : State) (k : ErrKind) : Bool := s.errors.mask &&& k.mask != 0

/-- A kind is logged (R173, R174): its flag is set; if it is unmasked the ERROR event is set, and the
first-error pointer and header log are captured when the pointer holds NONE. Passing the kind on to the
Membership Controller is `raise`. -/
def logError (k : ErrKind) (h : Header) (s : State) : State :=
  let s1 := s.withErrors { s.errors with status := s.errors.status ||| k.mask }
  if s.masked k then s1
  else
    let s2 := setEvent .error s1
    if s.errors.first.isNone then s2.withErrors { s2.errors with first := some k, header := h } else s2

end Sys2Proof.Machine
end

