-- ==== Sys2Proof/Machine/Slots.lean ====
section
/-! DEFINITION. The Slot Unit's own records (chapter 9): slot events, triggers, returns, the GNT outputs and
what the slot registers show. Slots act on claims and leases in Machine/Requests.lean and
Machine/SlotCommands.lean. -/

namespace Sys2Proof.Machine

/-- The slot exists in the part's grade (section 1.3 of the introduction). -/
def State.slotExists (s : State) (n : BitVec 2) : Bool := decide (n.toNat < s.grade.slots)

/-- Slot n. -/
def State.slotAt (s : State) (n : BitVec 2) : Slot := s.slots.getD n.toNat (Slot.initial false)

/-- Slot n changes. -/
def modifySlot (n : BitVec 2) (f : Slot → Slot) (s : State) : State :=
  s.withSlots (s.slots.modify n.toNat f)

/-- The trigger flag: set exactly while the slot is TRIGGERED (R155). -/
def Slot.triggerFlag (x : Slot) : Bool := decide (x.state = .triggered)

/-- ENABLE as read: 1 in any state but DISABLED while no stop is pending (R152). -/
def Slot.enableRead (x : Slot) : Bool := decide (x.state ≠ .disabled) && !x.stop

/-- A SLOT event with its cause, which the slot keeps as its last cause (R152). -/
def slotEvent (n : BitVec 2) (c : SlotCause) (s : State) : State :=
  setEvent .slot (modifySlot n (fun x => { x with cause := c }) s)

/-- A trigger event at slot n (R155). -/
def slotTrigger (n : BitVec 2) (s : State) : State :=
  match (s.slotAt n).state with
  | .disabled => s
  | .armed => modifySlot n (fun x => { x with state := .triggered }) s
  | .triggered | .claiming | .withdrawing | .held | .releasing =>
    slotEvent n .missed (modifySlot n (fun x => { x with missed := true }) s)

/-- A slot returns (R162): it gives up its held place and goes to ARMED in FOLLOW mode with no stop, and
to DISABLED otherwise. -/
def Slot.returned (x : Slot) : Slot :=
  { x with heldPlace := false, gnt := false, stop := false,
           state := if x.mode = .follow ∧ x.stop = false then .armed else .disabled }

/-- Slot n returns; after an expiry the SLOT event has last cause EXPIRED (R162). -/
def slotReturn (n : BitVec 2) (expired : Bool) (s : State) : State :=
  let s1 := modifySlot n Slot.returned s
  if expired then slotEvent n .expired s1 else s1

/-- The four slot numbers. -/
def slotNumbers : List (BitVec 2) := [0, 1, 2, 3]

/-- The slot numbers of the part's grade. -/
def State.slotList (s : State) : List (BitVec 2) := slotNumbers.filter (fun n => s.slotExists n)

/-- Every slot of source SIGNAL with this code takes a trigger event (R166). Source code 3 is SIGNAL. -/
def triggerSignal (code : BitVec 3) (s : State) : State :=
  s.slotList.foldl
    (fun t n => if (t.slotAt n).source = 3 ∧ (t.slotAt n).code = code then slotTrigger n t else t) s

/-- Every slot of source ACTIVATION takes a trigger event (R77, R154). Source code 4 is ACTIVATION. -/
def triggerActivation (s : State) : State :=
  s.slotList.foldl (fun t n => if (t.slotAt n).source = 4 then slotTrigger n t else t) s

/-- The tokens of a slot's claim list. -/
def SlotSpec.tokens (p : SlotSpec) : List Nat :=
  ([p.t0, p.t1, p.t2, p.t3].take p.listLen.toNat).map BitVec.toNat

/-- The purge's third step at a slot (R85, R164): a slot whose claim is in progress goes to ARMED. -/
def Slot.purged (x : Slot) : Slot :=
  match x.state with
  | .disabled | .armed | .triggered => { x with gnt := false }
  | .claiming | .withdrawing | .held | .releasing =>
    { x with state := .armed, stop := false, heldPlace := false, gnt := false, cause := .aborted }

/-- A slot whose claim the purge aborts. -/
def Slot.inProgress (x : Slot) : Bool :=
  match x.state with
  | .disabled | .armed | .triggered => false
  | .claiming | .withdrawing | .held | .releasing => true

end Sys2Proof.Machine
end

