-- ==== Sys2Proof/Machine/Leases.lean ====
section
/-! DEFINITION. The Lease Unit (chapter 7): records, counting, warning and expiry, renewal, release, and
removal. -/

namespace Sys2Proof.Machine

/-- A record names a token. -/
def Lease.names (l : Lease) (k : Nat) : Bool := l.tokens.contains k

/-- The first token of a record (R118). -/
def Lease.first (l : Lease) : Nat := l.tokens.headD 0

/-- RELEASE_PENDING or EXPIRED_PENDING. -/
def Lease.pending (l : Lease) : Bool := l.state == .releasePending || l.state == .expiredPending

/-- A record that counts: class 1 to 3, RUNNING or WARNED (R120). -/
def Lease.counts (l : Lease) : Bool := l.cls != 0 && !l.pending

/-- The record that names a token. -/
def State.leaseOf (s : State) (k : Nat) : Option Lease := s.leases.find? (fun l => l.names k)

/-- The record of a slot. -/
def State.leaseOfSlot (s : State) (n : BitVec 2) : Option Lease :=
  s.leases.find? (fun l => l.source == .slot n)

/-- The records with a property change. -/
def modifyLeases (p : Lease → Bool) (f : Lease → Lease) (s : State) : State :=
  s.withLeases (s.leases.map (fun l => if p l then f l else l))

/-- Records are kept in the order of their first tokens. -/
def insertLease (l : Lease) : List Lease → List Lease
  | [] => [l]
  | x :: rest => if l.first < x.first then l :: x :: rest else x :: insertLease l rest

/-- The Slot Unit is told of the expiry of its record: a HELD slot lowers GNTn and becomes RELEASING, its
place stays held (R163). -/
def slotExpiry (n : BitVec 2) (s : State) : State :=
  modifySlot n
    (fun x => if x.state = .held then { x with state := .releasing, gnt := false } else x) s

/-- The source of a record is told of its expiry, if it is a slot. -/
def tellExpiry (src : Source) (s : State) : State :=
  match src with
  | .host => s
  | .slot n => slotExpiry n s

/-- The record that names token k expires (R121, R124). -/
def expireLease (k : Nat) (s : State) : State :=
  match s.leaseOf k with
  | none => s
  | some l =>
    tellExpiry l.source (setEvent .leaseExpired
      (modifyLeases (fun x => x.names k) (fun x => { x with state := .expiredPending, counter := 0 }) s))

/-- The tick has brought a record's counter to 0 and the expiry is still to be acted on (log 4). -/
def Lease.overdue (l : Lease) : Bool := l.counts && l.counter == 0

/-- The expiries that a tick has brought about are taken before the Lease Unit looks at its records for
another cause: the tick was taken first (R127, log 4). -/
def settleLeases (s : State) : State :=
  (s.leases.filter Lease.overdue).foldl (fun t l => expireLease l.first t) s

/-- A record becomes RELEASE_PENDING, its counter stopped (R125, R126). -/
def Lease.releasing (l : Lease) : Lease := { l with state := .releasePending }

/-- Counter and state of a record that starts or is renewed at its full length (R119, R123): WARNED where
V equals LEN, RUNNING otherwise. -/
def startState (p : ClassParams) : LeaseState := if p.v = p.len then .warned else .running

/-- A lease record is made when a claim completes (R119). -/
def createLease (tokens : List Nat) (units cls : Nat) (src : Source) (tag : Byte) (s : State) : State :=
  if cls = 0 then s.withLeases (insertLease ⟨tokens, units, 0, 0, .running, src, tag⟩ s.leases)
  else
    let p := s.classParams cls
    setEventIf (startState p == .warned) .leaseWarn
      (s.withLeases (insertLease ⟨tokens, units, cls, p.len.toNat, startState p, src, tag⟩ s.leases))

/-- A tick at one record (R120): a record at 0 is not counted again. -/
def Lease.tick (p : ClassParams) (l : Lease) : Lease :=
  if l.counts && decide (0 < l.counter) then
    { l with counter := l.counter - 1,
             state := if l.state = .running ∧ l.counter - 1 = p.v.toNat ∧ 0 < p.v.toNat then .warned
                      else l.state }
  else l

/-- A record becomes WARNED at this tick (R120). -/
def Lease.warns (p : ClassParams) (l : Lease) : Bool :=
  l.state == .running && (l.tick p).state == .warned

/-- A tick at the Lease Unit (R120): LEASE_WARN once, however many records become WARNED. -/
def tickLeases (s : State) : State :=
  setEventIf (s.leases.any (fun l => l.warns (s.classParams l.cls))) .leaseWarn
    (s.withLeases (s.leases.map (fun l => l.tick (s.classParams l.cls))))

end Sys2Proof.Machine
end

