-- ==== Sys2Proof/Machine/Operands.lean ====
section
/-! DEFINITION. Operands: what the bytes of a request record and of a slot's specification stand for, and
the checks on them that need no other record (R138, R153, section 12.7). -/

namespace Sys2Proof.Machine

/-- The request kind of a kind code, or none where it names no kind (section 12.7). -/
def kindOfCode (code : Byte) : Option ReqKind :=
  [none, some .acquire, some .release, some .renew, some .cancel, some .signal, some .query,
    some .detach, some .join].getD code.toNat none

/-! ## ACQUIRE -/

/-- The operands of an ACQUIRE: mode nibble, list length, units, class, and the tokens of the list. -/
structure AcquireOps where
  mode : Nat
  len : Nat
  units : Nat
  cls : Nat
  tokens : List Nat
deriving DecidableEq, Repr

/-- Byte 2 holds mode and list length, byte 3 units and class, bytes 4 to 7 the tokens; token bytes beyond
the list length are ignored (R186). -/
def Request.acquireOps (r : Request) : AcquireOps where
  mode := hiNibble r.b2
  len := loNibble r.b2
  units := hiNibble r.b3
  cls := loNibble r.b3
  tokens := ([r.b4, r.b5, r.b6, r.b7].take (loNibble r.b2)).map BitVec.toNat

/-- The claim mode of an ACQUIRE's mode nibble. -/
def claimMode (m : Nat) : ClaimMode := if m = 0 then .wait else .tryNow

/-- The form of an ACQUIRE is sound (R138, check 2). -/
def AcquireOps.sound (t : List Entry) (n : Nat) (a : AcquireOps) : Bool :=
  decide (1 ≤ a.len) && decide (a.len ≤ 4) && a.tokens.all (fun k => decide (k < n)) &&
    ascending a.tokens && decide (a.mode ≤ 1) && decide (a.cls ≤ 3) && decide (1 ≤ a.units) &&
    (a.len == 1 ||
      (a.mode == 0 && a.units == 1 && a.tokens.all (fun k => (entryAt t k).kind.isExclusive)))

/-! ## RELEASE and RENEW -/

/-- What a RELEASE or a RENEW names (R140). -/
inductive ReleaseTarget where
  | token (k : Nat)
  | slot (n : BitVec 2)
deriving DecidableEq, Repr

/-- The form byte and the token or slot (R140, check 2): none where the form is BAD_REQUEST. -/
def Request.releaseTarget (slots : Nat) (r : Request) : Option ReleaseTarget :=
  if r.b2 = 0 then some (.token r.b3.toNat)
  else if r.b2 = 1 ∧ r.b3.toNat < slots then some (.slot (r.b3.setWidth 2))
  else none

/-! ## Slot specifications -/

/-- SOURCE codes (section 12.7): the two pin sources. -/
def pinFall : BitVec 3 := 1
def pinRise : BitVec 3 := 2

/-- The check of a slot's specification when ENABLE is set (R153): none when it passes, otherwise the
cause of the first check that fails. -/
def slotCheck (g : Grade) (unconfigured : Bool) (t : List Entry) (x : Slot) : Option SlotCause :=
  let l := x.spec.tokens
  let u := x.spec.units.toNat
  if unconfigured then some .badSpec
  else if x.mode = .follow ∧ x.source ≠ pinFall ∧ x.source ≠ pinRise then some .badMode
  else if decide (1 ≤ x.spec.listLen.toNat) && decide (x.spec.listLen.toNat ≤ 4) &&
      l.all (fun k => decide (k < g.tokens)) && ascending l && decide (1 ≤ u) &&
      l.all (fun k => decide (u ≤ (entryAt t k).kind.capacity)) &&
      (l.length == 1 || (u == 1 && l.all (fun k => (entryAt t k).kind.isExclusive))) &&
      (decide (g = .vg418) || u == 1) && decide (x.spec.cls.toNat ≤ 3) &&
      decide (x.source.toNat ≤ 4) then none
  else some .badSpec

/-- A slot follows edges of its pin: the trigger event of PIN_FALL is a fall, of PIN_RISE a rise (R154). -/
def Slot.triggeredBy (x : Slot) (rise : Bool) : Bool :=
  (x.source == pinFall && !rise) || (x.source == pinRise && rise)

/-- The opposite edge of a pin source, which acts in FOLLOW mode only (R154). -/
def Slot.oppositeTo (x : Slot) (rise : Bool) : Bool :=
  x.mode == .follow && ((x.source == pinFall && rise) || (x.source == pinRise && !rise))

end Sys2Proof.Machine
end

