-- ==== Sys2Proof/Machine/TokenTable.lean ====
section
/-! DEFINITION. The Token Table (chapters 2 and 3): the application of an accepted frame to the entries
below a limit, with its cascades and continuations, and the reports it makes for one station. -/

namespace Sys2Proof.Machine

/-- The reports of R43. A grant carries the full claim list when the claim is now complete. -/
inductive Report where
  | grant (origin token units : Nat) (complete : Option (List Nat))
  | parked (origin token position : Nat)
  | refused (origin : Nat)
  | withdrawn (origin : Nat) (tokens : List Nat)
  | released (tokens : List Nat) (cause : ReleaseCause) (lost : List Nat)
  | evicted (cause : EvictCause)
deriving DecidableEq, Repr

/-- The application of one frame in progress: the table, the limit below which entries are changed (N, or
the cursor in JOINING, R46), the last change the frame gives (R25), the station the reports are for, and
the reports so far in the order of the changes (R44). -/
structure Applying where
  table : List Entry
  limit : Nat
  change : LastChange
  self : Addr
  reports : List Report
deriving DecidableEq, Repr

namespace Applying

/-- The entry of a token. -/
def entry (a : Applying) (k : Nat) : Entry := entryAt a.table k

/-- Entry k is changed by the frame: it takes the frame's last change (R25). -/
def update (a : Applying) (k : Nat) (f : Entry → Entry) : Applying :=
  { a with table := a.table.modify k (fun e => { f e with change := a.change }) }

/-- A report made at the station it concerns (R43). -/
def report (a : Applying) (st : Addr) (r : Report) : Applying :=
  if st = a.self then { a with reports := a.reports ++ [r] } else a

/-- A holder record goes at the end of the holders (R22). -/
def addHolder (a : Applying) (k : Nat) (st : Addr) (u : Nat) : Applying :=
  a.update k (fun e => { e with holders := e.holders ++ [⟨st, u⟩] })

/-- A waiter record joins at the tail of the queue of the token at its position, and is reported parked
(R23, R43). -/
def park (a : Applying) (k : Nat) (w : Waiter) : Applying :=
  (a.update k (fun e => { e with waiters := e.waiters ++ [w] })).report w.station
    (.parked (w.list.headD 0) k w.position)

/-- The set step for station st and list from a position (R32, R41, R55): it takes the free tokens that
follow, parks at the first that is not free, and completes at the end; from the first token at or above
the limit on, nothing is applied (R46, R94). -/
def setStep (a : Applying) (st : Addr) (list : List Nat) : Nat → List Nat → Applying
  | _, [] => a
  | pos, k :: rest =>
    if a.limit ≤ k then a
    else if (a.entry k).holders.isEmpty then
      setStep ((a.addHolder k st 1).report st
        (.grant (list.headD 0) k 1 (if rest.isEmpty then some list else none))) st list (pos + 1) rest
    else a.park k ⟨st, 1, list, pos⟩

/-- The cascade of an EXCLUSIVE entry that lost its holder (R39, R41). -/
def exclusiveCascade (a : Applying) (k : Nat) : Applying :=
  match (a.entry k).waiters with
  | [] => a
  | w :: ws =>
    let rest := w.list.drop (w.position + 1)
    let a1 := a.update k
      (fun e => { e with holders := e.holders ++ [⟨w.station, 1⟩], waiters := ws })
    let a2 := a1.report w.station
      (.grant (w.list.headD 0) k 1 (if rest.isEmpty then some w.list else none))
    a2.setStep w.station w.list (w.position + 1) rest

end Applying

/-- A waiter record is st's record of the claim with origin o (R34). -/
def Waiter.isOf (w : Waiter) (st : Addr) (o : Nat) : Bool :=
  w.station == st && w.list.head? == some o

/-- The grants of a pool cascade (R40): the head waiters while their units fit; the holders, the queue
and the records granted. -/
def poolGrants (capacity : Nat) : List Holder → List Waiter → List Holder × List Waiter × List Waiter
  | hs, [] => (hs, [], [])
  | hs, w :: ws =>
    if w.units + heldUnits hs ≤ capacity then
      let r := poolGrants capacity (hs ++ [⟨w.station, w.units⟩]) ws
      (r.1, r.2.1, w :: r.2.2)
    else (hs, w :: ws, [])

namespace Applying

/-- The pool cascade of an entry (R40). -/
def poolCascade (a : Applying) (k : Nat) : Applying :=
  let e := a.entry k
  let r := poolGrants e.kind.capacity e.holders e.waiters
  r.2.2.foldl
    (fun b w => b.report w.station (.grant (w.list.headD 0) k w.units (some w.list)))
    (a.update k (fun x => { x with holders := r.1, waiters := r.2.1 }))

/-- The cascade of an entry whose holder record was removed, by its kind (R33). -/
def cascade (a : Applying) (k : Nat) : Applying :=
  if (a.entry k).kind.isExclusive then a.exclusiveCascade k else a.poolCascade k

/-- The holder record of st leaves an entry whole, and the entry's cascade runs at once; an entry that st
does not hold is left as it stands (R33, R36). -/
def removeHolder (a : Applying) (st : Addr) (k : Nat) : Applying :=
  if (a.entry k).heldBy st then
    (a.update k (fun e => { e with holders := e.holders.filter (fun h => h.station != st) })).cascade k
  else a

/-- A CLAIM from st (R28 to R32). -/
def claim (a : Applying) (st : Addr) (mode : ClaimMode) (units : Nat) (list : List Nat) : Applying :=
  match list with
  | [k] =>
    if a.limit ≤ k then a
    else if (a.entry k).freeTo units then
      (a.addHolder k st units).report st (.grant k k units (some [k]))
    else
      match mode with
      | .tryNow => a.report st (.refused k)
      | .wait => a.park k ⟨st, units, [k], 0⟩
  | _ => a.setStep st list 0 list

/-- A RELEASE from st (R33): the listed tokens in ascending order, each removal with its cascade; then
the report of the release with the listed tokens that st held. -/
def release (a : Applying) (st : Addr) (cause : ReleaseCause) (list : List Nat) : Applying :=
  let r := list.foldl
    (fun (x : Applying × List Nat) k =>
      if k < x.1.limit && (x.1.entry k).heldBy st then (x.1.removeHolder st k, x.2 ++ [k]) else x)
    (a, [])
  r.1.report st (.released list cause r.2)

/-- The entry below the limit in whose queue st's record with origin o sits (R34). -/
def recordAt (a : Applying) (st : Addr) (o : Nat) : Option Nat :=
  (List.range a.limit).find? (fun k => (a.entry k).waiters.any (fun w => w.isOf st o))

/-- A WITHDRAW from st with origin o (R34, R35): the record, then the holdings of the list before its
position with their cascades, then the pool cascade where a pool's head was removed. -/
def withdraw (a : Applying) (st : Addr) (o : Nat) : Applying :=
  match a.recordAt st o with
  | none => a
  | some k =>
    match (a.entry k).waiters.find? (fun w => w.isOf st o) with
    | none => a
    | some w =>
      let wasHead := (a.entry k).waiters.head? == some w
      let a1 := a.update k (fun e => { e with waiters := e.waiters.eraseP (fun x => x.isOf st o) })
      let freed := w.list.take w.position
      let held := freed.filter (fun t => decide (t < a1.limit) && (a1.entry t).heldBy st)
      let a2 := held.foldl (fun b t => b.removeHolder st t) a1
      let a3 := if wasHead && !(a2.entry k).kind.isExclusive then a2.poolCascade k else a2
      a3.report st (.withdrawn o held)

/-- The eviction pass at one entry (R36). -/
def evictEntry (a : Applying) (target : Addr) (k : Nat) : Applying :=
  let e := a.entry k
  let a1 :=
    if e.waitedBy target then
      let b := a.update k
        (fun x => { x with waiters := x.waiters.eraseP (fun w => w.station == target) })
      if !e.kind.isExclusive && (e.waiters.head?.any (fun w => w.station == target)) then
        b.poolCascade k
      else b
    else a
  a1.removeHolder target k

/-- The eviction pass over the entries below the limit, upward (R36 to R38). -/
def evict (a : Applying) (target : Addr) : Applying :=
  (List.range a.limit).foldl (fun b k => b.evictEntry target k) a

/-- An accepted frame is applied (R27): the frames that change the table, and no other. -/
def apply (a : Applying) (sender : Addr) (f : Frame) : Applying :=
  match f with
  | .claim m u l => a.claim sender m u l
  | .release c l => a.release sender c l
  | .withdraw o => a.withdraw sender o
  | .evict t c => (a.evict t).report t (.evicted c)
  | .presence .listening _ => a.evict sender
  | .presence .joining _ => a
  | .presence .active _ => a
  | .signal _ _ => a
  | .snapreq _ _ => a
  | .snap _ _ _ _ _ => a
  | .digest _ => a

end Applying

/-- The last change a frame gives to every entry it changes (R25). -/
def Frame.lastChange : Frame → LastChange
  | .claim _ _ _ => .claimed
  | .release .host _ => .released
  | .release .expired _ => .forfeited
  | .withdraw _ => .withdrawn
  | .evict _ _ => .evicted
  | .presence _ _ => .evicted
  | .signal _ _ => .none
  | .snapreq _ _ => .none
  | .snap _ _ _ _ _ => .none
  | .digest _ => .none

/-- The table after a frame, and the reports for the station `self` (R27, R43, R46). -/
def applyFrame (t : List Entry) (limit : Nat) (self sender : Addr) (f : Frame) : Applying :=
  Applying.apply ⟨t, limit, f.lastChange, self, []⟩ sender f

/-- A WITHDRAW that a joiner with this cursor cannot resolve (R95): its origin lies below the cursor, no
record of the claim does, and the sender holds the origin. -/
def withdrawUnresolved (t : List Entry) (cursor : Nat) (sender : Addr) (o : Nat) : Bool :=
  decide (o < cursor) && (entryAt t o).heldBy sender &&
    ((List.range cursor).find? (fun k => (entryAt t k).waiters.any (fun w => w.isOf sender o))).isNone

/-- A SNAP's content replaces the entry at the cursor (R46, R93): its last change is NONE. -/
def replaceEntry (t : List Entry) (k : Nat) (kind : TokenKind) (hs : List Holder) (ws : List Waiter) :
    List Entry :=
  t.set k ⟨kind, hs, ws, .none⟩

end Sys2Proof.Machine
end

