-- ==== Sys2Proof/Machine/Claims.lean ====
section
/-! DEFINITION. The Request Unit's claims (chapter 8): how a claim entry ends, how it moves on the Token
Table's reports, how a slot's claim is withdrawn and released, with the lease records and the slots that
follow from it. -/

namespace Sys2Proof.Machine

/-! ## Entries and completions -/

/-- Entry n is removed and its completion queued; the place passes to the completion (R133). -/
def finishEntry (n : Nat) (c : Completion) (s : State) : State := pushCompletion c (setPend n none s)

/-- The CANCEL that waits for a claim completes, if there is one (R143, R144). -/
def finishCancel (origin : Nat) (st : Status) (s : State) : State :=
  match s.cancelOf origin with
  | none => s
  | some m =>
    match s.pendAt m with
    | none => s
    | some c =>
      finishEntry m (.one st c.tag c.source ReqKind.cancel.code (byteOf origin)) s

/-- The WITHDRAW of entry n leaves the outgoing list (R136, R144). -/
def dropWithdraw (n : Nat) (s : State) : State :=
  removeOutgoing (fun f => f.entry == n && f.isWithdraw) s

/-- The claim's CLAIM frame is on the line: its start bit has been driven and it has not ended (R136). -/
def State.claimOnLine (s : State) (n : Nat) : Bool :=
  match s.line.ownFrame with
  | some ⟨.claim _ _ _, some m⟩ => m == n
  | _ => false

/-! ## Releases by a slot -/

/-- The Slot Unit hands a release of slot n's record to the Lease Unit (R126, R159): taken, the held place
becomes a RELEASING entry of the slot, which has no units and no class (R135); too late, the place stays held. The slot is RELEASING with GNTn low in both cases. -/
def slotRelease (n : BitVec 2) (s : State) : State :=
  let go := modifySlot n (fun x => { x with state := .releasing, gnt := false })
  match s.leaseOfSlot n with
  | none => go s
  | some l =>
    if l.pending then go s
    else
      let s1 := modifyLeases (fun x => x.names l.first) Lease.releasing s
      let s2 := addPend
        { tag := (s.slotAt n).spec.tag, source := .slot n, kind := .release, origin := some l.first,
          list := l.tokens, units := 0, cls := 0, phase := .releasing, progress := [],
          heldWithdraw := false } s1
      modifySlot n (fun x => { x with heldPlace := false }) (go s2)

/-- A GRANTED outcome at slot n (R157, R161): HELD with GNTn high from CLAIMING, an immediate release from
WITHDRAWING. -/
def slotGranted (n : BitVec 2) (s : State) : State :=
  match (s.slotAt n).state with
  | .claiming => modifySlot n (fun x => { x with state := .held, gnt := true }) s
  | .withdrawing => slotRelease n s
  | .disabled | .armed | .triggered | .held | .releasing => s

/-- The source of a claim is told that it was granted, if it is a slot. -/
def tellGranted (src : Source) (s : State) : State :=
  match src with
  | .host => s
  | .slot n => slotGranted n s

/-- The source of a claim is told that it was withdrawn, if it is a slot: the slot returns (R162). -/
def tellWithdrawn (src : Source) (s : State) : State :=
  match src with
  | .host => s
  | .slot n => slotReturn n false s

/-! ## The ends of a claim -/

/-- A claim completes GRANTED (R57, R119, R139, R144): the lease record first, then the WITHDRAW leaves the
list, the entry completes, a waiting CANCEL completes TOO_LATE, and a slot is told. -/
def grantClaim (n : Nat) (e : PendEntry) (list : List Nat) (units : Nat) (s : State) : State :=
  let s1 := createLease list units e.cls e.source e.tag s
  let s2 := finishEntry n (.listed .granted e.tag e.source ReqKind.acquire.code list units)
    (dropWithdraw n s1)
  tellGranted e.source (finishCancel (e.origin.getD 0) .tooLate s2)

/-- A claim is refused under TRY (R139, R143). -/
def refuseClaim (n : Nat) (e : PendEntry) (s : State) : State :=
  finishCancel (e.origin.getD 0) .tooLate
    (finishEntry n (.one .unavailable e.tag e.source ReqKind.acquire.code (byteOf (e.origin.getD 0))) s)

/-- A claim completes WITHDRAWN with the tokens released (R139, R144, R145): then its CANCEL DONE, and a
slot is told. -/
def withdrawClaim (n : Nat) (e : PendEntry) (released : List Nat) (s : State) : State :=
  let s1 := finishEntry n (.withdrawn e.tag e.source e.units (e.origin.getD 0) released)
    (dropWithdraw n s)
  tellWithdrawn e.source (finishCancel (e.origin.getD 0) .done s1)

/-- The record of an applied RELEASE is removed (R128): a RELEASE_PENDING record completes the RELEASE
entry that stands for it, and the slot of a slot-bound record returns. -/
def removeLease (tokens : List Nat) (s : State) : State :=
  match s.leases.find? (fun l => l.tokens == tokens) with
  | none => s
  | some l =>
    let s1 := s.withLeases (s.leases.filter (fun x => x.tokens != tokens))
    let s2 :=
      if l.state = .releasePending then
        match s1.findPend (fun e => e.kind == .release && e.list == tokens) with
        | none => s1
        | some m =>
          match s1.pendAt m with
          | none => s1
          | some e =>
            finishEntry m (.listed .released e.tag e.source ReqKind.release.code tokens l.units) s1
      else s1
    match l.source with
    | .host => s2
    | .slot n => slotReturn n (l.state == .expiredPending) s2

/-! ## Reports (R139, R58) -/

/-- A report of the Token Table at the Request, Lease and Slot Units. -/
def takeReport (r : Report) (s : State) : State :=
  match r with
  | .grant origin token units complete =>
    match s.claimOf origin with
    | none => s
    | some n =>
      match s.pendAt n, complete with
      | none, _ => s
      | some e, none => setPend n (some { e with progress := e.progress ++ [token] }) s
      | some e, some list => grantClaim n e list units s
  | .parked origin _ _ =>
    match s.claimOf origin with
    | none => s
    | some n =>
      match s.pendAt n with
      | none => s
      | some e =>
        if e.phase = .outgoing then setPend n (some { e with phase := .waiting }) s else s
  | .refused origin =>
    match s.claimOf origin with
    | none => s
    | some n =>
      match s.pendAt n with
      | none => s
      | some e => refuseClaim n e s
  | .withdrawn origin tokens =>
    match s.claimOf origin with
    | none => s
    | some n =>
      match s.pendAt n with
      | none => s
      | some e => withdrawClaim n e tokens s
  | .released tokens _ _ => removeLease tokens s
  | .evicted _ => s

/-- The reports of one frame, in order (R44). -/
def takeReports (rs : List Report) (s : State) : State := rs.foldl (fun t r => takeReport r t) s

/-! ## The end of an own frame from the outgoing list (R136, R143) -/

/-- The accepted frame of entry n leaves the list; when a CLAIM's claim is WITHDRAWING and has parked, the
WITHDRAW takes its place and age (R143). The SENT completion of a SIGNAL shows the high byte of its mask first
(log 37). -/
def outgoingAccepted (n : Nat) (frame : Frame) (s : State) : State :=
  match frame with
  | .claim _ _ _ =>
    match s.pendAt n with
    | some e =>
      if e.kind = .acquire ∧ e.phase = .withdrawing then
        s.withReq { s.req with
          outgoing := s.req.outgoing.map
            (fun f => if f.entry == n && f.isClaim then ⟨n, .withdraw (e.origin.getD 0)⟩ else f) }
      else removeOutgoing (fun f => f.entry == n && f.isClaim) s
    | none => removeOutgoing (fun f => f.entry == n && f.isClaim) s
  | .withdraw _ => removeOutgoing (fun f => f.entry == n && f.isWithdraw) s
  | .signal mask code =>
    let s1 := removeOutgoing (fun f => f.entry == n && f.isSignal) s
    match s.pendAt n with
    | some e =>
      if e.kind = .signal then
        finishEntry n
          ⟨.sent, e.tag, e.source, BitVec.ofNat 4 ReqKind.signal.code, 0, mask.extractLsb' 8 8,
            mask.extractLsb' 0 8, byteOf code.toNat, 0⟩ s1
      else s1
    | none => s1
  | .evict _ _ | .release _ _ | .snapreq _ _ | .snap _ _ _ _ _ | .digest _ | .presence _ _ => s

/-- The voided frame of entry n stays on the list, but for a CLAIM whose claim is WITHDRAWING: it leaves
the list and the claim completes WITHDRAWN with no tokens (R11, R143, R145). -/
def outgoingVoided (n : Nat) (frame : Frame) (s : State) : State :=
  match frame with
  | .claim _ _ _ =>
    match s.pendAt n with
    | some e =>
      if e.kind = .acquire ∧ e.phase = .withdrawing then
        withdrawClaim n e [] (removeOutgoing (fun f => f.entry == n && f.isClaim) s)
      else s
    | none => s
  | .evict _ _ | .release _ _ | .withdraw _ | .signal _ _ | .snapreq _ _ | .snap _ _ _ _ _
  | .digest _ | .presence _ _ => s

/-! ## Withdrawals asked by a slot (R145, R160) -/

/-- The Slot Unit asks for slot n's claim to be withdrawn. -/
def slotWithdraw (n : BitVec 2) (s : State) : State :=
  match s.claimOfSlot n with
  | none => s
  | some m =>
    match s.pendAt m with
    | none => s
    | some e =>
      let asked := modifySlot n (fun x => { x with state := .withdrawing })
      match e.phase with
      | .outgoing =>
        if s.claimOnLine m then asked (setPend m (some { e with phase := .withdrawing }) s)
        else withdrawClaim m e [] (removeOutgoing (fun f => f.entry == m && f.isClaim) s)
      | .waiting =>
        if 0 < s.outgoingFree then
          asked (addOutgoing ⟨m, .withdraw (e.origin.getD 0)⟩
            (setPend m (some { e with phase := .withdrawing }) s))
        else asked (setPend m (some { e with phase := .withdrawing, heldWithdraw := true }) s)
      | .withdrawing | .releasing | .signalling => s

/-! ## Check 5 of R138 -/

/-- A token is held by this station: named by a lease record, or in the progress of a claim entry. -/
def State.holdsToken (s : State) (k : Nat) : Bool :=
  s.leases.any (fun l => l.names k) ||
    s.req.pend.any (fun e => e.any (fun x => x.kind == .acquire && x.progress.contains k))

/-- A token is named in the claim list of a pending claim entry. -/
def State.claimsToken (s : State) (k : Nat) : Bool :=
  s.req.pend.any (fun e => e.any (fun x => x.kind == .acquire && x.list.contains k))

/-- The first token of a list that gives CONFLICT. -/
def State.conflict (s : State) (list : List Nat) : Option Nat :=
  list.find? (fun k => s.holdsToken k || s.claimsToken k)

end Sys2Proof.Machine
end

