-- ==== Sys2Proof/Machine/Snapshot.lean ====
section
/-! DEFINITION. The Snapshot Engine (chapter 5): the choice of a donor, taking the snapshot, the service
list. The ends of a join are in Machine/Membership.lean. -/

namespace Sys2Proof.Machine

/-- The presence entry of an address. -/
def State.peerAt (s : State) (a : Addr) : Peer := s.member.peers.getD a.toNat Peer.cleared

/-- An eligible donor: a peer shown ACTIVE with MATCH (R89). -/
def State.eligible (s : State) (a : Addr) : Bool :=
  a != s.station && (s.peerAt a).state == .active && (s.peerAt a).config == .matching

/-- The addresses from the one after the reference upward, the reference itself last (R89). -/
def searchOrder (ref : Addr) : List Addr :=
  (List.range 16).map (fun i => ref + 1#4 + BitVec.ofNat 4 i)

/-- The donor that a search from a reference address finds (R89). -/
def State.findDonor (s : State) (ref : Addr) : Option Addr :=
  (searchOrder ref).find? (fun a => s.eligible a)

/-- The reference address: the chosen donor, S15 if none was chosen (R89). -/
def State.donorRef (s : State) : Addr := s.snap.donor.getD 15

/-- The snapshot timer's load, 2 × P (R90). -/
def State.snapLoad (s : State) : Nat := 2 * s.presencePeriod

/-- The engine names a donor and queues its SNAPREQ, the timer stopped (R90, R96). -/
def requestFrom (d : Addr) (s : State) : State :=
  s.withSnap { s.snap with engine := .requesting, donor := some d, timer := none }

/-- A donor is chosen from a reference; with none eligible the engine is SEEKING with its timer loaded
(R90, R91, R96). The station last named stays the chosen donor then, as the reference of the next search (R88,
R89; log 36). -/
def chooseDonor (ref : Addr) (s : State) : State :=
  match s.findDonor ref with
  | some d => requestFrom d s
  | none => s.withSnap { s.snap with engine := .seeking, timer := some s.snapLoad }

/-- This station's SNAPREQ is on the line: its start bit has been driven (R91). -/
def State.snapreqOnLine (s : State) : Bool :=
  match s.line.ownFrame with
  | some ⟨.snapreq _ _, _⟩ => true
  | _ => false

/-- In REQUESTING, with no SNAPREQ on the line, a chosen donor that is not eligible any more is chosen
again (R91, log 19). -/
def watchDonor (s : State) : State :=
  if s.member.state = .joining ∧ s.snap.engine = .requesting ∧ s.snapreqOnLine = false ∧
      s.eligible s.donorRef = false then chooseDonor s.donorRef s
  else s

/-- In SEEKING, a peer that has become eligible is chosen (R90). -/
def seekDonor (s : State) : State :=
  if s.member.state = .joining ∧ s.snap.engine = .seeking then
    match s.findDonor s.donorRef with
    | some d => requestFrom d s
    | none => s
  else s

/-- The snapshot timer runs in SEEKING and RECEIVING (R88). -/
def State.snapTimerRuns (s : State) : Bool :=
  decide (s.member.state = .joining) && (s.snap.engine == .seeking || s.snap.engine == .receiving)

/-- The snapshot timer has run out, and its end is not acted on yet (R96). -/
def State.snapTimerOut (s : State) : Bool := s.snapTimerRuns && s.snap.timer == some 0

/-- The joiner's records outside JOINING (R88, R98): the join failure cause and the service list stay. -/
def idleEngine (s : State) : State :=
  s.withSnap { s.snap with cursor := 0, engine := .idle, donor := none, failures := 0, timer := none }

/-- The joiner takes the SNAP at its cursor (R93). -/
def takeSnap (index : Nat) (kind : TokenKind) (hs : List Holder) (ws : List Waiter) (s : State) : State :=
  (s.withTable (replaceEntry s.table index kind hs ws)).withSnap
    { s.snap with cursor := s.snap.cursor + 1, failures := 0,
                  timer := s.snap.timer.map (fun _ => s.snapLoad) }

/-- The joiner's own SNAPREQ is accepted (R92). -/
def snapreqAccepted (donor : Addr) (s : State) : State :=
  s.withSnap { s.snap with engine := .receiving, donor := some donor, timer := some s.snapLoad }

/-! ## The donor side (R99 to R102) -/

/-- A joiner's record leaves the service list (R102). -/
def serviceRemove (j : Addr) (s : State) : State :=
  s.withSnap { s.snap with service := s.snap.service.filter (fun r => r.1 != j) }

/-- A joiner that names this station is appended, or its next index replaced in place (R99). -/
def serviceAdd (j : Addr) (start : Nat) (s : State) : State :=
  s.withSnap { s.snap with
    service := if s.snap.service.any (fun r => r.1 == j)
      then s.snap.service.map (fun r => if r.1 == j then (j, start) else r)
      else s.snap.service ++ [(j, start)] }

/-- This station's own SNAP for a joiner is accepted (R101). -/
def ownSnapAccepted (j : Addr) (index : Nat) (s : State) : State :=
  if index + 1 = s.n then serviceRemove j s
  else s.withSnap { s.snap with
    service := s.snap.service.map (fun r => if r.1 == j then (j, index + 1) else r) }

/-- What an accepted frame does to the service list (R99, R101, R102), by the state in force at the
acceptance: the own SNAP, SNAPREQs, and the frames that show a joiner finished or gone. -/
def serviceFrame (st : MState) (sender : Addr) (own : Bool) (f : Frame) (s : State) : State :=
  match f with
  | .snap j i _ _ _ => if own then ownSnapAccepted j i s else s
  | .snapreq d i =>
    if own then s
    else if d = s.station then (if st = .active then serviceAdd sender i s else s)
    else serviceRemove sender s
  | .presence .active _ => if own then s else serviceRemove sender s
  | .presence .listening _ => if own then s else serviceRemove sender s
  | .presence .joining _ => s
  | .evict t _ => serviceRemove t s
  | .release _ _ | .withdraw _ | .claim _ _ _ | .signal _ _ | .digest _ => s

end Sys2Proof.Machine
end

