-- ==== Sys2Proof/Machine/Membership.lean ====
section
/-! DEFINITION. The Membership Controller (chapter 4): entering the states, the purge, the moves that fatal
errors make and the holds they wait for, the presence table at an accepted frame, and the decisions on
configuration mismatch, eviction and divergence. -/

namespace Sys2Proof.Machine

/-! ## The presence table -/

/-- A peer's entry changes; the PEER event is set when its state does (R68, R69). -/
def setPeer (a : Addr) (p : Peer) (s : State) : State :=
  setEventIf ((s.peerAt a).state != p.state) .peer
    (s.withMember { s.member with peers := s.member.peers.set a.toNat p })

/-- Every peer entry is cleared; the PEER event is set if one was not ABSENT (R67, R68). -/
def clearPeers (s : State) : State :=
  setEventIf (s.member.peers.any (fun p => p.state != .absent)) .peer
    (s.withMember { s.member with peers := List.replicate 16 Peer.cleared })

/-! ## Entering the states -/

/-- A new membership state takes effect: the MEMBERSHIP event is set (R66) and the yield state cleared
(R15). -/
def setMState (st : MState) (s : State) : State :=
  setEvent .membership
    ((s.withMember { s.member with state := st }).withLine { s.line with yielding := false })

/-- The entry actions of LISTENING (R73); with `wait` the wait of R2 begins. -/
def listeningActions (wait : Bool) (s : State) : State :=
  let s1 := s.withLine { s.line with
    rfc := 0, tfc := 0, ended := none,
    phase := if wait then .waiting else s.line.phase,
    recessive := if wait then 0 else s.line.recessive }
  let s2 := clearPeers s1
  s2.withMember { s2.member with activeSeen := false, listenTimer := none, presenceWant := true }

/-- The station enters LISTENING (R73). -/
def enterListening (wait : Bool) (s : State) : State :=
  listeningActions wait (setMState .listening s)

/-- The station enters DETACHED: the Line Interface takes no part any more (R18, R19). -/
def enterDetached (s : State) : State :=
  let s1 := setMState .detached s
  s1.withLine { s1.line with phase := .off, recessive := 0, tx := none, begun := [] }

/-- The station becomes ACTIVE (R77), in the order of that rule. -/
def becomeActive (s : State) : State :=
  let s1 := setMState .active s
  let s2 := s1.withMember { s1.member with presenceWant := true, listenTimer := none }
  let s3 := s2.withDigest
    { s2.digest with timer := if s2.digestInterval = 0 then none else some s2.digestInterval }
  triggerActivation s3

/-- The station founds a new system (R47, R76). -/
def found (s : State) : State := becomeActive (s.withTable (clearEntries s.table))

/-- The station enters JOINING (R48, R76, R90). -/
def enterJoining (s : State) : State :=
  let s1 := setMState .joining (s.withTable (clearEntries s.table))
  let s2 := s1.withMember { s1.member with presenceWant := true, listenTimer := none }
  chooseDonor 15 (s2.withSnap { s2.snap with cursor := 0, donor := none, failures := 0, cause := .none, lapsed := none })

/-- The join is complete (R98). -/
def joinComplete (s : State) : State := becomeActive (idleEngine s)

/-- The station enters LEAVING (R79). -/
def enterLeaving (s : State) : State :=
  let s1 := setMState .leaving s
  ((s1.withMember { s1.member with evictWants := [(s.station, .self)] ++ s1.member.evictWants }).withSnap
    { s1.snap with service := [] }).withDigest .initial

/-! ## The purge (R85) -/

/-- The completion of a pending entry at the purge (R85, R150). -/
def purgeCompletion (st : Status) (e : PendEntry) : Completion :=
  match e.origin with
  | some o => .one st e.tag e.source e.kind.code (byteOf o)
  | none => .bare st e.tag e.source e.kind.code

/-- The completions of the purge: every entry but a DETACH in ascending number, then the DETACH DONE. -/
def purgeCompletions (st : Status) (pend : List (Option PendEntry)) : List Completion :=
  let es := pend.filterMap id
  (es.filter (fun e => e.kind != .detach)).map (purgeCompletion st) ++
    (es.filter (fun e => e.kind == .detach)).map
      (fun e => Completion.bare .done e.tag e.source ReqKind.detach.code)

/-- Step 1 of the purge: candidates. -/
def purgeCandidates (s : State) : State :=
  (((s.withReq { s.req with outgoing := [] }).withMember
    { s.member with evictWants := [], presenceWant := false, presenceTimer := none }).withDigest
    .initial).withSnap { s.snap with service := [] }

/-- Steps 2 and 3 of the purge: grants, leases and slots. -/
def purgeSlots (s : State) : State :=
  setEventIf (s.slots.any Slot.inProgress) .slot
    ((s.withLeases []).withSlots (s.slots.map Slot.purged))

/-- Step 4 of the purge: pending entries. -/
def purgeEntries (st : Status) (s : State) : State :=
  s.withReq { s.req with
    cmp := s.req.cmp ++ purgeCompletions st s.req.pend, pend := List.replicate 16 none }

/-- The purge on leaving ACTIVE or LEAVING, whole and in order (R85). -/
def purge (dest : MState) (st : Status) (s : State) : State :=
  let s1 := purgeEntries st (purgeSlots (purgeCandidates s))
  let s2 := clearPeers (s1.withTable (clearEntries s1.table))
  if dest = .listening then enterListening false s2 else enterDetached s2

/-- Leaving LISTENING or JOINING for DETACHED (R86). A snapshot timer that had run out at that moment leaves its
end to be taken (R82). -/
def detachJoiner (s : State) : State :=
  let s0 := s.withSnap { s.snap with lapsed := if s.snapTimerOut then some s.snap.failures else none }
  let s1 := clearPeers (s0.withTable (clearEntries s.table))
  let s2 := s1.withMember
    { s1.member with presenceWant := false, presenceTimer := none, listenTimer := none }
  enterDetached (idleEngine (s2.withDigest .initial))

/-- The change of state takes effect: by the purge from ACTIVE and LEAVING (R85), without it from
LISTENING and JOINING (R86); in UNCONFIGURED and DETACHED it has no effect (R82). -/
def leaveNow (dest : MState) (st : Status) (s : State) : State :=
  match s.member.state with
  | .active | .leaving => purge dest st s
  | .listening | .joining => detachJoiner s
  | .unconfigured | .detached => s

/-- The Line Interface when a change of state that ends its part in the line has to wait (R19): it aborts a
frame of its own, or makes its hold as a receiver to the end; none where there is nothing to wait for, or no more
because the frame ends at this moment. An error hold after its own bit error counts as the own frame still being
sent (log 41). -/
def State.heldLine (s : State) (c : HeldChange) (place : HoldPlace) : Option Line :=
  if place.frameEnds then none
  else
    match s.line.tx with
    | some x =>
      some { s.line with
        tx := none, begun := (levelsOf (x.frame.toRaw s.station)).take place.start,
        hold := some ⟨some x, c, place.start⟩ }
    | none =>
      if place.rxHold && s.takesPart && s.line.phase != .waiting then
        some { s.line with hold := some ⟨none, c, place.start⟩ }
      else none

/-- The frame on the line, when it ends at the moment at which the station leaves the line (R82): none while the
wait of R2 goes on. -/
def Line.ending (l : Line) : Option EndedFrame :=
  match l.tx with
  | some x => some (.own x)
  | none => if l.phase = .waiting then none else some .received

/-- The change of state takes effect with no hold to wait for; a frame that ends at the same moment keeps its
end to be taken (R82, log 43). -/
def leaveAtOnce (dest : MState) (st : Status) (frameEnds : Bool) (s : State) : State :=
  let t := leaveNow dest st s
  if frameEnds then t.withLine { t.line with ended := s.line.ending } else t

/-- The station is to leave the states that take part in the line (R19): at once, or at the end of the
hold that aborts its own frame, or of the hold it makes as a receiver. -/
def leave (dest : MState) (st : Status) (place : HoldPlace) (s : State) : State :=
  if s.line.hold.isSome then s
  else
    match s.heldLine (.leave dest st) place with
    | some l => s.withLine l
    | none => leaveAtOnce dest st place.frameEnds s

/-! ## Errors that end membership (R82, R175) -/

/-- The destination with AUTOJOIN (R83). -/
def State.autojoinDest (s : State) : MState :=
  if s.config.fields.autojoin then .listening else .detached

/-- Where an error that is passed on moves the station, and the status of its pending entries (R82). -/
def State.fatalMove (s : State) (k : ErrKind) : Option (MState × Status) :=
  match k with
  | .rxLimit | .txLimit | .configConflict =>
    if s.takesPart then some (.detached, .detached) else none
  | .joinFailed => if s.member.state = .joining then some (.detached, .detached) else none
  | .evicted =>
    if s.member.state = .active then some (s.autojoinDest, .evicted)
    else if s.member.state = .leaving then some (.detached, .evicted) else none
  | .divergence =>
    if s.config.fields.divergenceFatal = false then none
    else if s.member.state = .active then some (s.autojoinDest, .detached)
    else if s.member.state = .leaving then some (.detached, .detached) else none
  | .rxCheck | .txVoided | .peerConfig | .digestDisagree | .donorLost | .earlyRenew => none

/-- A kind is logged and, if it is one that R175 passes on, moves the station. -/
def raise (k : ErrKind) (h : Header) (place : HoldPlace) (s : State) : State :=
  let s1 := logError k h s
  match s1.fatalMove k with
  | none => s1
  | some (dest, st) => leave dest st place s1

/-! ## The presence table at an accepted frame (R68, R70, R72, R74, R75) -/

/-- The peer state that a frame shows of its sender, if it says one (R68, steps 2 and 3, and SNAPREQ). -/
def shownState (sender : Addr) (old : PeerState) (f : Frame) : PeerState :=
  match f with
  | .presence .listening _ => .listening
  | .presence .joining _ => .joining
  | .presence .active _ => .active
  | .claim _ _ _ | .release _ _ | .withdraw _ | .signal _ _ | .snap _ _ _ _ _ | .digest _ => .active
  | .evict t _ => if t = sender then old else .active
  | .snapreq _ _ => if old = .absent then .joining else old

/-- The configuration match that a frame gives its sender (R68, step 2). -/
def shownMatch (own : Word) (old : MatchState) (f : Frame) : MatchState :=
  match f with
  | .presence _ d => if d = own then .matching else .mismatch
  | .claim _ _ _ | .release _ _ | .withdraw _ | .signal _ _ | .snap _ _ _ _ _ | .digest _
  | .evict _ _ | .snapreq _ _ => old

/-- The sender's entry after steps 1 to 3 of R68. -/
def shownPeer (d : Nat) (own : Word) (sender : Addr) (p : Peer) (f : Frame) : Peer where
  state := shownState sender p.state f
  dropout := d
  config := shownMatch own p.config f
  digest := if shownState sender p.state f = .active ∧ p.state ≠ .active then .none else p.digest

/-- The sender's entry is updated, if the sender is a peer (R68). -/
def showSender (sender : Addr) (f : Frame) (s : State) : State :=
  if sender = s.station then s
  else setPeer sender (shownPeer s.dropoutTime s.config.digest sender (s.peerAt sender) f) s

/-- Step 4 of R68: the target of an EVICT, when a peer, becomes ABSENT (also for the own EVICT, log 18). -/
def showTarget (f : Frame) (s : State) : State :=
  match f with
  | .evict t _ =>
    if t = s.station then s
    else setPeer t { s.peerAt t with state := .absent, dropout := 0, digest := .none } s
  | .release _ _ | .withdraw _ | .claim _ _ _ | .signal _ _ | .snapreq _ _ | .snap _ _ _ _ _
  | .digest _ | .presence _ _ => s

/-- The EVICT wants that an accepted frame ends (R70): for its target, and for its sender. -/
def endWants (sender : Addr) (f : Frame) (s : State) : State :=
  s.withMember { s.member with
    evictWants := s.member.evictWants.filter (fun w =>
      w.1 == s.station ||
        (w.1 != sender && (match f with
          | .evict t _ => w.1 != t
          | _ => true))) }

/-- A frame shows a running system (R75). -/
def Frame.showsRunning : Frame → Bool
  | .evict _ _ | .release _ _ | .withdraw _ | .claim _ _ _ | .signal _ _ | .snap _ _ _ _ _
  | .digest _ => true
  | .presence .active _ => true
  | .presence .listening _ | .presence .joining _ | .snapreq _ _ => false

/-- The own frame's acceptance at the Membership Controller (R72, R74): the presence timer is loaded, an
own PRESENCE clears the want, and the first one that carries LISTENING starts the listen interval. -/
def ownFrameMember (f : Frame) (s : State) : State :=
  let s1 := s.withMember { s.member with presenceTimer := some s.presencePeriod }
  match f with
  | .presence st _ =>
    s1.withMember { s1.member with
      presenceWant := false,
      listenTimer := if s.member.state = .listening ∧ st = .listening ∧ s.member.listenTimer = none
        then some (3 * s.presencePeriod) else s.member.listenTimer }
  | .evict _ _ | .release _ _ | .withdraw _ | .claim _ _ _ | .signal _ _ | .snapreq _ _
  | .snap _ _ _ _ _ | .digest _ => s1

/-- A peer's frame at the Membership Controller (R72, R75): the answer to a newcomer, and active-seen. -/
def peerFrameMember (f : Frame) (s : State) : State :=
  let answer := match f with
    | .presence .listening _ => s.member.state.hasTable
    | _ => false
  let seen := s.member.state == .listening && s.member.listenTimer.isSome && f.showsRunning
  s.withMember { s.member with
    presenceWant := s.member.presenceWant || answer, activeSeen := s.member.activeSeen || seen }

/-- An accepted frame at the Membership Controller, before its decisions. -/
def memberFrame (sender : Addr) (own : Bool) (f : Frame) (s : State) : State :=
  let s1 := endWants sender f (showTarget f (showSender sender f s))
  if own then ownFrameMember f s1 else peerFrameMember f s1

/-! ## Decisions on an accepted frame -/

/-- The decision on a PRESENCE with another configuration digest (R78). -/
def State.mismatchKind (s : State) (sender : Addr) (st : PresenceState) : Option ErrKind :=
  match s.member.state, st with
  | .listening, _ => some .configConflict
  | .joining, .active => some .configConflict
  | .joining, _ => some .peerConfig
  | .active, .active =>
    if sender.toNat < s.station.toNat then some .configConflict else some .peerConfig
  | .active, _ => some .peerConfig
  | .leaving, _ => some .peerConfig
  | .unconfigured, _ => none
  | .detached, _ => none

/-- R78 for an accepted frame of a peer. -/
def decideMismatch (sender : Addr) (own : Bool) (f : Frame) (h : Header) (s : State) : State :=
  match f with
  | .presence st d =>
    if own || d == s.config.digest then s
    else
      match s.mismatchKind sender st with
      | some k => raise k h .none s
      | none => s
  | .evict _ _ | .release _ _ | .withdraw _ | .claim _ _ _ | .signal _ _ | .snapreq _ _
  | .snap _ _ _ _ _ | .digest _ => s

/-- R80 and R81: an EVICT that names this station in ACTIVE or LEAVING. -/
def decideEvict (f : Frame) (h : Header) (s : State) : State :=
  match f with
  | .evict t .self =>
    if t = s.station ∧ s.member.state.hasTable then leave .detached .detached .none s else s
  | .evict t .dropout =>
    if t = s.station ∧ s.member.state.hasTable then raise .evicted h .none s else s
  | .release _ _ | .withdraw _ | .claim _ _ _ | .signal _ _ | .snapreq _ _
  | .snap _ _ _ _ _ | .digest _ | .presence _ _ => s

/-- The peers shown ACTIVE with a digest status (R112). -/
def State.countStatus (s : State) (d : DigestStatus) : Nat :=
  ((List.range 16).filter (fun i =>
    decide (i ≠ s.station.toNat) && ((s.member.peers.getD i Peer.cleared).state == .active) &&
      ((s.member.peers.getD i Peer.cleared).digest == d))).length

/-- A peer's DIGEST at the Digest Unit (R110, R112). -/
def compareDigest (sender : Addr) (value : Word) (h : Header) (s : State) : State :=
  let agree := value == s.tableDigest
  let s1 := setPeer sender
    { s.peerAt sender with digest := if agree then .agree else .disagree } s
  let s2 := if agree then s1 else raise .digestDisagree h .none s1
  if 2 ≤ s2.countStatus .disagree ∧ s2.countStatus .agree < s2.countStatus .disagree then
    raise .divergence h .none s2
  else s2

/-- A DIGEST at a station in ACTIVE or LEAVING: the own one clears the want (R109), a peer's is compared. -/
def digestFrame (sender : Addr) (own : Bool) (f : Frame) (h : Header) (s : State) : State :=
  match f with
  | .digest v =>
    if own then s.withDigest { s.digest with want := false }
    else if s.member.state.hasTable then compareDigest sender v h s else s
  | .evict _ _ | .release _ _ | .withdraw _ | .claim _ _ _ | .signal _ _ | .snapreq _ _
  | .snap _ _ _ _ _ | .presence _ _ => s

/-- A SIGNAL at a station in ACTIVE or LEAVING that its mask names (R166). -/
def signalFrame (f : Frame) (s : State) : State :=
  match f with
  | .signal mask code =>
    if s.member.state.hasTable ∧ mask.getLsbD s.station.toNat then
      let s1 := s.withEvents
        { s.events with latch := s.events.latch ||| BitVec.ofNat 8 (2 ^ code.toNat) }
      triggerSignal code (setEvent .signal s1)
    else s
  | .evict _ _ | .release _ _ | .withdraw _ | .claim _ _ _ | .snapreq _ _
  | .snap _ _ _ _ _ | .digest _ | .presence _ _ => s

end Sys2Proof.Machine
end

