-- ==== Sys2Proof/Machine/Line.lean ====
section
/-! DEFINITION. The Line Interface (chapter 1): the candidates and their order, the start of a frame, the
fault counters, and the acceptance and voiding of a frame at every block. The meanings of the commands
of the line stand at the end. -/

namespace Sys2Proof.Machine

/-! ## Candidates (R12, R14, R18) -/

/-- The frames of the outgoing list with a property, by age, with their entry numbers. -/
def State.outgoingOf (s : State) (p : OutFrame → Bool) : List TxFrame :=
  (s.req.outgoing.filter p).map (fun f => ⟨f.frame, some f.entry⟩)

/-- The EVICT candidates: the own address first, then by lowest target (R14). -/
def State.evictCandidates (s : State) : List TxFrame :=
  let wanted (a : Addr) : List TxFrame :=
    match s.member.evictWants.find? (fun w => w.1 == a) with
    | some w => [⟨.evict a w.2, none⟩]
    | none => []
  wanted s.station ++
    ((List.range 16).map (BitVec.ofNat 4)).flatMap (fun a => if a = s.station then [] else wanted a)

/-- The RELEASE candidates, by lowest first token: one per record in RELEASE_PENDING or EXPIRED_PENDING
(R14, R122). -/
def State.releaseCandidates (s : State) : List TxFrame :=
  (s.leases.filter Lease.pending).map
    (fun l => ⟨.release (if l.state = .expiredPending then .expired else .host) l.tokens, none⟩)

/-- The SNAPREQ candidate of a joiner (R91). -/
def State.snapreqCandidate (s : State) : List TxFrame :=
  if s.snap.engine = .requesting then [⟨.snapreq s.donorRef s.snap.cursor, none⟩] else []

/-- The SNAP candidate of a donor, for the head of its service list (R100). -/
def State.snapCandidate (s : State) : List TxFrame :=
  match s.snap.service with
  | [] => []
  | (j, i) :: _ =>
    let e := entryAt s.table i
    [⟨.snap j i e.kind e.holders e.waiters, none⟩]

/-- The state that a PRESENCE carries (R71). -/
def presenceStateOf : MState → PresenceState
  | .listening => .listening
  | .joining => .joining
  | .active | .leaving | .unconfigured | .detached => .active

/-- Every candidate of the station, in the order of R14: by class, and within a class as that rule gives.
Each content is read from its owner at this moment (R12). -/
def State.candidates (s : State) : List TxFrame :=
  s.evictCandidates ++ s.releaseCandidates ++ s.outgoingOf OutFrame.isWithdraw ++
    s.outgoingOf OutFrame.isClaim ++ s.outgoingOf OutFrame.isSignal ++ s.snapreqCandidate ++
    s.snapCandidate ++ (if s.digest.want then [⟨.digest s.tableDigest, none⟩] else []) ++
    (if s.member.presenceWant
      then [⟨.presence (presenceStateOf s.member.state) s.config.digest, none⟩] else [])

/-- What a membership state may send (R18, and the states column of R3). -/
def permitted (st : MState) (own : Addr) (f : Frame) : Bool :=
  match st with
  | .unconfigured | .detached => false
  | .listening =>
    match f with
    | .presence .listening _ => true
    | _ => false
  | .joining =>
    match f with
    | .presence .joining _ | .snapreq _ _ => true
    | _ => false
  | .active =>
    match f with
    | .evict _ .dropout | .release _ _ | .withdraw _ | .claim _ _ _ | .signal _ _
    | .snap _ _ _ _ _ | .digest _ | .presence .active _ => true
    | _ => false
  | .leaving =>
    match f with
    | .evict t .self => t == own
    | .release _ _ | .snap _ _ _ _ _ | .presence .active _ => true
    | _ => false

/-- The candidate that goes next: the first permitted one in the order of R14. -/
def State.chosen (s : State) : Option TxFrame :=
  s.candidates.find? (fun c => permitted s.member.state s.station c.frame)

/-- LDE between commands (R1, R19): asserted only while an error hold runs; within an own frame it follows the
frame's dominant bits, as `State.ldeAt` says (log 6). -/
def State.ldeAsserted (s : State) : Bool := s.powered && s.line.hold.isSome

/-- The levels that this station drives of a frame of its own on the line, start bit first: the whole frame
while it sends one, or as far as it drove one before it lost contention or began to abort (R1, R6, R19). -/
def State.ownLevels (s : State) : List Bool :=
  match s.line.tx with
  | some x => levelsOf (x.frame.toRaw s.station)
  | none => s.line.begun

/-- LDE in a bit time of the frame on the line, the start bit being bit time 0 (R1): from the first bit time of
a hold on, and in the dominant bits that this station drives of a frame of its own. -/
def State.ldeAt (s : State) (k : Nat) : Bool :=
  s.powered && (s.line.hold.any (fun h => decide (h.start ≤ k)) || !(s.ownLevels.getD k true))

/-- LDE in a bit time of the frame that this station last objected to, or gave up sending (R1, R9). -/
def Line.droveAt (l : Line) (k : Nat) : Bool :=
  l.driven.any (fun d => decide (d.1 ≤ k) && decide (k ≤ d.2))

/-- LTX is high whenever LDE is deasserted, and low while the part drives a dominant bit (R1). -/
def ltxOf (lde : Bool) : Bool := !lde

/-- LTX between commands. -/
def State.ltx (s : State) : Bool := ltxOf s.ldeAsserted

/-- LTX in a bit time of the frame on the line. -/
def State.ltxAt (s : State) (k : Nat) : Bool := ltxOf (s.ldeAt k)

/-- The start bits at a boundary (R6): a station that is not yielding and has a permitted candidate drives one
and contends; the loser, which has driven its bits as far as the loss, and a station that does not start while
another does, receive. -/
def driveStart (rivals : List (BitVec 7)) (s : State) : State :=
  let receive := if rivals.isEmpty then s
    else s.withLine { s.line with phase := .inFrame, recessive := 0, tx := none, begun := [] }
  match s.chosen with
  | none => receive
  | some c =>
    if s.line.yielding then receive
    else
      let own := contentionOf c.frame.classCode s.station
      let won := wins own rivals
      s.withLine { s.line with
        phase := .inFrame, recessive := 0, tx := if won then some c else none,
        begun := if won then [] else levelsBegun own rivals }

/-- A start boundary of a station that takes part (R6). A joiner's donor that has stopped being eligible while its
SNAPREQ was on the line is chosen again first (R91, log 19). -/
def startBoundary (rivals : List (BitVec 7)) (s : State) : State :=
  if s.takesPart && s.line.phase == .idle && s.line.hold.isNone then driveStart rivals (watchDonor s)
  else s

/-! ## Fault counters and yield at a frame's end (R15, R16) -/

/-- A fault counter rises by 4, to 64 at most (R16). -/
def raiseCounter (c : Nat) : Nat := min (c + Config.faultStep) Config.faultLimit

/-- A fault counter falls by 1, to 0 at least (R16). -/
def lowerCounter (c : Nat) : Nat := c - 1

/-- The Line Interface at an acceptance (R15, R16): an own frame makes the station yield, another's ends
the yield. -/
def Line.accepted (own : Bool) (l : Line) : Line :=
  { l with phase := .gap, recessive := 0, tx := none, begun := [], yielding := own,
           rfc := lowerCounter l.rfc, tfc := if own then lowerCounter l.tfc else l.tfc }

/-- The Line Interface at the voiding of its own frame (R11, R16). -/
def Line.ownVoided (l : Line) : Line :=
  { l with phase := .gap, recessive := 0, tx := none, begun := [], yielding := false,
           tfc := raiseCounter l.tfc }

/-- The Line Interface at the voiding of another station's frame (R15, R16): RFC rises when this station
objected. -/
def Line.otherVoided (objected : Bool) (l : Line) : Line :=
  { l with phase := .gap, recessive := 0, begun := [], yielding := false,
           rfc := if objected then raiseCounter l.rfc else l.rfc }

/-! ## Acceptance (R10) -/

/-- The Token Table and the units it reports to, at a station in ACTIVE or LEAVING (R27, R43, R44). -/
def tableFrame (sender : Addr) (f : Frame) (s : State) : State :=
  let a := applyFrame s.table s.n s.station sender f
  takeReports a.reports (s.withTable a.table)

/-- The Token Table of a joiner: the entries below its cursor, no reports (R46, R94), or the end of the
join at an unresolved WITHDRAW (R95). -/
def joinerFrame (sender : Addr) (f : Frame) (s : State) : State :=
  let go := s.withTable (applyFrame s.table s.snap.cursor s.station sender f).table
  match f with
  | .withdraw o =>
    if withdrawUnresolved s.table s.snap.cursor sender o then
      raise .joinFailed .noFrame .none
        (s.withSnap { s.snap with cause := .withdrawUnresolved })
    else go
  | .evict _ _ | .release _ _ | .claim _ _ _ | .signal _ _ | .snapreq _ _ | .snap _ _ _ _ _
  | .digest _ | .presence _ _ => go

/-- The joiner's Snapshot Engine at an accepted frame: the SNAP at the cursor, the own SNAPREQ, and then
the choice of a donor (R90 to R93, R98). -/
def joinerSnap (own : Bool) (f : Frame) (s : State) : State :=
  let s1 :=
    match f with
    | .snap _ i k hs ws =>
      if i = s.snap.cursor then
        let t := takeSnap i k hs ws s
        if t.snap.cursor = t.n then joinComplete t else t
      else s
    | .snapreq d _ => if own then snapreqAccepted d s else s
    | .evict _ _ | .release _ _ | .withdraw _ | .claim _ _ _ | .signal _ _ | .digest _
    | .presence _ _ => s
  seekDonor (watchDonor s1)

/-- The own frame's owner in the Request Unit is told (R12). -/
def ownFrameOwner (tx : Option TxFrame) (s : State) : State :=
  match tx with
  | some ⟨f, some n⟩ => outgoingAccepted n f s
  | _ => s

/-- An accepted frame at every block, by the state in force at the acceptance (R10, R18). The order is:
Line Interface, Membership Controller's table and wants, Token Table with its reports, the frame's owner,
Snapshot Engine, Digest Unit, Event and Slot Units, and the Membership Controller's decisions (log 28). -/
def acceptFrame (sender : Addr) (tx : Option TxFrame) (f : Frame) (h : Header) (s : State) : State :=
  let st := s.member.state
  let own := tx.isSome
  let s1 := s.withLine (s.line.accepted own)
  let s2 := memberFrame sender own f s1
  let s3 :=
    match st with
    | .active | .leaving => tableFrame sender f s2
    | .joining => joinerFrame sender f s2
    | .unconfigured | .listening | .detached => s2
  let s4 := ownFrameOwner tx s3
  let s5 := serviceFrame st sender own f s4
  let s6 := if s5.member.state = .joining then joinerSnap own f s5 else s5
  let s7 := if st.hasTable then signalFrame f (digestFrame sender own f h s6) else s6
  decideEvict f h (decideMismatch sender own f h s7)

/-! ## Voiding (R9 to R11, R16, R17) -/

/-- The bit times that this station drove dominant in an error hold after a bit error of its own as the
transmitter; a frame voided by a peer's objection leaves the record as it was (R9). -/
def Line.gaveUp (f : RawFrame) (bitErrorAt : Option Nat) (l : Line) : Line :=
  match bitErrorAt with
  | none => l
  | some k => { l with driven := some (objectionSpan f (bitErrorFailure k)) }

/-- This station's own frame is voided: the error hold that its own bit error made, TX_VOIDED with the frame as
sent, its owner, and TX_LIMIT when TFC reaches 64. A claim that a cancel waits on so completes before the purge of
that limit (log 42). A joiner's engine stays as it is (R10, R92). -/
def voidOwn (tx : TxFrame) (bitErrorAt : Option Nat) (s : State) : State :=
  let h := headerSent s.station tx.frame
  let s1 := s.withLine (s.line.ownVoided.gaveUp (tx.frame.toRaw s.station) bitErrorAt)
  let s2 := logError .txVoided h s1
  let s3 :=
    match tx.entry with
    | some n => outgoingVoided n tx.frame s2
    | none => s2
  if s.line.tfc < Config.faultLimit ∧ s3.line.tfc = Config.faultLimit then raise .txLimit h .none s3
  else s3

/-- Another station's frame is voided: when this station objected, RX_CHECK with the frame as received so
far, and RX_LIMIT when RFC reaches 64. -/
def voidOther (f : RawFrame) (e : Option Failure) (s : State) : State :=
  match e with
  | none => s.withLine (s.line.otherVoided false)
  | some e =>
    let h := headerReceived e.bits f
    let s1 := logError .rxCheck h s
    let s2 := s1.withLine { s1.line.otherVoided true with driven := some (objectionSpan f e) }
    if s.line.rfc < Config.faultLimit ∧ s2.line.rfc = Config.faultLimit then raise .rxLimit h .none s2
    else s2

/-- The station checks the frames on the line: it takes part and the wait of R2 is over (R2, R18). -/
def State.listens (s : State) : Bool := s.takesPart && s.line.phase != .waiting

/-- A hold in which this station aborts its own frame. -/
def State.aborting (s : State) : Bool := s.line.hold.any (fun h => h.own.isSome)

/-- The station receives: it checks the line's frames, sends none itself, and is not in an abort. -/
def State.receives (s : State) : Bool := s.listens && s.line.tx.isNone && !s.aborting

/-- A frame of another station ends with no objection of a peer: it is accepted when this station's own
check passes, and otherwise this station objects and the frame is voided (R8 to R10, log 7). -/
def receiveFrame (f : RawFrame) (s : State) : State :=
  match receiveCheck s.table s.station f with
  | .ok c => acceptFrame (senderOf f) none c (headerWhole f) s
  | .error e => voidOther f (some e) s

/-! ## The end of a frame that falls at the moment at which the station left the line (R82, log 43) -/

/-- What the end of such a frame changes at a station out of the line: its counters and its log, for the station
was in the frame to its end. No block is handed a frame (R18), and nothing moves any more. -/
def outOfLine (s : State) : State := s.withLine { s.line with phase := .off, recessive := 0, ended := none }

/-- Such a frame has ended accepted, or found faulty by this station alone (log 7). -/
def endedAccepted (f : LineFrame) (s : State) : State :=
  match s.line.ended, f with
  | some (.own _), .own => outOfLine (s.withLine { s.line.accepted true with yielding := false })
  | some .received, .received r =>
    match receiveCheck s.table s.station r with
    | .ok _ => outOfLine (s.withLine (s.line.accepted false))
    | .error e => outOfLine (voidOther r (some e) s)
  | _, _ => s

/-- Such a frame has ended voided. -/
def endedVoided (f : VoidedFrame) (s : State) : State :=
  match s.line.ended, f with
  | some (.own x), .own k => outOfLine (voidOwn x k s)
  | some .received, .received r k => outOfLine (voidOther r (failureOf s.table s.station r k) s)
  | _, _ => s

/-! ## The commands -/

/-- LINE_WAIT_DONE (R2): the wait is over, the line is idle for this station. -/
def execLineWaitDone (s : State) : Result :=
  live (fun s =>
    if s.takesPart && s.line.phase == .waiting then
      s.withLine { s.line with phase := .idle, recessive := Config.lineWaitBits }
    else s) s

/-- IDLE_GAP (R2): 8 recessive bit times after a frame's end, start boundaries begin. -/
def execIdleGap (s : State) : Result :=
  live (fun s =>
    if s.takesPart && s.line.phase == .gap && s.line.hold.isNone then
      s.withLine { s.line with phase := .idle, recessive := Config.idleGapBits }
    else s) s

/-- TRANSMIT_START (R6, R7, R14). -/
def execTransmitStart (rivals : List (BitVec 7)) (s : State) : Result :=
  live (startBoundary rivals) s

/-- YIELD_TIMEOUT (R15): 24 recessive bit times after the own accepted frame; the line is idle by then. -/
def execYieldTimeout (s : State) : Result :=
  live (fun s =>
    if s.takesPart && s.line.yielding && (s.line.phase == .gap || s.line.phase == .idle) then
      s.withLine { s.line with phase := .idle, yielding := false, recessive := Config.yieldBits }
    else s) s

/-- FRAME_ACCEPTED (R10). A frame that this station holds in error is not accepted (R9). -/
def execFrameAccepted (f : LineFrame) (s : State) : Result :=
  live (fun s =>
    if !s.takesPart then endedAccepted f s
    else match f with
    | .own =>
      match s.line.tx with
      | some tx =>
        if s.listens then acceptFrame s.station (some tx) tx.frame (headerSent s.station tx.frame) s
        else s
      | none => s
    | .received r => if s.receives && s.line.hold.isNone then receiveFrame r s else s) s

/-- FRAME_VOIDED (R10, R11). -/
def execFrameVoided (f : VoidedFrame) (s : State) : Result :=
  live (fun s =>
    if !s.takesPart then endedVoided f s
    else match f with
    | .own bitErrorAt =>
      match s.line.tx with
      | some tx => if s.listens then voidOwn tx bitErrorAt s else s
      | none => s
    | .received r bitErrorAt =>
      if s.receives then voidOther r (failureOf s.table s.station r bitErrorAt) s else s) s

end Sys2Proof.Machine
end

