-- ==== Sys2Proof/Machine/RegisterMap.lean ====
section
/-! DEFINITION. The register map (section 12.5) and the transactions of the Serial Port (R178): where a register
stands, how the address moves, when a data byte goes on with the transaction in progress, and when the host's
write of a register acts. -/

namespace Sys2Proof.Machine

/-! ## The register map (section 12.5) -/

/-- The registers of the map. -/
inductive Reg where
  | id | capability | station | membership | control | configStatus | event | irqEn | wakeEn
  | signalLatch | reqData | reqSpace | cmpData | cmpCount | rfc | tfc | errStatus | errMask | errFirst
  | errHeader | tableDigest | configDigest | leaseSel | leaseView | pendSel | pendView | peerSel
  | peerView | slotSel | slotCtrl | slotSpec | slotStatus | kindSel | kindData | presencePeriod
  | dropout | digestInterval | tickDiv | bitDiv | configFlags | lease1 | lease2 | lease3
deriving DecidableEq, Repr

/-- The map: each register with its lowest address and its number of bytes; a window counts as one. -/
def registerMap : List (Reg × Nat × Nat) :=
  [(.id, 0x00, 2), (.capability, 0x02, 2), (.station, 0x04, 1), (.membership, 0x05, 4),
    (.control, 0x09, 1), (.configStatus, 0x0A, 2), (.event, 0x0C, 2), (.irqEn, 0x0E, 2),
    (.wakeEn, 0x10, 2), (.signalLatch, 0x12, 1), (.reqData, 0x13, 1), (.reqSpace, 0x14, 1)] ++
  [(.cmpData, 0x15, 1), (.cmpCount, 0x16, 1), (.rfc, 0x17, 1), (.tfc, 0x18, 1), (.errStatus, 0x19, 2),
    (.errMask, 0x1B, 2), (.errFirst, 0x1D, 1), (.errHeader, 0x1E, 12), (.tableDigest, 0x2A, 4),
    (.configDigest, 0x2E, 4), (.leaseSel, 0x32, 1), (.leaseView, 0x33, 10)] ++
  [(.pendSel, 0x3D, 1), (.pendView, 0x3E, 10), (.peerSel, 0x48, 1), (.peerView, 0x49, 3),
    (.slotSel, 0x4C, 1), (.slotCtrl, 0x4D, 1), (.slotSpec, 0x4E, 8), (.slotStatus, 0x56, 2)] ++
  [(.kindSel, 0x58, 1), (.kindData, 0x59, 1), (.presencePeriod, 0x5A, 1), (.dropout, 0x5B, 2),
    (.digestInterval, 0x5D, 2), (.tickDiv, 0x5F, 2), (.bitDiv, 0x61, 1), (.configFlags, 0x62, 1),
    (.lease1, 0x63, 7), (.lease2, 0x6A, 7), (.lease3, 0x71, 7)]

/-- The register at an address, its lowest address and its number of bytes; none where the map has none. -/
def registerAt (a : BitVec 7) : Option (Reg × Nat × Nat) :=
  registerMap.find? (fun r => decide (r.2.1 ≤ a.toNat) && decide (a.toNat < r.2.1 + r.2.2))

/-- The lowest address of a register. -/
def Reg.base (r : Reg) : BitVec 7 :=
  match registerMap.find? (fun x => x.1 == r) with
  | some (_, base, _) => BitVec.ofNat 7 base
  | none => 0

/-- The number of bytes of a register. -/
def Reg.bytes (r : Reg) : Nat :=
  match registerMap.find? (fun x => x.1 == r) with
  | some (_, _, len) => len
  | none => 0

/-- REQ_DATA and CMP_DATA, at which the address stays (R178). -/
def reqDataAddr : BitVec 7 := 0x13
def cmpDataAddr : BitVec 7 := 0x15

/-- The address of the data byte after this one (R178). -/
def nextAddr (a : BitVec 7) : BitVec 7 := if a = reqDataAddr ∨ a = cmpDataAddr then a else a + 1

/-! ## Transactions (R178) -/

/-- CSn rises (R178 to R180): a partly written register, a partial request record and a partly read
register or completion are given up, and SDO is not driven. -/
def endTransaction (s : State) : State :=
  (s.withPort { s.port with
    txn := .closed, wr := none, rd := none, cmp := none, sdo := none }).withReq { s.req with asm := [] }

/-- CSn falls and the command byte comes (R178), the transaction before having ended: the kind and the address
of the new one, and SDO drives 0 during the byte. -/
def openTransaction (k : Txn) (a : BitVec 7) (s : State) : State :=
  let t := endTransaction s
  t.withPort { t.port with txn := k, addr := a, sdo := some 0 }

/-- A command byte at the port (R178): while the port does not answer, the transaction that it begins is ignored
to its end, SDO undriven. -/
def beginTransaction (write : Bool) (a : BitVec 7) (s : State) : State :=
  if s.portAnswers then openTransaction (if write then .write else .read) a s
  else
    let t := endTransaction s
    t.withPort { t.port with txn := .ignored }

/-- The transaction of a data byte at an address: the one in progress when it is of this kind and has come to
this address, and otherwise a new one, whose command byte is understood (log 39). -/
def inTransaction (k : Txn) (a : BitVec 7) (s : State) : State :=
  if s.port.txn = k ∧ s.port.addr = a then s else openTransaction k a s

/-- The port in a write transaction that has written every data byte of a register: the address has moved past
it, or stays at a window, no multi-byte write stays begun, and SDO drives 0 (R178). -/
def State.inWrite (s : State) (r : Reg) : State :=
  let t := inTransaction .write r.base s
  t.withPort { t.port with
    addr := nextAddr (r.base + BitVec.ofNat 7 (r.bytes - 1)), wr := none, sdo := some 0 }

/-- A data byte that the port does not take: a transaction that begins while the port does not answer is
ignored to its end (R178, log 39). -/
def passBy (s : State) : State :=
  if s.powered ∧ s.port.txn = .closed then s.withPort { s.port with txn := .ignored } else s

/-- The write of a whole register by the host acts while the port takes data bytes (R178). -/
def hostWrite (r : Reg) (f : State → State) (s : State) : Result :=
  .next (if s.portOpen then f (s.inWrite r) else passBy s)

/-- One data byte at the port: it acts while the port takes data bytes (R178). -/
def onPort (f : State → State) (s : State) : Result := .next (if s.portOpen then f s else passBy s)

end Sys2Proof.Machine
end

