-- ==== Sys2Proof/Machine/Commit.lean ====
section
/-! DEFINITION. The configuration (R182, R183): the writes of its fields, the checks of a commit, and the
commit's end. -/

namespace Sys2Proof.Machine

/-! ## Field writes (R182) -/

/-- Configuration fields are written only in UNCONFIGURED with CONFIG_STATUS not BUSY (R182). -/
def State.configWritable (s : State) : Bool :=
  decide (s.member.state = .unconfigured ∧ s.config.status ≠ .busy)

/-- The bits that CONFIG_FLAGS and the STRICT byte assign (section 12.5). -/
def bitOf (b : Byte) (n : Nat) : Bool := b.getLsbD n

/-- A lease class's parameters are replaced (R117). -/
def ConfigFields.withClass (f : ConfigFields) (c : LeaseClass) (p : ClassParams) : ConfigFields :=
  match c with
  | .one => { f with class1 := p }
  | .two => { f with class2 := p }
  | .three => { f with class3 := p }

/-- KIND_SEL selects an index that the grade has (R182). -/
def State.kindSelExists (s : State) : Bool := decide (s.port.kindSel.toNat < s.n)

/-- The fields after the write of one of them (R182): 0 is refused by PRESENCE_PERIOD and BIT_DIV, DROPOUT
keeps 10 bits, and a token kind is written at the selected index. -/
def setField (w : ConfigWrite) (kindSel : BitVec 6) (kindExists : Bool) (f : ConfigFields) : ConfigFields :=
  match w with
  | .tokenKind v => if kindExists then { f with kinds := f.kinds.set kindSel.toNat v } else f
  | .presencePeriod v => if v = 0 then f else { f with presencePeriod := v }
  | .dropout v => { f with dropout := v.setWidth 10 }
  | .digestInterval v => { f with digestInterval := v }
  | .tickDiv v => { f with tickDiv := v }
  | .bitDiv v => if v = 0 then f else { f with bitDiv := v }
  | .flags v => { f with autojoin := bitOf v 1, divergenceFatal := bitOf v 0 }
  | .lease c len w v strict => f.withClass c ⟨len, w, v, bitOf strict 0⟩

/-- The register that holds a configuration field (section 12.5). -/
def regOf : ConfigWrite → Reg
  | .tokenKind _ => .kindData
  | .presencePeriod _ => .presencePeriod
  | .dropout _ => .dropout
  | .digestInterval _ => .digestInterval
  | .tickDiv _ => .tickDiv
  | .bitDiv _ => .bitDiv
  | .flags _ => .configFlags
  | .lease .one _ _ _ _ => .lease1
  | .lease .two _ _ _ _ => .lease2
  | .lease .three _ _ _ _ => .lease3

/-- A configuration field is written (R182); a write at any other time is ignored. -/
def writeField (w : ConfigWrite) (s : State) : State :=
  if s.configWritable then
    s.withConfig { s.config with
      fields := setField w s.port.kindSel s.kindSelExists s.config.fields }
  else s

/-! ## The commit (R183) -/

/-- A TOKEN_KIND value that a grade accepts (R183, check 1). -/
def kindValid (g : Grade) (b : Byte) : Bool :=
  b == 0 || (decide (g = .vg418) && decide (2 ≤ b.toNat) && decide (b.toNat ≤ 8))

/-- The lowest index whose TOKEN_KIND fails check 1. -/
def badKind (g : Grade) (kinds : List Byte) : Option Nat :=
  (List.range g.tokens).find? (fun k => !kindValid g (kinds.getD k 0))

/-- A lease class's parameters pass check 3 (R117, R183). -/
def ClassParams.valid (p : ClassParams) : Bool :=
  decide (1 ≤ p.len.toNat) && decide (1 ≤ p.w.toNat) && decide (p.w.toNat ≤ p.len.toNat) &&
    decide (p.v.toNat ≤ p.w.toNat)

/-- The lowest class whose parameters fail check 3. -/
def badClass (f : ConfigFields) : Option Nat :=
  if !f.class1.valid then some 1 else if !f.class2.valid then some 2
  else if !f.class3.valid then some 3 else none

/-- The first check of a commit that fails, as its code and detail byte (R183). -/
def commitFailure (g : Grade) (f : ConfigFields) : Option (ConfigStatus × Byte) :=
  match badKind g f.kinds with
  | some k => some (.kindGrade, byteOf k)
  | none =>
    if f.dropout.toNat < 4 * f.presencePeriod.toNat then some (.dropoutRange, 0)
    else
      match badClass f with
      | some c => some (.leaseRange, byteOf c)
      | none =>
        if f.digestInterval.toNat = 0 ∨ 16 ≤ f.digestInterval.toNat then none
        else some (.digestRange, 0)

/-- A commit starts (R183). -/
def startCommit (s : State) : State :=
  if s.configWritable then
    match commitFailure s.grade s.config.fields with
    | some (code, detail) => s.withConfig { s.config with status := code, detail := detail }
    | none => s.withConfig { s.config with status := .busy, detail := 0 }
  else s

/-- The records that a complete digest makes take effect together (R183), but for the entry into
LISTENING: the status and digest, the prescaler, BIT_DIV, and the kinds of the entries (R20). -/
def takeConfiguration (s : State) : State :=
  (((s.withConfig { s.config with
      status := .committed, detail := 0, digest := configDigest s.n s.config.fields }).withTime
    ⟨true, 0⟩).withLine { s.line with bitDiv := some s.config.fields.bitDiv }).withTable
    (tableOfKinds s.config.fields.kinds s.n)

/-- The configuration digest is complete (R183): the configuration takes effect and the station enters
LISTENING. -/
def commitComplete (s : State) : State :=
  if s.config.status = .busy then enterListening true (takeConfiguration s) else s

/-! ## The commands -/

/-- CONFIG_WRITE (R182). -/
def execConfigWrite (w : ConfigWrite) (s : State) : Result := hostWrite (regOf w) (writeField w) s

/-- COMMIT (R183): 1 written to CONTROL.COMMIT. -/
def execCommit (s : State) : Result := hostWrite .control startCommit s

/-- COMMIT_COMPLETE (R183). -/
def execCommitComplete (s : State) : Result := live commitComplete s

end Sys2Proof.Machine
end

