-- ==== Sys2Proof/Machine/EventCommands.lean ====
section
/-! DEFINITION. The host's writes to the event and error registers (chapters 10 and 11). -/

namespace Sys2Proof.Machine

/-- Latched events are cleared by writing 1 to them; a write to CMP_READY has no effect (R168). -/
def clearEvents (v : Half) (s : State) : State :=
  s.withEvents { s.events with latched := s.events.latched &&& ~~~v }

/-- The interrupt enables take the bits of the nine events (R170). -/
def setIrqEn (v : Half) (s : State) : State :=
  s.withEvents { s.events with irqEn := v &&& eventMask }

/-- The wake enables take the bits of the nine events (R170). -/
def setWakeEn (v : Half) (s : State) : State :=
  s.withEvents { s.events with wakeEn := v &&& eventMask }

/-- WAKE_ANY is written (R170). -/
def setWakeAny (b : Bool) (s : State) : State := s.withEvents { s.events with wakeAny := b }

/-- Flags of the signal latch are cleared by writing 1 to them (R167). -/
def clearLatch (v : Byte) (s : State) : State :=
  s.withEvents { s.events with latch := s.events.latch &&& ~~~v }

/-- Error status flags are cleared by writing 1 to them (R172). -/
def clearErrStatus (v : Half) (s : State) : State :=
  s.withErrors { s.errors with status := s.errors.status &&& ~~~v }

/-- The error mask takes the bits of the twelve kinds; nothing else changes (R173). -/
def setErrMask (v : Half) (s : State) : State := s.withErrors { s.errors with mask := v &&& errorMask }

/-- The first-error pointer becomes NONE, the header log keeps its content (R174). -/
def clearErrFirst (s : State) : State := s.withErrors { s.errors with first := none }

/-! ## The commands -/

/-- EVENT_CLEAR (R168). -/
def execEventClear (v : Half) (s : State) : Result := hostWrite .event (clearEvents v) s

/-- IRQ_EN (R170). -/
def execIrqEn (v : Half) (s : State) : Result := hostWrite .irqEn (setIrqEn v) s

/-- WAKE_EN (R170). -/
def execWakeEn (v : Half) (s : State) : Result := hostWrite .wakeEn (setWakeEn v) s

/-- WAKE_ANY (R170). -/
def execWakeAny (b : Bool) (s : State) : Result := hostWrite .control (setWakeAny b) s

/-- SIGNAL_LATCH_CLEAR (R167). -/
def execSignalLatchClear (v : Byte) (s : State) : Result := hostWrite .signalLatch (clearLatch v) s

/-- ERR_STATUS_CLEAR (R172). -/
def execErrStatusClear (v : Half) (s : State) : Result := hostWrite .errStatus (clearErrStatus v) s

/-- ERR_MASK (R173). -/
def execErrMask (v : Half) (s : State) : Result := hostWrite .errMask (setErrMask v) s

/-- ERR_FIRST_CLEAR (R174): a write of any value. -/
def execErrFirstClear (_v : Byte) (s : State) : Result := hostWrite .errFirst clearErrFirst s

end Sys2Proof.Machine
end

