-- ==== Sys2Proof/Machine/Reset.lean ====
section
/-! DEFINITION. The resets and what waits for a hold (R19, R87, R184): the power-on reset, the warm reset
from its two causes, the end of a hold, the port's return, and the failure of the supply. -/

namespace Sys2Proof.Machine

/-! ## Power -/

/-- The slots after either reset, with the first sample of each TRG input that the grade has (R154, R165);
TRG2 and TRG3 of the VG418L are not sampled (R152). -/
def resetSlots (g : Grade) (trg : BitVec 4) : List Slot :=
  (List.range 4).map (fun n => Slot.initial (decide (n < g.slots) && trg.getLsbD n))

/-- The part after a power-on reset with these pin levels: every record at its power-on value; the grade
is fused (R181). -/
def powerOn (addr : Addr) (trg : BitVec 4) (s : State) : State :=
  { State.reset with
    grade := s.grade, addrPins := addr, trgPins := trg, station := addr,
    table := List.replicate s.n (Entry.free .exclusive),
    slots := resetSlots s.grade trg, freeCount := s.freeCount, pending := s.pending }

/-- The supply fails (R19, log 23): the line, SDO and the outputs are driven no more. -/
def powerFail (s : State) : State :=
  (((({ s with powered := false } : State).withLine
    { s.line with phase := .off, recessive := 0, tx := none, begun := [], hold := none, ended := none }).withSlots
    (s.slots.map (fun x => { x with gnt := false }))).withPort { s.port with sdo := none })

/-! ## The warm reset (R87, R184) -/

/-- The configuration after a warm reset (R182, R183): kept; when UNCONFIGURED, the fields as written and
CONFIG_STATUS UNCOMMITTED. -/
def warmConfig (unconfigured : Bool) (c : ConfigBlock) : ConfigBlock :=
  if unconfigured then { c with status := .uncommitted, detail := 0 } else c

/-- The membership state after a warm reset, before the entry actions of LISTENING (R87). -/
def State.warmDest (s : State) : MState :=
  if s.member.state = .unconfigured then .unconfigured else s.autojoinDest

/-- The warm reset of every block (R184): every record takes its reset value but those R184 keeps, and the
station address and the TRG inputs are sampled. No event is set (R66, R171). -/
def warmResetNow (s : State) : State :=
  let unconfigured := decide (s.member.state = .unconfigured)
  let r : State :=
    { s with
      station := s.addrPins,
      config := warmConfig unconfigured s.config,
      line := { Line.initial with bitDiv := if unconfigured then none else s.line.bitDiv },
      table := clearEntries s.table,
      member := { Member.initial with state := s.warmDest },
      snap := .initial, digest := .initial, time := ⟨!unconfigured, 0⟩, leases := [], req := .initial,
      slots := resetSlots s.grade s.trgPins,
      errors := { s.errors with mask := 0 },
      port := { Port.initial with
        state := if s.port.state = .readyAtHoldEnd then .answering else .inReset,
        txn := s.port.txn } }
  (if s.warmDest = .listening then listeningActions true r else r).withEvents .initial

/-- The port takes no part in transactions from the start of a warm reset, and the rest of the one in
progress is ignored (R178, R184). -/
def Port.enterReset (p : Port) : Port :=
  { p with state := .inReset, txn := if p.txn = .closed then .closed else .ignored,
           wr := none, rd := none, cmp := none, sdo := none }

/-- A warm reset starts (R184): the abort of a frame in progress first (R19), and every block's reset then,
at the end of the hold, or at once when there is no hold to wait for. -/
def warmStart (ins : ResetInputs) (s : State) : State :=
  let s1 := ({ s with addrPins := ins.addr, trgPins := ins.trg } : State).withPort s.port.enterReset
  match s.line.tx, s.line.hold with
  | none, some h => s1.withLine { s.line with hold := some { h with change := .warmReset } }
  | _, _ =>
    match s.heldLine .warmReset ins.toHoldPlace with
    | some l => s1.withLine l
    | none => warmResetNow s1

/-- RSTn is asserted for a number of CLK periods (R184): 2 or more start a warm reset; whether one does is a
free value (log 12). The part is in the reset for as long as RSTn stays asserted: the state after the
command is that at its release, or that of the hold which outlasts it (log 40). -/
def assertReset (clks : Nat) (ins : ResetInputs) (s : State) : State :=
  if Config.resetClks ≤ clks then warmStart ins s
  else if clks = 0 then s
  else
    let s1 := { s with freeCount := s.freeCount + 1 }
    if Config.shortResetStarts s.freeCount then warmStart ins s1 else s1

/-- A warm reset waits for the end of a hold. -/
def State.resetWaits (s : State) : Bool :=
  match s.line.hold with
  | some ⟨_, .warmReset, _⟩ => true
  | _ => false

/-- 64 CLK periods have passed since RSTn was released, or since the write (R184): the port answers, or will
when the hold that the reset waits for has ended. -/
def portReady (s : State) : State :=
  match s.port.state with
  | .inReset =>
    s.withPort { s.port with state := if s.resetWaits then .readyAtHoldEnd else .answering }
  | .answering | .readyAtHoldEnd => s

/-- The hold ends (R19): the line's idle gap begins, and the change of state that waited takes effect. The frame
of a hold as a receiver is counted by the FRAME_VOIDED before it (log 45). -/
def holdEnd (s : State) : State :=
  match s.line.hold with
  | none => s
  | some h =>
    let s1 := s.withLine { s.line with phase := .gap, recessive := 0, begun := [], hold := none }
    match h.change with
    | .warmReset => warmResetNow s1
    | .leave dest st => leaveNow dest st s1

/-! ## The commands -/

/-- POWER_ON_RESET (R87). -/
def execPowerOnReset (addr : Addr) (trg : BitVec 4) (s : State) : Result := .next (powerOn addr trg s)

/-- RSTN_WARM_RESET (R184). -/
def execRstnWarmReset (clks : Nat) (pins : ResetPins) (place : HoldPlace) (s : State) : Result :=
  live (assertReset clks ⟨pins, place⟩) s

/-- WARM_RESET (R184): 1 written to CONTROL.WARM_RESET. -/
def execWarmReset (pins : ResetPins) (place : HoldPlace) (s : State) : Result :=
  hostWrite .control (warmStart ⟨pins, place⟩) s

/-- PORT_READY (R184). -/
def execPortReady (s : State) : Result := live portReady s

/-- ABORT_HOLD_END (R19). -/
def execAbortHoldEnd (s : State) : Result := live holdEnd s

/-- POWER_FAIL (R19). -/
def execPowerFail (s : State) : Result := live powerFail s

end Sys2Proof.Machine
end

