-- ==== Sys2Proof/Machine/SlotCommands.lean ====
section
/-! DEFINITION. The commands of the trigger slots (chapter 9): the writes of the slot registers and the
edges of the TRG inputs. -/

namespace Sys2Proof.Machine

/-- Stop is set: the slot then ends in DISABLED (R152). -/
def Slot.stopped (x : Slot) : Slot := { x with stop := true }

/-- A HELD slot's claim is released by its edge or by the clearing of ENABLE (R159); an expiry that a tick
has brought about is taken first (R127). -/
def slotLetGo (n : BitVec 2) (s : State) : State := slotRelease n (settleLeases s)

/-! ## ENABLE (R153) -/

/-- A slot that passed the check when ENABLE was set (R153). -/
def Slot.armed (x : Slot) : Slot := { x with state := .armed, missed := false, stop := false }

/-- ENABLE written 1 (R153): acts on a DISABLED slot alone. -/
def enableSlot (n : BitVec 2) (s : State) : State :=
  let x := s.slotAt n
  if x.state = .disabled then
    match slotCheck s.grade (decide (s.member.state = .unconfigured)) s.table x with
    | some c => slotEvent n c s
    | none => modifySlot n Slot.armed s
  else s

/-- ENABLE written 0 (R153). -/
def disableSlot (n : BitVec 2) (s : State) : State :=
  match (s.slotAt n).state with
  | .disabled => s
  | .armed | .triggered => modifySlot n (fun x => { x with state := .disabled }) s
  | .claiming => slotWithdraw n (modifySlot n Slot.stopped s)
  | .held => slotLetGo n (modifySlot n Slot.stopped s)
  | .withdrawing | .releasing => modifySlot n Slot.stopped s

/-- ENABLE is written (R153). -/
def writeEnable (n : BitVec 2) (v : Bool) (s : State) : State :=
  if v then enableSlot n s else disableSlot n s

/-! ## SLOT_CTRL and SLOT_SPEC (R153, R185) -/

/-- MODE, SOURCE and SIGNAL_CODE of a SLOT_CTRL value are stored; only a DISABLED slot takes them. -/
def Slot.setCtrl (v : Byte) (x : Slot) : Slot :=
  if x.state = .disabled then
    { x with mode := if v.getLsbD 6 then .follow else .single,
             source := v.extractLsb' 3 3, code := v.extractLsb' 0 3 }
  else x

/-- The claim specification is written; only a DISABLED slot takes it (R153). -/
def Slot.setSpec (p : SlotSpec) (x : Slot) : Slot := if x.state = .disabled then { x with spec := p } else x

/-- SLOT_CTRL is written (R185): the fields are stored, and then the written ENABLE acts. -/
def writeSlotCtrl (n : BitVec 2) (v : Byte) (s : State) : State :=
  writeEnable n (v.getLsbD 7) (modifySlot n (Slot.setCtrl v) s)

/-! ## FIRE and the flags -/

/-- FIRE is written 1 (R154): the trigger event of a slot of source SOFTWARE, code 0. -/
def fireSlot (n : BitVec 2) (s : State) : State :=
  if (s.slotAt n).source = 0 then slotTrigger n s else s

/-- 1 written to the trigger flag: a TRIGGERED slot returns to ARMED (R155). -/
def Slot.clearTrigger (x : Slot) : Slot := if x.state = .triggered then { x with state := .armed } else x

/-- 1 written to MISSED (R152). -/
def Slot.clearMissed (x : Slot) : Slot := { x with missed := false }

/-! ## Edges (R154, R155, R159, R160) -/

/-- The opposite edge of a FOLLOW slot. -/
def oppositeEdge (n : BitVec 2) (s : State) : State :=
  match (s.slotAt n).state with
  | .disabled | .armed | .withdrawing | .releasing => s
  | .triggered => modifySlot n (fun x => { x with state := .armed }) s
  | .claiming => slotWithdraw n s
  | .held => slotLetGo n s

/-- The level of TRGn that a reset would sample. -/
def setTrgPin (n : BitVec 2) (level : Bool) (s : State) : State :=
  let bit := BitVec.ofNat 4 (2 ^ n.toNat)
  s.withTrgPins (if level then s.trgPins ||| bit else s.trgPins &&& ~~~bit)

/-- The synchronised level of TRGn becomes `level`: a change of level is an edge, taken as the slot's
trigger event, as its opposite edge, or as nothing. -/
def pinEdge (n : BitVec 2) (level : Bool) (s : State) : State :=
  let x := s.slotAt n
  if s.slotExists n = false ∨ x.pin = level then s
  else
    let s1 := modifySlot n (fun y => { y with pin := level }) (setTrgPin n level s)
    if x.triggeredBy level then slotTrigger n s1
    else if x.oppositeTo level then oppositeEdge n s1
    else s1

/-! ## The commands -/

/-- A write to a register of the slot that SLOT_SEL selects; a slot that the grade lacks ignores it
(R185). -/
def slotWrite (f : BitVec 2 → State → State) (s : State) : State :=
  if s.slotExists s.port.slotSel then f s.port.slotSel s else s

/-- SLOT_ENABLE (R153). -/
def execSlotEnable (v : Bool) (s : State) : Result :=
  hostWrite .slotCtrl (slotWrite (fun n => writeEnable n v)) s

/-- SLOT_CTRL (R185). -/
def execSlotCtrl (v : Byte) (s : State) : Result :=
  hostWrite .slotCtrl (slotWrite (fun n => writeSlotCtrl n v)) s

/-- FIRE (R154). -/
def execFire (s : State) : Result := hostWrite .slotStatus (slotWrite fireSlot) s

/-- TRIGGER_FLAG_CLEAR (R155). -/
def execTriggerFlagClear (s : State) : Result :=
  hostWrite .slotStatus (slotWrite (fun n => modifySlot n Slot.clearTrigger)) s

/-- MISSED_CLEAR (R152). -/
def execMissedClear (s : State) : Result :=
  hostWrite .slotStatus (slotWrite (fun n => modifySlot n Slot.clearMissed)) s

/-- TRG_EDGE (R154). -/
def execTrgEdge (pin : BitVec 2) (level : Bool) (s : State) : Result := live (pinEdge pin level) s

end Sys2Proof.Machine
end

