-- ==== Sys2Proof/Machine/Port.lean ====
section
/-! DEFINITION. The Serial Port (R178 to R185, section 12.5): what every register reads, how a read transaction
goes through them, what a write of each does, and the two windows. -/

namespace Sys2Proof.Machine

/-! ## Numeric codes (section 12.7) -/

def MState.code : MState → Nat
  | .unconfigured => 0 | .listening => 1 | .joining => 2 | .active => 3 | .leaving => 4 | .detached => 5

def Engine.code : Engine → Nat
  | .idle => 0 | .seeking => 1 | .requesting => 2 | .receiving => 3

def JoinCause.code : JoinCause → Nat
  | .none => 0 | .donorLimit => 1 | .withdrawUnresolved => 2

def PeerState.code : PeerState → Nat
  | .absent => 0 | .listening => 1 | .joining => 2 | .active => 3

def MatchState.code : MatchState → Nat
  | .unknown => 0 | .matching => 1 | .mismatch => 2

def DigestStatus.code : DigestStatus → Nat
  | .none => 0 | .agree => 1 | .disagree => 2

def LeaseState.code : LeaseState → Nat
  | .running => 0 | .warned => 1 | .releasePending => 2 | .expiredPending => 3

def Phase.code : Phase → Nat
  | .outgoing => 0 | .waiting => 1 | .withdrawing => 2 | .releasing => 3 | .signalling => 4

def SlotState.code : SlotState → Nat
  | .disabled => 0 | .armed => 1 | .triggered => 2 | .claiming => 3 | .withdrawing => 4 | .held => 5
  | .releasing => 6

def SlotCause.code : SlotCause → Nat
  | .none => 0 | .missed => 1 | .badMode => 2 | .badSpec => 3 | .conflict => 4 | .aborted => 5
  | .expired => 6

def ConfigStatus.code : ConfigStatus → Byte
  | .uncommitted => 0 | .busy => 1 | .committed => 2 | .kindGrade => 3 | .dropoutRange => 4
  | .leaseRange => 5 | .digestRange => 6

def HeaderOrigin.code : HeaderOrigin → Byte
  | .noFrame => 0 | .received => 1 | .sent => 2

/-! ## What the registers read -/

/-- Bytes of zeros, as an absent record reads (R185). -/
def zeros (n : Nat) : List Byte := List.replicate n 0

/-- A value shifted into its place in a byte. -/
def field (value shift : Nat) : Byte := byteOf (value * 2 ^ shift)

/-- CAPABILITY (R181). -/
def State.capabilityBytes (s : State) : List Byte :=
  [byteOf s.n,
    flagBit (decide (s.grade = .vg418)) 7 ||| flagBit (decide (s.grade = .vg418l)) 6 ||| byteOf s.grade.slots]

/-- MEMBERSHIP; while no donor is chosen the donor's bits read 0 (log 38). -/
def State.membershipBytes (s : State) : List Byte :=
  [byteOf s.member.state.code,
    field s.snap.engine.code 6 ||| field s.snap.failures 4 ||| byteOf s.snap.cause.code,
    byteOf s.snap.cursor,
    match s.snap.donor with
    | none => flagBit true 7
    | some d => byteOf d.toNat]

/-- ERR_FIRST: 0, or the kind's bit number plus 1. -/
def State.errFirstByte (s : State) : Byte :=
  match s.errors.first with
  | none => 0
  | some k => byteOf (k.bit + 1)

/-- ERR_HEADER. -/
def Header.bytes (h : Header) : List Byte :=
  [h.origin.code, h.contention.setWidth 8, h.kind.setWidth 8, h.length] ++
    (List.range 8).map (fun i => h.payload.getD i 0)

/-- LEASE_VIEW of a record. -/
def Lease.bytes (l : Lease) : List Byte :=
  [flagBit true 7 ||| field l.cls 4 ||| byteOf l.state.code, nibbles l.source.code l.tokens.length] ++
    (List.range 4).map (tokenByte l.tokens) ++ [byteOf l.units, l.tag] ++
    bytes16 (BitVec.ofNat 16 l.counter)

/-- PEND_VIEW of an entry; fields that do not apply, and token bytes beyond the list, read 0 (log 17). -/
def PendEntry.bytes (e : PendEntry) : List Byte :=
  [flagBit true 7 ||| byteOf e.phase.code, nibbles e.source.code e.kind.code, e.tag,
    byteOf (e.origin.getD 0), nibbles e.list.length e.progress.length] ++
    (List.range 4).map (tokenByte e.list) ++ [nibbles e.units e.cls]

/-- The presence entry as read: that of the own address shows the station's own state (R67). -/
def State.peerRead (s : State) (a : Addr) : Peer :=
  if a = s.station then
    ⟨match s.member.state with
      | .listening => .listening
      | .joining => .joining
      | .active | .leaving => .active
      | .unconfigured | .detached => .absent,
      0, if s.takesPart then .matching else .unknown, .none⟩
  else s.peerAt a

/-- PEER_VIEW of an entry. -/
def Peer.bytes (a : Addr) (p : Peer) : List Byte :=
  [byteOf a.toNat,
    field p.state.code 6 ||| field p.config.code 4 ||| field p.digest.code 2 |||
      byteOf (p.dropout / 256 % 4),
    byteOf p.dropout]

/-- SLOT_CTRL. -/
def Slot.ctrlByte (x : Slot) : Byte :=
  flagBit x.enableRead 7 ||| flagBit (decide (x.mode = .follow)) 6 ||| field x.source.toNat 3 |||
    byteOf x.code.toNat

/-- SLOT_SPEC. -/
def SlotSpec.bytes (p : SlotSpec) : List Byte :=
  [p.listLen, p.t0, p.t1, p.t2, p.t3, p.units, p.cls, p.tag]

/-- SLOT_STATUS; FIRE reads 0. -/
def Slot.statusBytes (x : Slot) : List Byte :=
  [field x.state.code 4 ||| flagBit x.triggerFlag 3 ||| flagBit x.missed 2 ||| flagBit x.stop 1 |||
      flagBit x.pin 0,
    byteOf x.cause.code]

/-- A slot register: that of a slot the grade lacks reads 0 (R185). -/
def State.slotBytes (s : State) (n : Nat) (f : Slot → List Byte) : List Byte :=
  if s.slotExists s.port.slotSel then f (s.slotAt s.port.slotSel) else zeros n

/-- A lease class's register. -/
def ClassParams.bytes (p : ClassParams) : List Byte :=
  bytes16 p.len ++ bytes16 p.w ++ bytes16 p.v ++ [flagBit p.strict 0]

/-- The completion record that the window delivers next, when none is being read (R180): the head, or the
EMPTY record of eight zero bytes. -/
def State.cmpCapture (s : State) : CmpRead :=
  match s.req.cmp with
  | [] => ⟨zeros 8, false, 0⟩
  | c :: _ => ⟨c.bytes, true, 0⟩

/-- The record being read, or the one whose reading begins. -/
def State.cmpReading (s : State) : CmpRead := s.port.cmp.getD s.cmpCapture

/-- The bytes of a register, most significant first; unassigned bits read 0 (log 15). For CMP_DATA this is
the byte that the next CMP_DATA command delivers. -/
def State.regBytes (s : State) : Reg → List Byte
  | .id => [0x6B, Config.revision]
  | .capability => s.capabilityBytes
  | .station => [s.station.setWidth 8]
  | .membership => s.membershipBytes
  | .control => [flagBit s.events.wakeAny 2]
  | .configStatus => [s.config.status.code, s.config.detail]
  | .event => bytes16 s.eventWord
  | .irqEn => bytes16 s.events.irqEn
  | .wakeEn => bytes16 s.events.wakeEn
  | .signalLatch => [s.events.latch]
  | .reqData => [0]
  | .reqSpace => [byteOf (Config.reqFifoDepth - s.req.fifo.length)]
  | .cmpData => [s.cmpReading.record.getD s.cmpReading.taken 0]
  | .cmpCount => [byteOf s.req.cmp.length]
  | .rfc => [byteOf s.line.rfc]
  | .tfc => [byteOf s.line.tfc]
  | .errStatus => bytes16 s.errors.status
  | .errMask => bytes16 s.errors.mask
  | .errFirst => [s.errFirstByte]
  | .errHeader => s.errors.header.bytes
  | .tableDigest => bytes32 s.tableDigest
  | .configDigest => bytes32 s.config.digest
  | .leaseSel => [s.port.leaseSel.setWidth 8]
  | .leaseView =>
    match s.leaseOf s.port.leaseSel.toNat with
    | some l => l.bytes
    | none => zeros 10
  | .pendSel => [s.port.pendSel.setWidth 8]
  | .pendView =>
    match s.pendAt s.port.pendSel.toNat with
    | some e => e.bytes
    | none => zeros 10
  | .peerSel => [s.port.peerSel.setWidth 8]
  | .peerView => (s.peerRead s.port.peerSel).bytes s.port.peerSel
  | .slotSel => [s.port.slotSel.setWidth 8]
  | .slotCtrl => s.slotBytes 1 (fun x => [x.ctrlByte])
  | .slotSpec => s.slotBytes 8 (fun x => x.spec.bytes)
  | .slotStatus => s.slotBytes 2 Slot.statusBytes
  | .kindSel => [s.port.kindSel.setWidth 8]
  | .kindData => [if s.kindSelExists then s.config.fields.kinds.getD s.port.kindSel.toNat 0 else 0]
  | .presencePeriod => [s.config.fields.presencePeriod]
  | .dropout => bytes16 (s.config.fields.dropout.setWidth 16)
  | .digestInterval => bytes16 s.config.fields.digestInterval
  | .tickDiv => bytes16 s.config.fields.tickDiv
  | .bitDiv => [s.config.fields.bitDiv]
  | .configFlags =>
    [flagBit s.config.fields.autojoin 1 ||| flagBit s.config.fields.divergenceFatal 0]
  | .lease1 => s.config.fields.class1.bytes
  | .lease2 => s.config.fields.class2.bytes
  | .lease3 => s.config.fields.class3.bytes

/-- What a read transaction that begins at an address gets within one register (R178, log 21): the capture
from that byte to the register's last, or one 0 where the map has no register. It gets nothing, SDO
undriven, while the port takes no bytes. -/
def State.readRegister (s : State) (a : BitVec 7) : List Byte :=
  if s.portOpen then
    match registerAt a with
    | none => [0]
    | some (r, base, _) => (s.regBytes r).drop (a.toNat - base)
  else []

/-! ## Reading (R178, R180) -/

/-- One byte is read from the completion window (R180): it comes from the capture, and the 8th byte of the
head record pops it. -/
def readCmpByte (s : State) : State :=
  let c := s.cmpReading
  let last := 8 ≤ c.taken + 1
  let s1 := s.withPort { s.port with
    addr := cmpDataAddr, wr := none, rd := none, sdo := some (c.record.getD c.taken 0),
    cmp := if last then none else some { c with taken := c.taken + 1 } }
  if last ∧ c.isHead then s1.withReq { s1.req with cmp := s1.req.cmp.drop 1 } else s1

/-- The capture that a byte of a register comes from: the one that is held when the transaction has read the
register before this byte, and otherwise one of the whole register, taken at this byte. -/
def State.capture (s : State) (r : Reg) : RegRead :=
  match s.port.rd with
  | some c => if c.base = r.base then c else ⟨r.base, s.regBytes r⟩
  | none => ⟨r.base, s.regBytes r⟩

/-- One data byte of a read transaction at an address (R178): SDO drives it, and the address moves on. An
address with no register reads 0. -/
def readByte (a : BitVec 7) (s0 : State) : State :=
  let s := inTransaction .read a s0
  if a = cmpDataAddr then readCmpByte s
  else
    match registerAt a with
    | none => s.withPort { s.port with addr := nextAddr a, rd := none, sdo := some 0 }
    | some (r, base, _) =>
      let c := s.capture r
      s.withPort { s.port with
        addr := nextAddr a, rd := some c, sdo := some (c.bytes.getD (a.toNat - base) 0) }

/-- A read transaction of n data bytes from an address on: the bytes, and the state when the last has been
read; while the port takes no bytes, none, with SDO undriven. -/
def readBytes : Nat → BitVec 7 → State → List Byte × State
  | 0, _, s => ([], s)
  | n + 1, a, s =>
    if s.portOpen then
      let t := readByte a s
      let r := readBytes n t.port.addr t
      (t.port.sdo.toList ++ r.1, r.2)
    else ([], passBy s)

/-! ## What a write does -/

/-- CONTROL is written (R184): WAKE_ANY, then COMMIT, then WARM_RESET, after which the rest of the
transaction is ignored (log 27). -/
def writeControl (b : Byte) (ins : ResetInputs) (s : State) : State :=
  let s1 := setWakeAny (bitOf b 2) s
  let s2 := if bitOf b 0 then startCommit s1 else s1
  if bitOf b 1 then warmStart ins s2 else s2

/-- The flags of SLOT_STATUS that a write clears. -/
def clearSlotFlags (n : BitVec 2) (b : Byte) (s : State) : State :=
  let s1 := if bitOf b 3 then modifySlot n Slot.clearTrigger s else s
  if bitOf b 2 then modifySlot n Slot.clearMissed s1 else s1

/-- SLOT_STATUS is written: the write-one-to-clear flags of the first byte and FIRE of the second. The
order of the two, where one write has both, is a free value (log 13). -/
def writeSlotStatus (n : BitVec 2) (b0 b1 : Byte) (s : State) : State :=
  if bitOf b1 7 ∧ (bitOf b0 3 ∨ bitOf b0 2) then
    let s1 : State := { s with freeCount := s.freeCount + 1 }
    if Config.fireBeforeClears s.freeCount then clearSlotFlags n b0 (fireSlot n s1)
    else fireSlot n (clearSlotFlags n b0 s1)
  else if bitOf b1 7 then fireSlot n s
  else clearSlotFlags n b0 s

/-- A lease class from the 7 bytes of its register. -/
def leaseWrite (c : LeaseClass) (bs : List Byte) : ConfigWrite :=
  let b (i : Nat) : Byte := bs.getD i 0
  .lease c (half (b 0) (b 1)) (half (b 2) (b 3)) (half (b 4) (b 5)) (b 6)

/-- A claim specification from the 8 bytes of SLOT_SPEC. -/
def slotSpecOf (bs : List Byte) : SlotSpec :=
  let b (i : Nat) : Byte := bs.getD i 0
  ⟨b 0, b 1, b 2, b 3, b 4, b 5, b 6, b 7⟩

/-- A request record from its 8 bytes (section 12.7). -/
def requestOf (bs : List Byte) : Request :=
  let b (i : Nat) : Byte := bs.getD i 0
  ⟨b 0, b 1, b 2, b 3, b 4, b 5, b 6, b 7⟩

/-- A complete request record is pushed, or discarded with REQ_DROPPED when the FIFO holds 8 (R132). -/
def pushRequest (r : Request) (s : State) : State :=
  if s.req.fifo.length < Config.reqFifoDepth then s.withReq { s.req with fifo := s.req.fifo ++ [r] }
  else setEvent .reqDropped s

/-- A byte is written to the request window (R179). -/
def takeReqByte (b : Byte) (s : State) : State :=
  let bs := s.req.asm ++ [b]
  if bs.length < 8 then s.withReq { s.req with asm := bs }
  else pushRequest (requestOf bs) (s.withReq { s.req with asm := [] })

/-- The effect of a whole register's write, its bytes most significant first; a read-only register ignores
it (R178). `ins` is what a warm reset finds, if CONTROL starts one. -/
def writeRegister (r : Reg) (bs : List Byte) (ins : ResetInputs) (s : State) : State :=
  let b0 := bs.getD 0 0
  let h := half b0 (bs.getD 1 0)
  match r with
  | .control => writeControl b0 ins s
  | .event => clearEvents h s
  | .irqEn => setIrqEn h s
  | .wakeEn => setWakeEn h s
  | .signalLatch => clearLatch b0 s
  | .reqData => takeReqByte b0 s
  | .errStatus => clearErrStatus h s
  | .errMask => setErrMask h s
  | .errFirst => clearErrFirst s
  | .leaseSel => s.withPort { s.port with leaseSel := b0.setWidth 6 }
  | .pendSel => s.withPort { s.port with pendSel := b0.setWidth 4 }
  | .peerSel => s.withPort { s.port with peerSel := b0.setWidth 4 }
  | .slotSel => s.withPort { s.port with slotSel := b0.setWidth 2 }
  | .kindSel => s.withPort { s.port with kindSel := b0.setWidth 6 }
  | .slotCtrl => slotWrite (fun n => writeSlotCtrl n b0) s
  | .slotSpec => slotWrite (fun n => modifySlot n (Slot.setSpec (slotSpecOf bs))) s
  | .slotStatus => slotWrite (fun n => writeSlotStatus n b0 (bs.getD 1 0)) s
  | .kindData => writeField (.tokenKind b0) s
  | .presencePeriod => writeField (.presencePeriod b0) s
  | .dropout => writeField (.dropout h) s
  | .digestInterval => writeField (.digestInterval h) s
  | .tickDiv => writeField (.tickDiv h) s
  | .bitDiv => writeField (.bitDiv b0) s
  | .configFlags => writeField (.flags b0) s
  | .lease1 => writeField (leaseWrite .one bs) s
  | .lease2 => writeField (leaseWrite .two bs) s
  | .lease3 => writeField (leaseWrite .three bs) s
  | .id | .capability | .station | .membership | .configStatus | .reqSpace | .cmpData | .cmpCount
  | .rfc | .tfc | .errHeader | .tableDigest | .configDigest | .leaseView | .pendView | .peerView => s

/-- The bytes of a register written so far in the transaction, when a byte at this offset goes on with them
(R178): a write that began inside the register does not. -/
def Port.written (p : Port) (a : BitVec 7) (base : Nat) : Option (List Byte) :=
  if a.toNat = base then some []
  else
    match p.wr with
    | none => none
    | some (start, bs) =>
      if start.toNat = base ∧ bs.length = a.toNat - base then some bs else none

/-- One data byte of a write transaction at an address (R178): the address moves on, and a register takes its
new value when its last byte has been written. -/
def writeByte (a : BitVec 7) (b : Byte) (ins : ResetInputs) (s0 : State) : State :=
  let s := inTransaction .write a s0
  let p := s.port
  let moved : Port := { p with addr := nextAddr a, wr := none, sdo := some 0 }
  match registerAt a with
  | none => s.withPort moved
  | some (r, base, len) =>
    match p.written a base with
    | none => s.withPort moved
    | some bs =>
      if bs.length + 1 = len then writeRegister r (bs ++ [b]) ins (s.withPort moved)
      else s.withPort { moved with wr := some (BitVec.ofNat 7 base, bs ++ [b]) }

/-! ## The commands -/

/-- REGISTER_WRITE (R178): one data byte of a write transaction (log 22), or the command byte of a transaction
(log 39). -/
def execRegisterWrite (addr : BitVec 7) (data : PortByte) (s : State) : Result :=
  match data with
  | .command write => live (beginTransaction write addr) s
  | .data b ins => onPort (writeByte addr b ins) s

/-- The command that a command byte stands for (R178): its top bit is the write flag, its lower seven bits the
address. -/
def commandOf (b : Byte) : Instr := .registerWrite (b.extractLsb' 0 7) (.command (b.getLsbD 7))

/-- TRANSACTION_END (R178), also of a transaction that the port has ignored. -/
def execTransactionEnd (s : State) : Result := live endTransaction s

/-- REQ_DATA (R179). -/
def execReqData (data : Byte) (s : State) : Result := hostWrite .reqData (takeReqByte data) s

/-- CMP_DATA (R180). -/
def execCmpData (s : State) : Result := onPort (readByte cmpDataAddr) s

end Sys2Proof.Machine
end

