-- ==== Sys2Proof/Machine/Requests.lean ====
section
/-! DEFINITION. The Request Unit's dispatcher (chapter 8): when the head of the request FIFO is taken, the
checks of every request kind, and the meanings of the request commands, of SLOT_ISSUE and of
HELD_WITHDRAW_PLACE. -/

namespace Sys2Proof.Machine

/-! ## The checks of the requests that need an outgoing place -/

/-- The checks of an ACQUIRE (R138): none when it passes, otherwise the completion that refuses it. -/
def acquireRefusal (s : State) (r : Request) : Option Completion :=
  let a := r.acquireOps
  let code := ReqKind.acquire.code
  if s.member.state ≠ .active then some (.bare .notActive r.tag .host code)
  else if !a.sound s.table s.n then some (.bare .badRequest r.tag .host code)
  else if s.grade = .vg418l ∧ a.len = 1 ∧ a.units ≠ 1 then some (.bare .unsupported r.tag .host code)
  else if !a.tokens.all (fun k => decide (a.units ≤ (entryAt s.table k).kind.capacity)) then
    some (.bare .badRequest r.tag .host code)
  else (s.conflict a.tokens).map (fun k => .one .conflict r.tag .host code (byteOf k))

/-- The checks of a SIGNAL (R146). -/
def signalRefusal (s : State) (r : Request) : Option Completion :=
  if s.member.state ≠ .active then some (.bare .notActive r.tag .host ReqKind.signal.code)
  else if 7 < r.b4.toNat then some (.bare .badRequest r.tag .host ReqKind.signal.code)
  else none

/-- The checks of a CANCEL (R142). -/
def cancelRefusal (s : State) (r : Request) : Option Completion :=
  let refuse (st : Status) : Option Completion := some (.one st r.tag .host ReqKind.cancel.code r.b2)
  match (s.claimOf r.b2.toNat).bind s.pendAt with
  | none => refuse .notFound
  | some e =>
    if e.source ≠ .host then refuse .slotOwned
    else if e.phase = .withdrawing then refuse .conflict
    else none

/-- The claim that a CANCEL names is WAITING. -/
def cancelWaits (s : State) (r : Request) : Bool :=
  ((s.claimOf r.b2.toNat).bind s.pendAt).any (fun e => e.phase == .waiting)

/-- The head needs an outgoing place: an ACQUIRE or a SIGNAL whose checks all pass, or a CANCEL whose
claim is WAITING (R133). -/
def needsOutgoing (s : State) (r : Request) : Bool :=
  match kindOfCode r.code with
  | some .acquire => (acquireRefusal s r).isNone
  | some .signal => (signalRefusal s r).isNone
  | some .cancel => (cancelRefusal s r).isNone && cancelWaits s r
  | some .release | some .renew | some .query | some .detach | some .join | none => false

/-! ## The dispatcher (R133, R134) -/

/-- The slot that issues next: the lowest-numbered TRIGGERED slot, in ACTIVE, with two places and one
outgoing place free (R134, R156). -/
def State.issuableSlot (s : State) : Option (BitVec 2) :=
  if s.member.state = .active ∧ s.reserved + 2 ≤ Config.places ∧ 0 < s.outgoingFree then
    s.slotList.find? (fun n => decide ((s.slotAt n).state = .triggered))
  else none

/-- The head that the dispatcher may take now (R133); ready slots issue before it (R134). -/
def State.dispatchable (s : State) : Option Request :=
  match s.req.fifo with
  | [] => none
  | r :: _ =>
    if s.reserved < Config.places ∧ (needsOutgoing s r = true → 0 < s.outgoingFree) ∧
        s.issuableSlot = none then some r
    else none

/-- The head leaves the request FIFO (R132). -/
def popRequest (s : State) : State := s.withReq { s.req with fifo := s.req.fifo.drop 1 }

/-- The dispatcher takes the head if it may and the head is of this kind (none: of no kind); otherwise
nothing happens (log 3). -/
def takeHead (k : Option ReqKind) (f : Request → State → State) (s : State) : State :=
  match s.dispatchable with
  | none => s
  | some r => if kindOfCode r.code = k then f r (popRequest s) else s

/-! ## ACQUIRE, SIGNAL and CANCEL -/

/-- An ACQUIRE is taken (R138). -/
def takeAcquire (r : Request) (s : State) : State :=
  match acquireRefusal s r with
  | some c => pushCompletion c s
  | none =>
    let a := r.acquireOps
    let n := s.freePend
    addOutgoing ⟨n, .claim (claimMode a.mode) a.units a.tokens⟩
      (addPend
        { tag := r.tag, source := .host, kind := .acquire, origin := a.tokens.head?, list := a.tokens,
          units := a.units, cls := a.cls, phase := .outgoing, progress := [], heldWithdraw := false } s)

/-- A SIGNAL is taken (R146), the high byte of its mask first in the record (log 37). -/
def takeSignal (r : Request) (s : State) : State :=
  match signalRefusal s r with
  | some c => pushCompletion c s
  | none =>
    let n := s.freePend
    addOutgoing ⟨n, .signal (half r.b2 r.b3) (r.b4.setWidth 3)⟩
      (addPend
        { tag := r.tag, source := .host, kind := .signal, origin := none, list := [], units := 0,
          cls := 0, phase := .signalling, progress := [], heldWithdraw := false } s)

/-- The entry of a CANCEL that waits for its claim (R143, R144). -/
def cancelEntry (r : Request) : PendEntry :=
  { tag := r.tag, source := .host, kind := .cancel, origin := some r.b2.toNat, list := [], units := 0,
    cls := 0, phase := .withdrawing, progress := [], heldWithdraw := false }

/-- A CANCEL that passes its checks, on claim entry n (R142 to R144). -/
def cancelClaim (r : Request) (n : Nat) (e : PendEntry) (s : State) : State :=
  let wait := addPend (cancelEntry r) (setPend n (some { e with phase := .withdrawing }) s)
  match e.phase with
  | .outgoing =>
    if s.claimOnLine n then wait
    else
      pushCompletion (.one .done r.tag .host ReqKind.cancel.code r.b2)
        (withdrawClaim n e [] (removeOutgoing (fun f => f.entry == n && f.isClaim) s))
  | .waiting => addOutgoing ⟨n, .withdraw r.b2.toNat⟩ wait
  | .withdrawing | .releasing | .signalling => s

/-- A CANCEL is taken (R142). -/
def takeCancel (r : Request) (s : State) : State :=
  match cancelRefusal s r with
  | some c => pushCompletion c s
  | none =>
    match s.claimOf r.b2.toNat with
    | none => s
    | some n =>
      match s.pendAt n with
      | none => s
      | some e => cancelClaim r n e s

/-! ## RELEASE and RENEW -/

/-- Steps 1 to 4 of R140: the record, or the completion that refuses the request. -/
def releaseCheck (s : State) (r : Request) (kind : ReqKind) : Except Completion Lease :=
  if s.member.state.hasTable = false then .error (.bare .notActive r.tag .host kind.code)
  else
    match r.releaseTarget s.grade.slots with
    | none => .error (.bare .badRequest r.tag .host kind.code)
    | some (.token k) =>
      match s.leaseOf k with
      | some l =>
        if l.source = .host then .ok l else .error (.one .slotOwned r.tag .host kind.code r.b3)
      | none => .error (.one .notHeld r.tag .host kind.code r.b3)
    | some (.slot n) =>
      match s.leaseOfSlot n with
      | some l => .ok l
      | none => .error (.one .notHeld r.tag .host kind.code r.b3)

/-- The slot of a record that a host RELEASE has taken lowers GNTn and becomes RELEASING, its place still
held (R159). -/
def tellHostRelease (src : Source) (s : State) : State :=
  match src with
  | .host => s
  | .slot n => modifySlot n (fun x => { x with state := .releasing, gnt := false }) s

/-- A RELEASE is taken (R125, R140, R159). The units and the class of R135 are a claim's: its entry has none. -/
def takeRelease (r : Request) (s0 : State) : State :=
  let s := settleLeases s0
  match releaseCheck s r .release with
  | .error c => pushCompletion c s
  | .ok l =>
    if l.pending then
      pushCompletion (.listed .tooLate r.tag .host ReqKind.release.code l.tokens l.units) s
    else
      tellHostRelease l.source
        (addPend
          { tag := r.tag, source := .host, kind := .release, origin := some l.first, list := l.tokens,
            units := 0, cls := 0, phase := .releasing, progress := [], heldWithdraw := false }
          (modifyLeases (fun x => x.names l.first) Lease.releasing s))

/-- The answer of the Lease Unit to a RENEW that finds its record (R123). -/
inductive RenewAnswer where
  | tooLate | noLease | renewed | tooEarly | forfeited
deriving DecidableEq, Repr

/-- R123: the answer from the record's state, class and counter. -/
def renewAnswer (p : ClassParams) (l : Lease) : RenewAnswer :=
  if l.pending then .tooLate
  else if l.cls = 0 then .noLease
  else if l.counter ≤ p.w.toNat then .renewed
  else if p.strict then .forfeited
  else .tooEarly

/-- A record renewed in time: the full length again (R123). -/
def Lease.renewed (p : ClassParams) (l : Lease) : Lease :=
  { l with counter := p.len.toNat, state := startState p }

/-- A RENEW is taken (R123, R124, R141). -/
def takeRenew (r : Request) (s0 : State) : State :=
  let s := settleLeases s0
  let code := ReqKind.renew.code
  match releaseCheck s r .renew with
  | .error c => pushCompletion c s
  | .ok l =>
    let p := s.classParams l.cls
    match renewAnswer p l with
    | .tooLate => pushCompletion (.listed .tooLate r.tag .host code l.tokens l.units) s
    | .noLease => pushCompletion (.listed .noLease r.tag .host code l.tokens l.units) s
    | .renewed =>
      pushCompletion (.listed .renewed r.tag .host code l.tokens l.cls)
        (setEventIf (startState p == .warned) .leaseWarn
          (modifyLeases (fun x => x.names l.first) (Lease.renewed p) s))
    | .tooEarly =>
      pushCompletion (.listed .tooEarly r.tag .host code l.tokens l.units)
        (logError .earlyRenew .noFrame s)
    | .forfeited =>
      pushCompletion (.listed .forfeited r.tag .host code l.tokens l.units)
        (logError .earlyRenew .noFrame (expireLease l.first s))

/-! ## QUERY, DETACH, JOIN and unknown kinds -/

/-- Numeric values of a last change (section 12.7). -/
def LastChange.code : LastChange → Nat
  | .none => 0 | .claimed => 1 | .released => 2 | .forfeited => 3 | .withdrawn => 4 | .evicted => 5

/-- Bytes 3 to 7 of a QUERY_RESULT (R50, section 12.7). -/
def queryResult (tag : Byte) (e : Entry) : Completion where
  status := .queryResult
  tag := tag
  source := .host
  kind := BitVec.ofNat 4 ReqKind.query.code
  info := nibbles e.change.code e.kind.byte.toNat
  d0 := nibbles e.holders.length e.freeUnits
  d1 := match e.holders.head? with
    | some h => nibbles h.station.toNat h.units
    | none => 0
  d2 := nibbles e.waiters.length (match e.waiters.head? with
    | some w => w.position
    | none => 0)
  d3 := match e.waiters.head? with
    | some w => nibbles w.station.toNat w.units
    | none => 0

/-- A QUERY is taken (R147). -/
def takeQuery (r : Request) (s : State) : State :=
  let c :=
    if s.member.state.hasTable = false then .bare .notActive r.tag .host ReqKind.query.code
    else if s.n ≤ r.b2.toNat then .bare .badRequest r.tag .host ReqKind.query.code
    else queryResult r.tag (entryAt s.table r.b2.toNat)
  pushCompletion c s

/-- A DETACH is taken (R148). -/
def takeDetach (r : Request) (s : State) : State :=
  if s.member.state = .active then
    enterLeaving (addPend
      { tag := r.tag, source := .host, kind := .detach, origin := none, list := [], units := 0, cls := 0,
        phase := .releasing, progress := [], heldWithdraw := false } s)
  else pushCompletion (.bare .wrongState r.tag .host ReqKind.detach.code) s

/-- A JOIN is taken (R84, R149). -/
def takeJoin (r : Request) (s : State) : State :=
  if s.member.state = .detached then
    pushCompletion (.bare .done r.tag .host ReqKind.join.code) (enterListening true s)
  else pushCompletion (.bare .wrongState r.tag .host ReqKind.join.code) s

/-- A record of no request kind is answered BAD_REQUEST (R149). -/
def takeUnknown (r : Request) (s : State) : State := pushCompletion (.bare .badRequest r.tag .host 0) s

/-! ## Slots at the Request Unit -/

/-- Slot n issues (R151, R156): a CONFLICT completion, or a claim entry with its CLAIM and a held place. -/
def issueSlot (n : BitVec 2) (s : State) : State :=
  let p := (s.slotAt n).spec
  match s.conflict p.tokens with
  | some k =>
    slotReturn n false (slotEvent n .conflict
      (pushCompletion (.one .conflict p.tag (.slot n) ReqKind.acquire.code (byteOf k)) s))
  | none =>
    let m := s.freePend
    modifySlot n (fun x => { x with state := .claiming, heldPlace := true })
      (addOutgoing ⟨m, .claim .wait p.units.toNat p.tokens⟩
        (addPend
          { tag := p.tag, source := .slot n, kind := .acquire, origin := p.tokens.head?,
            list := p.tokens, units := p.units.toNat, cls := p.cls.toNat, phase := .outgoing,
            progress := [], heldWithdraw := false } s))

/-- The slot whose held WITHDRAW is placed next: the lowest-numbered one (R145). -/
def State.nextHeldWithdraw (s : State) : Option (Nat × PendEntry) :=
  slotNumbers.findSome? (fun k =>
    (s.findPend (fun e => e.source == .slot k && e.heldWithdraw)).bind
      (fun m => (s.pendAt m).map (fun e => (m, e))))

/-- A held WITHDRAW is placed on the outgoing list when it has room (R145). -/
def placeHeld (s : State) : State :=
  if s.req.outgoing.length < Config.outgoingDepth then
    match s.nextHeldWithdraw with
    | some (m, e) =>
      addOutgoing ⟨m, .withdraw (e.origin.getD 0)⟩ (setPend m (some { e with heldWithdraw := false }) s)
    | none => s
  else s

/-! ## The commands -/

/-- ACQUIRE (R138). -/
def execAcquire (s : State) : Result := live (takeHead (some .acquire) takeAcquire) s

/-- RELEASE (R140). -/
def execRelease (s : State) : Result := live (takeHead (some .release) takeRelease) s

/-- RENEW (R141). -/
def execRenew (s : State) : Result := live (takeHead (some .renew) takeRenew) s

/-- CANCEL (R142). -/
def execCancel (s : State) : Result := live (takeHead (some .cancel) takeCancel) s

/-- SIGNAL (R146). -/
def execSignal (s : State) : Result := live (takeHead (some .signal) takeSignal) s

/-- QUERY (R147). -/
def execQuery (s : State) : Result := live (takeHead (some .query) takeQuery) s

/-- DETACH (R148). -/
def execDetach (s : State) : Result := live (takeHead (some .detach) takeDetach) s

/-- JOIN (R149). -/
def execJoin (s : State) : Result := live (takeHead (some .join) takeJoin) s

/-- UNKNOWN_REQUEST (R149). -/
def execUnknownRequest (s : State) : Result := live (takeHead none takeUnknown) s

/-- SLOT_ISSUE (R156). -/
def execSlotIssue (s : State) : Result :=
  live (fun s =>
    match s.issuableSlot with
    | some n => issueSlot n s
    | none => s) s

/-- HELD_WITHDRAW_PLACE (R145). -/
def execHeldWithdrawPlace (s : State) : Result := live placeHeld s

end Sys2Proof.Machine
end

