-- ==== Sys2Proof/Machine/Time.lean ====
section
/-! DEFINITION. Time: the tick and the ends of the timers that count it (R115, R116 and the rules of the
timers' owners). A timer's end has come when the timer is at some 0 (log 4). -/

namespace Sys2Proof.Machine

/-! ## The tick -/

/-- A timer at a tick (R116): a stopped one stays stopped, one whose end has come stays at 0. -/
def tickTimer (t : Option Nat) : Option Nat := t.map (fun n => n - 1)

/-- A peer's dropout counter at a tick (R69): that of an ABSENT entry does not run. -/
def Peer.tick (p : Peer) : Peer :=
  if p.state = .absent then p else { p with dropout := p.dropout - 1 }

/-- A tick at the timers of the Membership Controller, the Snapshot Engine and the Digest Unit, of a station
that takes part in the line (R69, R72, R74, R88, R108). -/
def tickStation (s : State) : State :=
  ((s.withMember { s.member with
    presenceTimer := tickTimer s.member.presenceTimer,
    listenTimer := tickTimer s.member.listenTimer,
    peers := s.member.peers.map Peer.tick }).withSnap
    { s.snap with timer := tickTimer s.snap.timer }).withDigest
    { s.digest with timer := tickTimer s.digest.timer }

/-- The prescaler issues a tick and starts again from 0 (R115). -/
def tick (s : State) : State :=
  if s.time.running then
    let s1 := tickLeases (s.withTime { s.time with prescaler := 0 })
    if s1.takesPart then tickStation s1 else s1
  else s

/-! ## The ends of the timers -/

/-- The expiry of the lease record that names a token, if its counter has reached 0 (R121). -/
def leaseExpiry (k : Nat) (s : State) : State :=
  match s.leaseOf k with
  | none => s
  | some l => if l.overdue then expireLease k s else s

/-- The presence timer has reached 0: it stops and the PRESENCE want is set (R72). -/
def presenceExpiry (s : State) : State :=
  if s.takesPart ∧ s.member.presenceTimer = some 0 then
    s.withMember { s.member with presenceTimer := none, presenceWant := true }
  else s

/-- An EVICT want for an address is set (R70). -/
def State.wantsEvict (s : State) (a : Addr) : Bool := s.member.evictWants.any (fun w => w.1 == a)

/-- A peer's dropout counter has reached 0 (R69): its record leaves the service list (R102), and the peer
becomes ABSENT or, when ACTIVE at an ACTIVE station, wanted out. A peer whose EVICT is wanted stays as it
is until the want ends. -/
def dropoutExpiry (a : Addr) (s : State) : State :=
  let p := s.peerAt a
  if s.takesPart = false ∨ a = s.station ∨ p.state = .absent ∨ p.dropout ≠ 0 ∨ s.wantsEvict a then s
  else
    let s1 := serviceRemove a s
    if p.state = .active ∧ s.member.state = .active then
      s1.withMember { s1.member with evictWants := s1.member.evictWants ++ [(a, .dropout)] }
    else watchDonor (setPeer a { p with state := .absent } s1)

/-- The listen interval ends (R76): the station joins when it has seen a running system, and founds
otherwise. -/
def listenEnd (s : State) : State :=
  if s.member.state = .listening ∧ s.member.listenTimer = some 0 then
    if s.member.activeSeen then enterJoining s else found s
  else s

/-- The number of failures that ends a join (R97). -/
def donorLimit : Nat := 3

/-- The snapshot timer had run out at the moment at which another error ended the join (R82, log 43): DONOR_LOST
and, at the third failure in a row, JOIN_FAILED, which moves nothing any more. A cause that the join has ended
with stays. -/
def lapsedExpiry (failures : Nat) (s : State) : State :=
  let s1 := logError .donorLost .noFrame (s.withSnap { s.snap with lapsed := none })
  if donorLimit ≤ failures + 1 then
    raise .joinFailed .noFrame .none (s1.withSnap
      { s1.snap with cause := if s1.snap.cause = .none then .donorLimit else s1.snap.cause })
  else s1

/-- The snapshot timer has run out (R96, R97): DONOR_LOST, and then another donor, or the end of the join at
the third failure in a row. -/
def snapshotExpiry (place : HoldPlace) (s : State) : State :=
  if s.snapTimerOut then
    let n := s.snap.failures + 1
    let s1 := logError .donorLost .noFrame (s.withSnap { s.snap with failures := n })
    if donorLimit ≤ n then
      raise .joinFailed .noFrame place
        (s1.withSnap { s1.snap with cause := .donorLimit, timer := none })
    else chooseDonor s1.donorRef s1
  else
    match s.snap.lapsed with
    | some n => lapsedExpiry n s
    | none => s

/-- The digest timer has reached 0 (R108): the DIGEST want is set and the timer loaded again. -/
def digestExpiry (s : State) : State :=
  if s.digest.timer = some 0 then s.withDigest ⟨some s.digestInterval, true⟩ else s

/-! ## The commands -/

/-- TICK (R115). -/
def execTick (s : State) : Result := live tick s

/-- LEASE_EXPIRY (R121). -/
def execLeaseExpiry (token : BitVec 6) (s : State) : Result := live (leaseExpiry token.toNat) s

/-- PRESENCE_TIMER_EXPIRY (R72). -/
def execPresenceTimerExpiry (s : State) : Result := live presenceExpiry s

/-- DROPOUT_EXPIRY (R69). -/
def execDropoutExpiry (peer : Addr) (s : State) : Result := live (dropoutExpiry peer) s

/-- LISTEN_INTERVAL_END (R76). -/
def execListenIntervalEnd (s : State) : Result := live listenEnd s

/-- SNAPSHOT_TIMER_EXPIRY (R96). -/
def execSnapshotTimerExpiry (place : HoldPlace) (s : State) : Result := live (snapshotExpiry place) s

/-- DIGEST_TIMER_EXPIRY (R108). -/
def execDigestTimerExpiry (s : State) : Result := live digestExpiry s

end Sys2Proof.Machine
end

