-- ==== Sys2Proof/Machine/Dispatch.lean ====
section
/-! DEFINITION. The meaning of every command: one arm per constructor of Instr. -/

namespace Sys2Proof.Machine

def exec (i : Instr) (s : State) : Host.Outcome State Fault Refusal :=
  match i with
  -- resets
  | .powerOnReset addr trg => Sys2Proof.Machine.execPowerOnReset addr trg s
  | .rstnWarmReset clks pins place => Sys2Proof.Machine.execRstnWarmReset clks pins place s
  | .warmReset pins place => Sys2Proof.Machine.execWarmReset pins place s
  | .portReady => Sys2Proof.Machine.execPortReady s
  -- configuration
  | .commit => Sys2Proof.Machine.execCommit s
  | .commitComplete => Sys2Proof.Machine.execCommitComplete s
  | .configWrite w => Sys2Proof.Machine.execConfigWrite w s
  -- serial port
  | .registerWrite addr data => Sys2Proof.Machine.execRegisterWrite addr data s
  | .transactionEnd => Sys2Proof.Machine.execTransactionEnd s
  | .reqData data => Sys2Proof.Machine.execReqData data s
  | .cmpData => Sys2Proof.Machine.execCmpData s
  -- event and error registers
  | .eventClear value => Sys2Proof.Machine.execEventClear value s
  | .irqEn value => Sys2Proof.Machine.execIrqEn value s
  | .wakeEn value => Sys2Proof.Machine.execWakeEn value s
  | .wakeAny value => Sys2Proof.Machine.execWakeAny value s
  | .signalLatchClear value => Sys2Proof.Machine.execSignalLatchClear value s
  | .errStatusClear value => Sys2Proof.Machine.execErrStatusClear value s
  | .errMask value => Sys2Proof.Machine.execErrMask value s
  | .errFirstClear value => Sys2Proof.Machine.execErrFirstClear value s
  -- trigger slots
  | .slotEnable value => Sys2Proof.Machine.execSlotEnable value s
  | .slotCtrl value => Sys2Proof.Machine.execSlotCtrl value s
  | .fire => Sys2Proof.Machine.execFire s
  | .triggerFlagClear => Sys2Proof.Machine.execTriggerFlagClear s
  | .missedClear => Sys2Proof.Machine.execMissedClear s
  | .trgEdge pin level => Sys2Proof.Machine.execTrgEdge pin level s
  -- requests
  | .acquire => Sys2Proof.Machine.execAcquire s
  | .release => Sys2Proof.Machine.execRelease s
  | .renew => Sys2Proof.Machine.execRenew s
  | .cancel => Sys2Proof.Machine.execCancel s
  | .signal => Sys2Proof.Machine.execSignal s
  | .query => Sys2Proof.Machine.execQuery s
  | .detach => Sys2Proof.Machine.execDetach s
  | .join => Sys2Proof.Machine.execJoin s
  | .unknownRequest => Sys2Proof.Machine.execUnknownRequest s
  | .slotIssue => Sys2Proof.Machine.execSlotIssue s
  | .heldWithdrawPlace => Sys2Proof.Machine.execHeldWithdrawPlace s
  -- the line
  | .lineWaitDone => Sys2Proof.Machine.execLineWaitDone s
  | .idleGap => Sys2Proof.Machine.execIdleGap s
  | .transmitStart rivals => Sys2Proof.Machine.execTransmitStart rivals s
  | .yieldTimeout => Sys2Proof.Machine.execYieldTimeout s
  | .frameAccepted f => Sys2Proof.Machine.execFrameAccepted f s
  | .frameVoided f => Sys2Proof.Machine.execFrameVoided f s
  | .abortHoldEnd => Sys2Proof.Machine.execAbortHoldEnd s
  -- time
  | .tick => Sys2Proof.Machine.execTick s
  | .leaseExpiry token => Sys2Proof.Machine.execLeaseExpiry token s
  | .presenceTimerExpiry => Sys2Proof.Machine.execPresenceTimerExpiry s
  | .dropoutExpiry peer => Sys2Proof.Machine.execDropoutExpiry peer s
  | .listenIntervalEnd => Sys2Proof.Machine.execListenIntervalEnd s
  | .snapshotTimerExpiry place => Sys2Proof.Machine.execSnapshotTimerExpiry place s
  | .digestTimerExpiry => Sys2Proof.Machine.execDigestTimerExpiry s
  | .powerFail => Sys2Proof.Machine.execPowerFail s

end Sys2Proof.Machine
end

