-- ==== Sys2Proof/Safety.lean ====
section
/-! DEFINITION. What a state of the part is to satisfy: the fault counters within their limits, lawful
transmission, sound replicas, and the sizes of the collections; and the frames that a station can build. -/

namespace Sys2Proof.Machine

/-- RFC and TFC stay between 0 and 64 (R16). -/
def State.countersSound (s : State) : Prop :=
  s.line.rfc ≤ Config.faultLimit ∧ s.line.tfc ≤ Config.faultLimit

/-- What a station transmits in LISTENING and JOINING (R18). -/
def Frame.isPresenceOrSnapreq : Frame → Bool
  | .presence _ _ | .snapreq _ _ => true
  | .evict _ _ | .release _ _ | .withdraw _ | .claim _ _ _ | .signal _ _ | .snap _ _ _ _ _
  | .digest _ => false

/-- The law of R18 on transmission: an own frame is on the line only at a station that takes part, within a
frame and outside a hold, and in LISTENING and JOINING it is a PRESENCE or a SNAPREQ; and a commit is under
way only in UNCONFIGURED (R183). -/
def State.lawful (s : State) : Prop :=
  (∀ tx, s.line.tx = some tx →
    s.takesPart = true ∧ s.line.phase = .inFrame ∧ s.line.hold = none ∧
      (s.member.state = .listening ∨ s.member.state = .joining →
        tx.frame.isPresenceOrSnapreq = true)) ∧
  (s.config.status = .busy → s.member.state = .unconfigured)

/-- An EXCLUSIVE entry has at most one holder, and the held units of a POOL entry never exceed its capacity
(R22), which is at least 1. -/
def Entry.sound (e : Entry) : Prop :=
  match e.kind with
  | .exclusive => e.holders.length ≤ 1
  | .pool c => 1 ≤ c ∧ heldUnits e.holders ≤ c

/-- Every entry of the replica is sound. -/
def State.replicaSound (s : State) : Prop := ∀ e ∈ s.table, e.sound

/-- The sizes of the collections: the request FIFO and the outgoing list hold at most 8, the assembly buffer
at most 7 bytes, the pending table has 16 numbers, the presence table 16 entries, and there are four slot
records (R132, R135, R136, R179, R67, R152). The places reserved, and with them the completion FIFO, are at
most 16, a slot with a claim under way or held having its place (R133, R134, R137). The service list names at
most 15 joiners, none twice and never this station (R99). The lease records stand in the order of their first
tokens (R14). -/
def State.sized (s : State) : Prop :=
  s.req.fifo.length ≤ Config.reqFifoDepth ∧ s.req.outgoing.length ≤ Config.outgoingDepth ∧
    s.req.asm.length ≤ 7 ∧ s.req.pend.length = 16 ∧ s.member.peers.length = 16 ∧ s.slots.length = 4 ∧
    s.reserved ≤ Config.places ∧ s.req.cmp.length ≤ Config.places ∧
    (∀ x ∈ s.slots, x.state = .claiming ∨ x.state = .withdrawing ∨ x.state = .held → x.heldPlace = true) ∧
    s.snap.service.length ≤ 15 ∧ (s.snap.service.map Prod.fst).Nodup ∧
    (∀ r ∈ s.snap.service, r.1 ≠ s.station) ∧
    (s.leases.map Lease.first).Pairwise (· ≤ ·)

/-! ## Stations in the table (R23, R24, R26) -/

/-- The tokens that a station holds, waits for, or is still to take by the claims that wait. -/
def claimedBy (t : List Entry) (st : Addr) : List Nat :=
  (List.range t.length).flatMap (fun k =>
      ((entryAt t k).holders.filter (fun h => h.station == st)).map (fun _ => k)) ++
    t.flatMap (fun e => e.waiters.flatMap (fun w =>
      if w.station = st then w.list.drop w.position else []))

/-- The head waiter of an entry lacks free units; at an EXCLUSIVE entry, the entry has a holder (R26). -/
def Entry.headBlocked (e : Entry) : Prop :=
  ∀ w, e.waiters.head? = some w →
    match e.kind with
    | .exclusive => e.holders ≠ []
    | .pool c => c < w.units + heldUnits e.holders

/-- No token is claimed twice by one station; a station stands at most once among the holders and waiters of
an entry (R23); a head waiter is blocked (R26); a waiter's position names the entry it waits at (R24), and a
list of more than one token names EXCLUSIVE ones (R52). -/
def tableOrderly (t : List Entry) : Prop :=
  (∀ st, (claimedBy t st).Nodup) ∧
    ∀ (k : Nat) (e : Entry), t[k]? = some e →
      (e.holders.map Holder.station ++ e.waiters.map Waiter.station).Nodup ∧ e.headBlocked ∧
        ∀ w ∈ e.waiters, w.list[w.position]? = some k ∧
          (1 < w.list.length → ∀ j ∈ w.list, (entryAt t j).kind = .exclusive)

/-- The frame that a command hands to the blocks, with its sender (R10). -/
def State.handedOver (s : State) (c : Instr) : Option (Addr × Frame) :=
  match c with
  | .frameAccepted .own => s.line.tx.map (fun x => (s.station, x.frame))
  | .frameAccepted (.received r) =>
    match receiveCheck s.table s.station r with
    | .ok f => some (senderOf r, f)
    | .error _ => none
  | _ => none

/-- A frame as the stations of a system send it: a CLAIM names no token twice and none that its sender holds,
waits for or is still to take (R138, check 5), and EXCLUSIVE ones alone when more than one (R51); a SNAP at a
joiner's cursor brings the entry of an orderly table (R100). -/
def State.lawfulFrame (s : State) (sender : Addr) (f : Frame) : Prop :=
  match f with
  | .claim _ _ l =>
    l.Nodup ∧ (∀ k ∈ l, k ∉ claimedBy s.table sender) ∧
      (1 < l.length → ∀ k ∈ l, (entryAt s.table k).kind = .exclusive)
  | .snap _ i k hs ws => i = s.snap.cursor → tableOrderly (replaceEntry s.table i k hs ws)
  | .evict _ _ | .release _ _ | .withdraw _ | .signal _ _ | .snapreq _ _ | .digest _ | .presence _ _ => True

/-! ## This station's own claims and leases (R118, R135) -/

/-- The tokens of the lease records and of the lists of the claim entries. -/
def State.ownTokens (s : State) : List Nat :=
  s.leases.flatMap Lease.tokens ++
    s.req.pend.flatMap (fun e => match e with
      | some p => if p.kind = .acquire then p.list else []
      | none => [])

/-- The lease records and claim entries of a slot. -/
def State.claimsOfSlot (s : State) (n : BitVec 2) : Nat :=
  (s.leases.filter (fun l => l.source == .slot n)).length +
    (s.req.pend.filter (fun e => e.any (fun p => p.kind == .acquire && p.source == .slot n))).length

/-- No token is named by two lease records (R118), by two claim entries, or by one of each (R138, check 5);
a claim entry has its origin token first in its list (R135); a slot outside DISABLED has a list that passed
the check (R153), and one lease record or claim entry at most, and that only while its claim is in progress
(R156). -/
def State.tokensApart (s : State) : Prop :=
  s.ownTokens.Nodup ∧
    (∀ p, some p ∈ s.req.pend → p.kind = .acquire → p.list ≠ [] ∧ p.origin = p.list.head?) ∧
    ∀ n : BitVec 2,
      ((s.slotAt n).state ≠ .disabled →
        (s.slotAt n).spec.tokens ≠ [] ∧ (s.slotAt n).spec.tokens.Pairwise (· < ·)) ∧
      ((s.slotAt n).inProgress = false → s.claimsOfSlot n = 0) ∧ s.claimsOfSlot n ≤ 1

/-- A complete grant that the table reports for an accepted frame carries the list of the claim entry that its
origin token names (R43, R119). -/
def State.reportsAgree (s : State) (sender : Addr) (f : Frame) : Prop :=
  ∀ o k u l n e, .grant o k u (some l) ∈ (applyFrame s.table s.n s.station sender f).reports →
    s.claimOf o = some n → s.pendAt n = some e → e.list = l

/-! ## Runs of commands and bytes -/

/-- The state after commands, one after another. -/
def execAll (cs : List Instr) (s : State) : State :=
  cs.foldl (fun t c => match exec c t with
    | .next u => u
    | .fault _ => t
    | .refused _ => t) s

/-- The data bytes of a write transaction from an address on, away from the windows (R178). -/
def byteWrites (ins : ResetInputs) : BitVec 7 → List Byte → List Instr
  | _, [] => []
  | a, b :: bs => .registerWrite a (.data b ins) :: byteWrites ins (a + 1) bs

/-- t differs from s in the transaction of the port alone: the records that end with it, the assembly buffer
of R179 among them. -/
def State.sameButTransaction (s t : State) : Prop :=
  t = (s.withPort { s.port with
      txn := t.port.txn, addr := t.port.addr, wr := t.port.wr, rd := t.port.rd, cmp := t.port.cmp,
      sdo := t.port.sdo }).withReq { s.req with asm := t.req.asm }

/-! ## The outcome of a warm reset -/

/-- What a warm reset that samples these levels of ADDR and TRG makes of s (R87, R165, R184): the
configuration, the digest and the error records are kept, the records of the line, the table, the
membership, the requests, the leases, the slots and the events take their reset values, the wait of R2 begins
where the station enters LISTENING (R73), and the port does not answer yet. -/
def State.warmDone (s : State) (addr : Addr) (trg : BitVec 4) (t : State) : Prop :=
  t.station = addr ∧ t.grade = s.grade ∧ t.pending = s.pending ∧
    t.config.fields = s.config.fields ∧ t.config.digest = s.config.digest ∧
    t.config.status =
      (if s.member.state = .unconfigured then .uncommitted else s.config.status) ∧
    t.config.detail = (if s.member.state = .unconfigured then 0 else s.config.detail) ∧
    t.errors = { s.errors with mask := 0 } ∧
    t.member.state = (if s.member.state = .unconfigured then .unconfigured
      else if s.config.fields.autojoin then .listening else .detached) ∧
    t.member.peers = List.replicate 16 Peer.cleared ∧ t.member.evictWants = [] ∧
    t.member.presenceTimer = none ∧ t.member.listenTimer = none ∧
    t.member.presenceWant = decide (t.member.state = .listening) ∧
    t.member.activeSeen = false ∧
    t.line.phase = (if t.member.state = .listening then .waiting else .off) ∧ t.line.recessive = 0 ∧
    t.line.bitDiv = (if s.member.state = .unconfigured then none else s.line.bitDiv) ∧
    t.line.tx = none ∧ t.line.begun = [] ∧ t.line.hold = none ∧ t.line.yielding = false ∧ t.line.rfc = 0 ∧
    t.line.tfc = 0 ∧ t.line.driven = none ∧ t.line.ended = none ∧ t.table = clearEntries s.table ∧ t.snap = Snap.initial ∧
    t.digest = DigestUnit.initial ∧ t.time = ⟨decide (s.member.state ≠ .unconfigured), 0⟩ ∧
    t.leases = [] ∧ t.req = Requests.initial ∧ t.events = Events.initial ∧
    (∀ n : BitVec 2, t.slotAt n = Slot.initial (s.slotExists n && trg.getLsbD n.toNat)) ∧
    t.port.leaseSel = 0 ∧
    t.port.pendSel = 0 ∧ t.port.peerSel = 0 ∧ t.port.slotSel = 0 ∧ t.port.kindSel = 0 ∧
    t.portAnswers = false

/-! ## Frames in the form of their kind (R4, R24, R51, R186) -/

/-- A token list that the receive check passes: 1 to 4 tokens of the table, strictly ascending, EXCLUSIVE
when more than one, and of capacity no less than the units. -/
def listSound (t : List Entry) (units : Nat) (l : List Nat) : Prop :=
  1 ≤ l.length ∧ l.length ≤ 4 ∧ ascending l = true ∧
    ∀ k ∈ l, k < t.length ∧ units ≤ (entryAt t k).kind.capacity ∧
      (1 < l.length → (entryAt t k).kind.isExclusive = true)

/-- The records of a SNAP that the receive check passes, for an entry of this kind. -/
def recordsSound (t : List Entry) (kind : TokenKind) (hs : List Holder) (ws : List Waiter) : Prop :=
  hs.length ≤ (if kind.isExclusive then 1 else 8) ∧ ws.length ≤ 15 ∧
    (hs.map Holder.station ++ ws.map Waiter.station).Nodup ∧
    (∀ h ∈ hs, h.units < 16) ∧ (kind.isExclusive = false → heldUnits hs ≤ kind.capacity) ∧
    ∀ w ∈ ws, w.units < 16 ∧ listSound t 0 w.list ∧ w.position < w.list.length

/-- A frame in the form of its kind for the table t, as a station builds it (R4). -/
def Frame.formed (t : List Entry) : Frame → Prop
  | .evict _ _ | .signal _ _ | .digest _ | .presence _ _ => True
  | .release _ l => listSound t 0 l
  | .withdraw o => o < t.length
  | .claim m u l => listSound t u l ∧ 1 ≤ u ∧ u < 256 ∧ (m = .tryNow → l.length = 1)
  | .snapreq _ i => i < t.length
  | .snap j i k hs ws =>
    i < t.length ∧ k = (entryAt t i).kind ∧ recordsSound t k hs ws ∧
      (Frame.snap j i k hs ws).payload.length ≤ Config.maxPayload

end Sys2Proof.Machine
end

