-- ==== Sys2Proof/Certificates/Slice0/Obligations.lean ====
section
/-! DEFINITION. The statements for the provers, each a Prop, from the numbered rules of the manual. -/

open Sys2Proof Sys2Proof.Machine

/-! ## The queue and the shape of a step -/

/-- A step is exec of the front command on the state with the rest of the queue; on an empty queue the block
idles (the model's choice, log 2). -/
def Obligations.StepRunsTheFrontCommand : Prop :=
  (∀ (c : Instr) (rest : List Instr) (s : State), s.pending = c :: rest →
    step s = exec c (s.withPending rest)) ∧
  (∀ s : State, s.pending = [] → step s = .next s)

/-- Every command leaves a next state in every state, and none changes the grade (section 1.3, R181: fused) or
the queue. That a command whose occasion has not arisen leaves a next state, and the queue itself, are the
model's choices (logs 2, 3). -/
def Obligations.EveryCommandLeavesANextState : Prop :=
  ∀ (c : Instr) (s : State), ∃ t, exec c s = .next t ∧ t.grade = s.grade ∧ t.pending = s.pending

/-! ## Resets, power and holds -/

/-- The power-on values of the registers and records (R66, R67, R88, R107, R117, R130, R132, R135 to R137,
R152, R170, R171, R177, R182, R183, R185). The pin levels, the address and the grade of State.reset are the
model's choice (log 1), and so are the token bytes of a slot beyond its list [T0] (log 47); LDE, LTX, IRQn and
WAKE are views of the records (logs 6, 26). -/
def Obligations.ResetHoldsThePowerOnValues : Prop :=
  ∀ r : State, r = State.reset →
    r.member.state = .unconfigured ∧ r.takesPart = false ∧ (∀ a, r.peerAt a = ⟨.absent, 0, .unknown, .none⟩) ∧
    r.table.length = r.n ∧ (∀ e ∈ r.table, e.holders = [] ∧ e.waiters = [] ∧ e.change = .none) ∧
    r.leases = [] ∧ r.req.asm = [] ∧ r.req.fifo = [] ∧ (∀ n, r.pendAt n = none) ∧
    r.req.outgoing = [] ∧ r.req.cmp = [] ∧ r.reserved = 0 ∧
    r.eventWord = 0 ∧ r.events.irqEn = 0 ∧ r.events.wakeEn = 0 ∧ r.events.wakeAny = false ∧
    r.events.latch = 0 ∧ r.irqAsserted = false ∧ r.wakeAsserted = false ∧
    r.errors = ⟨0, 0, none, ⟨.noFrame, 0, 0, 0, List.replicate 8 0⟩⟩ ∧
    r.line.rfc = 0 ∧ r.line.tfc = 0 ∧ r.line.yielding = false ∧ r.ldeAsserted = false ∧ r.ltx = true ∧
    r.snap = ⟨0, .idle, none, 0, none, .none, [], none⟩ ∧ r.digest = ⟨none, false⟩ ∧ r.tableDigest = 0 ∧
    r.time = ⟨false, 0⟩ ∧ r.config.status = .uncommitted ∧ r.config.detail = 0 ∧
    r.config.digest = 0 ∧ (∀ b ∈ r.config.fields.kinds, b = 0) ∧ r.presencePeriod = 20 ∧
    r.dropoutTime = 100 ∧ r.digestInterval = 1000 ∧ r.config.fields.tickDiv = 15999 ∧
    r.config.fields.bitDiv = 15 ∧ r.config.fields.divergenceFatal = true ∧
    r.config.fields.autojoin = false ∧ r.classParams 1 = ⟨1000, 250, 100, false⟩ ∧
    r.classParams 2 = ⟨10000, 2500, 1000, false⟩ ∧ r.classParams 3 = ⟨60000, 15000, 6000, false⟩ ∧
    (∀ n, r.slotAt n = ⟨.single, 0, 0, ⟨1, 0, 0, 0, 0, 1, 0, 0⟩, .disabled, false, false, .none, false,
      false, false⟩) ∧
    r.port.leaseSel = 0 ∧ r.port.pendSel = 0 ∧ r.port.peerSel = 0 ∧ r.port.slotSel = 0 ∧
    r.port.kindSel = 0

/-- POWER_ON_RESET at every state (R87, R3, R165, R171, R177, R182): every record takes its power-on value,
the address and the pin levels are sampled, and the grade stays. That the part has supply then, and that the
port answers with no transaction begun and its address at 0, are the model's choices (logs 1, 23), and so are the
token bytes of a slot beyond its list [T0] (log 47). -/
def Obligations.PowerOnResetSetsEveryRecord : Prop :=
  ∀ (addr : Addr) (trg : BitVec 4) (s : State), ∃ t, exec (.powerOnReset addr trg) s = .next t ∧
    t.powered = true ∧ t.station = addr ∧ t.grade = s.grade ∧ t.config = State.reset.config ∧
    t.line = State.reset.line ∧ t.member = State.reset.member ∧ t.snap = State.reset.snap ∧
    t.digest = State.reset.digest ∧ t.time = State.reset.time ∧ t.leases = [] ∧
    t.req = State.reset.req ∧ t.events = State.reset.events ∧ t.errors = State.reset.errors ∧
    t.port = State.reset.port ∧ t.table.length = s.n ∧
    (∀ e ∈ t.table, e.holders = [] ∧ e.waiters = [] ∧ e.change = .none) ∧
    (∀ n : BitVec 2, t.slotAt n = Slot.initial (s.slotExists n && trg.getLsbD n.toNat))

/-- A warm reset with no frame of its own and no hold to wait for, or none any more because the frame on the line
ends at that moment, from RSTn asserted for 2 CLK periods or more, from CONTROL as a whole and from a byte
written to it (R87, R165, R184): what it keeps, what it clears, where it leaves the station, with the wait of R2
and the entry actions of R73 where that is LISTENING; the rest of a transaction that it fell into is ignored.
(Model choices: logs 10, 39, 40, 43, 46, 47.) -/
def Obligations.WarmResetKeepsAndClears : Prop :=
  ∀ (s : State) (addr : Addr) (trg : BitVec 4) (clks : Nat) (place : HoldPlace) (c : Instr),
    s.powered = true → (s.line.tx = none ∧ place.rxHold = false) ∨ place.frameEnds = true →
    s.line.hold = none → 2 ≤ clks →
    let pin : Prop := c = .rstnWarmReset clks ⟨addr, trg⟩ place
    let written : Prop := c = .warmReset ⟨addr, trg⟩ place ∨
      ∃ d : Byte, d.getLsbD 1 = true ∧ c = .registerWrite 0x09 (.data d ⟨⟨addr, trg⟩, place⟩)
    pin ∨ (written ∧ s.portOpen = true) →
    ∃ t, exec c s = .next t ∧ s.warmDone addr trg t ∧
      t.port.txn = (if pin ∧ s.port.txn = .closed then .closed else .ignored)

/-- A warm reset while this station sends, while it makes an error hold as a receiver, or in a hold that already
waits for another change, whose place it takes (R19, R184): the abort or the hold first, with neither counter
changed and nothing reset, the own frame still on the line (R10, R136), LDE as that drove it before the hold and
asserted in it (R1), and the reset of every block at the ABORT_HOLD_END. That this command alone counts and logs
nothing of the frame that a hold as a receiver objects to, so that the error records are kept where no
FRAME_VOIDED comes before it, is log 45. (Model choices: logs 10, 11, 39, 40, 41, 45, 46, 47.) -/
def Obligations.WarmResetAbortsAFrameFirst : Prop :=
  ∀ (s : State) (ins : ResetInputs) (clks : Nat) (c : Instr), s.powered = true → 2 ≤ clks →
    (ins.frameEnds = false ∧ (s.line.tx.isSome = true ∨ (s.line.tx = none ∧ s.line.hold = none ∧
      ins.rxHold = true ∧ s.takesPart = true ∧ s.line.phase ≠ .waiting))) ∨
      (s.line.tx = none ∧ s.line.hold.isSome = true) →
    let held : Hold := match s.line.tx, s.line.hold with
      | none, some h => { h with change := .warmReset }
      | own, _ => ⟨own, .warmReset, ins.start⟩
    (c = .rstnWarmReset clks ins.toResetPins ins.toHoldPlace ∨
      (c = .warmReset ins.toResetPins ins.toHoldPlace ∧ s.portOpen = true) ∨
      (s.portOpen = true ∧ ∃ d : Byte, d.getLsbD 1 = true ∧ d.getLsbD 0 = false ∧
        d.getLsbD 2 = s.events.wakeAny ∧ c = .registerWrite 0x09 (.data d ins))) →
    ∃ t, exec c s = .next t ∧ t.line.tx = none ∧
      t.line.hold = some held ∧ (∀ n, t.claimOnLine n = s.claimOnLine n) ∧
      (∀ k, (held.start ≤ k → t.ldeAt k = true) ∧
        (s.line.tx = none ∨ s.line.hold = none → k < held.start → t.ldeAt k = s.ldeAt k)) ∧
      t.ldeAsserted = true ∧ t.portAnswers = false ∧ t.line.rfc = s.line.rfc ∧
      t.line.tfc = s.line.tfc ∧ t.config = s.config ∧ t.member = s.member ∧ t.table = s.table ∧
      t.snap = s.snap ∧ t.leases = s.leases ∧ t.req = { s.req with asm := t.req.asm } ∧
      t.slots = s.slots ∧ t.events = s.events ∧ t.errors = s.errors ∧
      ∃ u, exec .abortHoldEnd t = .next u ∧ s.warmDone ins.addr ins.trg u

/-- ABORT_HOLD_END when the station waits to leave the line (R19, R85, R86): from ACTIVE and LEAVING by the
purge, with a completion for each pending entry, and from LISTENING and JOINING without one. The purge
aborts each slot with a claim in progress, with its SLOT event (R164), and leaves the others in their
states. The completions of the purge go by ascending pending-table number, with the DETACH entry's DONE last. That
this command counts and logs nothing itself, so that RFC, TFC and the error records stay as they are at the end of
a hold as a receiver, is log 45. (Model choices: logs 11, 16, 45.) -/
def Obligations.HoldEndTakesTheChangeThatWaits : Prop :=
  (∀ (st : Status) (pend : List (Option PendEntry)),
    let entries := pend.filterMap id
    purgeCompletions st pend =
      (entries.filter (fun e => e.kind != .detach)).map (fun e =>
        ⟨st, e.tag, e.source, BitVec.ofNat 4 e.kind.code, if e.origin = none then 0x00 else 0x10,
          BitVec.ofNat 8 (e.origin.getD 0), 0, 0, 0⟩) ++
      (entries.filter (fun e => e.kind == .detach)).map (fun e =>
        ⟨.done, e.tag, e.source, 7, 0, 0, 0, 0, 0⟩)) ∧
  ∀ (s : State) (b : Option TxFrame) (dest : MState) (st : Status) (start : Nat), s.powered = true →
    s.line.hold = some ⟨b, .leave dest st, start⟩ → s.takesPart = true →
    ∃ t, exec .abortHoldEnd s = .next t ∧ t.line.hold = none ∧ t.ldeAsserted = false ∧
      t.table = clearEntries s.table ∧ t.member.peers = List.replicate 16 Peer.cleared ∧
      t.events.latched.getLsbD 4 = true ∧ t.events.latch = s.events.latch ∧ t.errors = s.errors ∧
      t.req.fifo = s.req.fifo ∧ t.config = s.config ∧
      (s.member.state.hasTable = true →
        t.leases = [] ∧ t.req.outgoing = [] ∧ t.req.pend = List.replicate 16 none ∧
        t.req.cmp = s.req.cmp ++ purgeCompletions st s.req.pend ∧ t.member.evictWants = [] ∧
        t.digest = ⟨none, false⟩ ∧ t.snap.service = [] ∧ (∀ x ∈ t.slots, x.gnt = false) ∧
        (let busy (x : Slot) : Prop := x.state = .claiming ∨ x.state = .withdrawing ∨ x.state = .held ∨
            x.state = .releasing
         t.slots.length = s.slots.length ∧
         (∀ (i : Nat) (x : Slot), s.slots[i]? = some x → (busy x → t.slots[i]? = some { x with
            state := .armed, stop := false, heldPlace := false, gnt := false, cause := .aborted }) ∧
          (¬ busy x → t.slots[i]? = some { x with gnt := false })) ∧
         ((∃ x ∈ s.slots, busy x) → t.events.latched.getLsbD 6 = true) ∧
         (¬ (∃ x ∈ s.slots, busy x) → t.events.latched.getLsbD 6 = s.events.latched.getLsbD 6)) ∧
        t.member.state = (if dest = .listening then .listening else .detached) ∧
        (dest ≠ .listening → t.line.rfc = s.line.rfc ∧ t.line.tfc = s.line.tfc)) ∧
      (s.member.state.hasTable = false →
        t.member.state = .detached ∧ t.req = s.req ∧ t.leases = s.leases ∧ t.slots = s.slots ∧
        t.member.presenceTimer = none ∧ t.member.presenceWant = false ∧
        t.member.listenTimer = none ∧ t.snap.engine = .idle ∧ t.snap.cursor = 0 ∧
        t.line.rfc = s.line.rfc ∧ t.line.tfc = s.line.tfc)

/-- The command byte of a transaction (R178): its write flag and its address, SDO at 0 and the transaction before
ended; while the port does not answer, the transaction is ignored with SDO undriven. PORT_READY (R184): the port
answers again, or will at the end of the hold that the reset waits for (the
model's reading, log 11); until then data bytes do nothing, and a transaction that the reset fell into, or
that began before the port answered, is ignored until CSn rises (R178, R184; log 39). POWER_FAIL (R19): the
line, the outputs and the interrupts are undriven, and nothing but a power-on reset acts on a part without
supply (the model's reading, log 23). (Model choices: logs 3, 11, 23, 39.) -/
def Obligations.PortReadyAndPowerFail : Prop :=
  (∀ s : State, s.powered = true → s.port.state = .inReset → s.resetWaits = false →
    exec .portReady s = .next (s.withPort { s.port with state := .answering })) ∧
  (∀ s : State, s.powered = true → s.port.state = .inReset → s.resetWaits = true →
    ∃ t, exec .portReady s = .next t ∧ t.portAnswers = false ∧
      ∃ u, exec .abortHoldEnd t = .next u ∧ u.portAnswers = true ∧ u.port.txn = s.port.txn) ∧
  (∀ s : State, s.port.state ≠ .inReset → exec .portReady s = .next s) ∧
  (∀ (s : State) (c : Instr), s.powered = true →
    (c = .cmpData ∨ (∃ d, c = .reqData d) ∨ (∃ a d i, c = .registerWrite a (.data d i)) ∨
      c = .commit ∨
      (∃ v, c = .irqEn v) ∨ c = .fire) →
    (s.port.txn = .ignored → exec c s = .next s) ∧
    (s.port.state ≠ .answering → exec c s = .next (s.withPort { s.port with
      txn := if s.port.txn = .closed then .ignored else s.port.txn }))) ∧
  (∀ (s : State) (b : Byte),
    let opened (p : Port) : Prop := exec (commandOf b) s =
      .next ((s.withPort { p with wr := none, rd := none, cmp := none }).withReq { s.req with asm := [] })
    (s.portAnswers = true → opened { s.port with
      txn := if b.getLsbD 7 = true then .write else .read, addr := BitVec.ofNat 7 b.toNat, sdo := some 0 }) ∧
    (s.powered = true → s.port.state ≠ .answering → opened { s.port with txn := .ignored, sdo := none })) ∧
  (∀ s : State, s.powered = true → s.port.txn = .ignored → s.port.state = .answering →
    ∃ t, exec .transactionEnd s = .next t ∧ t.portOpen = true ∧ t.port.sdo = none) ∧
  (∀ s : State, s.powered = true → ∃ t, exec .powerFail s = .next t ∧ t.line.tx = none ∧
    t.ldeAsserted = false ∧ t.ltx = true ∧ t.irqAsserted = false ∧ t.wakeAsserted = false ∧
    t.port.sdo = none ∧ (∀ x ∈ t.slots, x.gnt = false) ∧
    ∀ c : Instr, (∀ addr trg, c ≠ .powerOnReset addr trg) → exec c t = .next t)

/-! ## Configuration -/

/-- COMMIT (R183): the checks in their order, each with its code and detail byte; with every check passed
CONFIG_STATUS is BUSY; at any other time no effect. (Model choices: logs 22, 39.) -/
def Obligations.CommitChecksInOrder : Prop :=
  ∀ s : State, s.portOpen = true →
    let f := s.config.fields
    let sets (code : ConfigStatus) (detail : Byte) : Prop :=
      exec .commit s = .next ((s.inWrite .control).withConfig { s.config with status := code, detail := detail })
    let kindOk (k : Nat) : Prop :=
      f.kinds.getD k 0 = 0 ∨
        (s.grade = .vg418 ∧ 2 ≤ (f.kinds.getD k 0).toNat ∧ (f.kinds.getD k 0).toNat ≤ 8)
    let classOk (p : ClassParams) : Prop :=
      1 ≤ p.len.toNat ∧ 1 ≤ p.w.toNat ∧ p.w.toNat ≤ p.len.toNat ∧ p.v.toNat ≤ p.w.toNat
    let kindsOk : Prop := ∀ k, k < s.n → kindOk k
    let dropoutOk : Prop := 4 * f.presencePeriod.toNat ≤ f.dropout.toNat
    let digestOk : Prop := f.digestInterval.toNat = 0 ∨ 16 ≤ f.digestInterval.toNat
    (s.member.state ≠ .unconfigured ∨ s.config.status = .busy → exec .commit s = .next (s.inWrite .control)) ∧
    (s.member.state = .unconfigured → s.config.status ≠ .busy →
      (∀ k, k < s.n → ¬ kindOk k → (∀ j, j < k → kindOk j) → sets .kindGrade (BitVec.ofNat 8 k)) ∧
      (kindsOk → ¬ dropoutOk → sets .dropoutRange 0) ∧
      (kindsOk → dropoutOk → ¬ classOk f.class1 → sets .leaseRange 1) ∧
      (kindsOk → dropoutOk → classOk f.class1 → ¬ classOk f.class2 → sets .leaseRange 2) ∧
      (kindsOk → dropoutOk → classOk f.class1 → classOk f.class2 → ¬ classOk f.class3 →
        sets .leaseRange 3) ∧
      (kindsOk → dropoutOk → classOk f.class1 → classOk f.class2 → classOk f.class3 → ¬ digestOk →
        sets .digestRange 0) ∧
      (kindsOk → dropoutOk → classOk f.class1 → classOk f.class2 → classOk f.class3 → digestOk →
        sets .busy 0))

/-- COMMIT_COMPLETE (R183, R107, R115, R73, R20): what takes effect together, and what stays.
(Model choice: log 5.) -/
def Obligations.CommitCompleteEntersListening : Prop :=
  ∀ s : State, s.powered = true → s.config.status = .busy →
    ∃ t, exec .commitComplete s = .next t ∧
      t.config.fields = s.config.fields ∧ t.config.status = .committed ∧ t.config.detail = 0 ∧
      t.config.digest = checkValue (BitVec.ofNat 8 s.n :: s.config.fields.kinds.take s.n) ∧
      t.time = ⟨true, 0⟩ ∧ t.line.bitDiv = some s.config.fields.bitDiv ∧
      t.member.state = .listening ∧ t.events.latched.getLsbD 4 = true ∧ t.line.rfc = 0 ∧
      t.line.tfc = 0 ∧ t.line.phase = .waiting ∧ t.line.recessive = 0 ∧ t.line.yielding = false ∧
      t.member.presenceWant = true ∧ t.member.activeSeen = false ∧ t.member.listenTimer = none ∧
      t.member.peers = List.replicate 16 Peer.cleared ∧
      t.table = (s.config.fields.kinds.take s.n).map
        (fun b => ⟨if b = 0 then .exclusive else .pool b.toNat, [], [], .none⟩) ∧
      t.leases = s.leases ∧ t.req = s.req ∧ t.slots = s.slots ∧ t.errors = s.errors ∧
      t.port = s.port ∧ t.snap = s.snap ∧ t.digest = s.digest

/-- CONFIG_WRITE (R182): the field written and every other kept, the two writes that are refused, the width of
DROPOUT, the selected kind, and no effect outside UNCONFIGURED or while BUSY.
(Model choices: logs 15, 22, 39.) -/
def Obligations.ConfigWriteSetsItsField : Prop :=
  ∀ s : State, s.portOpen = true →
    let f := s.config.fields
    let sets (r : Reg) (w : ConfigWrite) (g : ConfigFields) : Prop :=
      exec (.configWrite w) s = .next ((s.inWrite r).withConfig { s.config with fields := g })
    let kind : Nat := s.port.kindSel.toNat
    (s.member.state ≠ .unconfigured ∨ s.config.status = .busy →
      ∀ w, exec (.configWrite w) s = .next (s.inWrite (regOf w))) ∧
    (s.member.state = .unconfigured → s.config.status ≠ .busy →
      (∀ v, kind < s.n → sets .kindData (.tokenKind v) { f with kinds := f.kinds.set kind v }) ∧
      (∀ v, s.n ≤ kind → sets .kindData (.tokenKind v) f) ∧
      (∀ v, v ≠ 0 → sets .presencePeriod (.presencePeriod v) { f with presencePeriod := v }) ∧
      sets .presencePeriod (.presencePeriod 0) f ∧
      (∀ v, sets .dropout (.dropout v) { f with dropout := BitVec.ofNat 10 v.toNat }) ∧
      (∀ v, sets .digestInterval (.digestInterval v) { f with digestInterval := v }) ∧
      (∀ v, sets .tickDiv (.tickDiv v) { f with tickDiv := v }) ∧
      (∀ v, v ≠ 0 → sets .bitDiv (.bitDiv v) { f with bitDiv := v }) ∧
      sets .bitDiv (.bitDiv 0) f ∧
      (∀ v, sets .configFlags (.flags v) { f with divergenceFatal := v.getLsbD 0, autojoin := v.getLsbD 1 }) ∧
      (∀ len w v b, sets .lease1 (.lease .one len w v b) { f with class1 := ⟨len, w, v, b.getLsbD 0⟩ }) ∧
      (∀ len w v b, sets .lease2 (.lease .two len w v b) { f with class2 := ⟨len, w, v, b.getLsbD 0⟩ }) ∧
      (∀ len w v b, sets .lease3 (.lease .three len w v b) { f with class3 := ⟨len, w, v, b.getLsbD 0⟩ }))

/-! ## The serial port -/

/-- REGISTER_WRITE byte by byte on every register of two bytes or more (R178, section 12.5): the last byte
of a write that began at the register's first makes it take all of them, as the row of that register or
field does, and SLOT_SPEC and SLOT_STATUS as here; the bytes before it change nothing but the transaction,
nor do they when CSn ends it; and a write that begins inside a register changes nothing in it. (Model
choices: logs 13, 15, 22, 39, 47.) -/
def Obligations.MultiByteWriteTakesEffectAtItsLastByte : Prop :=
  ∀ (s : State) (ins : ResetInputs), s.portOpen = true →
    let wr (a : BitVec 7) (bs : List Byte) : State := execAll (byteWrites ins a bs) s
    let n := s.port.slotSel
    (∀ hi lo : Byte,
      exec (.eventClear (hi ++ lo)) s = .next (wr 0x0C [hi, lo]) ∧
      exec (.irqEn (hi ++ lo)) s = .next (wr 0x0E [hi, lo]) ∧
      exec (.wakeEn (hi ++ lo)) s = .next (wr 0x10 [hi, lo]) ∧
      exec (.errStatusClear (hi ++ lo)) s = .next (wr 0x19 [hi, lo]) ∧
      exec (.errMask (hi ++ lo)) s = .next (wr 0x1B [hi, lo]) ∧
      exec (.configWrite (.dropout (hi ++ lo))) s = .next (wr 0x5B [hi, lo]) ∧
      exec (.configWrite (.digestInterval (hi ++ lo))) s = .next (wr 0x5D [hi, lo]) ∧
      exec (.configWrite (.tickDiv (hi ++ lo))) s = .next (wr 0x5F [hi, lo])) ∧
    (∀ b0 b1 b2 b3 b4 b5 b6 : Byte,
      let bs := [b0, b1, b2, b3, b4, b5, b6]
      let w (c : LeaseClass) : Instr := .configWrite (.lease c (b0 ++ b1) (b2 ++ b3) (b4 ++ b5) b6)
      exec (w .one) s = .next (wr 0x63 bs) ∧ exec (w .two) s = .next (wr 0x6A bs) ∧
        exec (w .three) s = .next (wr 0x71 bs)) ∧
    (∀ b0 b1 b2 b3 b4 b5 b6 b7 : Byte, wr 0x4E [b0, b1, b2, b3, b4, b5, b6, b7] =
      if s.slotExists n = true ∧ (s.slotAt n).state = .disabled then
        modifySlot n (fun x => { x with spec := ⟨b0, b1, b2, b3, b4, b5, b6, b7⟩ }) (s.inWrite .slotSpec)
      else s.inWrite .slotSpec) ∧
    (∀ b0 b1 : Byte,
      let w := s.inWrite .slotStatus
      let cleared (u : State) : State := modifySlot n (fun x => { x with
        state := if b0.getLsbD 3 = true ∧ x.state = .triggered then .armed else x.state,
        missed := if b0.getLsbD 2 = true then false else x.missed }) u
      let u := wr 0x56 [b0, b1]
      (s.slotExists n = false → u = w) ∧
      (s.slotExists n = true → b1.getLsbD 7 = false → u = cleared w) ∧
      (s.slotExists n = true → b1.getLsbD 7 = true → b0.getLsbD 3 = false → b0.getLsbD 2 = false →
        exec .fire s = .next u) ∧
      (s.slotExists n = true → b1.getLsbD 7 = true → b0.getLsbD 3 = true ∨ b0.getLsbD 2 = true →
        let f : State := { w with freeCount := w.freeCount + 1 }
        u = cleared (fireSlot n f) ∨ u = fireSlot n (cleared f))) ∧
    (∀ r base len, (r, base, len) ∈ registerMap → 2 ≤ len →
      (∀ bs : List Byte, bs.length < len →
        let u := wr (BitVec.ofNat 7 base) bs
        s.sameButTransaction u ∧ ∃ v, exec .transactionEnd u = .next v ∧ s.sameButTransaction v ∧
          v.port.wr = none ∧ v.port.sdo = none ∧ v.req.asm = []) ∧
      (∀ (k : Nat) (d : Byte), 0 < k → k < len → s.port.wr = none →
        ∃ u, exec (.registerWrite (BitVec.ofNat 7 (base + k)) (.data d ins)) s = .next u ∧
          s.sameButTransaction u ∧ u.port.wr = none ∧ u.port.addr = BitVec.ofNat 7 (base + k + 1)))

/-- REGISTER_WRITE of the registers of one byte (R167, R174, R182, R184, R185), which act as the row of that
register or field does, CONTROL as its rows WAKE_ANY and COMMIT; of the selectors (R131, R182, R185), of every byte of the read-only registers and of
addresses with no register (R178): the bits a selector keeps, nothing else changed, and the address moves
on, from 0x7F to 0x00, but not at the completion window; and the port after the write of a whole register.
(Model choices: logs 22, 27, 39.) -/
def Obligations.OneByteAndIgnoredWrites : Prop :=
  ∀ (s : State) (d : Byte) (ins : ResetInputs), s.portOpen = true →
    let selects (a : BitVec 7) (r : Reg) (f : Port → Port) : Prop :=
      exec (.registerWrite a (.data d ins)) s = .next ((s.inWrite r).withPort (f (s.inWrite r).port))
    let ignores (a next : BitVec 7) : Prop :=
      ∃ t, exec (.registerWrite a (.data d ins)) s = .next t ∧ s.sameButTransaction t ∧
        t.port.addr = next ∧ t.port.sdo = some 0 ∧ t.port.txn = .write
    let acts (a : BitVec 7) (c : Instr) : Prop := exec (.registerWrite a (.data d ins)) s = exec c s
    acts 0x12 (.signalLatchClear d) ∧ acts 0x1D (.errFirstClear d) ∧ acts 0x4D (.slotCtrl d) ∧
    acts 0x59 (.configWrite (.tokenKind d)) ∧ acts 0x5A (.configWrite (.presencePeriod d)) ∧
    acts 0x61 (.configWrite (.bitDiv d)) ∧ acts 0x62 (.configWrite (.flags d)) ∧
    (d.getLsbD 1 = false → d.getLsbD 0 = false → acts 0x09 (.wakeAny (d.getLsbD 2))) ∧
    (d.getLsbD 1 = false → d.getLsbD 0 = true → exec (.registerWrite 0x09 (.data d ins)) s =
      exec .commit (s.withEvents { s.events with wakeAny := d.getLsbD 2 })) ∧
    selects 0x32 .leaseSel (fun p => { p with leaseSel := BitVec.ofNat 6 d.toNat }) ∧
    selects 0x3D .pendSel (fun p => { p with pendSel := BitVec.ofNat 4 d.toNat }) ∧
    selects 0x48 .peerSel (fun p => { p with peerSel := BitVec.ofNat 4 d.toNat }) ∧
    selects 0x4C .slotSel (fun p => { p with slotSel := BitVec.ofNat 2 d.toNat }) ∧
    selects 0x58 .kindSel (fun p => { p with kindSel := BitVec.ofNat 6 d.toNat }) ∧
    (∀ a : BitVec 7, a.toNat ≤ 0x08 ∨ a = 0x0A ∨ a = 0x0B ∨ a = 0x14 ∨ (0x16 ≤ a.toNat ∧ a.toNat ≤ 0x18) ∨
      (0x1E ≤ a.toNat ∧ a.toNat ≤ 0x31) ∨ (0x33 ≤ a.toNat ∧ a.toNat ≤ 0x3C) ∨
      (0x3E ≤ a.toNat ∧ a.toNat ≤ 0x47) ∨ (0x49 ≤ a.toNat ∧ a.toNat ≤ 0x4B) → ignores a (a + 1)) ∧
    ignores 0x15 0x15 ∧
    (∀ a : BitVec 7, 0x78 ≤ a.toNat → a ≠ 0x7F → ignores a (a + 1)) ∧
    ignores 0x7F 0x00 ∧
    (∀ r base len, (r, base, len) ∈ registerMap → r ≠ .reqData → r ≠ .cmpData →
      let w := s.inWrite r
      s.sameButTransaction w ∧ w.port.addr = BitVec.ofNat 7 (base + len) ∧ w.port.txn = .write ∧
        w.port.wr = none ∧ w.port.sdo = some 0)

/-- What registers read (R178, R181, R185, section 12.5): CAPABILITY by grade, an address with no register,
the counters, the views of a record that is present and of one that is absent, the slot registers; and how a
read transaction goes: a register read through, its inside, the address moved past it and from 0x7F to 0x00,
the capture held against a change that comes between its bytes, and nothing while the port takes no bytes.
(Model choices: logs 15, 17, 21, 29, 38, 39, 47.) -/
def Obligations.RegisterReads : Prop :=
  ∀ s : State,
    let b8 (k : Nat) : Byte := BitVec.ofNat 8 k
    let toks (l : List Nat) : List Byte := (List.range 4).map (fun i => b8 (l.getD i 0))
    (s.portOpen = false → ∀ a n, s.readRegister a = [] ∧ (readBytes n a s).1 = []) ∧
    (s.portOpen = true →
      (s.grade = .vg418 → s.readRegister 0x02 = [64, 0x84]) ∧
      (s.grade = .vg418l → s.readRegister 0x02 = [32, 0x42]) ∧
      (∀ a : BitVec 7, 0x78 ≤ a.toNat → s.readRegister a = [0]) ∧
      s.readRegister 0x04 = [b8 s.station.toNat] ∧
      s.readRegister 0x17 = [b8 s.line.rfc] ∧
      s.readRegister 0x18 = [b8 s.line.tfc] ∧
      s.readRegister 0x16 = [b8 s.req.cmp.length] ∧
      s.readRegister 0x0D = [b8 s.eventWord.toNat] ∧
      (s.snap.failures ≤ 3 → s.readRegister 0x05 = [b8 s.member.state.code,
        b8 (64 * s.snap.engine.code + 16 * s.snap.failures + s.snap.cause.code), b8 s.snap.cursor,
        match s.snap.donor with
          | none => 0x80
          | some a => b8 a.toNat]) ∧
      (s.errors.header.payload.length = 8 → s.readRegister 0x1E =
        [s.errors.header.origin.code, b8 s.errors.header.contention.toNat,
          b8 s.errors.header.kind.toNat, s.errors.header.length] ++ s.errors.header.payload) ∧
      (s.leaseOf s.port.leaseSel.toNat = none → s.readRegister 0x33 = List.replicate 10 0) ∧
      (∀ l, s.leaseOf s.port.leaseSel.toNat = some l → l.cls ≤ 3 → l.tokens.length ≤ 4 →
        s.readRegister 0x33 = [b8 (128 + 16 * l.cls + l.state.code),
          b8 (16 * l.source.code + l.tokens.length)] ++ toks l.tokens ++
          [b8 l.units, l.tag, b8 (l.counter / 256), b8 l.counter]) ∧
      (s.pendAt s.port.pendSel.toNat = none → s.readRegister 0x3E = List.replicate 10 0) ∧
      (∀ e, s.pendAt s.port.pendSel.toNat = some e → e.list.length ≤ 4 → e.progress.length ≤ 4 →
        e.units < 16 → e.cls < 16 →
        s.readRegister 0x3E = [b8 (128 + e.phase.code), b8 (16 * e.source.code + e.kind.code), e.tag,
          b8 (e.origin.getD 0), b8 (16 * e.list.length + e.progress.length)] ++ toks e.list ++
          [b8 (16 * e.units + e.cls)]) ∧
      (let a := s.port.peerSel
       let p := s.peerAt a
       (a ≠ s.station → p.dropout < 1024 → s.readRegister 0x49 = [b8 a.toNat,
          b8 (64 * p.state.code + 16 * p.config.code + 4 * p.digest.code + p.dropout / 256),
          b8 p.dropout]) ∧
       (a = s.station → s.readRegister 0x49 = [b8 a.toNat,
          (match s.member.state with
            | .unconfigured | .detached => 0
            | .listening => 0x50
            | .joining => 0x90
            | .active | .leaving => 0xD0), 0])) ∧
      (let x := s.slotAt s.port.slotSel
       (s.grade = .vg418l → 2 ≤ s.port.slotSel.toNat →
        s.readRegister 0x4D = [0] ∧ s.readRegister 0x4E = List.replicate 8 0 ∧
          s.readRegister 0x56 = [0, 0]) ∧
       (s.slotExists s.port.slotSel = true →
        s.readRegister 0x4D = [b8 ((if x.state = .disabled ∨ x.stop = true then 0 else 128) +
          (if x.mode = .follow then 64 else 0) + 8 * x.source.toNat + x.code.toNat)] ∧
        s.readRegister 0x4E = [x.spec.listLen, x.spec.t0, x.spec.t1, x.spec.t2, x.spec.t3, x.spec.units,
          x.spec.cls, x.spec.tag] ∧
        s.readRegister 0x56 = [b8 (16 * x.state.code + (if x.state = .triggered then 8 else 0) +
          (if x.missed = true then 4 else 0) + (if x.stop = true then 2 else 0) +
          (if x.pin = true then 1 else 0)), b8 x.cause.code])) ∧
      (s.port.txn ≠ .read ∨ s.port.rd = none →
        (∀ r base len, (r, base, len) ∈ registerMap → r ≠ .cmpData →
          let x := readBytes len (BitVec.ofNat 7 base) s
          x.1 = s.readRegister (BitVec.ofNat 7 base) ∧ s.sameButTransaction x.2 ∧
            x.2.port.sdo = x.1.getLast? ∧
            x.2.port.addr = (if r = .reqData then 0x13 else BitVec.ofNat 7 (base + len))) ∧
        (∀ a, a ≠ 0x15 → (readBytes 1 a s).1 = (s.readRegister a).take 1) ∧
        (readBytes 2 0x7F s).1 = [0, 0x6B] ∧
        (∀ u : State, u.portOpen = true → u.port = (readByte 0x0C s).port →
          (readByte 0x0D u).port.sdo = some (b8 s.eventWord.toNat))))

/-- REQ_DATA and TRANSACTION_END (R132, R178, R179): a byte is stored, the first one of a transaction in an
empty buffer; the 8th pushes the record, or is lost with REQ_DROPPED when the FIFO holds 8; the byte written
at the window's address is the same command; a partial record is given up when CSn rises. (Model choices:
logs 22, 39.) -/
def Obligations.RequestWindowAssemblesRecords : Prop :=
  ∀ (s : State) (b : Byte), s.portOpen = true →
    let w := s.inWrite .reqData
    (s.port.txn = .write → s.port.addr = 0x13 →
      w = s.withPort { s.port with wr := none, sdo := some 0 }) ∧
    (s.port.txn ≠ .write ∨ s.port.addr ≠ 0x13 →
      w = (s.withPort { s.port with
        txn := .write, addr := 0x13, wr := none, rd := none, cmp := none, sdo := some 0 }).withReq
        { s.req with asm := [] }) ∧
    (∀ ins, exec (.registerWrite 0x13 (.data b ins)) s = exec (.reqData b) s) ∧
    (w.req.asm.length < 7 →
      exec (.reqData b) s = .next (w.withReq { w.req with asm := w.req.asm ++ [b] })) ∧
    (∀ b0 b1 b2 b3 b4 b5 b6, w.req.asm = [b0, b1, b2, b3, b4, b5, b6] → s.req.fifo.length < 8 →
      exec (.reqData b) s = .next (w.withReq
        { w.req with asm := [], fifo := s.req.fifo ++ [⟨b0, b1, b2, b3, b4, b5, b6, b⟩] })) ∧
    (w.req.asm.length = 7 → s.req.fifo.length = 8 →
      exec (.reqData b) s = .next ((w.withReq { w.req with asm := [] }).withEvents
        { s.events with latched := s.events.latched ||| 0x0100 })) ∧
    exec .transactionEnd s = .next
      ((s.withPort { s.port with
        txn := .closed, wr := none, rd := none, cmp := none, sdo := none }).withReq
        { s.req with asm := [] })

/-- CMP_DATA (R178, R180): the first byte of a record captures the head, or the EMPTY record; the bytes come
from the capture; the 8th byte of a head record pops it, and of an EMPTY record pops nothing; a byte that
begins a transaction begins a record. (Model choices: logs 21, 39.) -/
def Obligations.CompletionWindowDeliversTheHead : Prop :=
  ∀ s : State, s.portOpen = true →
    let goesOn : Prop := s.port.txn = .read ∧ s.port.addr = 0x15
    let reads (asm : List Byte) (b : Byte) (c : Option CmpRead) : State :=
      (s.withPort { s.port with
        txn := .read, addr := 0x15, wr := none, rd := none, sdo := some b, cmp := c }).withReq
        { s.req with asm := asm }
    let first (asm : List Byte) : Prop :=
      (∀ c rest, s.req.cmp = c :: rest →
        exec .cmpData s = .next (reads asm c.status.code (some ⟨c.bytes, true, 1⟩))) ∧
      (s.req.cmp = [] →
        exec .cmpData s = .next (reads asm 0 (some ⟨List.replicate 8 0, false, 1⟩)))
    (¬ goesOn → first []) ∧
    (goesOn →
      (s.port.cmp = none → first s.req.asm) ∧
      (∀ bs h n, s.port.cmp = some ⟨bs, h, n⟩ → n < 7 →
        exec .cmpData s = .next (reads s.req.asm (bs.getD n 0) (some ⟨bs, h, n + 1⟩))) ∧
      (∀ bs, s.port.cmp = some ⟨bs, true, 7⟩ →
        exec .cmpData s = .next
          ((reads s.req.asm (bs.getD 7 0) none).withReq { s.req with cmp := s.req.cmp.drop 1 })) ∧
      (∀ bs, s.port.cmp = some ⟨bs, false, 7⟩ →
        exec .cmpData s = .next (reads s.req.asm (bs.getD 7 0) none)))

/-! ## Events and errors -/

/-- EVENT_CLEAR, IRQ_EN, WAKE_EN, WAKE_ANY, SIGNAL_LATCH_CLEAR, ERR_STATUS_CLEAR, ERR_MASK and ERR_FIRST_CLEAR
(R167, R168, R170, R172 to R174): each changes its register alone; the header log keeps its content.
(Model choices: logs 15, 22, 39.) -/
def Obligations.EventAndErrorRegisterWrites : Prop :=
  ∀ s : State, s.portOpen = true →
    (∀ v, exec (.eventClear v) s =
      .next ((s.inWrite .event).withEvents { s.events with latched := s.events.latched &&& ~~~v })) ∧
    (∀ v, exec (.irqEn v) s = .next ((s.inWrite .irqEn).withEvents { s.events with irqEn := v &&& 0x01FF })) ∧
    (∀ v, exec (.wakeEn v) s = .next ((s.inWrite .wakeEn).withEvents { s.events with wakeEn := v &&& 0x01FF })) ∧
    (∀ b, exec (.wakeAny b) s = .next ((s.inWrite .control).withEvents { s.events with wakeAny := b })) ∧
    (∀ v, exec (.signalLatchClear v) s =
      .next ((s.inWrite .signalLatch).withEvents { s.events with latch := s.events.latch &&& ~~~v })) ∧
    (∀ v, exec (.errStatusClear v) s =
      .next ((s.inWrite .errStatus).withErrors { s.errors with status := s.errors.status &&& ~~~v })) ∧
    (∀ v, exec (.errMask v) s =
      .next ((s.inWrite .errMask).withErrors { s.errors with mask := v &&& 0x0FFF })) ∧
    (∀ v, exec (.errFirstClear v) s = .next ((s.inWrite .errFirst).withErrors { s.errors with first := none }))

/-- IRQn and WAKE (R169, R170): asserted exactly while the port answers and some event is set and enabled,
or, for WAKE, any event is set with WAKE_ANY; and CMP_READY is set exactly while the completion FIFO holds a
record. (Model choice: log 26.) -/
def Obligations.OutputsFollowTheEvents : Prop :=
  ∀ s : State,
    (s.irqAsserted = true ↔ s.portAnswers = true ∧
      ∃ e : Event, s.eventWord.getLsbD e.bit = true ∧ s.events.irqEn.getLsbD e.bit = true) ∧
    (s.wakeAsserted = true ↔ s.portAnswers = true ∧
      ∃ e : Event, s.eventWord.getLsbD e.bit = true ∧
        (s.events.wakeEn.getLsbD e.bit = true ∨ s.events.wakeAny = true)) ∧
    (s.eventWord.getLsbD 0 = true ↔ s.req.cmp ≠ [])

/-- The logging of a kind (R173, R174): a masked kind sets its status flag alone; an unmasked one sets the
ERROR event too, and captures the pointer and the header log exactly when the pointer holds NONE. -/
def Obligations.LoggingAnError : Prop :=
  ∀ (s : State) (k : ErrKind) (h : Header),
    let flagged : Errors := { s.errors with status := s.errors.status ||| BitVec.ofNat 16 (2 ^ k.bit) }
    let event : Events := { s.events with latched := s.events.latched ||| 0x0080 }
    (s.errors.mask.getLsbD k.bit = true → logError k h s = s.withErrors flagged) ∧
    (s.errors.mask.getLsbD k.bit = false → s.errors.first = none →
      logError k h s = (s.withEvents event).withErrors { flagged with first := some k, header := h }) ∧
    (s.errors.mask.getLsbD k.bit = false → s.errors.first ≠ none →
      logError k h s = (s.withEvents event).withErrors flagged)

/-! ## Trigger slots -/

/-- SLOT_ENABLE with 1 (R153): the checks on a DISABLED slot, each failure with its last cause and the SLOT
event; ARMED on success; no effect in any other state, nor on a slot the grade lacks (R185).
(Model choices: logs 22, 39.) -/
def Obligations.EnableSetChecksTheSlot : Prop :=
  ∀ s : State, s.portOpen = true →
    let n := s.port.slotSel
    let x := s.slotAt n
    let l := x.spec.tokens
    let units := x.spec.units.toNat
    let modeOk : Prop := x.mode = .follow → x.source = 1 ∨ x.source = 2
    let specOk : Prop :=
      1 ≤ x.spec.listLen.toNat ∧ x.spec.listLen.toNat ≤ 4 ∧ (∀ k ∈ l, k < s.n) ∧ l.Pairwise (· < ·) ∧
        1 ≤ units ∧ (∀ k ∈ l, units ≤ (entryAt s.table k).kind.capacity) ∧
        (l.length ≠ 1 → units = 1 ∧ ∀ k ∈ l, (entryAt s.table k).kind = .exclusive) ∧
        (s.grade = .vg418l → units = 1) ∧ x.spec.cls.toNat ≤ 3 ∧ x.source.toNat ≤ 4
    let fails (c : SlotCause) : Prop :=
      exec (.slotEnable true) s = .next ((modifySlot n (fun y => { y with cause := c }) (s.inWrite .slotCtrl)).withEvents
        { s.events with latched := s.events.latched ||| 0x0040 })
    (s.slotExists n = false → ∀ v, exec (.slotEnable v) s = .next (s.inWrite .slotCtrl)) ∧
    (s.slotExists n = true → x.state ≠ .disabled → exec (.slotEnable true) s = .next (s.inWrite .slotCtrl)) ∧
    (s.slotExists n = true → x.state = .disabled →
      (s.member.state = .unconfigured → fails .badSpec) ∧
      (s.member.state ≠ .unconfigured → ¬ modeOk → fails .badMode) ∧
      (s.member.state ≠ .unconfigured → modeOk → ¬ specOk → fails .badSpec) ∧
      (s.member.state ≠ .unconfigured → modeOk → specOk →
        exec (.slotEnable true) s = .next (modifySlot n
          (fun y => { y with state := .armed, missed := false, stop := false }) (s.inWrite .slotCtrl))))

/-- SLOT_ENABLE with 0 outside a claim that can be given up (R153). (Model choices: logs 22, 39.) -/
def Obligations.EnableClearedByState : Prop :=
  ∀ s : State, s.portOpen = true → s.slotExists s.port.slotSel = true →
    let n := s.port.slotSel
    ((s.slotAt n).state = .disabled → exec (.slotEnable false) s = .next (s.inWrite .slotCtrl)) ∧
    ((s.slotAt n).state = .armed ∨ (s.slotAt n).state = .triggered →
      exec (.slotEnable false) s =
        .next (modifySlot n (fun y => { y with state := .disabled }) (s.inWrite .slotCtrl))) ∧
    ((s.slotAt n).state = .withdrawing ∨ (s.slotAt n).state = .releasing →
      exec (.slotEnable false) s = .next (modifySlot n (fun y => { y with stop := true }) (s.inWrite .slotCtrl)))

/-- The opposite edge in FOLLOW mode, and ENABLE written 0, on a HELD slot (R126, R134, R158, R159): GNTn
low and the slot RELEASING in every case; a RUNNING or WARNED record becomes RELEASE_PENDING with its
counter kept and the held place becomes the slot's RELEASE entry; a record already pending stays as it is,
with the place still held. Nothing goes on the outgoing list, and the table is unchanged. (Model choices:
logs 4, 22.) -/
def Obligations.HeldSlotReleases : Prop :=
  ∀ (s : State) (n : BitVec 2) (c : Instr) (level : Bool) (l : Lease), s.powered = true → s.sized →
    s.freePend < 16 → s.slotExists n = true → (s.slotAt n).state = .held →
    (∀ x ∈ s.leases, x.overdue = false) → s.leaseOfSlot n = some l →
    ((c = .trgEdge n level ∧ (s.slotAt n).pin ≠ level ∧ (s.slotAt n).mode = .follow ∧
        (((s.slotAt n).source = 1 ∧ level = true) ∨ ((s.slotAt n).source = 2 ∧ level = false))) ∨
      (c = .slotEnable false ∧ s.portOpen = true ∧ s.port.slotSel = n)) →
    ∃ t, exec c s = .next t ∧ (t.slotAt n).state = .releasing ∧ (t.slotAt n).gnt = false ∧
      (t.slotAt n).stop = (if c = .slotEnable false then true else (s.slotAt n).stop) ∧
      (∀ m, m ≠ n → t.slotAt m = s.slotAt m) ∧ t.table = s.table ∧ t.line = s.line ∧
      t.member = s.member ∧ t.events = s.events ∧ t.errors = s.errors ∧ t.snap = s.snap ∧
      t.digest = s.digest ∧ t.config = s.config ∧ t.req.outgoing = s.req.outgoing ∧
      t.req.cmp = s.req.cmp ∧ t.req.fifo = s.req.fifo ∧
      (l.pending = false →
        (t.slotAt n).heldPlace = false ∧
        t.leases = s.leases.map
          (fun x => if x.names l.first then { x with state := .releasePending } else x) ∧
        t.req.pend = s.req.pend.set s.freePend (some
          { tag := (s.slotAt n).spec.tag, source := .slot n, kind := .release, origin := some l.first,
            list := l.tokens, units := 0, cls := 0, phase := .releasing, progress := [],
            heldWithdraw := false })) ∧
      (l.pending = true →
        (t.slotAt n).heldPlace = (s.slotAt n).heldPlace ∧ t.leases = s.leases ∧
        t.req.pend = s.req.pend)

/-- The opposite edge in FOLLOW mode, and ENABLE written 0, on a CLAIMING slot (R145, R160, R162), by whether its
CLAIM is on the line, sent or being aborted until that hold ends (R10, R19, R136): with the CLAIM not begun the
claim completes WITHDRAWN and the slot returns; with it on the line both are WITHDRAWING; a WAITING claim gets a
WITHDRAW on the outgoing list, or held on its entry when the list has no room. (Model choices: logs 16, 20, 22, 24.) -/
def Obligations.ClaimingSlotWithdraws : Prop :=
  (∀ (s : State) (m : Nat), s.claimOnLine m = true ↔ ∃ mode u l,
    s.line.tx = some ⟨.claim mode u l, some m⟩ ∨
      (s.line.tx = none ∧ ∃ h, s.line.hold = some h ∧ h.own = some ⟨.claim mode u l, some m⟩)) ∧
  ∀ (s : State) (n : BitVec 2) (c : Instr) (level : Bool) (m : Nat) (e : PendEntry), s.powered = true →
    s.sized → s.slotExists n = true → (s.slotAt n).state = .claiming → s.claimOfSlot n = some m →
    s.pendAt m = some e → s.cancelOf (e.origin.getD 0) = none →
    ((c = .trgEdge n level ∧ (s.slotAt n).pin ≠ level ∧ (s.slotAt n).mode = .follow ∧
        (((s.slotAt n).source = 1 ∧ level = true) ∨ ((s.slotAt n).source = 2 ∧ level = false))) ∨
      (c = .slotEnable false ∧ s.portOpen = true ∧ s.port.slotSel = n)) →
    let stop : Bool := if c = .slotEnable false then true else (s.slotAt n).stop
    ∃ t, exec c s = .next t ∧ t.table = s.table ∧ t.line = s.line ∧ t.leases = s.leases ∧
      t.member = s.member ∧ t.events = s.events ∧ t.errors = s.errors ∧ t.req.fifo = s.req.fifo ∧
      (∀ k, k ≠ n → t.slotAt k = s.slotAt k) ∧
      (e.phase = .outgoing → s.claimOnLine m = false →
        t.req.pend = s.req.pend.set m none ∧
        t.req.cmp = s.req.cmp ++ [.withdrawn e.tag (.slot n) e.units (e.origin.getD 0) []] ∧
        t.req.outgoing = s.req.outgoing.filter
          (fun f => !(f.entry == m && (f.isClaim || f.isWithdraw))) ∧
        (t.slotAt n).heldPlace = false ∧ (t.slotAt n).gnt = false ∧ (t.slotAt n).stop = false ∧
        (t.slotAt n).state =
          (if (s.slotAt n).mode = .follow ∧ stop = false then .armed else .disabled)) ∧
      (e.phase = .outgoing → s.claimOnLine m = true →
        t.req = { s.req with
          asm := t.req.asm, pend := s.req.pend.set m (some { e with phase := .withdrawing }) } ∧
        (t.slotAt n).state = .withdrawing ∧ (t.slotAt n).stop = stop) ∧
      (e.phase = .waiting → 0 < s.outgoingFree →
        t.req = { s.req with
          asm := t.req.asm, pend := s.req.pend.set m (some { e with phase := .withdrawing }),
          outgoing := s.req.outgoing ++ [⟨m, .withdraw (e.origin.getD 0)⟩] } ∧
        (t.slotAt n).state = .withdrawing ∧ (t.slotAt n).stop = stop) ∧
      (e.phase = .waiting → s.outgoingFree = 0 →
        t.req = { s.req with
          asm := t.req.asm,
          pend := s.req.pend.set m (some { e with phase := .withdrawing, heldWithdraw := true }) } ∧
        (t.slotAt n).state = .withdrawing ∧ (t.slotAt n).stop = stop)

/-- SLOT_CTRL (R153, R185): MODE, SOURCE and SIGNAL_CODE are stored in a DISABLED slot alone, and then the
written ENABLE acts as SLOT_ENABLE does, so that one write both specifies a slot and enables it.
(Model choices: logs 22, 39.) -/
def Obligations.SlotCtrlStoresAndThenEnables : Prop :=
  ∀ (s : State) (v : Byte), s.portOpen = true → s.slotExists s.port.slotSel = true →
    let n := s.port.slotSel
    let stored : State → State := modifySlot n (fun y => { y with
      mode := if v.getLsbD 6 then .follow else .single, source := BitVec.ofNat 3 (v.toNat / 8),
      code := BitVec.ofNat 3 v.toNat })
    ((s.slotAt n).state = .disabled → v.getLsbD 7 = false → exec (.slotCtrl v) s = .next (stored (s.inWrite .slotCtrl))) ∧
    ((s.slotAt n).state = .disabled → v.getLsbD 7 = true →
      exec (.slotCtrl v) s = exec (.slotEnable true) (stored s)) ∧
    ((s.slotAt n).state ≠ .disabled → exec (.slotCtrl v) s = exec (.slotEnable (v.getLsbD 7)) s)

/-- FIRE, TRIGGER_FLAG_CLEAR and MISSED_CLEAR (R152, R154, R155): FIRE triggers a slot of source SOFTWARE by
its state; 1 written to the trigger flag returns a TRIGGERED slot to ARMED; 1 written to MISSED clears it.
(Model choices: logs 22, 39.) -/
def Obligations.FireAndFlagWrites : Prop :=
  ∀ s : State, s.portOpen = true → s.slotExists s.port.slotSel = true →
    let n := s.port.slotSel
    let x := s.slotAt n
    (x.source ≠ 0 → exec .fire s = .next (s.inWrite .slotStatus)) ∧
    (x.source = 0 → x.state = .disabled → exec .fire s = .next (s.inWrite .slotStatus)) ∧
    (x.source = 0 → x.state = .armed →
      exec .fire s = .next (modifySlot n (fun y => { y with state := .triggered }) (s.inWrite .slotStatus))) ∧
    (x.source = 0 → x.state ≠ .disabled → x.state ≠ .armed →
      exec .fire s = .next
        ((modifySlot n (fun y => { y with missed := true, cause := .missed }) (s.inWrite .slotStatus)).withEvents
          { s.events with latched := s.events.latched ||| 0x0040 })) ∧
    (x.state = .triggered → exec .triggerFlagClear s =
      .next (modifySlot n (fun y => { y with state := .armed }) (s.inWrite .slotStatus))) ∧
    (x.state ≠ .triggered → exec .triggerFlagClear s = .next (s.inWrite .slotStatus)) ∧
    exec .missedClear s = .next (modifySlot n (fun y => { y with missed := false }) (s.inWrite .slotStatus))

/-- TRG_EDGE as a trigger, as the opposite edge of a slot with no claim, and as nothing (R154, R155).
(Model choice: log 3.) -/
def Obligations.EdgesTriggerByState : Prop :=
  ∀ (s : State) (n : BitVec 2) (level : Bool), s.powered = true →
    let x := s.slotAt n
    let s1 : State := s.withTrgPins (if level then s.trgPins ||| BitVec.ofNat 4 (2 ^ n.toNat)
      else s.trgPins &&& ~~~BitVec.ofNat 4 (2 ^ n.toNat))
    let pinOnly : State := modifySlot n (fun y => { y with pin := level }) s1
    let leading : Prop := (x.source = 1 ∧ level = false) ∨ (x.source = 2 ∧ level = true)
    let opposite : Prop :=
      x.mode = .follow ∧ ((x.source = 1 ∧ level = true) ∨ (x.source = 2 ∧ level = false))
    (s.slotExists n = false ∨ x.pin = level → exec (.trgEdge n level) s = .next s) ∧
    (s.slotExists n = true → x.pin ≠ level →
      (¬ leading → ¬ opposite → exec (.trgEdge n level) s = .next pinOnly) ∧
      (leading → x.state = .disabled → exec (.trgEdge n level) s = .next pinOnly) ∧
      (leading → x.state = .armed → exec (.trgEdge n level) s =
        .next (modifySlot n (fun y => { y with pin := level, state := .triggered }) s1)) ∧
      (leading → x.state ≠ .disabled → x.state ≠ .armed → exec (.trgEdge n level) s =
        .next ((modifySlot n
          (fun y => { y with pin := level, missed := true, cause := .missed }) s1).withEvents
          { s.events with latched := s.events.latched ||| 0x0040 })) ∧
      (opposite → x.state = .triggered → exec (.trgEdge n level) s =
        .next (modifySlot n (fun y => { y with pin := level, state := .armed }) s1)) ∧
      (opposite → x.state = .disabled ∨ x.state = .armed ∨ x.state = .withdrawing ∨
        x.state = .releasing → exec (.trgEdge n level) s = .next pinOnly))

/-! ## Requests -/

/-- ACQUIRE (R138): the checks in their order with their completions, and the claim entry and CLAIM frame of
an ACQUIRE that passes them. (Model choices: logs 16, 24.) -/
def Obligations.AcquireCheckedAndTaken : Prop :=
  ∀ (s : State) (r : Request), s.powered = true → s.dispatchable = some r → r.code = 0x01 →
    let p := popRequest s
    let mode := r.b2.toNat / 16
    let len := r.b2.toNat % 16
    let units := r.b3.toNat / 16
    let cls := r.b3.toNat % 16
    let l := ([r.b4, r.b5, r.b6, r.b7].take len).map BitVec.toNat
    let bare (st : Status) : Completion := ⟨st, r.tag, .host, 1, 0, 0, 0, 0, 0⟩
    let answers (c : Completion) : Prop := exec .acquire s = .next (pushCompletion c p)
    let form : Prop := 1 ≤ len ∧ len ≤ 4 ∧ (∀ k ∈ l, k < s.n) ∧ l.Pairwise (· < ·) ∧ mode ≤ 1 ∧
      cls ≤ 3 ∧ 1 ≤ units ∧
      (len ≠ 1 → mode = 0 ∧ units = 1 ∧ ∀ k ∈ l, (entryAt s.table k).kind = .exclusive)
    let supported : Prop := s.grade = .vg418l → len = 1 → units = 1
    let fits : Prop := ∀ k ∈ l, units ≤ (entryAt s.table k).kind.capacity
    let unclaimed (k : Nat) : Prop := (∀ x ∈ s.leases, k ∉ x.tokens) ∧
      ∀ e, some e ∈ s.req.pend → e.kind = .acquire → k ∉ e.progress ∧ k ∉ e.list
    (s.member.state ≠ .active → answers (bare .notActive)) ∧
    (s.member.state = .active → ¬ form → answers (bare .badRequest)) ∧
    (s.member.state = .active → form → ¬ supported → answers (bare .unsupported)) ∧
    (s.member.state = .active → form → supported → ¬ fits → answers (bare .badRequest)) ∧
    (∀ pre k post, s.member.state = .active → form → supported → fits → l = pre ++ k :: post →
      (∀ j ∈ pre, unclaimed j) → ¬ unclaimed k →
      answers ⟨.conflict, r.tag, .host, 1, 0x10, BitVec.ofNat 8 k, 0, 0, 0⟩) ∧
    (s.member.state = .active → form → supported → fits → (∀ k ∈ l, unclaimed k) →
      exec .acquire s = .next (p.withReq { p.req with
        pend := s.req.pend.set s.freePend (some
          { tag := r.tag, source := .host, kind := .acquire, origin := l.head?, list := l,
            units := units, cls := cls, phase := .outgoing, progress := [], heldWithdraw := false }),
        outgoing := s.req.outgoing ++
          [⟨s.freePend, .claim (if mode = 0 then .wait else .tryNow) units l⟩] }))

/-- RELEASE (R125, R140, R159): the checks in their order, TOO_LATE for a record already pending, and the
record, entry and slot of a RELEASE that is taken. (Model choices: logs 4, 16, 24.) -/
def Obligations.ReleaseCheckedAndTaken : Prop :=
  ∀ (s : State) (r : Request), s.powered = true → s.dispatchable = some r → r.code = 0x02 →
    (∀ x ∈ s.leases, x.overdue = false) →
    let p := popRequest s
    let answers (c : Completion) : Prop := exec .release s = .next (pushCompletion c p)
    let named (st : Status) : Completion := ⟨st, r.tag, .host, 2, 0x10, r.b3, 0, 0, 0⟩
    let slotForm : Prop := r.b2 = 1 ∧ r.b3.toNat < s.grade.slots
    let slot : BitVec 2 := BitVec.ofNat 2 r.b3.toNat
    let taken (l : Lease) : State :=
      (p.withLeases (s.leases.map
        (fun x => if x.names l.first then { x with state := .releasePending } else x))).withReq
        { p.req with pend := s.req.pend.set s.freePend (some
          { tag := r.tag, source := .host, kind := .release, origin := some l.first, list := l.tokens,
            units := 0, cls := 0, phase := .releasing, progress := [],
            heldWithdraw := false }) }
    (s.member.state ≠ .active → s.member.state ≠ .leaving →
      answers ⟨.notActive, r.tag, .host, 2, 0, 0, 0, 0, 0⟩) ∧
    (s.member.state = .active ∨ s.member.state = .leaving →
      (r.b2 ≠ 0 → ¬ slotForm → answers ⟨.badRequest, r.tag, .host, 2, 0, 0, 0, 0, 0⟩) ∧
      (r.b2 = 0 → s.leaseOf r.b3.toNat = none → answers (named .notHeld)) ∧
      (slotForm → s.leaseOfSlot slot = none → answers (named .notHeld)) ∧
      (∀ l n, r.b2 = 0 → s.leaseOf r.b3.toNat = some l → l.source = .slot n →
        answers (named .slotOwned)) ∧
      (∀ l, (r.b2 = 0 ∧ s.leaseOf r.b3.toNat = some l ∧ l.source = .host) ∨
          (slotForm ∧ s.leaseOfSlot slot = some l) →
        (l.pending = true →
          answers (.listed .tooLate r.tag .host 2 l.tokens l.units)) ∧
        (l.pending = false →
          exec .release s = .next (match l.source with
            | .host => taken l
            | .slot n => modifySlot n (fun x => { x with state := .releasing, gnt := false })
                (taken l)))))

/-- RENEW (R123, R124, R141, R163): the checks in their order, NOT_ACTIVE, BAD_REQUEST, NOT_HELD and
SLOT_OWNED; and, on the record found by its token or by its slot, TOO_LATE, NO_LEASE, RENEWED with the
counter at LEN, TOO_EARLY, or FORFEITED with the record expired and a HELD slot RELEASING with GNTn low,
each with its events and errors. No two records name the record's first token (R118). (Model choices: logs
4, 16, 24.) -/
def Obligations.RenewAnswersFromTheRecord : Prop :=
  ∀ (s : State) (r : Request), s.powered = true → s.dispatchable = some r → r.code = 0x03 →
    (∀ x ∈ s.leases, x.overdue = false) →
    let p := popRequest s
    let answers (c : Completion) : Prop := exec .renew s = .next (pushCompletion c p)
    let named (st : Status) : Completion := ⟨st, r.tag, .host, 3, 0x10, r.b3, 0, 0, 0⟩
    let slotForm : Prop := r.b2 = 1 ∧ r.b3.toNat < s.grade.slots
    let slot : BitVec 2 := BitVec.ofNat 2 r.b3.toNat
    let noFrame : Header := ⟨.noFrame, 0, 0, 0, List.replicate 8 0⟩
    (s.member.state ≠ .active → s.member.state ≠ .leaving →
      answers ⟨.notActive, r.tag, .host, 3, 0, 0, 0, 0, 0⟩) ∧
    (s.member.state = .active ∨ s.member.state = .leaving →
      (r.b2 ≠ 0 → ¬ slotForm → answers ⟨.badRequest, r.tag, .host, 3, 0, 0, 0, 0, 0⟩) ∧
      (r.b2 = 0 → s.leaseOf r.b3.toNat = none → answers (named .notHeld)) ∧
      (slotForm → s.leaseOfSlot slot = none → answers (named .notHeld)) ∧
      (∀ l n, r.b2 = 0 → s.leaseOf r.b3.toNat = some l → l.source = .slot n →
        answers (named .slotOwned)) ∧
      (∀ l, (r.b2 = 0 ∧ s.leaseOf r.b3.toNat = some l ∧ l.source = .host) ∨
          (slotForm ∧ s.leaseOfSlot slot = some l) →
        let c := s.classParams l.cls
        let ends (st : Status) (low : Nat) : Completion := .listed st r.tag .host 3 l.tokens low
        let renewed (st : LeaseState) : State := p.withLeases (s.leases.map
          (fun x => if x.names l.first then { x with counter := c.len.toNat, state := st } else x))
        let expired : State := (p.withLeases (s.leases.map
          (fun x => if x.names l.first then { x with state := .expiredPending, counter := 0 }
            else x))).withEvents { s.events with latched := s.events.latched ||| 0x0004 }
        let lowered : State := match l.source with
          | .host => expired
          | .slot n => modifySlot n
              (fun x => if x.state = .held then { x with state := .releasing, gnt := false } else x) expired
        (l.pending = true → answers (ends .tooLate l.units)) ∧
        (l.pending = false → l.cls = 0 → answers (ends .noLease l.units)) ∧
        (l.pending = false → l.cls ≠ 0 → l.counter ≤ c.w.toNat → c.v ≠ c.len →
          exec .renew s = .next (pushCompletion (ends .renewed l.cls) (renewed .running))) ∧
        (l.pending = false → l.cls ≠ 0 → l.counter ≤ c.w.toNat → c.v = c.len →
          exec .renew s = .next (pushCompletion (ends .renewed l.cls) ((renewed .warned).withEvents
            { s.events with latched := s.events.latched ||| 0x0002 }))) ∧
        (l.pending = false → l.cls ≠ 0 → c.w.toNat < l.counter → c.strict = false →
          exec .renew s = .next (pushCompletion (ends .tooEarly l.units)
            (logError .earlyRenew noFrame p))) ∧
        (l.pending = false → l.cls ≠ 0 → c.w.toNat < l.counter → c.strict = true →
          s.leaseOf l.first = some l →
          exec .renew s = .next (pushCompletion (ends .forfeited l.units)
            (logError .earlyRenew noFrame lowered)))))

/-- CANCEL (R142 to R144): its three refusals, and the three outcomes by where the claim stands.
(Model choices: logs 16, 20, 24.) -/
def Obligations.CancelByWhereTheClaimStands : Prop :=
  ∀ (s : State) (r : Request), s.powered = true → s.dispatchable = some r → r.code = 0x04 →
    let p := popRequest s
    let o := r.b2.toNat
    let one (st : Status) : Completion := ⟨st, r.tag, .host, 4, 0x10, r.b2, 0, 0, 0⟩
    let answers (st : Status) : Prop := exec .cancel s = .next (pushCompletion (one st) p)
    let entry : PendEntry :=
      { tag := r.tag, source := .host, kind := .cancel, origin := some r.b2.toNat, list := [], units := 0,
        cls := 0, phase := .withdrawing, progress := [], heldWithdraw := false }
    (s.claimOf o = none → answers .notFound) ∧
    (∀ m e, s.claimOf o = some m → s.pendAt m = some e →
      (e.source ≠ .host → answers .slotOwned) ∧
      (e.source = .host → e.phase = .withdrawing → answers .conflict) ∧
      (e.source = .host → e.phase = .outgoing → s.claimOnLine m = false → s.cancelOf o = none →
        exec .cancel s = .next (p.withReq { p.req with
          pend := s.req.pend.set m none,
          cmp := s.req.cmp ++ [.withdrawn e.tag .host e.units o [], one .done],
          outgoing := s.req.outgoing.filter
            (fun f => !(f.entry == m && (f.isClaim || f.isWithdraw))) })) ∧
      (e.source = .host → e.phase = .outgoing → s.claimOnLine m = true →
        exec .cancel s = .next (p.withReq { p.req with
          pend := (s.req.pend.set m (some { e with phase := .withdrawing })).set s.freePend
            (some entry) })) ∧
      (e.source = .host → e.phase = .waiting →
        exec .cancel s = .next (p.withReq { p.req with
          pend := (s.req.pend.set m (some { e with phase := .withdrawing })).set s.freePend
            (some entry),
          outgoing := s.req.outgoing ++ [⟨m, .withdraw o⟩] })))

/-- SIGNAL (R146): the two refusals, and the entry and frame of one that is taken. (Model choices: logs 16,
24, 37.) -/
def Obligations.SignalCheckedAndTaken : Prop :=
  ∀ (s : State) (r : Request), s.powered = true → s.dispatchable = some r → r.code = 0x05 →
    let p := popRequest s
    let bare (st : Status) : Completion := ⟨st, r.tag, .host, 5, 0, 0, 0, 0, 0⟩
    (s.member.state ≠ .active →
      exec .signal s = .next (pushCompletion (bare .notActive) p)) ∧
    (s.member.state = .active → 7 < r.b4.toNat →
      exec .signal s = .next (pushCompletion (bare .badRequest) p)) ∧
    (s.member.state = .active → r.b4.toNat ≤ 7 →
      exec .signal s = .next (p.withReq { p.req with
        pend := s.req.pend.set s.freePend (some
          { tag := r.tag, source := .host, kind := .signal, origin := none, list := [], units := 0,
            cls := 0, phase := .signalling, progress := [], heldWithdraw := false }),
        outgoing := s.req.outgoing ++
          [⟨s.freePend, .signal (r.b2 ++ r.b3) (BitVec.ofNat 3 r.b4.toNat)⟩] }))

/-- QUERY (R147): NOT_ACTIVE, BAD_REQUEST, or at once the fields of R50 from the replica; no entry, no
frame, and nothing else changed. -/
def Obligations.QueryAnswersFromTheReplica : Prop :=
  ∀ (s : State) (r : Request), s.powered = true → s.dispatchable = some r → r.code = 0x06 →
    let p := popRequest s
    let e := entryAt s.table r.b2.toNat
    let answers (c : Completion) : Prop :=
      exec .query s = .next (p.withReq { p.req with cmp := s.req.cmp ++ [c] })
    let refuses (code : Status) : Prop :=
      ∃ c : Completion, c.status = code ∧ c.tag = r.tag ∧ c.source = .host ∧ c.kind = 6 ∧ answers c
    (s.member.state ≠ .active → s.member.state ≠ .leaving →
      refuses .notActive) ∧
    (s.member.state = .active ∨ s.member.state = .leaving → s.n ≤ r.b2.toNat →
      refuses .badRequest) ∧
    (s.member.state = .active ∨ s.member.state = .leaving → r.b2.toNat < s.n →
      answers ⟨.queryResult, r.tag, .host, 6,
        nibbles e.change.code (match e.kind with
          | .exclusive => 0
          | .pool c => c % 256),
        nibbles e.holders.length e.freeUnits,
        (match e.holders.head? with
          | some h => nibbles h.station.toNat h.units
          | none => 0),
        nibbles e.waiters.length (match e.waiters.head? with
          | some w => w.position
          | none => 0),
        (match e.waiters.head? with
          | some w => nibbles w.station.toNat w.units
          | none => 0)⟩)

/-- DETACH (R79, R148): WRONG_STATE outside ACTIVE; in ACTIVE the entry, LEAVING, the own EVICT want, the
empty service list, the digest timer stopped and the MEMBERSHIP event, with the replica, the leases and the
slots kept. (Model choices: logs 16, 24.) -/
def Obligations.DetachEntersLeaving : Prop :=
  ∀ (s : State) (r : Request), s.powered = true → s.dispatchable = some r → r.code = 0x07 →
    let p := popRequest s
    (s.member.state ≠ .active →
      exec .detach s = .next (pushCompletion ⟨.wrongState, r.tag, .host, 7, 0, 0, 0, 0, 0⟩ p)) ∧
    (s.member.state = .active → ∃ t, exec .detach s = .next t ∧
      t.req = { p.req with pend := s.req.pend.set s.freePend (some
        { tag := r.tag, source := .host, kind := .detach, origin := none, list := [], units := 0,
          cls := 0, phase := .releasing, progress := [], heldWithdraw := false }) } ∧
      t.member = { s.member with
        state := .leaving, evictWants := (s.station, .self) :: s.member.evictWants } ∧
      t.snap = { s.snap with service := [] } ∧ t.digest = ⟨none, false⟩ ∧
      t.events = { s.events with latched := s.events.latched ||| 0x0010 } ∧
      t.line = { s.line with yielding := false } ∧ t.table = s.table ∧ t.leases = s.leases ∧
      t.slots = s.slots ∧ t.errors = s.errors ∧ t.config = s.config)

/-- When the dispatcher takes the head (R132 to R134): exactly when the completion has a free place, a
request that needs an outgoing place has one, and no slot can issue; a request command does nothing when the
head may not be taken or is of another kind. And JOIN and UNKNOWN_REQUEST (R73, R84, R149): JOIN leads from
DETACHED to LISTENING and completes DONE, and is WRONG_STATE elsewhere; a record of no kind is BAD_REQUEST
with its tag. (Model choices: logs 3, 16, 24.) -/
def Obligations.JoinAndUnknownRequest : Prop :=
  (∀ (s : State) (r : Request),
    let claimWaits : Prop := ∃ n e, s.claimOf r.b2.toNat = some n ∧ s.pendAt n = some e ∧ e.phase = .waiting
    let needsPlace : Prop := (r.code = 1 ∧ acquireRefusal s r = none) ∨
      (r.code = 5 ∧ signalRefusal s r = none) ∨ (r.code = 4 ∧ cancelRefusal s r = none ∧ claimWaits)
    let slotIssues : Prop := s.member.state = .active ∧ s.reserved ≤ 14 ∧ 0 < s.outgoingFree ∧
      ∃ n, s.slotExists n = true ∧ (s.slotAt n).state = .triggered
    s.dispatchable = some r ↔ s.req.fifo.head? = some r ∧ s.reserved < 16 ∧
      (needsPlace → 0 < s.outgoingFree) ∧ ¬ slotIssues) ∧
  (∀ (s : State) (c : Instr) (code : Byte),
    (c, code) ∈ [(Instr.acquire, (1 : Byte)), (.release, 2), (.renew, 3), (.cancel, 4), (.signal, 5),
      (.query, 6), (.detach, 7), (.join, 8)] →
    (∀ r, s.dispatchable = some r → r.code ≠ code) → exec c s = .next s) ∧
  (∀ s : State, (∀ r, s.dispatchable = some r → 1 ≤ r.code.toNat ∧ r.code.toNat ≤ 8) →
    exec .unknownRequest s = .next s) ∧
  ∀ (s : State) (r : Request), s.powered = true → s.dispatchable = some r →
    let p := popRequest s
    (r.code = 0x08 → s.member.state ≠ .detached →
      exec .join s = .next (pushCompletion ⟨.wrongState, r.tag, .host, 8, 0, 0, 0, 0, 0⟩ p)) ∧
    (r.code = 0x08 → s.member.state = .detached → ∃ t, exec .join s = .next t ∧
      t.req = { p.req with cmp := s.req.cmp ++ [⟨.done, r.tag, .host, 8, 0, 0, 0, 0, 0⟩] } ∧
      t.member.state = .listening ∧ t.member.presenceWant = true ∧ t.member.activeSeen = false ∧
      t.member.listenTimer = none ∧ t.member.peers = List.replicate 16 Peer.cleared ∧
      t.line.rfc = 0 ∧ t.line.tfc = 0 ∧ t.line.phase = .waiting ∧ t.line.recessive = 0 ∧
      t.line.yielding = false ∧ t.events.latched.getLsbD 4 = true ∧ t.config = s.config ∧
      t.errors = s.errors ∧ t.leases = s.leases ∧ t.slots = s.slots) ∧
    (r.code = 0 ∨ 8 < r.code.toNat →
      exec .unknownRequest s =
        .next (pushCompletion ⟨.badRequest, r.tag, .host, 0, 0, 0, 0, 0, 0⟩ p))

/-- SLOT_ISSUE (R134, R151, R156): the lowest TRIGGERED slot, in ACTIVE, with two places and one outgoing
place, makes a claim entry and a WAIT CLAIM and holds a place, or completes CONFLICT and returns; with no
such slot or no room nothing happens. (Model choices: logs 3, 16, 24.) -/
def Obligations.SlotIssueClaimsOrConflicts : Prop :=
  ∀ (s : State) (n : BitVec 2), s.powered = true →
    let x := s.slotAt n
    let l := x.spec.tokens
    let ready : Prop := s.slotExists n = true ∧ x.state = .triggered ∧
      ∀ m : BitVec 2, m.toNat < n.toNat → (s.slotAt m).state ≠ .triggered
    let unclaimed (k : Nat) : Prop := (∀ y ∈ s.leases, k ∉ y.tokens) ∧
      ∀ e, some e ∈ s.req.pend → e.kind = .acquire → k ∉ e.progress ∧ k ∉ e.list
    (s.member.state ≠ .active ∨ 14 < s.reserved ∨ s.outgoingFree = 0 ∨
      (∀ m, s.slotExists m = true → (s.slotAt m).state ≠ .triggered) →
      exec .slotIssue s = .next s) ∧
    (s.member.state = .active → s.reserved ≤ 14 → 0 < s.outgoingFree → ready →
      ((∀ k ∈ l, unclaimed k) →
        exec .slotIssue s = .next (modifySlot n
          (fun y => { y with state := .claiming, heldPlace := true })
          (s.withReq { s.req with
            pend := s.req.pend.set s.freePend (some
              { tag := x.spec.tag, source := .slot n, kind := .acquire, origin := l.head?, list := l,
                units := x.spec.units.toNat, cls := x.spec.cls.toNat, phase := .outgoing,
                progress := [], heldWithdraw := false }),
            outgoing := s.req.outgoing ++ [⟨s.freePend, .claim .wait x.spec.units.toNat l⟩] }))) ∧
      (∀ pre k post, l = pre ++ k :: post → (∀ j ∈ pre, unclaimed j) → ¬ unclaimed k →
        exec .slotIssue s = .next (modifySlot n
          (fun y => { y with
            cause := .conflict, heldPlace := false, gnt := false, stop := false,
            state := if y.mode = .follow ∧ y.stop = false then .armed else .disabled })
          ((s.withReq { s.req with cmp := s.req.cmp ++
            [⟨.conflict, x.spec.tag, .slot n, 1, 0x10, BitVec.ofNat 8 k, 0, 0, 0⟩] }).withEvents
            { s.events with latched := s.events.latched ||| 0x0040 }))))

/-- HELD_WITHDRAW_PLACE (R145): the held WITHDRAW of the lowest-numbered slot goes on the outgoing list when
it has room; with a full list, or none held, nothing happens. (Model choice: log 3.) -/
def Obligations.HeldWithdrawIsPlaced : Prop :=
  ∀ (s : State), s.powered = true →
    (8 ≤ s.req.outgoing.length ∨ (∀ e, some e ∈ s.req.pend → e.heldWithdraw = false) →
      exec .heldWithdrawPlace s = .next s) ∧
    (∀ (m : Nat) (e : PendEntry) (n : BitVec 2), s.req.outgoing.length < 8 → s.pendAt m = some e →
      e.source = .slot n → e.heldWithdraw = true →
      (∀ m' e' n', s.pendAt m' = some e' → e'.source = .slot n' → e'.heldWithdraw = true →
        n.toNat < n'.toNat ∨ m' = m) →
      exec .heldWithdrawPlace s = .next (s.withReq { s.req with
        pend := s.req.pend.set m (some { e with heldWithdraw := false }),
        outgoing := s.req.outgoing ++ [⟨m, .withdraw (e.origin.getD 0)⟩] }))

/-! ## The line -/

/-- LINE_WAIT_DONE, IDLE_GAP and YIELD_TIMEOUT (R2, R15): the wait of 830 and the idle gap of 8 recessive bit
times end in start boundaries, and 24 end the yield state; elsewhere they do nothing.
(Model choices: logs 3, 5, 32.) -/
def Obligations.RecessiveCountsEndWaits : Prop :=
  ∀ s : State, s.powered = true → s.takesPart = true →
    (s.line.phase = .waiting → exec .lineWaitDone s =
      .next (s.withLine { s.line with phase := .idle, recessive := 830 })) ∧
    (s.line.phase ≠ .waiting → exec .lineWaitDone s = .next s) ∧
    (s.line.phase = .gap → s.line.hold = none → exec .idleGap s =
      .next (s.withLine { s.line with phase := .idle, recessive := 8 })) ∧
    (s.line.phase ≠ .gap → exec .idleGap s = .next s) ∧
    (s.line.yielding = true → s.line.phase = .gap ∨ s.line.phase = .idle → exec .yieldTimeout s =
      .next (s.withLine { s.line with phase := .idle, yielding := false, recessive := 24 })) ∧
    (s.line.yielding = false → exec .yieldTimeout s = .next s)

/-- TRANSMIT_START (R6, R7, R15): a station with a candidate sends it when no rival's contention value is
lower than its own, and receives when one is; without a candidate, or yielding, it receives what the rivals
send and drives nothing. LDE is asserted in the dominant bits of an own frame (its start bit 0 first), in those
of one whose contention is lost as far as the bit of the loss, and from the start of a hold on, and in no other
bit; LTX is high whenever LDE is deasserted (R1). A joiner's donor that has stopped being eligible while its
SNAPREQ was on the line is chosen again before the start bit, or sought where there is none (R91). (Model
choices: logs 3, 6, 10, 19, 20, 36.) -/
def Obligations.LowestContentionValueSends : Prop :=
  (∀ (s : State) (k : Nat),
    (∀ h, s.powered = true → s.line.hold = some h → s.ldeAsserted = true ∧ (h.start ≤ k → s.ldeAt k = true) ∧
      (k < h.start → s.ldeAt k = (s.withLine { s.line with hold := none }).ldeAt k)) ∧
    (s.line.hold = none → s.ldeAsserted = false) ∧
    (s.line.hold = none → s.line.tx = none → s.line.begun = [] → s.ldeAt k = false) ∧
    (∀ x, s.powered = true → s.line.hold = none → s.line.tx = some x →
      let f := x.frame.toRaw s.station
      let level (w : Nat) (v : Nat) (i : Nat) : Bool := v.testBit (w - 1 - i)
      (k = 0 → s.ldeAt k = true) ∧
      (∀ i, i < 7 → k = 1 + i → s.ldeAt k = !level 7 f.contention.toNat i) ∧
      (∀ i, i < 4 → k = 8 + i → s.ldeAt k = !level 4 f.kind.toNat i) ∧
      (∀ i, i < 8 → k = 12 + i → s.ldeAt k = !level 8 f.length.toNat i) ∧
      (∀ j i b, f.payload[j]? = some b → i < 8 → k = 20 + 8 * j + i → s.ldeAt k = !level 8 b.toNat i) ∧
      (∀ i, i < 32 → k = 20 + 8 * f.payload.length + i → s.ldeAt k = !level 32 f.check.toNat i) ∧
      (52 + 8 * f.payload.length ≤ k → s.ldeAt k = false)) ∧
    s.ltx = !s.ldeAsserted ∧ s.ltxAt k = !s.ldeAt k) ∧
  (∀ (s : State) (rivals : List (BitVec 7)), s.powered = true → s.member.state = .joining →
    s.line.phase = .idle → s.line.hold = none → s.line.tx = none → s.snap.engine = .requesting →
    s.eligible s.donorRef = false →
    (∀ d, s.findDonor s.donorRef = some d → exec (.transmitStart rivals) s = exec (.transmitStart rivals)
      (s.withSnap { s.snap with engine := .requesting, donor := some d, timer := none })) ∧
    (s.findDonor s.donorRef = none → exec (.transmitStart rivals) s = exec (.transmitStart rivals)
      (s.withSnap { s.snap with engine := .seeking, timer := some (2 * s.presencePeriod) }))) ∧
  ∀ (s : State) (rivals : List (BitVec 7)), s.powered = true →
    let sends (tx : Option TxFrame) : Prop := exec (.transmitStart rivals) s =
      .next (s.withLine { s.line with phase := .inFrame, recessive := 0, tx := tx, begun := [] })
    (s.takesPart = false ∨ s.line.phase ≠ .idle → exec (.transmitStart rivals) s = .next s) ∧
    (s.takesPart = true → s.line.phase = .idle → s.line.hold = none →
      (s.member.state = .joining → s.snap.engine = .requesting → s.eligible s.donorRef = true) →
      (∀ c, s.chosen = some c → s.line.yielding = false →
        let own : Nat := c.frame.classCode * 16 + s.station.toNat
        ((∀ r ∈ rivals, own ≤ r.toNat) → sends (some c)) ∧
        (∀ m ∈ rivals, m.toNat < own → (∀ r ∈ rivals, m.toNat ≤ r.toNat) → ∃ t,
          exec (.transmitStart rivals) s = .next t ∧ t.line = { s.line with
            phase := .inFrame, recessive := 0, tx := none, begun := t.line.begun } ∧
          s.withLine t.line = t ∧
          ∀ i, i < 7 → own.testBit (6 - i) ≠ m.toNat.testBit (6 - i) →
            (∀ j, j < i → own.testBit (6 - j) = m.toNat.testBit (6 - j)) →
            t.ldeAt 0 = true ∧ (∀ j, j < i → t.ldeAt (1 + j) = !own.testBit (6 - j)) ∧
              ∀ k, 1 + i ≤ k → t.ldeAt k = false)) ∧
      (s.chosen = none ∨ s.line.yielding = true →
        (rivals = [] → exec (.transmitStart rivals) s = .next s) ∧ (rivals ≠ [] → sends none)))

/-- The candidate that goes (R12, R14, R18): which frames are candidates, which of them each membership
state permits (with the states of R3), that the one that goes is permitted and of the lowest class code,
that there is one whenever some candidate is permitted, and which goes within its class. -/
def Obligations.LowestClassCandidateGoes : Prop :=
  (∀ (s : State) (x : TxFrame), x ∈ s.candidates ↔
    (∃ a c, s.member.evictWants.find? (fun w => w.1 == a) = some (a, c) ∧ x = ⟨.evict a c, none⟩) ∨
    (∃ l ∈ s.leases, (l.state = .releasePending ∧ x = ⟨.release .host l.tokens, none⟩) ∨
      (l.state = .expiredPending ∧ x = ⟨.release .expired l.tokens, none⟩)) ∨
    (∃ f ∈ s.req.outgoing, x = ⟨f.frame, some f.entry⟩ ∧
      ((∃ o, f.frame = .withdraw o) ∨ (∃ m u l, f.frame = .claim m u l) ∨ ∃ m c, f.frame = .signal m c)) ∨
    (s.snap.engine = .requesting ∧ x = ⟨.snapreq (s.snap.donor.getD 15) s.snap.cursor, none⟩) ∨
    (∃ j i rest, s.snap.service = (j, i) :: rest ∧
      x = ⟨.snap j i (entryAt s.table i).kind (entryAt s.table i).holders (entryAt s.table i).waiters,
        none⟩) ∨
    (s.digest.want = true ∧ x = ⟨.digest s.tableDigest, none⟩) ∨
    (s.member.presenceWant = true ∧ x = ⟨.presence (match s.member.state with
      | .listening => .listening
      | .joining => .joining
      | .active | .leaving | .unconfigured | .detached => .active) s.config.digest, none⟩)) ∧
  (∀ (own : Addr) (f : Frame),
    permitted .unconfigured own f = false ∧ permitted .detached own f = false ∧
    (permitted .listening own f = true ↔ ∃ d, f = .presence .listening d) ∧
    (permitted .joining own f = true ↔ (∃ d, f = .presence .joining d) ∨ ∃ d i, f = .snapreq d i) ∧
    (permitted .active own f = true ↔ (∀ t, f ≠ .evict t .self) ∧ (∀ d i, f ≠ .snapreq d i) ∧
      (∀ p d, f = .presence p d → p = .active)) ∧
    (permitted .leaving own f = true ↔ f = .evict own .self ∨ (∃ c l, f = .release c l) ∨
      (∃ d, f = .presence .active d) ∨ ∃ j i k hs ws, f = .snap j i k hs ws)) ∧
  (∀ s : State,
    let mayGo (c : TxFrame) : Prop := c ∈ s.candidates ∧ permitted s.member.state s.station c.frame = true
    (∀ c, s.chosen = some c → mayGo c ∧ ∀ d, mayGo d → c.frame.classCode ≤ d.frame.classCode) ∧
    (s.chosen = none → ∀ d, ¬ mayGo d) ∧
    (∀ a c, s.chosen = some ⟨.evict a c, none⟩ → a = s.station ∨
      ∀ b d, mayGo ⟨.evict b d, none⟩ → b ≠ s.station ∧ a.toNat ≤ b.toNat) ∧
    ((s.leases.map Lease.first).Pairwise (· ≤ ·) → ∀ c l, s.chosen = some ⟨.release c l, none⟩ →
      ∀ d m, mayGo ⟨.release d m, none⟩ → l.headD 0 ≤ m.headD 0) ∧
    (∀ g n, s.chosen = some ⟨g, some n⟩ → ∃ pre f post, s.req.outgoing = pre ++ f :: post ∧
      f.frame = g ∧ f.entry = n ∧ ∀ h ∈ pre, h.frame.classCode ≠ g.classCode) ∧
    (∀ j i k hs ws e, s.chosen = some ⟨.snap j i k hs ws, e⟩ → ∀ d m o, ¬ mayGo ⟨.snapreq d m, o⟩))

/-- FRAME_ACCEPTED of a peer's CLAIM, RELEASE or WITHDRAW, of its EVICT of another station, and of its
PRESENCE carrying LISTENING with the digest in force, at a station in ACTIVE or LEAVING (R10, R15, R16, R27,
R68, R70, R72, R102): the table takes the frame, the units take its reports, the sender is shown with a full
dropout counter, an evicted station ABSENT; the wants that end and the service list; RFC falls, the yield
ends; the rest stays. And a peer's EVICT that names this station (R81, R82, R85): EVICTED with cause DROPOUT
and no error with cause SELF, the purge, and the state it leads to. (Model choices: logs 7, 16, 28.) -/
def Obligations.AcceptedTableFrameIsApplied : Prop :=
  ∀ (s : State) (r : RawFrame) (f : Frame), s.powered = true →
    (s.member.state = .active ∨ s.member.state = .leaving) →
    s.line.tx = none → s.line.hold = none → s.line.phase ≠ .waiting → s.member.peers.length = 16 →
    receiveCheck s.table s.station r = .ok f →
    let sender := senderOf r
    let a := applyFrame s.table s.n s.station sender f
    let tableFrame : Prop :=
      (∃ m u l, f = .claim m u l) ∨ (∃ c l, f = .release c l) ∨ ∃ o, f = .withdraw o
    let restart : Prop := f = .presence .listening s.config.digest
    let target : Option Addr := match f with
      | .evict g _ => some g
      | _ => none
    (tableFrame ∨ restart ∨ (∃ g, target = some g ∧ g ≠ s.station) →
      ∃ t, exec (.frameAccepted (.received r)) s = .next t ∧ t.table = a.table ∧
        t.line = { s.line with
          phase := .gap, recessive := 0, begun := [], yielding := false, rfc := s.line.rfc - 1 } ∧
        (target ≠ some sender → t.peerAt sender = { s.peerAt sender with
          state := if restart then .listening else .active, dropout := s.dropoutTime,
          config := if restart then .matching else (s.peerAt sender).config,
          digest := if restart ∨ (s.peerAt sender).state = .active then (s.peerAt sender).digest
            else .none }) ∧
        (∀ g, target = some g → (t.peerAt g).state = .absent ∧ (t.peerAt g).dropout = 0 ∧
          (t.peerAt g).digest = .none ∧ (t.peerAt g).config = (s.peerAt g).config) ∧
        (∀ p, p ≠ sender → target ≠ some p → t.peerAt p = s.peerAt p) ∧
        t.member.evictWants = s.member.evictWants.filter
          (fun w => w.1 == s.station || (w.1 != sender && target != some w.1)) ∧
        t.member.state = s.member.state ∧ t.member.presenceTimer = s.member.presenceTimer ∧
        t.member.presenceWant = (s.member.presenceWant || decide restart) ∧
        t.snap = { s.snap with
          service := s.snap.service.filter
            (fun x => target != some x.1 && (!decide restart || x.1 != sender)) } ∧
        t.req.fifo = s.req.fifo ∧ t.config = s.config ∧ t.errors = s.errors ∧ t.digest = s.digest ∧
        t.time = s.time ∧ t.port = s.port ∧
        (a.reports = [] → t.leases = s.leases ∧ t.req = s.req ∧ t.slots = s.slots) ∧
        ∃ u : State, u.leases = s.leases ∧ u.req = s.req ∧ u.slots = s.slots ∧ u.config = s.config ∧
          t.leases = (takeReports a.reports u).leases ∧ t.req = (takeReports a.reports u).req ∧
          t.slots = (takeReports a.reports u).slots) ∧
    (∀ c, f = .evict s.station c → (∀ w ∈ s.table, (w.waiters.map Waiter.station).Nodup) →
      ∃ t, exec (.frameAccepted (.received r)) s = .next t ∧
        t.member.state = (if c = .dropout ∧ s.member.state = .active ∧ s.config.fields.autojoin = true
          then .listening else .detached) ∧
        (c = .dropout → t.errors.status = s.errors.status ||| 0x0800) ∧ (c = .self → t.errors = s.errors) ∧
        t.table = clearEntries s.table ∧ t.leases = [] ∧
        t.req = { s.req with
          outgoing := [], pend := List.replicate 16 none,
          cmp := s.req.cmp ++
            purgeCompletions (if c = .dropout then .evicted else .detached) s.req.pend } ∧
        t.member.peers = List.replicate 16 Peer.cleared ∧ t.member.evictWants = [] ∧
        t.snap.service = [] ∧ t.digest = ⟨none, false⟩ ∧ t.config = s.config)

/-- FRAME_ACCEPTED of an own frame at an ACTIVE station (R15, R16, R27, R72, R101, R109, R146): the station
yields, both counters fall, the presence timer is loaded; the table takes a CLAIM, RELEASE or WITHDRAW and
no other kind, and the units its reports; the accepted CLAIM or WITHDRAW leaves the outgoing list, and the
WITHDRAW of a claim that is WITHDRAWING then takes its CLAIM's place and age (R136, R143); a SIGNAL completes
SENT, and acts on this station too if its mask names it (R166), a DIGEST and a PRESENCE clear their wants, a
SNAP moves its joiner's record on. In LEAVING, the own EVICT ends in DETACHED by the purge (R80, R85); in
LISTENING, the own PRESENCE starts the listen interval (R74); in JOINING, the own SNAPREQ makes the engine
RECEIVING (R92). The own EVICT of a peer (R36, R68, R70, R102): the table and the units take it, the want ends, the
target is shown ABSENT and served no more. The own RELEASE in ACTIVE and LEAVING (R129, R150), with the RELEASED
completion of a host's record; and the own PRESENCE in LEAVING and JOINING. (Model choices: logs 16, 18, 28, 37.) -/
def Obligations.OwnAcceptedFrameIsTaken : Prop :=
  (∀ (s : State) (x : TxFrame), s.powered = true → s.member.state = .active → s.line.tx = some x →
    s.line.phase ≠ .waiting → (∀ g c, x.frame ≠ .evict g c) → (∀ d, x.frame ≠ .presence .listening d) →
    let tableFrame : Prop := (∃ m u l, x.frame = .claim m u l) ∨ (∃ c l, x.frame = .release c l) ∨
      (∃ o, x.frame = .withdraw o)
    ∃ t, exec (.frameAccepted .own) s = .next t ∧
      t.line = { s.line with
        phase := .gap, recessive := 0, tx := none, begun := [], yielding := true, rfc := s.line.rfc - 1,
        tfc := s.line.tfc - 1 } ∧
      t.member.state = .active ∧ t.member.presenceTimer = some s.presencePeriod ∧
      t.member.peers = s.member.peers ∧ t.config = s.config ∧ t.errors = s.errors ∧
      (tableFrame → t.table = (applyFrame s.table s.n s.station s.station x.frame).table) ∧
      (tableFrame → ∃ u : State, u.leases = s.leases ∧ u.req = s.req ∧ u.slots = s.slots ∧
        u.config = s.config ∧
        let v := takeReports (applyFrame s.table s.n s.station s.station x.frame).reports u
        let frames (l : List OutFrame) : Prop := t.req = { v.req with outgoing := l }
        t.leases = v.leases ∧ t.slots = v.slots ∧ (x.entry = none → t.req = v.req) ∧
        (∀ c l, x.frame = .release c l → t.req = v.req) ∧
        (∀ o n, x = ⟨.withdraw o, some n⟩ →
          frames (v.req.outgoing.filter (fun g => !(g.entry == n && g.isWithdraw)))) ∧
        (∀ m k l n, x = ⟨.claim m k l, some n⟩ →
          ((∀ e, v.pendAt n = some e → e.kind ≠ .acquire ∨ e.phase ≠ .withdrawing) →
            frames (v.req.outgoing.filter (fun g => !(g.entry == n && g.isClaim)))) ∧
          (∀ e, v.pendAt n = some e → e.kind = .acquire → e.phase = .withdrawing →
            frames (v.req.outgoing.map (fun g =>
              if g.entry == n && g.isClaim then ⟨n, .withdraw (e.origin.getD 0)⟩ else g))))) ∧
      (¬ tableFrame → t.table = s.table ∧ t.leases = s.leases ∧ (x.entry = none → t.req = s.req)) ∧
      (∀ m c n e, x = ⟨.signal m c, some n⟩ → s.pendAt n = some e → e.kind = .signal →
        t.req = { s.req with
          pend := s.req.pend.set n none,
          outgoing := s.req.outgoing.filter (fun o => !(o.entry == n && o.isSignal)),
          cmp := s.req.cmp ++ [⟨.sent, e.tag, e.source, 5, 0, m.extractLsb' 8 8, m.extractLsb' 0 8,
            BitVec.ofNat 8 c.toNat, 0⟩] }) ∧
      (∀ m c, x.frame = .signal m c → m.getLsbD s.station.toNat = true →
        t.events.latch = s.events.latch ||| BitVec.ofNat 8 (2 ^ c.toNat) ∧
        t.events.latched.getLsbD 3 = true) ∧
      (∀ d, x.frame = .digest d → t.digest = { s.digest with want := false }) ∧
      (∀ p d, x.frame = .presence p d → t.member.presenceWant = false) ∧
      (∀ j i k hs ws, x.frame = .snap j i k hs ws → t.snap = { s.snap with
        service := if i + 1 = s.n then s.snap.service.filter (fun y => y.1 != j)
          else s.snap.service.map (fun y => if y.1 == j then (j, i + 1) else y) })) ∧
  (∀ (s : State) (g : Addr) (c : EvictCause), s.powered = true → s.member.state = .active →
    s.line.tx = some ⟨.evict g c, none⟩ → g ≠ s.station → s.line.phase ≠ .waiting →
    s.member.peers.length = 16 →
    let a := applyFrame s.table s.n s.station s.station (.evict g c)
    ∃ t, exec (.frameAccepted .own) s = .next t ∧ t.table = a.table ∧
      t.line = { s.line with
        phase := .gap, recessive := 0, tx := none, begun := [], yielding := true, rfc := s.line.rfc - 1,
        tfc := s.line.tfc - 1 } ∧
      t.member.state = .active ∧ t.member.presenceTimer = some s.presencePeriod ∧
      t.member.presenceWant = s.member.presenceWant ∧
      t.peerAt g = { s.peerAt g with state := .absent, dropout := 0, digest := .none } ∧
      (∀ p, p ≠ g → t.peerAt p = s.peerAt p) ∧
      ((s.peerAt g).state ≠ .absent → t.events.latched.getLsbD 5 = true) ∧
      t.member.evictWants = s.member.evictWants.filter (fun w => w.1 == s.station || w.1 != g) ∧
      t.snap = { s.snap with service := s.snap.service.filter (fun y => y.1 != g) } ∧
      t.digest = s.digest ∧ t.errors = s.errors ∧ t.config = s.config ∧
      ∃ u : State, u.leases = s.leases ∧ u.req = s.req ∧ u.slots = s.slots ∧ u.config = s.config ∧
        t.leases = (takeReports a.reports u).leases ∧ t.req = (takeReports a.reports u).req ∧
        t.slots = (takeReports a.reports u).slots) ∧
  (∀ (s : State) (c : ReleaseCause) (l : List Nat), s.powered = true →
    s.member.state = .active ∨ s.member.state = .leaving → s.line.tx = some ⟨.release c l, none⟩ →
    s.line.phase ≠ .waiting →
    let a := applyFrame s.table s.n s.station s.station (.release c l)
    ∃ t, exec (.frameAccepted .own) s = .next t ∧ t.table = a.table ∧
      t.line = { s.line with
        phase := .gap, recessive := 0, tx := none, begun := [], yielding := true, rfc := s.line.rfc - 1,
        tfc := s.line.tfc - 1 } ∧
      t.member = { s.member with presenceTimer := some s.presencePeriod } ∧ t.snap = s.snap ∧
      t.digest = s.digest ∧ t.errors = s.errors ∧ t.config = s.config ∧
      (∃ u : State, u.leases = s.leases ∧ u.req = s.req ∧ u.slots = s.slots ∧ u.config = s.config ∧
        t.leases = (takeReports a.reports u).leases ∧ t.req = (takeReports a.reports u).req ∧
        t.slots = (takeReports a.reports u).slots) ∧
      ∀ lost r m q, a.reports = [.released l c lost] → s.leases.find? (fun y => y.tokens == l) = some r →
        r.source = .host → r.state = .releasePending →
        s.findPend (fun y => y.kind == .release && y.list == l) = some m → s.pendAt m = some q →
        t.leases = s.leases.filter (fun y => y.tokens != l) ∧ t.slots = s.slots ∧
        t.req = { s.req with
          pend := s.req.pend.set m none,
          cmp := s.req.cmp ++ [.listed .released q.tag q.source 2 l r.units] }) ∧
  (∀ (s : State) (e : Option Nat), s.powered = true → s.line.phase ≠ .waiting → s.line.hold = none →
    let sent (f : Frame) : Prop := s.line.tx = some ⟨f, e⟩
    let after : Line := { s.line with
      phase := .gap, recessive := 0, tx := none, begun := [], yielding := true, rfc := s.line.rfc - 1,
      tfc := s.line.tfc - 1 }
    (s.member.state = .leaving → s.line.tx = some ⟨.evict s.station .self, none⟩ →
      (∀ w ∈ s.table, (w.waiters.map Waiter.station).Nodup) →
      ∃ t, exec (.frameAccepted .own) s = .next t ∧ t.member.state = .detached ∧ t.leases = [] ∧
        t.table = clearEntries s.table ∧ t.req = { s.req with
          outgoing := [], pend := List.replicate 16 none,
          cmp := s.req.cmp ++ purgeCompletions .detached s.req.pend } ∧
        t.line = { after with phase := .off, yielding := false } ∧ t.errors = s.errors ∧
        t.member.peers = List.replicate 16 Peer.cleared ∧ t.member.evictWants = [] ∧
        t.snap.service = [] ∧ t.config = s.config) ∧
    (s.member.state = .leaving → ∀ j i k hs ws, sent (.snap j i k hs ws) →
      ∃ t, exec (.frameAccepted .own) s = .next t ∧ t.line = after ∧ t.member.state = .leaving ∧
        t.table = s.table ∧ t.snap = { s.snap with
          service := if i + 1 = s.n then s.snap.service.filter (fun y => y.1 != j)
            else s.snap.service.map (fun y => if y.1 == j then (j, i + 1) else y) }) ∧
    (∀ d, (s.member.state = .leaving ∧ s.line.tx = some ⟨.presence .active d, none⟩) ∨
        (s.member.state = .joining ∧ s.line.tx = some ⟨.presence .joining d, none⟩ ∧
          (s.snap.engine = .seeking → s.findDonor s.donorRef = none) ∧
          (s.snap.engine = .requesting → s.eligible s.donorRef = true)) →
      exec (.frameAccepted .own) s = .next ((s.withLine after).withMember { s.member with
        presenceTimer := some s.presencePeriod, presenceWant := false })) ∧
    (s.member.state = .listening → ∀ d, sent (.presence .listening d) →
      exec (.frameAccepted .own) s = .next ((s.withLine after).withMember { s.member with
        presenceTimer := some s.presencePeriod, presenceWant := false,
        listenTimer := if s.member.listenTimer = none then some (3 * s.presencePeriod)
          else s.member.listenTimer })) ∧
    (s.member.state = .joining → ∀ d i, sent (.snapreq d i) →
      exec (.frameAccepted .own) s = .next (((s.withLine after).withMember { s.member with
        presenceTimer := some s.presencePeriod }).withSnap { s.snap with
        engine := .receiving, donor := some d, timer := some (2 * s.presencePeriod) })))

/-- FRAME_VOIDED (R9, R11, R16, R17): TFC rises by 4 with TX_VOIDED for an own frame, with the error hold of
its own bit error if it had one, RFC by 4 with RX_CHECK and the objection where this station objected,
nothing but the line's place for a frame it found sound; at 64 the station is DETACHED, the counter staying
at 64. An own CLAIM whose claim a cancel waits on completes WITHDRAWN with no tokens, and the CANCEL DONE;
the same for a slot that withdraws, which returns (R145, R162); every other frame stays with its owner (R143),
a voided SNAPREQ leaves a joiner's engine, donor and timer as they are (R10, R92). Two fatal errors at one moment
(R82): where the frame that brings RFC or TFC to 64 at a joiner ends at the moment of its snapshot timer's end, the
first taken, in either order, detaches the station, and the second is logged all the same and moves nothing.
(Model choices: logs 4, 6, 8, 9, 35, 42, 43.) -/
def Obligations.VoidedFrameCountsAndLimits : Prop :=
  (∀ s : State, s.powered = true → s.takesPart = true → s.line.phase ≠ .waiting → s.line.hold = none →
    (∀ x, s.line.tx = some x →
      let driven (k : Option Nat) : Option (Nat × Nat) := match k with
        | none => s.line.driven
        | some b => some (b + 1, (if b ≤ 19 then 822
            else 54 + 8 * (x.frame.toRaw s.station).length.toNat) - 1)
      let voided (k : Option Nat) : State := logError .txVoided (headerSent s.station x.frame)
        (s.withLine { s.line with
          phase := .gap, recessive := 0, tx := none, begun := [], yielding := false, tfc := s.line.tfc + 4,
          driven := driven k })
      (∀ k, s.line.tfc + 4 < 64 →
        ((∀ m u l n e, x = ⟨.claim m u l, some n⟩ → s.pendAt n = some e →
            e.kind ≠ .acquire ∨ e.phase ≠ .withdrawing) →
          exec (.frameVoided (.own k)) s = .next (voided k)) ∧
        (∀ m u l n e o, x = ⟨.claim m u l, some n⟩ → s.pendAt n = some e → e.kind = .acquire →
          e.phase = .withdrawing → e.origin = some o → e.source = .host →
          let rest := s.req.outgoing.filter (fun f => !(f.entry == n && (f.isClaim || f.isWithdraw)))
          let claimEnds : Completion := .withdrawn e.tag .host e.units o []
          (s.cancelOf o = none → exec (.frameVoided (.own k)) s = .next ((voided k).withReq { s.req with
            pend := s.req.pend.set n none, outgoing := rest, cmp := s.req.cmp ++ [claimEnds] })) ∧
          (∀ q c, s.cancelOf o = some q → s.pendAt q = some c →
            exec (.frameVoided (.own k)) s = .next ((voided k).withReq { s.req with
              pend := (s.req.pend.set n none).set q none, outgoing := rest,
              cmp := s.req.cmp ++ [claimEnds, .one .done c.tag c.source 4 (BitVec.ofNat 8 o)] }))) ∧
        (∀ m u l n e o j, x = ⟨.claim m u l, some n⟩ → s.pendAt n = some e → e.kind = .acquire →
          e.phase = .withdrawing → e.origin = some o → e.source = .slot j → s.cancelOf o = none →
          exec (.frameVoided (.own k)) s = .next (modifySlot j
            (fun y => { y with
              heldPlace := false, gnt := false, stop := false,
              state := if y.mode = .follow ∧ y.stop = false then .armed else .disabled })
            ((voided k).withReq { s.req with
              pend := s.req.pend.set n none,
              outgoing := s.req.outgoing.filter (fun f => !(f.entry == n && (f.isClaim || f.isWithdraw))),
              cmp := s.req.cmp ++ [.withdrawn e.tag (.slot j) e.units o []] })))) ∧
      (∀ k, s.line.tfc < 64 → 64 ≤ s.line.tfc + 4 →
        ∃ t, exec (.frameVoided (.own k)) s = .next t ∧ t.member.state = .detached ∧ t.line.tfc = 64 ∧
          t.line.rfc = s.line.rfc ∧ t.errors.status = s.errors.status ||| 0x0082)) ∧
    (s.line.tx = none → ∀ (r : RawFrame) (k : Option Nat),
      (failureOf s.table s.station r k = none → exec (.frameVoided (.received r k)) s =
        .next (s.withLine { s.line with
          phase := .gap, recessive := 0, begun := [], yielding := false })) ∧
      (∀ e, failureOf s.table s.station r k = some e → s.line.rfc + 4 < 64 →
        exec (.frameVoided (.received r k)) s = .next
          ((logError .rxCheck (headerReceived e.bits r) s).withLine { s.line with
            phase := .gap, recessive := 0, begun := [], yielding := false, rfc := s.line.rfc + 4,
            driven := some (e.bits + 1, (if e.bits < 19 ∨ e.lengthCause = true then 822
              else 54 + 8 * r.length.toNat) - 1) })) ∧
      (∀ e, failureOf s.table s.station r k = some e → s.line.rfc < 64 → 64 ≤ s.line.rfc + 4 →
        ∃ t, exec (.frameVoided (.received r k)) s = .next t ∧ t.member.state = .detached ∧
          t.line.rfc = 64 ∧ t.line.tfc = s.line.tfc ∧
          t.errors.status = s.errors.status ||| 0x0041))) ∧
  ∀ (s : State) (place : HoldPlace) (v : VoidedFrame), s.powered = true → s.member.state = .joining →
    s.snap.engine = .seeking ∨ s.snap.engine = .receiving → s.snap.timer = some 0 →
    s.line.phase ≠ .waiting → s.line.hold = none →
    let own : Prop := (∃ x k, s.line.tx = some x ∧ x.entry = none ∧ v = .own k) ∧ s.line.tfc < 64 ∧
      64 ≤ s.line.tfc + 4
    let peers : Prop := (∃ r k e, s.line.tx = none ∧ v = .received r k ∧
      failureOf s.table s.station r k = some e) ∧ s.line.rfc < 64 ∧ 64 ≤ s.line.rfc + 4
    own ∨ peers →
    let limit : Half := if s.line.tx = none then 0x0041 else 0x0082
    let third : Prop := 2 ≤ s.snap.failures
    let ends (u : State) : Prop := u.member.state = .detached ∧ u.line.phase = .off ∧
      u.line.rfc = (if s.line.tx = none then 64 else s.line.rfc) ∧
      u.line.tfc = (if s.line.tx = none then s.line.tfc else 64) ∧ u.snap.engine = .idle ∧
      u.snap.cursor = 0 ∧ u.snap.lapsed = none
    (∃ t u, exec (.frameVoided v) s = .next t ∧ t.member.state = .detached ∧
      t.errors.status = s.errors.status ||| limit ∧ exec (.snapshotTimerExpiry place) t = .next u ∧ ends u ∧
      (third → u.errors.status = s.errors.status ||| limit ||| 0x0410 ∧
        (s.snap.cause = .none → u.snap.cause = .donorLimit)) ∧
      (¬ third → u.errors.status = s.errors.status ||| limit ||| 0x0010 ∧ u.snap.cause = s.snap.cause)) ∧
    (third → place.frameEnds = true →
      ∃ t u, exec (.snapshotTimerExpiry place) s = .next t ∧ t.member.state = .detached ∧
        t.line.tfc = s.line.tfc ∧ t.line.rfc = s.line.rfc ∧
        t.errors.status = s.errors.status ||| 0x0410 ∧ exec (.frameVoided v) t = .next u ∧ ends u ∧
        u.line.ended = none ∧ u.errors.status = s.errors.status ||| 0x0410 ||| limit ∧ u.snap.cause = .donorLimit)

/-- The receive check passes every frame as a station builds it, and reads back its content (R3 to R5, R8,
R186, section 12.6): no field is dropped on the way. -/
def Obligations.BuiltFramesPassTheReceiveCheck : Prop :=
  ∀ (t : List Entry) (self sender : Addr) (f : Frame), t.length ≤ 64 → sender ≠ self → f.formed t →
    receiveCheck t self (f.toRaw sender) = .ok f

/-! ## The token table -/

/-- A TRY claim of one EXCLUSIVE token (R28). -/
def Obligations.TryClaimOfAnExclusiveToken : Prop :=
  ∀ (t : List Entry) (limit : Nat) (self st : Addr) (k : Nat), k < limit → limit ≤ t.length →
    (entryAt t k).kind = .exclusive →
    let a := applyFrame t limit self st (.claim .tryNow 1 [k])
    ((entryAt t k).holders = [] →
      a.table = t.set k { entryAt t k with holders := [⟨st, 1⟩], change := .claimed } ∧
        a.reports = if st = self then [.grant k k 1 (some [k])] else []) ∧
    ((entryAt t k).holders ≠ [] →
      a.table = t ∧ a.reports = if st = self then [.refused k] else [])

/-- A TRY claim of one POOL token (R30). -/
def Obligations.TryClaimOfAPoolToken : Prop :=
  ∀ (t : List Entry) (limit : Nat) (self st : Addr) (k u c : Nat), k < limit → limit ≤ t.length →
    (entryAt t k).kind = .pool c → 1 ≤ u →
    let e := entryAt t k
    let free : Prop := e.waiters = [] ∧ u ≤ c - heldUnits e.holders
    let a := applyFrame t limit self st (.claim .tryNow u [k])
    (free →
      a.table = t.set k { e with holders := e.holders ++ [⟨st, u⟩], change := .claimed } ∧
        a.reports = if st = self then [.grant k k u (some [k])] else []) ∧
    (¬ free → a.table = t ∧ a.reports = if st = self then [.refused k] else [])

/-- A WAIT claim of one token, of either kind, that is not free (R29, R31): its record joins at the tail. -/
def Obligations.WaitClaimParksAtTheTail : Prop :=
  ∀ (t : List Entry) (limit : Nat) (self st : Addr) (k u : Nat), k < limit → limit ≤ t.length →
    let e := entryAt t k
    let a := applyFrame t limit self st (.claim .wait u [k])
    (e.freeTo u = true →
      a.table = t.set k { e with holders := e.holders ++ [⟨st, u⟩], change := .claimed } ∧
        a.reports = if st = self then [.grant k k u (some [k])] else []) ∧
    (e.freeTo u = false →
      a.table = t.set k { e with waiters := e.waiters ++ [⟨st, u, [k], 0⟩], change := .claimed } ∧
        a.reports = if st = self then [.parked k k 0] else [])

/-- A set claim (R32, R52, R55): it takes the free tokens at the front of its list, parks at the first that
is not free with its position, and is complete when there is none. And its withdrawal (R34, R35, R60, R61):
a WITHDRAW that finds no record of the claim changes and reports nothing; otherwise the record leaves its
queue, wherever it stands, a POOL entry whose head it was serves the waiters that now fit, and the tokens
before its position that the station holds are given up in order, each free or passed to a head waiter that
it completes. -/
def Obligations.SetClaimTakesThenParks : Prop :=
  (∀ (t : List Entry) (limit : Nat) (self st : Addr) (l pre rest : List Nat), 2 ≤ l.length → l.Nodup →
    l = pre ++ rest → (∀ k ∈ l, k < limit) → limit ≤ t.length →
    (∀ k ∈ pre, (entryAt t k).holders = []) →
    (∀ k, rest.head? = some k → (entryAt t k).holders ≠ []) →
    let a := applyFrame t limit self st (.claim .wait 1 l)
    a.table.length = t.length ∧
    (∀ k ∈ pre, entryAt a.table k = { entryAt t k with holders := [⟨st, 1⟩], change := .claimed }) ∧
    (∀ k, rest.head? = some k → entryAt a.table k = { entryAt t k with
      waiters := (entryAt t k).waiters ++ [⟨st, 1, l, pre.length⟩], change := .claimed }) ∧
    (∀ k, k ∉ pre → rest.head? ≠ some k → entryAt a.table k = entryAt t k) ∧
    a.reports = if st = self then
        pre.map (fun k => .grant (l.headD 0) k 1
          (if rest = [] ∧ pre.getLast? = some k then some l else none)) ++
        rest.head?.toList.map (fun k => .parked (l.headD 0) k pre.length)
      else []) ∧
  (∀ (t : List Entry) (limit : Nat) (self st : Addr) (o : Nat), limit ≤ t.length →
    let a := applyFrame t limit self st (.withdraw o)
    let mine (w : Waiter) : Prop := w.station = st ∧ w.list.head? = some o
    let own (l : List Nat) : List Report := if st = self then [.withdrawn o l] else []
    ((∀ k, k < limit → ∀ w ∈ (entryAt t k).waiters, ¬ mine w) → a.table = t ∧ a.reports = []) ∧
    (∀ (k : Nat) (w : Waiter) (xs ys : List Waiter), k < limit → (entryAt t k).waiters = xs ++ w :: ys →
      mine w → (∀ v ∈ xs, ¬ mine v) → (∀ j, j < k → ∀ v ∈ (entryAt t j).waiters, ¬ mine v) →
      let e := entryAt t k
      let freed := w.list.take w.position
      (w.position = 0 → e.kind = .exclusive ∨ xs ≠ [] →
        a.table = t.set k { e with waiters := xs ++ ys, change := .withdrawn } ∧ a.reports = own []) ∧
      (∀ c, w.position = 0 → e.kind = .pool c → xs = [] →
        ∃ pre post : List Waiter, ys = pre ++ post ∧
          let hs : List Holder := e.holders ++ pre.map (fun v => ⟨v.station, v.units⟩)
          a.table = t.set k { e with holders := hs, waiters := post, change := .withdrawn } ∧
          (heldUnits e.holders ≤ c → heldUnits hs ≤ c) ∧
          (∀ v, post.head? = some v → c < v.units + heldUnits hs) ∧
          a.reports = (pre.filter (fun v => v.station == self)).map
            (fun v => .grant (v.list.headD 0) k v.units (some v.list)) ++ own []) ∧
      (e.kind = .exclusive → freed.Nodup → k ∉ freed →
        (∀ j ∈ freed, j < limit ∧ (entryAt t j).kind = .exclusive ∧ (entryAt t j).holders = [⟨st, 1⟩] ∧
          ∀ v, (entryAt t j).waiters.head? = some v → v.position + 1 = v.list.length) →
        a.table.length = t.length ∧
        entryAt a.table k = { e with waiters := xs ++ ys, change := .withdrawn } ∧
        (∀ j ∈ freed, entryAt a.table j = { entryAt t j with
          holders := ((entryAt t j).waiters.head?.map (fun v => ⟨v.station, 1⟩)).toList,
          waiters := (entryAt t j).waiters.tail, change := .withdrawn }) ∧
        (∀ j, j ≠ k → j ∉ freed → entryAt a.table j = entryAt t j) ∧
        a.reports = freed.flatMap (fun j =>
          ((entryAt t j).waiters.head?.toList.filter (fun v => v.station == self)).map
            (fun v => .grant (v.list.headD 0) j 1 (some v.list))) ++ own freed)))

/-- A RELEASE of one EXCLUSIVE token (R33, R39, R41, R54): the entry is left free, or passes to the head of
its queue, whose claim is then complete or goes on: it takes the free tokens that follow in its list, and
parks at the first that is not free or is complete, each entry with the release's last change. A RELEASE by
a station that does not hold the token changes nothing. A RELEASE of several tokens (R33, R56, R59): each removal
with its whole cascade before the next token, so that it does what its first token released alone does and then
the rest, with one report at the end; a claim that goes on from one listed token parks at a later one that the
sender still holds, and is served there when that is removed. -/
def Obligations.ReleasedExclusivePassesToTheHead : Prop :=
  (∀ (t : List Entry) (limit : Nat) (self st : Addr) (cause : ReleaseCause) (k : Nat) (rest : List Nat),
    let whole := applyFrame t limit self st (.release cause (k :: rest))
    let first := applyFrame t limit self st (.release cause [k])
    let later := applyFrame first.table limit self st (.release cause rest)
    let own (l lost : List Nat) : List Report := if st = self then [.released l cause lost] else []
    whole.table = later.table ∧ ∃ grants more lost others, first.reports = grants ++ own [k] lost ∧
      later.reports = more ++ own rest others ∧
      whole.reports = grants ++ more ++ own (k :: rest) (lost ++ others)) ∧
  (∀ (t : List Entry) (limit : Nat) (self st : Addr) (cause : ReleaseCause) (k j u v : Nat) (w : Waiter)
    (ws : List Waiter), k < j → j < limit → limit ≤ t.length → (entryAt t k).kind = .exclusive →
    (entryAt t j).kind = .exclusive → (entryAt t k).holders = [⟨st, u⟩] →
    (entryAt t j).holders = [⟨st, v⟩] → (entryAt t k).waiters = w :: ws → (entryAt t j).waiters = [] →
    w.list.drop (w.position + 1) = [j] →
    let a := applyFrame t limit self st (.release cause [k, j])
    let change : LastChange := if cause = .host then .released else .forfeited
    let o := w.list.headD 0
    a.table.length = t.length ∧
    entryAt a.table k = { entryAt t k with holders := [⟨w.station, 1⟩], waiters := ws, change := change } ∧
    entryAt a.table j = { entryAt t j with holders := [⟨w.station, 1⟩], change := change } ∧
    (∀ i, i ≠ k → i ≠ j → entryAt a.table i = entryAt t i) ∧
    a.reports = (if w.station = self then
        [.grant o k 1 none, .parked o j (w.position + 1), .grant o j 1 (some w.list)] else []) ++
      if st = self then [.released [k, j] cause [k, j]] else []) ∧
  ∀ (t : List Entry) (limit : Nat) (self st : Addr) (cause : ReleaseCause) (k : Nat), k < limit →
    limit ≤ t.length → (entryAt t k).kind = .exclusive →
    let e := entryAt t k
    let a := applyFrame t limit self st (.release cause [k])
    let change : LastChange := if cause = .host then .released else .forfeited
    let own (lost : List Nat) : List Report := if st = self then [.released [k] cause lost] else []
    (e.heldBy st = false → a.table = t ∧ a.reports = own []) ∧
    (∀ u, e.holders = [⟨st, u⟩] → e.waiters = [] →
      a.table = t.set k { e with holders := [], change := change } ∧ a.reports = own [k]) ∧
    (∀ u w ws, e.holders = [⟨st, u⟩] → e.waiters = w :: ws → w.position + 1 = w.list.length →
      a.table = t.set k
        { e with holders := [⟨w.station, 1⟩], waiters := ws, change := change } ∧
      a.reports = (if w.station = self then [.grant (w.list.headD 0) k 1 (some w.list)] else []) ++
        own [k]) ∧
    (∀ (u : Nat) (w : Waiter) (ws : List Waiter) (pre rest : List Nat), e.holders = [⟨st, u⟩] →
      e.waiters = w :: ws → w.list.drop (w.position + 1) = pre ++ rest → pre ++ rest ≠ [] →
      (k :: (pre ++ rest)).Nodup → (∀ j ∈ pre ++ rest, j < limit) →
      (∀ j ∈ pre, (entryAt t j).holders = []) →
      (∀ j, rest.head? = some j → (entryAt t j).holders ≠ []) →
      a.table.length = t.length ∧
      entryAt a.table k = { e with holders := [⟨w.station, 1⟩], waiters := ws, change := change } ∧
      (∀ j ∈ pre, entryAt a.table j =
        { entryAt t j with holders := [⟨w.station, 1⟩], change := change }) ∧
      (∀ j, rest.head? = some j → entryAt a.table j = { entryAt t j with
        waiters := (entryAt t j).waiters ++ [⟨w.station, 1, w.list, w.position + 1 + pre.length⟩],
        change := change }) ∧
      (∀ j, j ≠ k → j ∉ pre → rest.head? ≠ some j → entryAt a.table j = entryAt t j) ∧
      a.reports = (if w.station = self then
          .grant (w.list.headD 0) k 1 none ::
          pre.map (fun j => .grant (w.list.headD 0) j 1
            (if rest = [] ∧ pre.getLast? = some j then some w.list else none)) ++
          rest.head?.toList.map (fun j => .parked (w.list.headD 0) j (w.position + 1 + pre.length))
        else []) ++ own [k])

/-- A RELEASE of one POOL token (R33, R40): the waiters at the front of the queue are granted as long as the
units last, in order, and the first that does not fit stops the cascade. -/
def Obligations.ReleasedPoolServesTheQueueInOrder : Prop :=
  ∀ (t : List Entry) (limit : Nat) (self st : Addr) (cause : ReleaseCause) (k c : Nat), k < limit →
    limit ≤ t.length → (entryAt t k).kind = .pool c → (entryAt t k).sound →
    (entryAt t k).heldBy st = true →
    let e := entryAt t k
    let a := applyFrame t limit self st (.release cause [k])
    ∃ pre post : List Waiter, e.waiters = pre ++ post ∧
      let hs : List Holder := e.holders.filter (fun h => h.station != st) ++
        pre.map (fun w => ⟨w.station, w.units⟩)
      a.table = t.set k { e with
        holders := hs, waiters := post,
        change := if cause = .host then .released else .forfeited } ∧
      heldUnits hs ≤ c ∧ (∀ w, post.head? = some w → c < w.units + heldUnits hs) ∧
      a.reports = (pre.filter (fun w => w.station == self)).map
          (fun w => .grant (w.list.headD 0) k w.units (some w.list)) ++
        (if st = self then [.released [k] cause [k]] else [])

/-- An EVICT, or the restart eviction of a PRESENCE carrying LISTENING (R36 to R38): no holding and no
record of the target is left, every entry that changed has last change EVICTED, and a target without any
leaves the table as it is. -/
def Obligations.EvictionLeavesNothingOfTheTarget : Prop :=
  ∀ (t : List Entry) (self sender target : Addr) (f : Frame),
    ((∃ c, f = .evict target c) ∨ (∃ d, f = .presence .listening d ∧ sender = target)) →
    (∀ e ∈ t, (e.waiters.map Waiter.station).Nodup) →
    let a := applyFrame t t.length self sender f
    a.table.length = t.length ∧
    (∀ e ∈ a.table, e.heldBy target = false ∧ e.waitedBy target = false) ∧
    (∀ k, entryAt a.table k = entryAt t k ∨ (entryAt a.table k).change = .evicted) ∧
    ((∀ e ∈ t, e.heldBy target = false ∧ e.waitedBy target = false) → a.table = t)

/-- The reports at the Request, Lease and Slot Units (R57, R119, R128, R139, R144, R157, R161, R162): a
complete grant makes the lease record, completes the claim GRANTED and raises the slot's output; one that a
WITHDRAW or a CANCEL raced is released at once by a WITHDRAWING slot, and ends the CANCEL TOO_LATE; a grant
of one token of a set adds to the progress; a parked report makes an OUTGOING claim WAITING; a refusal
completes UNAVAILABLE, and then its CANCEL TOO_LATE (R143); a withdrawal completes WITHDRAWN, its CANCEL DONE, and returns the slot; an applied
RELEASE removes its record, completes RELEASED, and returns the slot of a slot-bound record; the evicted report
changes nothing by itself (R43, R150), the purge that follows does. (Model choices: logs 16, 28.) -/
def Obligations.ReportsReachTheirUnits : Prop :=
  ∀ s : State, (∀ c, takeReport (.evicted c) s = s) ∧
    (∀ (o n q : Nat) (e c : PendEntry), s.claimOf o = some n → s.pendAt n = some e → s.cancelOf o = some q →
      s.pendAt q = some c → takeReport (.refused o) s = s.withReq { s.req with
        pend := (s.req.pend.set n none).set q none,
        cmp := s.req.cmp ++ [.one .unavailable e.tag e.source 1 (BitVec.ofNat 8 o),
          .one .tooLate c.tag c.source 4 (BitVec.ofNat 8 o)] }) ∧
    (∀ (o k units n : Nat) (e : PendEntry) (l : List Nat), s.claimOf o = some n → s.pendAt n = some e →
      s.cancelOf o = none →
      let p := s.classParams e.cls
      let warned : Prop := e.cls ≠ 0 ∧ p.v = p.len
      (∃ t, takeReport (.grant o k units (some l)) s = t ∧
        ((∀ m, e.source = .slot m → (s.slotAt m).state ≠ .withdrawing) →
          t.leases = insertLease ⟨l, units, e.cls, (if e.cls = 0 then 0 else p.len.toNat),
            (if e.cls ≠ 0 ∧ p.v = p.len then .warned else .running), e.source, e.tag⟩ s.leases) ∧
        (warned → t.events.latched = s.events.latched ||| 0x0002) ∧
        (¬ warned → t.events = s.events) ∧
        (e.source = .host → t.slots = s.slots ∧ t.req = { s.req with
          pend := s.req.pend.set n none,
          outgoing := s.req.outgoing.filter (fun f => !(f.entry == n && f.isWithdraw)),
          cmp := s.req.cmp ++ [.listed .granted e.tag .host 1 l units] }) ∧
        (∀ m, e.source = .slot m → (s.slotAt m).state = .claiming →
          t.slots = s.slots.modify m.toNat (fun x => { x with state := .held, gnt := true }))) ∧
      takeReport (.grant o k units none) s =
        s.withReq { s.req with
          pend := s.req.pend.set n (some { e with progress := e.progress ++ [k] }) } ∧
      takeReport (.refused o) s = s.withReq { s.req with
        pend := s.req.pend.set n none,
        cmp := s.req.cmp ++ [.one .unavailable e.tag e.source 1 (BitVec.ofNat 8 o)] }) ∧
    (∀ (o k p n : Nat) (e : PendEntry), s.claimOf o = some n → s.pendAt n = some e →
      (e.phase = .outgoing → takeReport (.parked o k p) s =
        s.withReq { s.req with pend := s.req.pend.set n (some { e with phase := .waiting }) }) ∧
      (e.phase ≠ .outgoing → takeReport (.parked o k p) s = s)) ∧
    (∀ (o k units n q : Nat) (e c : PendEntry) (l : List Nat), s.claimOf o = some n → s.pendAt n = some e →
      s.cancelOf o = some q → s.pendAt q = some c → e.source = .host →
      (takeReport (.grant o k units (some l)) s).req = { s.req with
        pend := (s.req.pend.set n none).set q none,
        outgoing := s.req.outgoing.filter (fun f => !(f.entry == n && f.isWithdraw)),
        cmp := s.req.cmp ++ [.listed .granted e.tag .host 1 l units,
          .one .tooLate c.tag c.source 4 (BitVec.ofNat 8 o)] }) ∧
    (∀ (o k units n : Nat) (m : BitVec 2) (e : PendEntry) (l : List Nat), s.claimOf o = some n →
      s.pendAt n = some e → s.cancelOf o = none → e.source = .slot m →
      (s.slotAt m).state = .withdrawing → s.leaseOfSlot m = none → s.slots.length = 4 → l ≠ [] →
      (∀ x ∈ s.leases, x.names (l.headD 0) = false) →
      ∃ t, takeReport (.grant o k units (some l)) s = t ∧
        (t.slotAt m).state = .releasing ∧ (t.slotAt m).gnt = false ∧ (t.slotAt m).heldPlace = false ∧
        (∀ x ∈ s.leases, x ∈ t.leases) ∧ t.leases.length = s.leases.length + 1 ∧
        (∃ x ∈ t.leases, x.tokens = l ∧ x.source = .slot m ∧ x.state = .releasePending) ∧
        t.req.cmp = s.req.cmp ++ [.listed .granted e.tag (.slot m) 1 l units] ∧
        ∃ q r, t.pendAt q = some r ∧ r.kind = .release ∧ r.source = .slot m ∧ r.phase = .releasing ∧
          r.list = l) ∧
    (∀ (o n : Nat) (e : PendEntry) (l : List Nat), s.claimOf o = some n → s.pendAt n = some e →
      let drops : List OutFrame := s.req.outgoing.filter (fun f => !(f.entry == n && f.isWithdraw))
      let ends : Completion := .withdrawn e.tag e.source e.units o l
      (e.source = .host → s.cancelOf o = none → takeReport (.withdrawn o l) s = s.withReq { s.req with
        pend := s.req.pend.set n none, outgoing := drops, cmp := s.req.cmp ++ [ends] }) ∧
      (∀ q c, e.source = .host → s.cancelOf o = some q → s.pendAt q = some c →
        takeReport (.withdrawn o l) s = s.withReq { s.req with
          pend := (s.req.pend.set n none).set q none, outgoing := drops,
          cmp := s.req.cmp ++ [ends, .one .done c.tag c.source 4 (BitVec.ofNat 8 o)] }) ∧
      (∀ m, e.source = .slot m → s.cancelOf o = none → takeReport (.withdrawn o l) s =
        modifySlot m (fun x => { x with
          heldPlace := false, gnt := false, stop := false,
          state := if x.mode = .follow ∧ x.stop = false then .armed else .disabled })
          (s.withReq { s.req with
            pend := s.req.pend.set n none, outgoing := drops, cmp := s.req.cmp ++ [ends] }))) ∧
    (∀ (tokens lost : List Nat) (cause : ReleaseCause) (l : Lease),
      s.leases.find? (fun x => x.tokens == tokens) = some l → l.source = .host →
      let rest := s.leases.filter (fun x => x.tokens != tokens)
      (l.state = .expiredPending → takeReport (.released tokens cause lost) s = s.withLeases rest) ∧
      (∀ m e, l.state = .releasePending →
        s.findPend (fun x => x.kind == .release && x.list == tokens) = some m → s.pendAt m = some e →
        takeReport (.released tokens cause lost) s = (s.withLeases rest).withReq { s.req with
          pend := s.req.pend.set m none,
          cmp := s.req.cmp ++ [.listed .released e.tag e.source 2 tokens l.units] })) ∧
    (∀ (tokens lost : List Nat) (cause : ReleaseCause) (l : Lease) (n : BitVec 2),
      s.leases.find? (fun x => x.tokens == tokens) = some l → l.source = .slot n →
      let returned (c : SlotCause → SlotCause) (u : State) : State := modifySlot n (fun x => { x with
        heldPlace := false, gnt := false, stop := false, cause := c x.cause,
        state := if x.mode = .follow ∧ x.stop = false then .armed else .disabled }) u
      let rest : State := s.withLeases (s.leases.filter (fun x => x.tokens != tokens))
      (l.state = .expiredPending → takeReport (.released tokens cause lost) s =
        (returned (fun _ => .expired) rest).withEvents
          { s.events with latched := s.events.latched ||| 0x0040 }) ∧
      (∀ m e, l.state = .releasePending →
        s.findPend (fun x => x.kind == .release && x.list == tokens) = some m → s.pendAt m = some e →
        takeReport (.released tokens cause lost) s = returned id (rest.withReq { s.req with
          pend := s.req.pend.set m none,
          cmp := s.req.cmp ++ [.listed .released e.tag e.source 2 tokens l.units] })))

/-! ## Time -/

/-- TICK (R69, R72, R88, R108, R115, R116, R120): without a commit nothing; else every running lease counter
falls by 1 and warns at V, and at a station that takes part every running timer and dropout counter falls.
(Model choices: logs 4, 5.) -/
def Obligations.TickCountsEveryTimer : Prop :=
  ∀ s : State, s.powered = true →
    (s.time.running = false → exec .tick s = .next s) ∧
    (s.time.running = true → ∃ t, exec .tick s = .next t ∧ t.time = ⟨true, 0⟩ ∧
      t.leases = s.leases.map (fun l =>
        if l.cls ≠ 0 ∧ (l.state = .running ∨ l.state = .warned) ∧ 0 < l.counter then
          { l with
            counter := l.counter - 1,
            state := if l.state = .running ∧ l.counter - 1 = (s.classParams l.cls).v.toNat ∧
                0 < (s.classParams l.cls).v.toNat then .warned else l.state }
        else l) ∧
      (let warns : Prop := ∃ l ∈ s.leases, l.cls ≠ 0 ∧ l.state = .running ∧
          l.counter = (s.classParams l.cls).v.toNat + 1 ∧ 0 < (s.classParams l.cls).v.toNat
       (warns → t.events = { s.events with latched := s.events.latched ||| 0x0002 }) ∧
       (¬ warns → t.events = s.events)) ∧
      (s.takesPart = true →
        t.member = { s.member with
          presenceTimer := s.member.presenceTimer.map (· - 1),
          listenTimer := s.member.listenTimer.map (· - 1),
          peers := s.member.peers.map (fun p =>
            if p.state = .absent then p else { p with dropout := p.dropout - 1 }) } ∧
        t.snap = { s.snap with timer := s.snap.timer.map (· - 1) } ∧
        t.digest = { s.digest with timer := s.digest.timer.map (· - 1) }) ∧
      (s.takesPart = false → t.member = s.member ∧ t.snap = s.snap ∧ t.digest = s.digest) ∧
      t.table = s.table ∧ t.req = s.req ∧ t.slots = s.slots ∧ t.errors = s.errors ∧
      t.line = s.line ∧ t.config = s.config ∧ t.port = s.port)

/-- LEASE_EXPIRY, PRESENCE_TIMER_EXPIRY and DIGEST_TIMER_EXPIRY (R72, R108, R121, R163), for a counter or
timer that has come to 0, and for one that has not. (Model choices: logs 3, 4.) -/
def Obligations.TimersActAtZero : Prop :=
  ∀ s : State, s.powered = true →
    (∀ (k : BitVec 6) (l : Lease), s.leaseOf k.toNat = some l →
      let expired : State := (s.withLeases (s.leases.map (fun x =>
        if x.names k.toNat then { x with state := .expiredPending, counter := 0 } else x))).withEvents
        { s.events with latched := s.events.latched ||| 0x0004 }
      (l.cls ≠ 0 → l.pending = false → l.counter = 0 →
        (l.source = .host → exec (.leaseExpiry k) s = .next expired) ∧
        (∀ n, l.source = .slot n → exec (.leaseExpiry k) s = .next (modifySlot n
          (fun x => if x.state = .held then { x with state := .releasing, gnt := false } else x)
          expired))) ∧
      (l.cls = 0 ∨ l.pending = true ∨ l.counter ≠ 0 → exec (.leaseExpiry k) s = .next s)) ∧
    (∀ k : BitVec 6, s.leaseOf k.toNat = none → exec (.leaseExpiry k) s = .next s) ∧
    (s.takesPart = true → s.member.presenceTimer = some 0 → exec .presenceTimerExpiry s =
      .next (s.withMember { s.member with presenceTimer := none, presenceWant := true })) ∧
    (s.member.presenceTimer ≠ some 0 → exec .presenceTimerExpiry s = .next s) ∧
    (s.digest.timer = some 0 → exec .digestTimerExpiry s =
      .next (s.withDigest ⟨some s.digestInterval, true⟩)) ∧
    (s.digest.timer ≠ some 0 → exec .digestTimerExpiry s = .next s)

/-- The presence table. FRAME_ACCEPTED of a peer's frame, in every state that takes part in the line (R68,
R72, R75, R99, R102): what it shows of its sender, with a full dropout counter, and of an evicted peer; the
answer to a newcomer; active-seen; and the service list. A PRESENCE with another configuration digest (R78):
CONFIG_CONFLICT and DETACHED, or PEER_CONFIG. DROPOUT_EXPIRY (R69, R70, R102): at an ACTIVE station an
ACTIVE peer is wanted out and keeps its state; otherwise the peer becomes ABSENT with the PEER event; in
both cases it is served no more, and a joiner whose chosen donor it was chooses again while its SNAPREQ is not on
the line (R91). A peer that is ABSENT, still counted or already wanted out stays as it is. That a joiner which finds
no other donor keeps the one it dropped as the chosen donor while it seeks is log 36.
(Model choices: logs 3, 4, 7, 28, 31, 36.) -/
def Obligations.SilentPeerDropsOut : Prop :=
  (∀ (s : State) (r : RawFrame) (f : Frame), s.powered = true → s.takesPart = true →
    s.line.tx = none → s.line.hold = none → s.line.phase ≠ .waiting → s.member.peers.length = 16 →
    receiveCheck s.table s.station r = .ok f →
    let sender := senderOf r
    let old := s.peerAt sender
    let newcomer : Prop := ∃ d, f = .presence .listening d
    let shown : PeerState := match f with
      | .presence .listening _ => .listening
      | .presence .joining _ => .joining
      | .snapreq _ _ => if old.state = .absent then .joining else old.state
      | _ => .active
    let running : Prop := (∃ g c, f = .evict g c) ∨ (∃ c l, f = .release c l) ∨ (∃ o, f = .withdraw o) ∨
      (∃ m u l, f = .claim m u l) ∨ (∃ m c, f = .signal m c) ∨ (∃ j i k hs ws, f = .snap j i k hs ws) ∨
      (∃ v, f = .digest v) ∨ ∃ d, f = .presence .active d
    ((∀ p d, f = .presence p d → d = s.config.digest) → (∀ c, f ≠ .evict s.station c) →
      (∀ v, f = .digest v → s.member.state.hasTable = false) →
      (s.member.state = .joining → (∀ o, f ≠ .withdraw o) ∧ ∀ j k hs ws, f ≠ .snap j s.snap.cursor k hs ws) →
      ∃ t, exec (.frameAccepted (.received r)) s = .next t ∧ t.member.state = s.member.state ∧
        t.line = { s.line with
          phase := .gap, recessive := 0, begun := [], yielding := false, rfc := s.line.rfc - 1 } ∧
        t.errors = s.errors ∧ t.member.presenceTimer = s.member.presenceTimer ∧
        ((∀ c, f ≠ .evict sender c) → t.peerAt sender = {
          state := shown, dropout := s.dropoutTime,
          config := (match f with
            | .presence _ _ => .matching
            | _ => old.config),
          digest := if shown = .active ∧ old.state ≠ .active then .none else old.digest } ∧
          (shown ≠ old.state → t.events.latched.getLsbD 5 = true)) ∧
        (∀ g c, f = .evict g c → t.peerAt g = { s.peerAt g with
          state := .absent, dropout := 0, digest := .none }) ∧
        (∀ p, p ≠ sender → (∀ c, f ≠ .evict p c) → t.peerAt p = s.peerAt p) ∧
        (t.member.presenceWant = true ↔ s.member.presenceWant = true ∨
          (s.member.state.hasTable = true ∧ newcomer)) ∧
        (t.member.activeSeen = true ↔ s.member.activeSeen = true ∨
          (s.member.state = .listening ∧ s.member.listenTimer ≠ none ∧ running)) ∧
        t.member.listenTimer = s.member.listenTimer ∧
        t.snap.service = (match f with
          | .snapreq d i =>
            if d ≠ s.station then s.snap.service.filter (fun x => x.1 != sender)
            else if s.member.state ≠ .active then s.snap.service
            else if ∃ x ∈ s.snap.service, x.1 = sender then
              s.snap.service.map (fun x => if x.1 == sender then (sender, i) else x)
            else s.snap.service ++ [(sender, i)]
          | .presence .active _ | .presence .listening _ =>
            s.snap.service.filter (fun x => x.1 != sender)
          | .evict g _ => s.snap.service.filter (fun x => x.1 != g)
          | _ => s.snap.service) ∧
        (s.member.state = .listening → t.table = s.table ∧ t.req = s.req ∧ t.leases = s.leases ∧
          t.slots = s.slots ∧ t.digest = s.digest ∧ t.events.latch = s.events.latch)) ∧
    (∀ p d, f = .presence p d → d ≠ s.config.digest →
      let conflict : Prop := s.member.state = .listening ∨ (s.member.state = .joining ∧ p = .active) ∨
        (s.member.state = .active ∧ p = .active ∧ sender.toNat < s.station.toNat)
      ∃ t, exec (.frameAccepted (.received r)) s = .next t ∧
        (conflict → t.member.state = .detached ∧ t.errors.status = s.errors.status ||| 0x0100 ∧
          t.member.peers = List.replicate 16 Peer.cleared ∧
          (s.member.state = .active → t.leases = [] ∧ t.table = clearEntries s.table)) ∧
        (¬ conflict → t.member.state = s.member.state ∧
          t.errors.status = s.errors.status ||| 0x0004 ∧ (t.peerAt sender).config = .mismatch))) ∧
  ∀ (s : State) (a : Addr), s.powered = true → s.takesPart = true → a ≠ s.station →
    s.member.peers.length = 16 →
    let p := s.peerAt a
    let served : Snap := { s.snap with service := s.snap.service.filter (fun r => r.1 != a) }
    (p.state = .absent ∨ p.dropout ≠ 0 ∨ s.wantsEvict a = true →
      exec (.dropoutExpiry a) s = .next s) ∧
    (p.state ≠ .absent → p.dropout = 0 → s.wantsEvict a = false →
      (p.state = .active → s.member.state = .active → exec (.dropoutExpiry a) s =
        .next ((s.withSnap served).withMember
          { s.member with evictWants := s.member.evictWants ++ [(a, .dropout)] })) ∧
      (p.state ≠ .active ∨ s.member.state ≠ .active → ∃ t, exec (.dropoutExpiry a) s = .next t ∧
        t.peerAt a = { p with state := .absent } ∧ (∀ b, b ≠ a → t.peerAt b = s.peerAt b) ∧
        t.events = { s.events with latched := s.events.latched ||| 0x0020 } ∧
        t.member.evictWants = s.member.evictWants ∧ t.snap.service = served.service ∧
        t.member.state = s.member.state ∧ t.table = s.table ∧ t.req = s.req ∧ t.line = s.line ∧
        t.errors = s.errors ∧
        (s.member.state ≠ .joining ∨ s.snap.engine ≠ .requesting ∨
          (∃ d i e, s.line.ownFrame = some ⟨.snapreq d i, e⟩) ∨
          (a ≠ s.donorRef ∧ s.eligible s.donorRef = true) → t.snap = served) ∧
        (s.member.state = .joining → s.snap.engine = .requesting →
          (∀ d i e, s.line.ownFrame ≠ some ⟨.snapreq d i, e⟩) → a = s.donorRef →
          (∀ d, t.findDonor a = some d → t.snap = { served with donor := some d, timer := none }) ∧
          (t.findDonor a = none → t.snap = { served with
            engine := .seeking, timer := some (2 * s.presencePeriod) }))))

/-- LISTEN_INTERVAL_END (R47, R48, R76, R77, R90, R108): a station that has seen no running system founds
one and is ACTIVE with an empty table; one that has seen it is JOINING, with a donor asked or sought. (Model
choices: logs 3, 4.) -/
def Obligations.ListenIntervalFoundsOrJoins : Prop :=
  ∀ s : State, s.powered = true →
    (s.member.state ≠ .listening ∨ s.member.listenTimer ≠ some 0 →
      exec .listenIntervalEnd s = .next s) ∧
    (s.member.state = .listening → s.member.listenTimer = some 0 →
      ∃ t, exec .listenIntervalEnd s = .next t ∧ t.table = clearEntries s.table ∧
        t.member.listenTimer = none ∧ t.member.presenceWant = true ∧
        t.member.peers = s.member.peers ∧ t.events.latched.getLsbD 4 = true ∧
        t.line = { s.line with yielding := false } ∧ t.req = s.req ∧ t.leases = s.leases ∧
        t.errors = s.errors ∧ t.config = s.config ∧
        (s.member.activeSeen = false → t.member.state = .active ∧
          t.digest.timer = (if s.digestInterval = 0 then none else some s.digestInterval) ∧
          ∀ n, s.slotExists n = true → (s.slotAt n).source = 4 → (s.slotAt n).state = .armed →
            s.slots.length = 4 → (t.slotAt n).state = .triggered) ∧
        (s.member.activeSeen = true → t.member.state = .joining ∧ t.slots = s.slots ∧
          (∀ d, s.findDonor 15 = some d →
            t.snap = { s.snap with
              cursor := 0, engine := .requesting, donor := some d, failures := 0, timer := none,
              cause := .none, lapsed := none }) ∧
          (s.findDonor 15 = none →
            t.snap = { s.snap with
              cursor := 0, engine := .seeking, donor := none, failures := 0,
              timer := some (2 * s.presencePeriod), cause := .none, lapsed := none })))

/-- The join. FRAME_ACCEPTED at a joiner (R46, R90, R91, R93 to R95, R98), whatever the engine's state: a SNAP at
its cursor is taken, with the snapshot timer reloaded where it runs, the last one makes the station ACTIVE, another
one is not taken; a frame that changes the table changes the entries below the cursor alone and leaves those at it
and above as they stand, with no reports (a CLAIM of one token at the cursor or above is discarded whole); a
WITHDRAW that cannot be resolved ends the join; in SEEKING a peer that becomes eligible is asked; and in REQUESTING
a donor that a frame makes ineligible, by an EVICT or by a PRESENCE of its own, is chosen again, or sought where
there is none. SNAPSHOT_TIMER_EXPIRY (R96, R97, R86): DONOR_LOST and another donor, or a search; at the third
expiry in a row JOIN_FAILED with cause DONOR_LIMIT, and the station DETACHED, at the end of the hold where one goes
first (R19). (Model choices: logs 4, 7, 10, 28, 33, 36, 41, 43.) -/
def Obligations.LostDonorIsReplacedTwice : Prop :=
  (∀ (s : State) (r : RawFrame) (f : Frame), s.powered = true → s.member.state = .joining →
    s.line.tx = none → s.line.hold = none → s.line.phase ≠ .waiting → s.member.peers.length = 16 →
    receiveCheck s.table s.station r = .ok f →
    let sender := senderOf r
    let below : List Entry := (applyFrame s.table s.snap.cursor s.station sender f).table
    let unresolved (o : Nat) : Prop := o < s.snap.cursor ∧ (entryAt s.table o).heldBy sender = true ∧
      ∀ k, k < s.snap.cursor → ∀ w ∈ (entryAt s.table k).waiters,
        ¬ (w.station = sender ∧ w.list.head? = some o)
    (∀ j i k hs ws, f = .snap j i k hs ws → ∃ t, exec (.frameAccepted (.received r)) s = .next t ∧
      (i ≠ s.snap.cursor → t.table = s.table ∧ t.member.state = .joining ∧
        t.snap.cursor = s.snap.cursor ∧ t.snap.failures = s.snap.failures ∧
        (s.snap.engine = .receiving → t.snap = s.snap)) ∧
      (i = s.snap.cursor → t.table = s.table.set i ⟨k, hs, ws, .none⟩ ∧
        (i + 1 ≠ s.n → t.member.state = .joining ∧
          let taken : Snap := { s.snap with
            cursor := i + 1, failures := 0, timer := s.snap.timer.map (fun _ => 2 * s.presencePeriod) }
          (s.snap.engine = .receiving ∨ (s.snap.engine = .requesting ∧ s.eligible s.donorRef = true) ∨
            (s.snap.engine = .seeking ∧ t.findDonor s.donorRef = none) → t.snap = taken) ∧
          (∀ d, s.snap.engine = .seeking → t.findDonor s.donorRef = some d →
            t.snap = { taken with engine := .requesting, donor := some d, timer := none })) ∧
        (i + 1 = s.n → t.member.state = .active ∧ t.member.presenceWant = true ∧
          t.events.latched.getLsbD 4 = true ∧
          t.digest.timer = (if s.digestInterval = 0 then none else some s.digestInterval) ∧
          t.snap = { s.snap with
            cursor := 0, engine := .idle, donor := none, failures := 0, timer := none }))) ∧
    ((∃ m u l, f = .claim m u l) ∨ (∃ c l, f = .release c l) ∨ (∃ g c, f = .evict g c) ∨
      f = .presence .listening s.config.digest ∨ (∃ o, f = .withdraw o ∧ ¬ unresolved o) →
      ∃ t, exec (.frameAccepted (.received r)) s = .next t ∧ t.table = below ∧
        (∀ k, s.snap.cursor ≤ k → entryAt t.table k = entryAt s.table k) ∧
        (∀ m u k, f = .claim m u [k] → s.snap.cursor ≤ k → t.table = s.table) ∧ t.req = s.req ∧
        t.leases = s.leases ∧ t.slots = s.slots ∧ t.member.state = .joining) ∧
    (s.snap.engine = .requesting → (∀ d, f = .presence .active d → d = s.config.digest) →
      (∀ o, f = .withdraw o → ¬ unresolved o) → (∀ j k hs ws, f ≠ .snap j s.snap.cursor k hs ws) →
      ∃ t, exec (.frameAccepted (.received r)) s = .next t ∧ t.member.state = .joining ∧
        ((∃ c, f = .evict s.donorRef c) ∨
          (sender = s.donorRef ∧ ∃ p d, f = .presence p d ∧ p ≠ .active) → t.eligible s.donorRef = false) ∧
        (t.eligible s.donorRef = true → t.snap = { s.snap with service := t.snap.service }) ∧
        (t.eligible s.donorRef = false →
          (∀ d, t.findDonor s.donorRef = some d → t.snap = { s.snap with
            donor := some d, timer := none, service := t.snap.service }) ∧
          (t.findDonor s.donorRef = none → t.snap = { s.snap with
            engine := .seeking, timer := some (2 * s.presencePeriod), service := t.snap.service }))) ∧
    (∀ o, f = .withdraw o → unresolved o → ∃ t, exec (.frameAccepted (.received r)) s = .next t ∧
      t.member.state = .detached ∧ t.errors.status = s.errors.status ||| 0x0400 ∧
      t.table = clearEntries s.table ∧ t.snap.cause = .withdrawUnresolved ∧ t.snap.engine = .idle ∧
      t.snap.cursor = 0) ∧
    (s.snap.engine = .seeking → (∀ a, s.eligible a = false) → f = .presence .active s.config.digest →
      ∃ t, exec (.frameAccepted (.received r)) s = .next t ∧ t.member.state = .joining ∧
        t.snap.engine = .requesting ∧ t.snap.donor = some sender ∧ t.snap.timer = none ∧
        t.snap.failures = s.snap.failures ∧ t.snap.cursor = s.snap.cursor)) ∧
  ∀ (s : State) (place : HoldPlace), s.powered = true → s.member.state = .joining →
    s.snap.engine = .seeking ∨ s.snap.engine = .receiving → s.snap.timer = some 0 →
    (s.snap.failures < 2 →
      (∀ d, s.findDonor s.donorRef = some d → exec (.snapshotTimerExpiry place) s = .next
        ((logError .donorLost ⟨.noFrame, 0, 0, 0, List.replicate 8 0⟩ s).withSnap { s.snap with
          failures := s.snap.failures + 1, engine := .requesting, donor := some d, timer := none })) ∧
      (s.findDonor s.donorRef = none → exec (.snapshotTimerExpiry place) s = .next
        ((logError .donorLost ⟨.noFrame, 0, 0, 0, List.replicate 8 0⟩ s).withSnap { s.snap with
          failures := s.snap.failures + 1, engine := .seeking,
          timer := some (2 * s.presencePeriod) }))) ∧
    (2 ≤ s.snap.failures → s.line.hold = none → place.frameEnds = false →
      s.line.tx.isSome = true ∨ (place.rxHold = true ∧ s.line.phase ≠ .waiting) →
      ∃ t, exec (.snapshotTimerExpiry place) s = .next t ∧ t.line.tx = none ∧
        t.line.hold = some ⟨s.line.tx, .leave .detached .detached, place.start⟩ ∧
        t.member = s.member ∧ t.table = s.table ∧ t.req = s.req ∧
        t.errors.status = s.errors.status ||| 0x0410 ∧
        t.snap = { s.snap with failures := s.snap.failures + 1, timer := none, cause := .donorLimit }) ∧
    (2 ≤ s.snap.failures → s.line.hold = none →
      (s.line.tx = none ∧ place.rxHold = false) ∨ place.frameEnds = true →
      ∃ t, exec (.snapshotTimerExpiry place) s = .next t ∧ t.member.state = .detached ∧
        t.line.phase = .off ∧ t.line.tx = none ∧
        t.snap = { s.snap with
          cursor := 0, engine := .idle, donor := none, failures := 0, timer := none,
          cause := .donorLimit, lapsed := none } ∧
        t.errors.status = s.errors.status ||| 0x0410 ∧ t.table = clearEntries s.table ∧
        t.member.peers = List.replicate 16 Peer.cleared ∧ t.line.rfc = s.line.rfc ∧
        t.line.tfc = s.line.tfc ∧ t.req = s.req)

/-- FRAME_ACCEPTED of a peer's DIGEST at a station in ACTIVE or LEAVING (R110 to R113): its comparison with
the own table digest is the peer's digest status; a disagreement is logged; and where at least 2 peers shown
ACTIVE disagree, and more than agree, DIVERGENCE is logged, which moves the station if DIVERGENCE_FATAL is
set (R82). Of a peer's SIGNAL (R166, R167): at a station in ACTIVE or LEAVING that its mask names, the latch
flag of the code and the SIGNAL event are set and every armed slot of source SIGNAL with the code is
triggered; where the mask does not name it, neither changes. The table does not change. (Model choices: logs
7, 28.) -/
def Obligations.SignalSetsLatchAndTriggers : Prop :=
  (∀ (s : State) (r : RawFrame) (v : Word), s.powered = true →
    (s.member.state = .active ∨ s.member.state = .leaving) → s.line.tx = none → s.line.hold = none →
    s.line.phase ≠ .waiting → s.member.peers.length = 16 →
    receiveCheck s.table s.station r = .ok (.digest v) →
    let sender := senderOf r
    let status : DigestStatus := if v = digestOf s.table then .agree else .disagree
    let after (a : Addr) : DigestStatus := if a = sender then status else (s.peerAt a).digest
    let count (d : DigestStatus) : Nat := (((List.range 16).map (BitVec.ofNat 4)).filter (fun a : Addr =>
      a != s.station && (a == sender || (s.peerAt a).state == .active) && after a == d)).length
    let diverged : Prop := 2 ≤ count .disagree ∧ count .agree < count .disagree
    let logged : Half := (if status = .agree then 0 else 0x0008) ||| (if diverged then 0x0200 else 0)
    ∃ t, exec (.frameAccepted (.received r)) s = .next t ∧
      t.errors.status = s.errors.status ||| logged ∧
      (diverged → s.config.fields.divergenceFatal = true →
        t.member.state = (if s.member.state = .active ∧ s.config.fields.autojoin = true then .listening
          else .detached) ∧ t.leases = [] ∧ t.table = clearEntries s.table) ∧
      (¬ diverged ∨ s.config.fields.divergenceFatal = false →
        t.member.state = s.member.state ∧ t.table = s.table ∧ t.leases = s.leases ∧ t.req = s.req ∧
          t.peerAt sender = { s.peerAt sender with
            state := .active, dropout := s.dropoutTime, digest := status } ∧
          ∀ p, p ≠ sender → t.peerAt p = s.peerAt p)) ∧
  ∀ (s : State) (r : RawFrame) (m : Half) (c : BitVec 3), s.powered = true →
    (s.member.state = .active ∨ s.member.state = .leaving) → s.line.tx = none → s.line.hold = none →
    s.line.phase ≠ .waiting → s.slots.length = 4 → receiveCheck s.table s.station r = .ok (.signal m c) →
    ∃ t, exec (.frameAccepted (.received r)) s = .next t ∧ t.table = s.table ∧ t.req = s.req ∧
      t.leases = s.leases ∧ t.errors = s.errors ∧
      (m.getLsbD s.station.toNat = true →
        t.events.latch = s.events.latch ||| BitVec.ofNat 8 (2 ^ c.toNat) ∧
        t.events.latched.getLsbD 3 = true ∧
        ∀ n, s.slotExists n = true →
          ((s.slotAt n).source = 3 → (s.slotAt n).code = c → (s.slotAt n).state = .armed →
            t.slotAt n = { s.slotAt n with state := .triggered }) ∧
          ((s.slotAt n).source ≠ 3 ∨ (s.slotAt n).code ≠ c → t.slotAt n = s.slotAt n)) ∧
      (m.getLsbD s.station.toNat = false →
        t.events.latch = s.events.latch ∧ t.slots = s.slots ∧
          t.events.latched.getLsbD 3 = s.events.latched.getLsbD 3)

/-! ## Invariants -/

/-- The fault counters are within their limits, transmission is lawful, the replica is sound and orderly, the
collections have their sizes, and the tokens of leases and claims are apart, right after reset. -/
def Obligations.InvariantsHoldAtReset : Prop :=
  State.reset.countersSound ∧ State.reset.lawful ∧ State.reset.replicaSound ∧ State.reset.sized ∧
    tableOrderly State.reset.table ∧ State.reset.tokensApart

/-- Every step keeps the law of R18 on transmission, and every EXCLUSIVE entry with at most one holder and
every POOL entry within its capacity (R22); and, where the frame it hands to the blocks is one that the
stations of a system send, every station at most once among the holders and waiters of an entry (R23) and
every head waiter blocked (R26). -/
def Obligations.EveryStepKeepsTheReplicaSound : Prop :=
  ∀ s t : State, s.lawful → s.replicaSound → step s = .next t →
    t.lawful ∧ t.replicaSound ∧
      (tableOrderly s.table →
        (∀ c rest sender f, s.pending = c :: rest → s.handedOver c = some (sender, f) →
          s.lawfulFrame sender f) →
        tableOrderly t.table)

/-- Every step keeps RFC and TFC between 0 and 64 (R16), and the sizes of the collections (R67, R99, R132,
R133, R135 to R137, R152, R179); and, where the complete grants of the frame it hands to the blocks are of
the claims that this station has pending, no token named by two lease records (R118) or claims. -/
def Obligations.EveryStepKeepsCountersAndSizes : Prop :=
  ∀ s t : State, s.countersSound → s.sized → step s = .next t →
    t.countersSound ∧ t.sized ∧
      (s.tokensApart →
        (∀ c rest sender f, s.pending = c :: rest → s.handedOver c = some (sender, f) →
          s.reportsAgree sender f) →
        t.tokensApart)
end

