-- ==== Sys2Proof/Laws/State.lean ====
section
/-! SUPPORT. One lemma per field and setter: what the field holds after the update. -/

namespace Sys2Proof.Machine.State

/-! ### withConfig -/

@[simp] theorem withConfig_grade (s : State) (x : ConfigBlock) : (s.withConfig x).grade = s.grade := rfl
@[simp] theorem withConfig_powered (s : State) (x : ConfigBlock) : (s.withConfig x).powered = s.powered := rfl
@[simp] theorem withConfig_addrPins (s : State) (x : ConfigBlock) : (s.withConfig x).addrPins = s.addrPins := rfl
@[simp] theorem withConfig_trgPins (s : State) (x : ConfigBlock) : (s.withConfig x).trgPins = s.trgPins := rfl
@[simp] theorem withConfig_station (s : State) (x : ConfigBlock) : (s.withConfig x).station = s.station := rfl
@[simp] theorem withConfig_config (s : State) (x : ConfigBlock) : (s.withConfig x).config = x := rfl
@[simp] theorem withConfig_line (s : State) (x : ConfigBlock) : (s.withConfig x).line = s.line := rfl
@[simp] theorem withConfig_table (s : State) (x : ConfigBlock) : (s.withConfig x).table = s.table := rfl
@[simp] theorem withConfig_member (s : State) (x : ConfigBlock) : (s.withConfig x).member = s.member := rfl
@[simp] theorem withConfig_snap (s : State) (x : ConfigBlock) : (s.withConfig x).snap = s.snap := rfl
@[simp] theorem withConfig_digest (s : State) (x : ConfigBlock) : (s.withConfig x).digest = s.digest := rfl
@[simp] theorem withConfig_time (s : State) (x : ConfigBlock) : (s.withConfig x).time = s.time := rfl
@[simp] theorem withConfig_leases (s : State) (x : ConfigBlock) : (s.withConfig x).leases = s.leases := rfl
@[simp] theorem withConfig_req (s : State) (x : ConfigBlock) : (s.withConfig x).req = s.req := rfl
@[simp] theorem withConfig_slots (s : State) (x : ConfigBlock) : (s.withConfig x).slots = s.slots := rfl
@[simp] theorem withConfig_events (s : State) (x : ConfigBlock) : (s.withConfig x).events = s.events := rfl
@[simp] theorem withConfig_errors (s : State) (x : ConfigBlock) : (s.withConfig x).errors = s.errors := rfl
@[simp] theorem withConfig_port (s : State) (x : ConfigBlock) : (s.withConfig x).port = s.port := rfl
@[simp] theorem withConfig_freeCount (s : State) (x : ConfigBlock) : (s.withConfig x).freeCount = s.freeCount := rfl
@[simp] theorem withConfig_pending (s : State) (x : ConfigBlock) : (s.withConfig x).pending = s.pending := rfl

/-! ### withLine -/

@[simp] theorem withLine_grade (s : State) (x : Line) : (s.withLine x).grade = s.grade := rfl
@[simp] theorem withLine_powered (s : State) (x : Line) : (s.withLine x).powered = s.powered := rfl
@[simp] theorem withLine_addrPins (s : State) (x : Line) : (s.withLine x).addrPins = s.addrPins := rfl
@[simp] theorem withLine_trgPins (s : State) (x : Line) : (s.withLine x).trgPins = s.trgPins := rfl
@[simp] theorem withLine_station (s : State) (x : Line) : (s.withLine x).station = s.station := rfl
@[simp] theorem withLine_config (s : State) (x : Line) : (s.withLine x).config = s.config := rfl
@[simp] theorem withLine_line (s : State) (x : Line) : (s.withLine x).line = x := rfl
@[simp] theorem withLine_table (s : State) (x : Line) : (s.withLine x).table = s.table := rfl
@[simp] theorem withLine_member (s : State) (x : Line) : (s.withLine x).member = s.member := rfl
@[simp] theorem withLine_snap (s : State) (x : Line) : (s.withLine x).snap = s.snap := rfl
@[simp] theorem withLine_digest (s : State) (x : Line) : (s.withLine x).digest = s.digest := rfl
@[simp] theorem withLine_time (s : State) (x : Line) : (s.withLine x).time = s.time := rfl
@[simp] theorem withLine_leases (s : State) (x : Line) : (s.withLine x).leases = s.leases := rfl
@[simp] theorem withLine_req (s : State) (x : Line) : (s.withLine x).req = s.req := rfl
@[simp] theorem withLine_slots (s : State) (x : Line) : (s.withLine x).slots = s.slots := rfl
@[simp] theorem withLine_events (s : State) (x : Line) : (s.withLine x).events = s.events := rfl
@[simp] theorem withLine_errors (s : State) (x : Line) : (s.withLine x).errors = s.errors := rfl
@[simp] theorem withLine_port (s : State) (x : Line) : (s.withLine x).port = s.port := rfl
@[simp] theorem withLine_freeCount (s : State) (x : Line) : (s.withLine x).freeCount = s.freeCount := rfl
@[simp] theorem withLine_pending (s : State) (x : Line) : (s.withLine x).pending = s.pending := rfl

/-! ### withTable -/

@[simp] theorem withTable_grade (s : State) (x : List Entry) : (s.withTable x).grade = s.grade := rfl
@[simp] theorem withTable_powered (s : State) (x : List Entry) : (s.withTable x).powered = s.powered := rfl
@[simp] theorem withTable_addrPins (s : State) (x : List Entry) : (s.withTable x).addrPins = s.addrPins := rfl
@[simp] theorem withTable_trgPins (s : State) (x : List Entry) : (s.withTable x).trgPins = s.trgPins := rfl
@[simp] theorem withTable_station (s : State) (x : List Entry) : (s.withTable x).station = s.station := rfl
@[simp] theorem withTable_config (s : State) (x : List Entry) : (s.withTable x).config = s.config := rfl
@[simp] theorem withTable_line (s : State) (x : List Entry) : (s.withTable x).line = s.line := rfl
@[simp] theorem withTable_table (s : State) (x : List Entry) : (s.withTable x).table = x := rfl
@[simp] theorem withTable_member (s : State) (x : List Entry) : (s.withTable x).member = s.member := rfl
@[simp] theorem withTable_snap (s : State) (x : List Entry) : (s.withTable x).snap = s.snap := rfl
@[simp] theorem withTable_digest (s : State) (x : List Entry) : (s.withTable x).digest = s.digest := rfl
@[simp] theorem withTable_time (s : State) (x : List Entry) : (s.withTable x).time = s.time := rfl
@[simp] theorem withTable_leases (s : State) (x : List Entry) : (s.withTable x).leases = s.leases := rfl
@[simp] theorem withTable_req (s : State) (x : List Entry) : (s.withTable x).req = s.req := rfl
@[simp] theorem withTable_slots (s : State) (x : List Entry) : (s.withTable x).slots = s.slots := rfl
@[simp] theorem withTable_events (s : State) (x : List Entry) : (s.withTable x).events = s.events := rfl
@[simp] theorem withTable_errors (s : State) (x : List Entry) : (s.withTable x).errors = s.errors := rfl
@[simp] theorem withTable_port (s : State) (x : List Entry) : (s.withTable x).port = s.port := rfl
@[simp] theorem withTable_freeCount (s : State) (x : List Entry) : (s.withTable x).freeCount = s.freeCount := rfl
@[simp] theorem withTable_pending (s : State) (x : List Entry) : (s.withTable x).pending = s.pending := rfl

/-! ### withMember -/

@[simp] theorem withMember_grade (s : State) (x : Member) : (s.withMember x).grade = s.grade := rfl
@[simp] theorem withMember_powered (s : State) (x : Member) : (s.withMember x).powered = s.powered := rfl
@[simp] theorem withMember_addrPins (s : State) (x : Member) : (s.withMember x).addrPins = s.addrPins := rfl
@[simp] theorem withMember_trgPins (s : State) (x : Member) : (s.withMember x).trgPins = s.trgPins := rfl
@[simp] theorem withMember_station (s : State) (x : Member) : (s.withMember x).station = s.station := rfl
@[simp] theorem withMember_config (s : State) (x : Member) : (s.withMember x).config = s.config := rfl
@[simp] theorem withMember_line (s : State) (x : Member) : (s.withMember x).line = s.line := rfl
@[simp] theorem withMember_table (s : State) (x : Member) : (s.withMember x).table = s.table := rfl
@[simp] theorem withMember_member (s : State) (x : Member) : (s.withMember x).member = x := rfl
@[simp] theorem withMember_snap (s : State) (x : Member) : (s.withMember x).snap = s.snap := rfl
@[simp] theorem withMember_digest (s : State) (x : Member) : (s.withMember x).digest = s.digest := rfl
@[simp] theorem withMember_time (s : State) (x : Member) : (s.withMember x).time = s.time := rfl
@[simp] theorem withMember_leases (s : State) (x : Member) : (s.withMember x).leases = s.leases := rfl
@[simp] theorem withMember_req (s : State) (x : Member) : (s.withMember x).req = s.req := rfl
@[simp] theorem withMember_slots (s : State) (x : Member) : (s.withMember x).slots = s.slots := rfl
@[simp] theorem withMember_events (s : State) (x : Member) : (s.withMember x).events = s.events := rfl
@[simp] theorem withMember_errors (s : State) (x : Member) : (s.withMember x).errors = s.errors := rfl
@[simp] theorem withMember_port (s : State) (x : Member) : (s.withMember x).port = s.port := rfl
@[simp] theorem withMember_freeCount (s : State) (x : Member) : (s.withMember x).freeCount = s.freeCount := rfl
@[simp] theorem withMember_pending (s : State) (x : Member) : (s.withMember x).pending = s.pending := rfl

/-! ### withSnap -/

@[simp] theorem withSnap_grade (s : State) (x : Snap) : (s.withSnap x).grade = s.grade := rfl
@[simp] theorem withSnap_powered (s : State) (x : Snap) : (s.withSnap x).powered = s.powered := rfl
@[simp] theorem withSnap_addrPins (s : State) (x : Snap) : (s.withSnap x).addrPins = s.addrPins := rfl
@[simp] theorem withSnap_trgPins (s : State) (x : Snap) : (s.withSnap x).trgPins = s.trgPins := rfl
@[simp] theorem withSnap_station (s : State) (x : Snap) : (s.withSnap x).station = s.station := rfl
@[simp] theorem withSnap_config (s : State) (x : Snap) : (s.withSnap x).config = s.config := rfl
@[simp] theorem withSnap_line (s : State) (x : Snap) : (s.withSnap x).line = s.line := rfl
@[simp] theorem withSnap_table (s : State) (x : Snap) : (s.withSnap x).table = s.table := rfl
@[simp] theorem withSnap_member (s : State) (x : Snap) : (s.withSnap x).member = s.member := rfl
@[simp] theorem withSnap_snap (s : State) (x : Snap) : (s.withSnap x).snap = x := rfl
@[simp] theorem withSnap_digest (s : State) (x : Snap) : (s.withSnap x).digest = s.digest := rfl
@[simp] theorem withSnap_time (s : State) (x : Snap) : (s.withSnap x).time = s.time := rfl
@[simp] theorem withSnap_leases (s : State) (x : Snap) : (s.withSnap x).leases = s.leases := rfl
@[simp] theorem withSnap_req (s : State) (x : Snap) : (s.withSnap x).req = s.req := rfl
@[simp] theorem withSnap_slots (s : State) (x : Snap) : (s.withSnap x).slots = s.slots := rfl
@[simp] theorem withSnap_events (s : State) (x : Snap) : (s.withSnap x).events = s.events := rfl
@[simp] theorem withSnap_errors (s : State) (x : Snap) : (s.withSnap x).errors = s.errors := rfl
@[simp] theorem withSnap_port (s : State) (x : Snap) : (s.withSnap x).port = s.port := rfl
@[simp] theorem withSnap_freeCount (s : State) (x : Snap) : (s.withSnap x).freeCount = s.freeCount := rfl
@[simp] theorem withSnap_pending (s : State) (x : Snap) : (s.withSnap x).pending = s.pending := rfl

/-! ### withDigest -/

@[simp] theorem withDigest_grade (s : State) (x : DigestUnit) : (s.withDigest x).grade = s.grade := rfl
@[simp] theorem withDigest_powered (s : State) (x : DigestUnit) : (s.withDigest x).powered = s.powered := rfl
@[simp] theorem withDigest_addrPins (s : State) (x : DigestUnit) : (s.withDigest x).addrPins = s.addrPins := rfl
@[simp] theorem withDigest_trgPins (s : State) (x : DigestUnit) : (s.withDigest x).trgPins = s.trgPins := rfl
@[simp] theorem withDigest_station (s : State) (x : DigestUnit) : (s.withDigest x).station = s.station := rfl
@[simp] theorem withDigest_config (s : State) (x : DigestUnit) : (s.withDigest x).config = s.config := rfl
@[simp] theorem withDigest_line (s : State) (x : DigestUnit) : (s.withDigest x).line = s.line := rfl
@[simp] theorem withDigest_table (s : State) (x : DigestUnit) : (s.withDigest x).table = s.table := rfl
@[simp] theorem withDigest_member (s : State) (x : DigestUnit) : (s.withDigest x).member = s.member := rfl
@[simp] theorem withDigest_snap (s : State) (x : DigestUnit) : (s.withDigest x).snap = s.snap := rfl
@[simp] theorem withDigest_digest (s : State) (x : DigestUnit) : (s.withDigest x).digest = x := rfl
@[simp] theorem withDigest_time (s : State) (x : DigestUnit) : (s.withDigest x).time = s.time := rfl
@[simp] theorem withDigest_leases (s : State) (x : DigestUnit) : (s.withDigest x).leases = s.leases := rfl
@[simp] theorem withDigest_req (s : State) (x : DigestUnit) : (s.withDigest x).req = s.req := rfl
@[simp] theorem withDigest_slots (s : State) (x : DigestUnit) : (s.withDigest x).slots = s.slots := rfl
@[simp] theorem withDigest_events (s : State) (x : DigestUnit) : (s.withDigest x).events = s.events := rfl
@[simp] theorem withDigest_errors (s : State) (x : DigestUnit) : (s.withDigest x).errors = s.errors := rfl
@[simp] theorem withDigest_port (s : State) (x : DigestUnit) : (s.withDigest x).port = s.port := rfl
@[simp] theorem withDigest_freeCount (s : State) (x : DigestUnit) : (s.withDigest x).freeCount = s.freeCount := rfl
@[simp] theorem withDigest_pending (s : State) (x : DigestUnit) : (s.withDigest x).pending = s.pending := rfl

/-! ### withTime -/

@[simp] theorem withTime_grade (s : State) (x : TimeBase) : (s.withTime x).grade = s.grade := rfl
@[simp] theorem withTime_powered (s : State) (x : TimeBase) : (s.withTime x).powered = s.powered := rfl
@[simp] theorem withTime_addrPins (s : State) (x : TimeBase) : (s.withTime x).addrPins = s.addrPins := rfl
@[simp] theorem withTime_trgPins (s : State) (x : TimeBase) : (s.withTime x).trgPins = s.trgPins := rfl
@[simp] theorem withTime_station (s : State) (x : TimeBase) : (s.withTime x).station = s.station := rfl
@[simp] theorem withTime_config (s : State) (x : TimeBase) : (s.withTime x).config = s.config := rfl
@[simp] theorem withTime_line (s : State) (x : TimeBase) : (s.withTime x).line = s.line := rfl
@[simp] theorem withTime_table (s : State) (x : TimeBase) : (s.withTime x).table = s.table := rfl
@[simp] theorem withTime_member (s : State) (x : TimeBase) : (s.withTime x).member = s.member := rfl
@[simp] theorem withTime_snap (s : State) (x : TimeBase) : (s.withTime x).snap = s.snap := rfl
@[simp] theorem withTime_digest (s : State) (x : TimeBase) : (s.withTime x).digest = s.digest := rfl
@[simp] theorem withTime_time (s : State) (x : TimeBase) : (s.withTime x).time = x := rfl
@[simp] theorem withTime_leases (s : State) (x : TimeBase) : (s.withTime x).leases = s.leases := rfl
@[simp] theorem withTime_req (s : State) (x : TimeBase) : (s.withTime x).req = s.req := rfl
@[simp] theorem withTime_slots (s : State) (x : TimeBase) : (s.withTime x).slots = s.slots := rfl
@[simp] theorem withTime_events (s : State) (x : TimeBase) : (s.withTime x).events = s.events := rfl
@[simp] theorem withTime_errors (s : State) (x : TimeBase) : (s.withTime x).errors = s.errors := rfl
@[simp] theorem withTime_port (s : State) (x : TimeBase) : (s.withTime x).port = s.port := rfl
@[simp] theorem withTime_freeCount (s : State) (x : TimeBase) : (s.withTime x).freeCount = s.freeCount := rfl
@[simp] theorem withTime_pending (s : State) (x : TimeBase) : (s.withTime x).pending = s.pending := rfl

/-! ### withLeases -/

@[simp] theorem withLeases_grade (s : State) (x : List Lease) : (s.withLeases x).grade = s.grade := rfl
@[simp] theorem withLeases_powered (s : State) (x : List Lease) : (s.withLeases x).powered = s.powered := rfl
@[simp] theorem withLeases_addrPins (s : State) (x : List Lease) : (s.withLeases x).addrPins = s.addrPins := rfl
@[simp] theorem withLeases_trgPins (s : State) (x : List Lease) : (s.withLeases x).trgPins = s.trgPins := rfl
@[simp] theorem withLeases_station (s : State) (x : List Lease) : (s.withLeases x).station = s.station := rfl
@[simp] theorem withLeases_config (s : State) (x : List Lease) : (s.withLeases x).config = s.config := rfl
@[simp] theorem withLeases_line (s : State) (x : List Lease) : (s.withLeases x).line = s.line := rfl
@[simp] theorem withLeases_table (s : State) (x : List Lease) : (s.withLeases x).table = s.table := rfl
@[simp] theorem withLeases_member (s : State) (x : List Lease) : (s.withLeases x).member = s.member := rfl
@[simp] theorem withLeases_snap (s : State) (x : List Lease) : (s.withLeases x).snap = s.snap := rfl
@[simp] theorem withLeases_digest (s : State) (x : List Lease) : (s.withLeases x).digest = s.digest := rfl
@[simp] theorem withLeases_time (s : State) (x : List Lease) : (s.withLeases x).time = s.time := rfl
@[simp] theorem withLeases_leases (s : State) (x : List Lease) : (s.withLeases x).leases = x := rfl
@[simp] theorem withLeases_req (s : State) (x : List Lease) : (s.withLeases x).req = s.req := rfl
@[simp] theorem withLeases_slots (s : State) (x : List Lease) : (s.withLeases x).slots = s.slots := rfl
@[simp] theorem withLeases_events (s : State) (x : List Lease) : (s.withLeases x).events = s.events := rfl
@[simp] theorem withLeases_errors (s : State) (x : List Lease) : (s.withLeases x).errors = s.errors := rfl
@[simp] theorem withLeases_port (s : State) (x : List Lease) : (s.withLeases x).port = s.port := rfl
@[simp] theorem withLeases_freeCount (s : State) (x : List Lease) : (s.withLeases x).freeCount = s.freeCount := rfl
@[simp] theorem withLeases_pending (s : State) (x : List Lease) : (s.withLeases x).pending = s.pending := rfl

/-! ### withReq -/

@[simp] theorem withReq_grade (s : State) (x : Requests) : (s.withReq x).grade = s.grade := rfl
@[simp] theorem withReq_powered (s : State) (x : Requests) : (s.withReq x).powered = s.powered := rfl
@[simp] theorem withReq_addrPins (s : State) (x : Requests) : (s.withReq x).addrPins = s.addrPins := rfl
@[simp] theorem withReq_trgPins (s : State) (x : Requests) : (s.withReq x).trgPins = s.trgPins := rfl
@[simp] theorem withReq_station (s : State) (x : Requests) : (s.withReq x).station = s.station := rfl
@[simp] theorem withReq_config (s : State) (x : Requests) : (s.withReq x).config = s.config := rfl
@[simp] theorem withReq_line (s : State) (x : Requests) : (s.withReq x).line = s.line := rfl
@[simp] theorem withReq_table (s : State) (x : Requests) : (s.withReq x).table = s.table := rfl
@[simp] theorem withReq_member (s : State) (x : Requests) : (s.withReq x).member = s.member := rfl
@[simp] theorem withReq_snap (s : State) (x : Requests) : (s.withReq x).snap = s.snap := rfl
@[simp] theorem withReq_digest (s : State) (x : Requests) : (s.withReq x).digest = s.digest := rfl
@[simp] theorem withReq_time (s : State) (x : Requests) : (s.withReq x).time = s.time := rfl
@[simp] theorem withReq_leases (s : State) (x : Requests) : (s.withReq x).leases = s.leases := rfl
@[simp] theorem withReq_req (s : State) (x : Requests) : (s.withReq x).req = x := rfl
@[simp] theorem withReq_slots (s : State) (x : Requests) : (s.withReq x).slots = s.slots := rfl
@[simp] theorem withReq_events (s : State) (x : Requests) : (s.withReq x).events = s.events := rfl
@[simp] theorem withReq_errors (s : State) (x : Requests) : (s.withReq x).errors = s.errors := rfl
@[simp] theorem withReq_port (s : State) (x : Requests) : (s.withReq x).port = s.port := rfl
@[simp] theorem withReq_freeCount (s : State) (x : Requests) : (s.withReq x).freeCount = s.freeCount := rfl
@[simp] theorem withReq_pending (s : State) (x : Requests) : (s.withReq x).pending = s.pending := rfl

/-! ### withSlots -/

@[simp] theorem withSlots_grade (s : State) (x : List Slot) : (s.withSlots x).grade = s.grade := rfl
@[simp] theorem withSlots_powered (s : State) (x : List Slot) : (s.withSlots x).powered = s.powered := rfl
@[simp] theorem withSlots_addrPins (s : State) (x : List Slot) : (s.withSlots x).addrPins = s.addrPins := rfl
@[simp] theorem withSlots_trgPins (s : State) (x : List Slot) : (s.withSlots x).trgPins = s.trgPins := rfl
@[simp] theorem withSlots_station (s : State) (x : List Slot) : (s.withSlots x).station = s.station := rfl
@[simp] theorem withSlots_config (s : State) (x : List Slot) : (s.withSlots x).config = s.config := rfl
@[simp] theorem withSlots_line (s : State) (x : List Slot) : (s.withSlots x).line = s.line := rfl
@[simp] theorem withSlots_table (s : State) (x : List Slot) : (s.withSlots x).table = s.table := rfl
@[simp] theorem withSlots_member (s : State) (x : List Slot) : (s.withSlots x).member = s.member := rfl
@[simp] theorem withSlots_snap (s : State) (x : List Slot) : (s.withSlots x).snap = s.snap := rfl
@[simp] theorem withSlots_digest (s : State) (x : List Slot) : (s.withSlots x).digest = s.digest := rfl
@[simp] theorem withSlots_time (s : State) (x : List Slot) : (s.withSlots x).time = s.time := rfl
@[simp] theorem withSlots_leases (s : State) (x : List Slot) : (s.withSlots x).leases = s.leases := rfl
@[simp] theorem withSlots_req (s : State) (x : List Slot) : (s.withSlots x).req = s.req := rfl
@[simp] theorem withSlots_slots (s : State) (x : List Slot) : (s.withSlots x).slots = x := rfl
@[simp] theorem withSlots_events (s : State) (x : List Slot) : (s.withSlots x).events = s.events := rfl
@[simp] theorem withSlots_errors (s : State) (x : List Slot) : (s.withSlots x).errors = s.errors := rfl
@[simp] theorem withSlots_port (s : State) (x : List Slot) : (s.withSlots x).port = s.port := rfl
@[simp] theorem withSlots_freeCount (s : State) (x : List Slot) : (s.withSlots x).freeCount = s.freeCount := rfl
@[simp] theorem withSlots_pending (s : State) (x : List Slot) : (s.withSlots x).pending = s.pending := rfl

/-! ### withEvents -/

@[simp] theorem withEvents_grade (s : State) (x : Events) : (s.withEvents x).grade = s.grade := rfl
@[simp] theorem withEvents_powered (s : State) (x : Events) : (s.withEvents x).powered = s.powered := rfl
@[simp] theorem withEvents_addrPins (s : State) (x : Events) : (s.withEvents x).addrPins = s.addrPins := rfl
@[simp] theorem withEvents_trgPins (s : State) (x : Events) : (s.withEvents x).trgPins = s.trgPins := rfl
@[simp] theorem withEvents_station (s : State) (x : Events) : (s.withEvents x).station = s.station := rfl
@[simp] theorem withEvents_config (s : State) (x : Events) : (s.withEvents x).config = s.config := rfl
@[simp] theorem withEvents_line (s : State) (x : Events) : (s.withEvents x).line = s.line := rfl
@[simp] theorem withEvents_table (s : State) (x : Events) : (s.withEvents x).table = s.table := rfl
@[simp] theorem withEvents_member (s : State) (x : Events) : (s.withEvents x).member = s.member := rfl
@[simp] theorem withEvents_snap (s : State) (x : Events) : (s.withEvents x).snap = s.snap := rfl
@[simp] theorem withEvents_digest (s : State) (x : Events) : (s.withEvents x).digest = s.digest := rfl
@[simp] theorem withEvents_time (s : State) (x : Events) : (s.withEvents x).time = s.time := rfl
@[simp] theorem withEvents_leases (s : State) (x : Events) : (s.withEvents x).leases = s.leases := rfl
@[simp] theorem withEvents_req (s : State) (x : Events) : (s.withEvents x).req = s.req := rfl
@[simp] theorem withEvents_slots (s : State) (x : Events) : (s.withEvents x).slots = s.slots := rfl
@[simp] theorem withEvents_events (s : State) (x : Events) : (s.withEvents x).events = x := rfl
@[simp] theorem withEvents_errors (s : State) (x : Events) : (s.withEvents x).errors = s.errors := rfl
@[simp] theorem withEvents_port (s : State) (x : Events) : (s.withEvents x).port = s.port := rfl
@[simp] theorem withEvents_freeCount (s : State) (x : Events) : (s.withEvents x).freeCount = s.freeCount := rfl
@[simp] theorem withEvents_pending (s : State) (x : Events) : (s.withEvents x).pending = s.pending := rfl

/-! ### withErrors -/

@[simp] theorem withErrors_grade (s : State) (x : Errors) : (s.withErrors x).grade = s.grade := rfl
@[simp] theorem withErrors_powered (s : State) (x : Errors) : (s.withErrors x).powered = s.powered := rfl
@[simp] theorem withErrors_addrPins (s : State) (x : Errors) : (s.withErrors x).addrPins = s.addrPins := rfl
@[simp] theorem withErrors_trgPins (s : State) (x : Errors) : (s.withErrors x).trgPins = s.trgPins := rfl
@[simp] theorem withErrors_station (s : State) (x : Errors) : (s.withErrors x).station = s.station := rfl
@[simp] theorem withErrors_config (s : State) (x : Errors) : (s.withErrors x).config = s.config := rfl
@[simp] theorem withErrors_line (s : State) (x : Errors) : (s.withErrors x).line = s.line := rfl
@[simp] theorem withErrors_table (s : State) (x : Errors) : (s.withErrors x).table = s.table := rfl
@[simp] theorem withErrors_member (s : State) (x : Errors) : (s.withErrors x).member = s.member := rfl
@[simp] theorem withErrors_snap (s : State) (x : Errors) : (s.withErrors x).snap = s.snap := rfl
@[simp] theorem withErrors_digest (s : State) (x : Errors) : (s.withErrors x).digest = s.digest := rfl
@[simp] theorem withErrors_time (s : State) (x : Errors) : (s.withErrors x).time = s.time := rfl
@[simp] theorem withErrors_leases (s : State) (x : Errors) : (s.withErrors x).leases = s.leases := rfl
@[simp] theorem withErrors_req (s : State) (x : Errors) : (s.withErrors x).req = s.req := rfl
@[simp] theorem withErrors_slots (s : State) (x : Errors) : (s.withErrors x).slots = s.slots := rfl
@[simp] theorem withErrors_events (s : State) (x : Errors) : (s.withErrors x).events = s.events := rfl
@[simp] theorem withErrors_errors (s : State) (x : Errors) : (s.withErrors x).errors = x := rfl
@[simp] theorem withErrors_port (s : State) (x : Errors) : (s.withErrors x).port = s.port := rfl
@[simp] theorem withErrors_freeCount (s : State) (x : Errors) : (s.withErrors x).freeCount = s.freeCount := rfl
@[simp] theorem withErrors_pending (s : State) (x : Errors) : (s.withErrors x).pending = s.pending := rfl

/-! ### withPort -/

@[simp] theorem withPort_grade (s : State) (x : Port) : (s.withPort x).grade = s.grade := rfl
@[simp] theorem withPort_powered (s : State) (x : Port) : (s.withPort x).powered = s.powered := rfl
@[simp] theorem withPort_addrPins (s : State) (x : Port) : (s.withPort x).addrPins = s.addrPins := rfl
@[simp] theorem withPort_trgPins (s : State) (x : Port) : (s.withPort x).trgPins = s.trgPins := rfl
@[simp] theorem withPort_station (s : State) (x : Port) : (s.withPort x).station = s.station := rfl
@[simp] theorem withPort_config (s : State) (x : Port) : (s.withPort x).config = s.config := rfl
@[simp] theorem withPort_line (s : State) (x : Port) : (s.withPort x).line = s.line := rfl
@[simp] theorem withPort_table (s : State) (x : Port) : (s.withPort x).table = s.table := rfl
@[simp] theorem withPort_member (s : State) (x : Port) : (s.withPort x).member = s.member := rfl
@[simp] theorem withPort_snap (s : State) (x : Port) : (s.withPort x).snap = s.snap := rfl
@[simp] theorem withPort_digest (s : State) (x : Port) : (s.withPort x).digest = s.digest := rfl
@[simp] theorem withPort_time (s : State) (x : Port) : (s.withPort x).time = s.time := rfl
@[simp] theorem withPort_leases (s : State) (x : Port) : (s.withPort x).leases = s.leases := rfl
@[simp] theorem withPort_req (s : State) (x : Port) : (s.withPort x).req = s.req := rfl
@[simp] theorem withPort_slots (s : State) (x : Port) : (s.withPort x).slots = s.slots := rfl
@[simp] theorem withPort_events (s : State) (x : Port) : (s.withPort x).events = s.events := rfl
@[simp] theorem withPort_errors (s : State) (x : Port) : (s.withPort x).errors = s.errors := rfl
@[simp] theorem withPort_port (s : State) (x : Port) : (s.withPort x).port = x := rfl
@[simp] theorem withPort_freeCount (s : State) (x : Port) : (s.withPort x).freeCount = s.freeCount := rfl
@[simp] theorem withPort_pending (s : State) (x : Port) : (s.withPort x).pending = s.pending := rfl

/-! ### withTrgPins -/

@[simp] theorem withTrgPins_grade (s : State) (x : BitVec 4) : (s.withTrgPins x).grade = s.grade := rfl
@[simp] theorem withTrgPins_powered (s : State) (x : BitVec 4) : (s.withTrgPins x).powered = s.powered := rfl
@[simp] theorem withTrgPins_addrPins (s : State) (x : BitVec 4) : (s.withTrgPins x).addrPins = s.addrPins := rfl
@[simp] theorem withTrgPins_trgPins (s : State) (x : BitVec 4) : (s.withTrgPins x).trgPins = x := rfl
@[simp] theorem withTrgPins_station (s : State) (x : BitVec 4) : (s.withTrgPins x).station = s.station := rfl
@[simp] theorem withTrgPins_config (s : State) (x : BitVec 4) : (s.withTrgPins x).config = s.config := rfl
@[simp] theorem withTrgPins_line (s : State) (x : BitVec 4) : (s.withTrgPins x).line = s.line := rfl
@[simp] theorem withTrgPins_table (s : State) (x : BitVec 4) : (s.withTrgPins x).table = s.table := rfl
@[simp] theorem withTrgPins_member (s : State) (x : BitVec 4) : (s.withTrgPins x).member = s.member := rfl
@[simp] theorem withTrgPins_snap (s : State) (x : BitVec 4) : (s.withTrgPins x).snap = s.snap := rfl
@[simp] theorem withTrgPins_digest (s : State) (x : BitVec 4) : (s.withTrgPins x).digest = s.digest := rfl
@[simp] theorem withTrgPins_time (s : State) (x : BitVec 4) : (s.withTrgPins x).time = s.time := rfl
@[simp] theorem withTrgPins_leases (s : State) (x : BitVec 4) : (s.withTrgPins x).leases = s.leases := rfl
@[simp] theorem withTrgPins_req (s : State) (x : BitVec 4) : (s.withTrgPins x).req = s.req := rfl
@[simp] theorem withTrgPins_slots (s : State) (x : BitVec 4) : (s.withTrgPins x).slots = s.slots := rfl
@[simp] theorem withTrgPins_events (s : State) (x : BitVec 4) : (s.withTrgPins x).events = s.events := rfl
@[simp] theorem withTrgPins_errors (s : State) (x : BitVec 4) : (s.withTrgPins x).errors = s.errors := rfl
@[simp] theorem withTrgPins_port (s : State) (x : BitVec 4) : (s.withTrgPins x).port = s.port := rfl
@[simp] theorem withTrgPins_freeCount (s : State) (x : BitVec 4) : (s.withTrgPins x).freeCount = s.freeCount := rfl
@[simp] theorem withTrgPins_pending (s : State) (x : BitVec 4) : (s.withTrgPins x).pending = s.pending := rfl

/-! ### withPending -/

@[simp] theorem withPending_grade (s : State) (x : List Instr) : (s.withPending x).grade = s.grade := rfl
@[simp] theorem withPending_powered (s : State) (x : List Instr) : (s.withPending x).powered = s.powered := rfl
@[simp] theorem withPending_addrPins (s : State) (x : List Instr) : (s.withPending x).addrPins = s.addrPins := rfl
@[simp] theorem withPending_trgPins (s : State) (x : List Instr) : (s.withPending x).trgPins = s.trgPins := rfl
@[simp] theorem withPending_station (s : State) (x : List Instr) : (s.withPending x).station = s.station := rfl
@[simp] theorem withPending_config (s : State) (x : List Instr) : (s.withPending x).config = s.config := rfl
@[simp] theorem withPending_line (s : State) (x : List Instr) : (s.withPending x).line = s.line := rfl
@[simp] theorem withPending_table (s : State) (x : List Instr) : (s.withPending x).table = s.table := rfl
@[simp] theorem withPending_member (s : State) (x : List Instr) : (s.withPending x).member = s.member := rfl
@[simp] theorem withPending_snap (s : State) (x : List Instr) : (s.withPending x).snap = s.snap := rfl
@[simp] theorem withPending_digest (s : State) (x : List Instr) : (s.withPending x).digest = s.digest := rfl
@[simp] theorem withPending_time (s : State) (x : List Instr) : (s.withPending x).time = s.time := rfl
@[simp] theorem withPending_leases (s : State) (x : List Instr) : (s.withPending x).leases = s.leases := rfl
@[simp] theorem withPending_req (s : State) (x : List Instr) : (s.withPending x).req = s.req := rfl
@[simp] theorem withPending_slots (s : State) (x : List Instr) : (s.withPending x).slots = s.slots := rfl
@[simp] theorem withPending_events (s : State) (x : List Instr) : (s.withPending x).events = s.events := rfl
@[simp] theorem withPending_errors (s : State) (x : List Instr) : (s.withPending x).errors = s.errors := rfl
@[simp] theorem withPending_port (s : State) (x : List Instr) : (s.withPending x).port = s.port := rfl
@[simp] theorem withPending_freeCount (s : State) (x : List Instr) : (s.withPending x).freeCount = s.freeCount := rfl
@[simp] theorem withPending_pending (s : State) (x : List Instr) : (s.withPending x).pending = x := rfl

end Sys2Proof.Machine.State
end

