-- ==== Sys2Proof/Laws/Ops.lean ====
section
/-! SUPPORT. What the shared operations do, as setters of the blocks they change: later proofs rewrite with
these and do not unfold the operations. -/

namespace Sys2Proof.Machine

/-! ## When a command acts -/

theorem live_on {f : State → State} {s : State} (h : s.powered = true) : live f s = .next (f s) := by
  simp [live, h]

theorem live_off {f : State → State} {s : State} (h : s.powered = false) : live f s = .next s := by
  simp [live, h]

theorem hostWrite_open {r : Reg} {f : State → State} {s : State} (h : s.portOpen = true) :
    hostWrite r f s = .next (f (s.inWrite r)) := by
  simp [hostWrite, h]

theorem hostWrite_shut {r : Reg} {f : State → State} {s : State} (h : s.portOpen = false) :
    hostWrite r f s = .next (passBy s) := by
  simp [hostWrite, h]

theorem onPort_open {f : State → State} {s : State} (h : s.portOpen = true) : onPort f s = .next (f s) := by
  simp [onPort, h]

theorem onPort_shut {f : State → State} {s : State} (h : s.portOpen = false) :
    onPort f s = .next (passBy s) := by
  simp [onPort, h]

theorem portOpen_iff (s : State) :
    s.portOpen = true ↔ s.powered = true ∧ s.port.state = .answering ∧ s.port.txn ≠ .ignored := by
  simp [State.portOpen, State.portAnswers, and_assoc]

/-! ## Transactions: the port and the assembly buffer alone change -/

theorem openTransaction_eq (k : Txn) (a : BitVec 7) (s : State) :
    openTransaction k a s =
      (s.withPort { s.port with
        txn := k, addr := a, wr := none, rd := none, cmp := none, sdo := some 0 }).withReq
        { s.req with asm := [] } := rfl

theorem beginTransaction_eq (write : Bool) (a : BitVec 7) (s : State) :
    beginTransaction write a s =
      (s.withPort (beginTransaction write a s).port).withReq { s.req with asm := [] } := by
  unfold beginTransaction
  split <;> rfl

theorem inTransaction_eq (k : Txn) (a : BitVec 7) (s : State) :
    inTransaction k a s =
      (s.withPort (inTransaction k a s).port).withReq { s.req with asm := (inTransaction k a s).req.asm } := by
  unfold inTransaction
  split <;> rfl

theorem inTransaction_goes_on {k : Txn} {a : BitVec 7} {s : State} (h : s.port.txn = k) (g : s.port.addr = a) :
    inTransaction k a s = s := by
  simp [inTransaction, h, g]

theorem inTransaction_asm (k : Txn) (a : BitVec 7) (s : State) :
    (inTransaction k a s).req.asm = s.req.asm ∨ (inTransaction k a s).req.asm = [] := by
  unfold inTransaction
  split
  · exact .inl rfl
  · exact .inr rfl

theorem inWrite_eq (s : State) (r : Reg) :
    s.inWrite r = (s.withPort (s.inWrite r).port).withReq { s.req with asm := (s.inWrite r).req.asm } := by
  unfold State.inWrite
  dsimp only
  rw [inTransaction_eq]
  rfl

theorem passBy_eq (s : State) : passBy s = s.withPort (passBy s).port := by
  unfold passBy
  split <;> rfl

@[simp] theorem inWrite_grade (s : State) (r : Reg) : (s.inWrite r).grade = s.grade := by rw [inWrite_eq]; rfl
@[simp] theorem inWrite_powered (s : State) (r : Reg) : (s.inWrite r).powered = s.powered := by
  rw [inWrite_eq]; rfl
@[simp] theorem inWrite_addrPins (s : State) (r : Reg) : (s.inWrite r).addrPins = s.addrPins := by
  rw [inWrite_eq]; rfl
@[simp] theorem inWrite_trgPins (s : State) (r : Reg) : (s.inWrite r).trgPins = s.trgPins := by
  rw [inWrite_eq]; rfl
@[simp] theorem inWrite_station (s : State) (r : Reg) : (s.inWrite r).station = s.station := by
  rw [inWrite_eq]; rfl
@[simp] theorem inWrite_config (s : State) (r : Reg) : (s.inWrite r).config = s.config := by
  rw [inWrite_eq]; rfl
@[simp] theorem inWrite_line (s : State) (r : Reg) : (s.inWrite r).line = s.line := by rw [inWrite_eq]; rfl
@[simp] theorem inWrite_table (s : State) (r : Reg) : (s.inWrite r).table = s.table := by rw [inWrite_eq]; rfl
@[simp] theorem inWrite_member (s : State) (r : Reg) : (s.inWrite r).member = s.member := by
  rw [inWrite_eq]; rfl
@[simp] theorem inWrite_snap (s : State) (r : Reg) : (s.inWrite r).snap = s.snap := by rw [inWrite_eq]; rfl
@[simp] theorem inWrite_digest (s : State) (r : Reg) : (s.inWrite r).digest = s.digest := by
  rw [inWrite_eq]; rfl
@[simp] theorem inWrite_time (s : State) (r : Reg) : (s.inWrite r).time = s.time := by rw [inWrite_eq]; rfl
@[simp] theorem inWrite_leases (s : State) (r : Reg) : (s.inWrite r).leases = s.leases := by
  rw [inWrite_eq]; rfl
@[simp] theorem inWrite_fifo (s : State) (r : Reg) : (s.inWrite r).req.fifo = s.req.fifo := by
  rw [inWrite_eq]; rfl
@[simp] theorem inWrite_pend (s : State) (r : Reg) : (s.inWrite r).req.pend = s.req.pend := by
  rw [inWrite_eq]; rfl
@[simp] theorem inWrite_outgoing (s : State) (r : Reg) : (s.inWrite r).req.outgoing = s.req.outgoing := by
  rw [inWrite_eq]; rfl
@[simp] theorem inWrite_cmp (s : State) (r : Reg) : (s.inWrite r).req.cmp = s.req.cmp := by
  rw [inWrite_eq]; rfl
@[simp] theorem inWrite_slots (s : State) (r : Reg) : (s.inWrite r).slots = s.slots := by rw [inWrite_eq]; rfl
@[simp] theorem inWrite_events (s : State) (r : Reg) : (s.inWrite r).events = s.events := by
  rw [inWrite_eq]; rfl
@[simp] theorem inWrite_errors (s : State) (r : Reg) : (s.inWrite r).errors = s.errors := by
  rw [inWrite_eq]; rfl
@[simp] theorem inWrite_freeCount (s : State) (r : Reg) : (s.inWrite r).freeCount = s.freeCount := by
  rw [inWrite_eq]; rfl
@[simp] theorem inWrite_pending (s : State) (r : Reg) : (s.inWrite r).pending = s.pending := by
  rw [inWrite_eq]; rfl

/-! ## The same setter twice -/

@[simp] theorem withLine_withLine (s : State) (x y : Line) : (s.withLine x).withLine y = s.withLine y := rfl
@[simp] theorem withMember_withMember (s : State) (x y : Member) :
    (s.withMember x).withMember y = s.withMember y := rfl
@[simp] theorem withEvents_withEvents (s : State) (x y : Events) :
    (s.withEvents x).withEvents y = s.withEvents y := rfl
@[simp] theorem withErrors_withErrors (s : State) (x y : Errors) :
    (s.withErrors x).withErrors y = s.withErrors y := rfl
@[simp] theorem withReq_withReq (s : State) (x y : Requests) : (s.withReq x).withReq y = s.withReq y := rfl
@[simp] theorem withSlots_withSlots (s : State) (x y : List Slot) :
    (s.withSlots x).withSlots y = s.withSlots y := rfl
@[simp] theorem withLeases_withLeases (s : State) (x y : List Lease) :
    (s.withLeases x).withLeases y = s.withLeases y := rfl
@[simp] theorem withPort_withPort (s : State) (x y : Port) : (s.withPort x).withPort y = s.withPort y := rfl
@[simp] theorem withSnap_withSnap (s : State) (x y : Snap) : (s.withSnap x).withSnap y = s.withSnap y := rfl

/-! ## Events and errors -/

theorem setEvent_eq (e : Event) (s : State) :
    setEvent e s = s.withEvents { s.events with latched := s.events.latched ||| e.mask } := rfl

theorem setEventIf_eq (c : Bool) (e : Event) (s : State) :
    setEventIf c e s = s.withEvents
      { s.events with latched := if c then s.events.latched ||| e.mask else s.events.latched } := by
  cases c <;> rfl

theorem logError_eq (k : ErrKind) (h : Header) (s : State) :
    logError k h s =
      (s.withEvents { s.events with
        latched := if s.masked k then s.events.latched else s.events.latched ||| Event.error.mask }).withErrors
        { s.errors with
          status := s.errors.status ||| k.mask,
          first := if s.masked k = false ∧ s.errors.first = none then some k else s.errors.first,
          header := if s.masked k = false ∧ s.errors.first = none then h else s.errors.header } := by
  unfold logError
  cases hm : s.masked k <;> cases hf : s.errors.first <;> simp [setEvent, State.withEvents, State.withErrors, hf]

/-! ## Entering the states -/

theorem clearPeers_eq (s : State) :
    clearPeers s = (s.withMember { s.member with peers := List.replicate 16 Peer.cleared }).withEvents
      { s.events with
        latched := if s.member.peers.any (fun p => p.state != .absent)
          then s.events.latched ||| Event.peer.mask else s.events.latched } := by
  simp [clearPeers, setEventIf_eq]

theorem setMState_eq (st : MState) (s : State) :
    setMState st s = ((s.withMember { s.member with state := st }).withLine
      { s.line with yielding := false }).withEvents
      { s.events with latched := s.events.latched ||| Event.membership.mask } := rfl

theorem listeningActions_eq (wait : Bool) (s : State) :
    listeningActions wait s =
      ((s.withLine { s.line with
        rfc := 0, tfc := 0, ended := none,
        phase := if wait then .waiting else s.line.phase,
        recessive := if wait then 0 else s.line.recessive }).withMember
        { s.member with
          peers := List.replicate 16 Peer.cleared, activeSeen := false, listenTimer := none,
          presenceWant := true }).withEvents
        { s.events with
          latched := if s.member.peers.any (fun p => p.state != .absent)
            then s.events.latched ||| Event.peer.mask else s.events.latched } := by
  simp only [listeningActions, clearPeers_eq]
  rfl

theorem enterListening_eq (wait : Bool) (s : State) :
    enterListening wait s = listeningActions wait (setMState .listening s) := rfl

theorem enterDetached_eq (s : State) :
    enterDetached s = ((s.withMember { s.member with state := .detached }).withLine
      { s.line with yielding := false, phase := .off, recessive := 0, tx := none, begun := [] }).withEvents
      { s.events with latched := s.events.latched ||| Event.membership.mask } := rfl

/-! ## Waiting for a hold (R19) -/

@[simp] theorem ownFrame_tx {l : Line} {x : TxFrame} (h : l.tx = some x) : l.ownFrame = some x := by
  simp [Line.ownFrame, h]

@[simp] theorem ownFrame_none {l : Line} (h : l.tx = none) (hh : l.hold = none) : l.ownFrame = none := by
  simp [Line.ownFrame, h, hh]

/-- A start boundary with no donor to choose again. -/
theorem startBoundary_of_eligible (rivals : List (BitVec 7)) (s : State)
    (h : s.member.state = .joining → s.snap.engine = .requesting → s.eligible s.donorRef = true) :
    startBoundary rivals s = if s.takesPart && s.line.phase == .idle && s.line.hold.isNone
      then driveStart rivals s else s := by
  have hw : watchDonor s = s := by
    unfold watchDonor
    split
    · rename_i hc
      simp [h hc.1 hc.2.1] at hc
    · rfl
  simp [startBoundary, hw]

theorem heldLine_eq_none (s : State) (c : HeldChange) (place : HoldPlace) :
    s.heldLine c place = none ↔ place.frameEnds = true ∨
      (s.line.tx = none ∧ ¬ (place.rxHold = true ∧ s.takesPart = true ∧ s.line.phase ≠ .waiting)) := by
  unfold State.heldLine
  cases place.frameEnds <;> cases s.line.tx <;> simp [and_assoc]

@[simp] theorem heldLine_none {s : State} (h : s.line.tx = none) (c : HeldChange) :
    s.heldLine c .none = none := (heldLine_eq_none s c .none).2 (.inr ⟨h, by simp [HoldPlace.none]⟩)

theorem heldLine_hold {s : State} {c : HeldChange} {place : HoldPlace} {l : Line}
    (h : s.heldLine c place = some l) :
    l.tx = none ∧ l.hold = some ⟨s.line.tx, c, place.start⟩ ∧ l.phase = s.line.phase ∧
      l.rfc = s.line.rfc ∧ l.tfc = s.line.tfc := by
  unfold State.heldLine at h
  split at h
  · simp at h
  cases ht : s.line.tx with
  | some x => simp only [ht, Option.some.injEq] at h; subst h; simp
  | none =>
    simp only [ht] at h
    split at h
    · simp only [Option.some.injEq] at h; subst h; simp
    · simp at h

/-- The frame that a hold aborts stays on the line. -/
theorem heldLine_ownFrame {s : State} {c : HeldChange} {place : HoldPlace} {l : Line}
    (h : s.heldLine c place = some l) : l.ownFrame = s.line.tx := by
  have hl := heldLine_hold h
  simp [Line.ownFrame, hl.1, hl.2.1]

theorem leave_cases (dest : MState) (st : Status) (place : HoldPlace) (s : State) :
    (s.line.hold.isSome = true ∧ leave dest st place s = s) ∨
      (∃ l, s.heldLine (.leave dest st) place = some l ∧ leave dest st place s = s.withLine l) ∨
      (s.line.hold = none ∧ s.heldLine (.leave dest st) place = none ∧
        leave dest st place s = leaveAtOnce dest st place.frameEnds s) := by
  unfold leave
  cases hh : s.line.hold with
  | some h => simp
  | none => cases hl : s.heldLine (.leave dest st) place <;> simp

@[simp] theorem leaveAtOnce_false (dest : MState) (st : Status) (s : State) :
    leaveAtOnce dest st false s = leaveNow dest st s := rfl

/-- A frame that ends at the moment of the change is kept; the change itself is the same. -/
theorem leaveAtOnce_true (dest : MState) (st : Status) (s : State) :
    leaveAtOnce dest st true s = (leaveNow dest st s).withLine
      { (leaveNow dest st s).line with ended := s.line.ending } := rfl

@[simp] theorem snapTimerOut_eq (s : State) : s.snapTimerOut = true ↔ s.member.state = .joining ∧
    (s.snap.engine = .seeking ∨ s.snap.engine = .receiving) ∧ s.snap.timer = some 0 := by
  simp [State.snapTimerOut, State.snapTimerRuns, and_assoc]

theorem idleEngine_eq (s : State) :
    idleEngine s = s.withSnap
      { s.snap with cursor := 0, engine := .idle, donor := none, failures := 0, timer := none } := rfl

end Sys2Proof.Machine
end

