-- ==== Sys2Proof/Laws/TokenTable.lean ====
section
/-! SUPPORT. What the application of a frame to the token table keeps: the number and the kinds of the entries,
the limit, and the soundness of every entry (R22). One lemma per operation of Machine/TokenTable.lean. -/

namespace Sys2Proof.Machine

theorem entryAt_of_getElem? {t : List Entry} {k : Nat} {e : Entry} (h : t[k]? = some e) : entryAt t k = e := by
  simp [entryAt, List.getD, h]

theorem heldUnits_append (xs ys : List Holder) : heldUnits (xs ++ ys) = heldUnits xs + heldUnits ys := by
  simp [heldUnits]

theorem heldUnits_filter_le (p : Holder → Bool) (xs : List Holder) : heldUnits (xs.filter p) ≤ heldUnits xs := by
  induction xs with
  | nil => simp [heldUnits]
  | cons x xs ih =>
    simp only [heldUnits, List.filter_cons, List.map_cons, List.sum_cons] at ih ⊢
    split
    · simp only [List.map_cons, List.sum_cons]; omega
    · omega

/-- A cascade grants no more than the capacity (R40). -/
theorem poolGrants_le {c : Nat} {hs : List Holder} {ws : List Waiter} (h : heldUnits hs ≤ c) :
    heldUnits (poolGrants c hs ws).1 ≤ c := by
  induction ws generalizing hs with
  | nil => exact h
  | cons w ws ih =>
    unfold poolGrants
    split
    · rename_i hw
      refine ih ?_
      rw [heldUnits_append]
      simp [heldUnits] at hw ⊢
      omega
    · exact h

namespace Applying

/-- b is a later stage of the application a: kinds, limit, last change and station kept, and, where P holds,
entries sound if they were. -/
structure Keeps (P : Prop) (a b : Applying) : Prop where
  kinds : b.table.map Entry.kind = a.table.map Entry.kind
  limit : b.limit = a.limit
  change : b.change = a.change
  self : b.self = a.self
  sound : P → (∀ e ∈ a.table, e.sound) → ∀ e ∈ b.table, e.sound

variable {P : Prop}

theorem keeps_refl (a : Applying) : Keeps P a a := ⟨rfl, rfl, rfl, rfl, fun _ => id⟩

theorem Keeps.next {a b c : Applying} (h : Keeps P a b) (g : Keeps P b c) : Keeps P a c :=
  ⟨g.kinds.trans h.kinds, g.limit.trans h.limit, g.change.trans h.change, g.self.trans h.self,
    fun p => g.sound p ∘ h.sound p⟩

/-- What holds of entries that are sound holds in any case, since soundness is the premise. -/
theorem Keeps.absorb {a b : Applying} (h : Keeps (∀ e ∈ a.table, e.sound) a b) : Keeps P a b :=
  ⟨h.kinds, h.limit, h.change, h.self, fun _ s => h.sound s s⟩

theorem Keeps.length {a b : Applying} (h : Keeps P a b) : b.table.length = a.table.length := by
  simpa using congrArg List.length h.kinds

theorem foldl_keeps {α : Type} {f : Applying → α → Applying} (h : ∀ a x, Keeps P a (f a x)) (l : List α)
    (a : Applying) : Keeps P a (l.foldl f a) := by
  induction l generalizing a with
  | nil => exact keeps_refl a
  | cons x l ih => exact (h a x).next (ih (f a x))

theorem report_keeps (a : Applying) (st : Addr) (r : Report) : Keeps P a (a.report st r) := by
  unfold report
  split
  · exact ⟨rfl, rfl, rfl, rfl, fun _ => id⟩
  · exact keeps_refl a

/-- An update of one entry keeps what it keeps at that entry. -/
theorem update_keeps (a : Applying) (k : Nat) (f : Entry → Entry) (hk : ∀ e, (f e).kind = e.kind)
    (hs : P → ∀ e, e.sound → a.entry k = e → (f e).sound) : Keeps P a (a.update k f) where
  kinds := by
    refine List.ext_getElem? (fun i => ?_)
    simp only [update, List.getElem?_map, List.getElem?_modify]
    cases a.table[i]? with
    | none => rfl
    | some e => by_cases h : k = i <;> simp [h, hk]
  limit := rfl
  change := rfl
  self := rfl
  sound := by
    intro p h e he
    obtain ⟨i, hi⟩ := List.mem_iff_getElem?.1 he
    simp only [update, List.getElem?_modify] at hi
    cases hx : a.table[i]? with
    | none => simp [hx] at hi
    | some x =>
      have sx : x.sound := h x (List.mem_iff_getElem?.2 ⟨i, hx⟩)
      rw [hx] at hi
      by_cases hki : k = i
      · subst hki
        simp at hi
        subst hi
        exact hs p x sx (entryAt_of_getElem? hx)
      · simp [hki] at hi
        subst hi
        exact sx

theorem update_waiters_keeps (a : Applying) (k : Nat) (g : Entry → List Waiter) :
    Keeps P a (a.update k (fun e => { e with waiters := g e })) :=
  update_keeps a k _ (fun _ => rfl) (fun _ _ s _ => s)

/-- A holder joins an entry that is free to its units (R21, R22). -/
theorem addHolder_keeps (a : Applying) (k : Nat) (st : Addr) (u : Nat)
    (hu : (a.entry k).freeTo u = true ∨ ((a.entry k).holders = [] ∧ u = 1)) :
    Keeps P a (a.addHolder k st u) := by
  refine update_keeps a k _ (fun _ => rfl) (fun _ e hs hent => ?_)
  rw [hent] at hu
  unfold Entry.sound Entry.freeTo at *
  cases hk : e.kind with
  | exclusive =>
    simp only [hk] at hs hu ⊢
    rcases hu with hu | hu
    · simp [List.isEmpty_iff.1 hu]
    · simp [hu.1]
  | pool c =>
    simp only [hk] at hs hu ⊢
    refine ⟨hs.1, ?_⟩
    rw [heldUnits_append]
    have one : heldUnits [⟨st, u⟩] = u := by simp [heldUnits]
    rw [one]
    rcases hu with hu | hu
    · have := (Bool.and_eq_true_iff.1 hu).2
      have := of_decide_eq_true this
      omega
    · have zero : heldUnits e.holders = 0 := by simp [hu.1, heldUnits]
      omega

theorem park_keeps (a : Applying) (k : Nat) (w : Waiter) : Keeps P a (a.park k w) :=
  (update_waiters_keeps a k _).next (report_keeps _ _ _)

theorem setStep_keeps (a : Applying) (st : Addr) (l : List Nat) (pos : Nat) (rest : List Nat) :
    Keeps P a (a.setStep st l pos rest) := by
  induction rest generalizing a pos with
  | nil => exact keeps_refl a
  | cons k rest ih =>
    unfold setStep
    split
    · exact keeps_refl a
    · split
      · rename_i h
        exact ((addHolder_keeps a k st 1 (Or.inr ⟨List.isEmpty_iff.1 h, rfl⟩)).next
          (report_keeps _ _ _)).next (ih _ _)
      · exact park_keeps _ _ _

/-- The cascade of an EXCLUSIVE entry, sound where it has no holder. -/
theorem exclusiveCascade_keeps (a : Applying) (k : Nat) (hk : (a.entry k).kind = .exclusive)
    (hh : P → (a.entry k).holders = []) : Keeps P a (a.exclusiveCascade k) := by
  unfold exclusiveCascade
  split
  · exact keeps_refl a
  · rename_i w ws _
    have granted : Keeps P a
        (a.update k (fun e => { e with holders := e.holders ++ [⟨w.station, 1⟩], waiters := ws })) := by
      refine update_keeps a k _ (fun _ => rfl) (fun p e _ hent => ?_)
      have none := hh p
      rw [hent] at none hk
      simp [Entry.sound, hk, none]
    exact (granted.next (report_keeps _ _ _)).next (setStep_keeps _ _ _ _ _)

theorem poolCascade_keeps (a : Applying) (k : Nat) (hk : (a.entry k).kind.isExclusive = false) :
    Keeps P a (a.poolCascade k) := by
  unfold poolCascade
  dsimp only
  refine Keeps.next ?_ (foldl_keeps (fun _ _ => report_keeps _ _ _) _ _)
  refine update_keeps a k _ (fun _ => rfl) (fun _ e hs hent => ?_)
  rw [hent] at hk ⊢
  unfold Entry.sound at *
  cases hkk : e.kind with
  | exclusive => rw [hkk] at hk; cases hk
  | pool c =>
    simp only [hkk] at hs ⊢
    exact ⟨hs.1, poolGrants_le hs.2⟩

/-- The entry of a token after its update: changed, when the table has it. -/
theorem entry_update (a : Applying) (k : Nat) (f : Entry → Entry) (h : k < a.table.length) :
    (a.update k f).entry k = { f (a.entry k) with change := a.change } := by
  simp [update, entry, entryAt, List.getD, List.getElem?_eq_getElem h]

/-- A token beyond the table is left alone. -/
theorem update_beyond (a : Applying) (k : Nat) (f : Entry → Entry) (h : a.table.length ≤ k) :
    a.update k f = a := by
  simp only [update]
  rw [List.modify_eq_self (by omega)]

theorem heldBy_in_range {a : Applying} {k : Nat} {st : Addr} (h : (a.entry k).heldBy st = true) :
    k < a.table.length := by
  refine Decidable.byContradiction (fun hk => ?_)
  simp [entry, entryAt, List.getD, List.getElem?_eq_none (Nat.le_of_not_lt hk), Entry.free, Entry.heldBy] at h

theorem removeHolder_keeps (a : Applying) (st : Addr) (k : Nat) : Keeps P a (a.removeHolder st k) := by
  unfold removeHolder
  split
  · rename_i hb
    refine Keeps.absorb ?_
    have hin := heldBy_in_range hb
    have first : Keeps (∀ e ∈ a.table, e.sound) a
        (a.update k (fun e => { e with holders := e.holders.filter (fun h => h.station != st) })) := by
      refine update_keeps a k _ (fun _ => rfl) (fun _ e hs _ => ?_)
      unfold Entry.sound at *
      cases hkk : e.kind with
      | exclusive =>
        simp only [hkk] at hs ⊢
        exact Nat.le_trans (List.length_filter_le _ _) hs
      | pool c =>
        simp only [hkk] at hs ⊢
        exact ⟨hs.1, Nat.le_trans (heldUnits_filter_le _ _) hs.2⟩
    refine first.next ?_
    unfold cascade
    rw [entry_update a k _ hin]
    cases hkk : (a.entry k).kind with
    | pool c =>
      simp only [TokenKind.isExclusive]
      exact poolCascade_keeps _ k (by rw [entry_update a k _ hin]; simp [hkk, TokenKind.isExclusive])
    | exclusive =>
      simp only [TokenKind.isExclusive]
      refine exclusiveCascade_keeps _ k (by rw [entry_update a k _ hin]; exact hkk) (fun hs => ?_)
      rw [entry_update a k _ hin]
      have one : (a.entry k).sound := by
        refine hs _ (List.mem_iff_getElem?.2 ⟨k, ?_⟩)
        simp [entry, entryAt, List.getD, List.getElem?_eq_getElem hin]
      unfold Entry.sound at one
      simp only [hkk] at one
      unfold Entry.heldBy at hb
      match hh : (a.entry k).holders, one, hb with
      | [], _, _ => rfl
      | [h], _, hb => simpa [hh] using hb
  · exact keeps_refl a

theorem claim_keeps (a : Applying) (st : Addr) (m : ClaimMode) (u : Nat) (l : List Nat) :
    Keeps P a (a.claim st m u l) := by
  unfold claim
  split
  · split
    · exact keeps_refl a
    · split
      · rename_i h
        exact (addHolder_keeps a _ st u (Or.inl h)).next (report_keeps _ _ _)
      · split
        · exact report_keeps _ _ _
        · exact park_keeps _ _ _
  · exact setStep_keeps _ _ _ _ _

theorem release_fold_keeps (st : Addr) (l : List Nat) (a : Applying) (done : List Nat) :
    Keeps P a (l.foldl
      (fun (x : Applying × List Nat) k =>
        if k < x.1.limit && (x.1.entry k).heldBy st then (x.1.removeHolder st k, x.2 ++ [k]) else x)
      (a, done)).1 := by
  induction l generalizing a done with
  | nil => exact keeps_refl a
  | cons k l ih =>
    rw [List.foldl_cons]
    split
    · exact (removeHolder_keeps a st k).next (ih _ _)
    · exact ih _ _

theorem release_keeps (a : Applying) (st : Addr) (c : ReleaseCause) (l : List Nat) :
    Keeps P a (a.release st c l) := (release_fold_keeps st l a []).next (report_keeps _ _ _)

theorem withdraw_keeps (a : Applying) (st : Addr) (o : Nat) : Keeps P a (a.withdraw st o) := by
  unfold withdraw
  split
  · exact keeps_refl a
  · split
    · exact keeps_refl a
    · dsimp only
      refine Keeps.next ?_ (report_keeps _ _ _)
      split
      · rename_i h
        exact ((update_waiters_keeps a _ _).next (foldl_keeps (fun _ _ => removeHolder_keeps _ _ _) _ _)).next
          (poolCascade_keeps _ _ (by simpa using (Bool.and_eq_true_iff.1 h).2))
      · exact (update_waiters_keeps a _ _).next (foldl_keeps (fun _ _ => removeHolder_keeps _ _ _) _ _)

theorem evictEntry_keeps (a : Applying) (target : Addr) (k : Nat) : Keeps P a (a.evictEntry target k) := by
  unfold evictEntry
  dsimp only
  refine Keeps.next ?_ (removeHolder_keeps _ _ _)
  split
  · rename_i hw
    split
    · rename_i h
      refine (update_waiters_keeps a k _).next (poolCascade_keeps _ k ?_)
      by_cases hin : k < a.table.length
      · rw [entry_update a k _ hin]
        simpa using (Bool.and_eq_true_iff.1 h).1
      · rw [update_beyond a k _ (Nat.le_of_not_lt hin)]
        simpa using (Bool.and_eq_true_iff.1 h).1
    · exact update_waiters_keeps a k _
  · exact keeps_refl a

/-- The application of any frame keeps the kinds, and the entries sound (R22). -/
theorem apply_keeps (a : Applying) (sender : Addr) (f : Frame) : Keeps P a (a.apply sender f) := by
  have pass : ∀ t, Keeps P a (a.evict t) := fun t => foldl_keeps (fun _ _ => evictEntry_keeps _ _ _) _ _
  cases f with
  | claim m u l => exact claim_keeps _ _ _ _ _
  | release c l => exact release_keeps _ _ _ _
  | withdraw o => exact withdraw_keeps _ _ _
  | evict t c => exact (pass t).next (report_keeps _ _ _)
  | presence st d =>
    cases st with
    | listening => exact pass sender
    | joining => exact keeps_refl a
    | active => exact keeps_refl a
  | signal m c => exact keeps_refl a
  | snapreq d i => exact keeps_refl a
  | snap j i k hs ws => exact keeps_refl a
  | digest v => exact keeps_refl a

end Applying

/-! ## The table after a frame -/

theorem applyFrame_length (t : List Entry) (limit : Nat) (self sender : Addr) (f : Frame) :
    (applyFrame t limit self sender f).table.length = t.length :=
  (Applying.apply_keeps (P := True) ⟨t, limit, f.lastChange, self, []⟩ sender f).length

theorem applyFrame_kinds (t : List Entry) (limit : Nat) (self sender : Addr) (f : Frame) :
    (applyFrame t limit self sender f).table.map Entry.kind = t.map Entry.kind :=
  (Applying.apply_keeps (P := True) ⟨t, limit, f.lastChange, self, []⟩ sender f).kinds

theorem applyFrame_sound (t : List Entry) (limit : Nat) (self sender : Addr) (f : Frame)
    (h : ∀ e ∈ t, e.sound) : ∀ e ∈ (applyFrame t limit self sender f).table, e.sound :=
  (Applying.apply_keeps (P := True) ⟨t, limit, f.lastChange, self, []⟩ sender f).sound trivial h

end Sys2Proof.Machine
end

