-- ==== Sys2Proof/Laws/Units.lean ====
section
/-! SUPPORT. What the operations of the Request, Lease and Slot Units can change: lease records, the Request
Unit's collections, slots and events, and nothing else. One lemma per operation, in the order of the files that
define them. -/

namespace Sys2Proof.Machine

/-- t differs from s in nothing but the leases, the Request Unit's collections, the slots and the events. -/
def OnlyUnits (s t : State) : Prop :=
  ∃ le rq sl ev, t = (((s.withLeases le).withReq rq).withSlots sl).withEvents ev

namespace OnlyUnits

theorem refl (s : State) : OnlyUnits s s := ⟨s.leases, s.req, s.slots, s.events, rfl⟩

theorem trans {s t u : State} : OnlyUnits s t → OnlyUnits t u → OnlyUnits s u := by
  rintro ⟨_, _, _, _, rfl⟩ ⟨le, rq, sl, ev, rfl⟩
  exact ⟨le, rq, sl, ev, rfl⟩

theorem withLeases (s : State) (x : List Lease) : OnlyUnits s (s.withLeases x) :=
  ⟨x, s.req, s.slots, s.events, rfl⟩
theorem withReq (s : State) (x : Requests) : OnlyUnits s (s.withReq x) :=
  ⟨s.leases, x, s.slots, s.events, rfl⟩
theorem withSlots (s : State) (x : List Slot) : OnlyUnits s (s.withSlots x) :=
  ⟨s.leases, s.req, x, s.events, rfl⟩
theorem withEvents (s : State) (x : Events) : OnlyUnits s (s.withEvents x) :=
  ⟨s.leases, s.req, s.slots, x, rfl⟩

/-- A fold of operations that each change the units alone. -/
theorem foldl {α : Type} {f : State → α → State} (h : ∀ s a, OnlyUnits s (f s a)) (l : List α) (s : State) :
    OnlyUnits s (l.foldl f s) := by
  induction l generalizing s with
  | nil => exact refl s
  | cons a l ih => exact trans (h s a) (ih (f s a))

/-! ## What stays -/

variable {s t : State}

theorem grade (h : OnlyUnits s t) : t.grade = s.grade := by obtain ⟨_, _, _, _, rfl⟩ := h; rfl
theorem powered (h : OnlyUnits s t) : t.powered = s.powered := by obtain ⟨_, _, _, _, rfl⟩ := h; rfl
theorem station (h : OnlyUnits s t) : t.station = s.station := by obtain ⟨_, _, _, _, rfl⟩ := h; rfl
theorem config (h : OnlyUnits s t) : t.config = s.config := by obtain ⟨_, _, _, _, rfl⟩ := h; rfl
theorem line (h : OnlyUnits s t) : t.line = s.line := by obtain ⟨_, _, _, _, rfl⟩ := h; rfl
theorem table (h : OnlyUnits s t) : t.table = s.table := by obtain ⟨_, _, _, _, rfl⟩ := h; rfl
theorem member (h : OnlyUnits s t) : t.member = s.member := by obtain ⟨_, _, _, _, rfl⟩ := h; rfl
theorem snap (h : OnlyUnits s t) : t.snap = s.snap := by obtain ⟨_, _, _, _, rfl⟩ := h; rfl
theorem digest (h : OnlyUnits s t) : t.digest = s.digest := by obtain ⟨_, _, _, _, rfl⟩ := h; rfl
theorem time (h : OnlyUnits s t) : t.time = s.time := by obtain ⟨_, _, _, _, rfl⟩ := h; rfl
theorem errors (h : OnlyUnits s t) : t.errors = s.errors := by obtain ⟨_, _, _, _, rfl⟩ := h; rfl
theorem port (h : OnlyUnits s t) : t.port = s.port := by obtain ⟨_, _, _, _, rfl⟩ := h; rfl
theorem pending (h : OnlyUnits s t) : t.pending = s.pending := by obtain ⟨_, _, _, _, rfl⟩ := h; rfl

end OnlyUnits

open OnlyUnits

/-! ## Ops and Flags -/

theorem pushCompletion_only (c : Completion) (s : State) : OnlyUnits s (pushCompletion c s) := withReq _ _
theorem setPend_only (n : Nat) (e : Option PendEntry) (s : State) : OnlyUnits s (setPend n e s) := withReq _ _
theorem addPend_only (e : PendEntry) (s : State) : OnlyUnits s (addPend e s) := withReq _ _
theorem addOutgoing_only (f : OutFrame) (s : State) : OnlyUnits s (addOutgoing f s) := withReq _ _
theorem removeOutgoing_only (p : OutFrame → Bool) (s : State) : OnlyUnits s (removeOutgoing p s) := withReq _ _
theorem setEvent_only (e : Event) (s : State) : OnlyUnits s (setEvent e s) := withEvents _ _
theorem setEventIf_only (c : Bool) (e : Event) (s : State) : OnlyUnits s (setEventIf c e s) := by
  rw [setEventIf_eq]; exact withEvents _ _

/-! ## Slots -/

theorem modifySlot_only (n : BitVec 2) (f : Slot → Slot) (s : State) : OnlyUnits s (modifySlot n f s) :=
  withSlots _ _
theorem slotEvent_only (n : BitVec 2) (c : SlotCause) (s : State) : OnlyUnits s (slotEvent n c s) :=
  trans (modifySlot_only _ _ _) (setEvent_only _ _)
theorem slotTrigger_only (n : BitVec 2) (s : State) : OnlyUnits s (slotTrigger n s) := by
  unfold slotTrigger
  split
  · exact refl s
  · exact modifySlot_only _ _ _
  all_goals exact trans (modifySlot_only _ _ _) (slotEvent_only _ _ _)
theorem slotReturn_only (n : BitVec 2) (x : Bool) (s : State) : OnlyUnits s (slotReturn n x s) := by
  unfold slotReturn
  cases x
  · exact modifySlot_only _ _ _
  · exact trans (modifySlot_only _ _ _) (slotEvent_only _ _ _)
theorem triggerSignal_only (c : BitVec 3) (s : State) : OnlyUnits s (triggerSignal c s) := by
  refine foldl (fun t n => ?_) _ s
  split
  · exact slotTrigger_only _ _
  · exact refl t
theorem triggerActivation_only (s : State) : OnlyUnits s (triggerActivation s) := by
  refine foldl (fun t n => ?_) _ s
  split
  · exact slotTrigger_only _ _
  · exact refl t

/-! ## Leases -/

theorem modifyLeases_only (p : Lease → Bool) (f : Lease → Lease) (s : State) :
    OnlyUnits s (modifyLeases p f s) := withLeases _ _
theorem tellExpiry_only (src : Source) (s : State) : OnlyUnits s (tellExpiry src s) := by
  cases src
  · exact refl s
  · exact modifySlot_only _ _ _
theorem expireLease_only (k : Nat) (s : State) : OnlyUnits s (expireLease k s) := by
  unfold expireLease
  split
  · exact refl s
  · exact trans (trans (modifyLeases_only _ _ _) (setEvent_only _ _)) (tellExpiry_only _ _)
theorem settleLeases_only (s : State) : OnlyUnits s (settleLeases s) := foldl (fun _ _ => expireLease_only _ _) _ s
theorem createLease_only (l : List Nat) (u c : Nat) (src : Source) (tag : Byte) (s : State) :
    OnlyUnits s (createLease l u c src tag s) := by
  unfold createLease
  split
  · exact withLeases _ _
  · exact trans (withLeases _ _) (setEventIf_only _ _ _)
theorem tickLeases_only (s : State) : OnlyUnits s (tickLeases s) := trans (withLeases _ _) (setEventIf_only _ _ _)

/-! ## Claims -/

theorem finishEntry_only (n : Nat) (c : Completion) (s : State) : OnlyUnits s (finishEntry n c s) :=
  trans (setPend_only _ _ _) (pushCompletion_only _ _)
theorem finishCancel_only (o : Nat) (st : Status) (s : State) : OnlyUnits s (finishCancel o st s) := by
  unfold finishCancel
  split
  · exact refl s
  · split
    · exact refl s
    · exact finishEntry_only _ _ _
theorem dropWithdraw_only (n : Nat) (s : State) : OnlyUnits s (dropWithdraw n s) := removeOutgoing_only _ _
theorem slotRelease_only (n : BitVec 2) (s : State) : OnlyUnits s (slotRelease n s) := by
  unfold slotRelease
  dsimp only
  split
  · exact modifySlot_only _ _ _
  · split
    · exact modifySlot_only _ _ _
    · exact trans (trans (trans (modifyLeases_only _ _ _) (addPend_only _ _)) (modifySlot_only _ _ _))
        (modifySlot_only _ _ _)
theorem tellGranted_only (src : Source) (s : State) : OnlyUnits s (tellGranted src s) := by
  cases src
  · exact refl s
  · unfold tellGranted slotGranted
    dsimp only
    split
    · exact modifySlot_only _ _ _
    · exact slotRelease_only _ _
    all_goals exact refl s
theorem tellWithdrawn_only (src : Source) (s : State) : OnlyUnits s (tellWithdrawn src s) := by
  cases src with
  | host => exact refl s
  | slot n => exact slotReturn_only n false s
theorem grantClaim_only (n : Nat) (e : PendEntry) (l : List Nat) (u : Nat) (s : State) :
    OnlyUnits s (grantClaim n e l u s) :=
  trans (trans (trans (trans (createLease_only _ _ _ _ _ _) (dropWithdraw_only _ _)) (finishEntry_only _ _ _))
    (finishCancel_only _ _ _)) (tellGranted_only _ _)
theorem refuseClaim_only (n : Nat) (e : PendEntry) (s : State) : OnlyUnits s (refuseClaim n e s) :=
  trans (finishEntry_only _ _ _) (finishCancel_only _ _ _)
theorem withdrawClaim_only (n : Nat) (e : PendEntry) (l : List Nat) (s : State) :
    OnlyUnits s (withdrawClaim n e l s) :=
  trans (trans (trans (dropWithdraw_only _ _) (finishEntry_only _ _ _)) (finishCancel_only _ _ _))
    (tellWithdrawn_only _ _)

/-- The entry of a removed record completes, or nothing happens. -/
theorem removeLease_only (l : List Nat) (s : State) : OnlyUnits s (removeLease l s) := by
  unfold removeLease
  split
  · exact refl s
  · rename_i x _
    have entry : ∀ u : State, OnlyUnits u
        (if x.state = .releasePending then
          match u.findPend (fun e => e.kind == .release && e.list == l) with
          | none => u
          | some m =>
            match u.pendAt m with
            | none => u
            | some e =>
              finishEntry m (.listed .released e.tag e.source ReqKind.release.code l x.units) u
        else u) := by
      intro u
      split
      · split
        · exact refl u
        · split
          · exact refl u
          · exact finishEntry_only _ _ _
      · exact refl u
    have go := trans (withLeases s (s.leases.filter (fun y => y.tokens != l))) (entry _)
    cases hx : x.source with
    | host => exact go
    | slot n => exact trans go (slotReturn_only _ _ _)

theorem takeReport_only (r : Report) (s : State) : OnlyUnits s (takeReport r s) := by
  cases r with
  | grant o k u c =>
    unfold takeReport
    dsimp only
    split
    · exact refl s
    · split
      · exact refl s
      · exact setPend_only _ _ _
      · exact grantClaim_only _ _ _ _ _
  | parked o k p =>
    unfold takeReport
    dsimp only
    split
    · exact refl s
    · split
      · exact refl s
      · split
        · exact setPend_only _ _ _
        · exact refl s
  | refused o =>
    unfold takeReport
    dsimp only
    split
    · exact refl s
    · split
      · exact refl s
      · exact refuseClaim_only _ _ _
  | withdrawn o l =>
    unfold takeReport
    dsimp only
    split
    · exact refl s
    · split
      · exact refl s
      · exact withdrawClaim_only _ _ _ _
  | released l c x => exact removeLease_only _ _
  | evicted c => exact refl s

theorem takeReports_only (rs : List Report) (s : State) : OnlyUnits s (takeReports rs s) :=
  foldl (fun _ _ => takeReport_only _ _) rs s

theorem outgoingAccepted_only (n : Nat) (f : Frame) (s : State) : OnlyUnits s (outgoingAccepted n f s) := by
  unfold outgoingAccepted
  split
  · split
    · split
      · exact withReq _ _
      · exact removeOutgoing_only _ _
    · exact removeOutgoing_only _ _
  · exact removeOutgoing_only _ _
  · dsimp only
    split
    · split
      · exact trans (removeOutgoing_only _ _) (finishEntry_only _ _ _)
      · exact removeOutgoing_only _ _
    · exact removeOutgoing_only _ _
  all_goals exact refl s

theorem outgoingVoided_only (n : Nat) (f : Frame) (s : State) : OnlyUnits s (outgoingVoided n f s) := by
  unfold outgoingVoided
  split
  · split
    · split
      · exact trans (removeOutgoing_only _ _) (withdrawClaim_only _ _ _ _)
      · exact refl s
    · exact refl s
  all_goals exact refl s

theorem slotWithdraw_only (n : BitVec 2) (s : State) : OnlyUnits s (slotWithdraw n s) := by
  unfold slotWithdraw
  split
  · exact refl s
  · split
    · exact refl s
    · dsimp only
      split
      · split
        · exact trans (setPend_only _ _ _) (modifySlot_only _ _ _)
        · exact trans (removeOutgoing_only _ _) (withdrawClaim_only _ _ _ _)
      · split
        · exact trans (trans (setPend_only _ _ _) (addOutgoing_only _ _)) (modifySlot_only _ _ _)
        · exact trans (setPend_only _ _ _) (modifySlot_only _ _ _)
      all_goals exact refl s

/-! ## Slot commands and the dispatcher -/

theorem slotLetGo_only (n : BitVec 2) (s : State) : OnlyUnits s (slotLetGo n s) :=
  trans (settleLeases_only _) (slotRelease_only _ _)

theorem writeEnable_only (n : BitVec 2) (v : Bool) (s : State) : OnlyUnits s (writeEnable n v s) := by
  unfold writeEnable
  split
  · unfold enableSlot
    dsimp only
    split
    · split
      · exact slotEvent_only _ _ _
      · exact modifySlot_only _ _ _
    · exact refl s
  · unfold disableSlot
    split
    · exact refl s
    · exact modifySlot_only _ _ _
    · exact modifySlot_only _ _ _
    · exact trans (modifySlot_only _ _ _) (slotWithdraw_only _ _)
    · exact trans (modifySlot_only _ _ _) (slotLetGo_only _ _)
    all_goals exact modifySlot_only _ _ _

theorem writeSlotCtrl_only (n : BitVec 2) (v : Byte) (s : State) : OnlyUnits s (writeSlotCtrl n v s) :=
  trans (modifySlot_only _ _ _) (writeEnable_only _ _ _)

theorem fireSlot_only (n : BitVec 2) (s : State) : OnlyUnits s (fireSlot n s) := by
  unfold fireSlot
  split
  · exact slotTrigger_only _ _
  · exact refl s

theorem oppositeEdge_only (n : BitVec 2) (s : State) : OnlyUnits s (oppositeEdge n s) := by
  unfold oppositeEdge
  split
  · exact refl s
  · exact refl s
  · exact refl s
  · exact refl s
  · exact modifySlot_only _ _ _
  · exact slotWithdraw_only _ _
  · exact slotLetGo_only _ _

/-- An edge changes the units, and the level that a reset would sample. -/
theorem pinEdge_only (n : BitVec 2) (level : Bool) (s : State) :
    ∃ x, OnlyUnits (s.withTrgPins x) (pinEdge n level s) := by
  unfold pinEdge
  dsimp only
  split
  · exact ⟨s.trgPins, refl s⟩
  · refine ⟨(setTrgPin n level s).trgPins, ?_⟩
    split
    · exact trans (modifySlot_only _ _ _) (slotTrigger_only _ _)
    · split
      · exact trans (modifySlot_only _ _ _) (oppositeEdge_only _ _)
      · exact modifySlot_only _ _ _

theorem takeAcquire_only (r : Request) (s : State) : OnlyUnits s (takeAcquire r s) := by
  unfold takeAcquire
  split
  · exact pushCompletion_only _ _
  · exact trans (addPend_only _ _) (addOutgoing_only _ _)

theorem takeSignal_only (r : Request) (s : State) : OnlyUnits s (takeSignal r s) := by
  unfold takeSignal
  split
  · exact pushCompletion_only _ _
  · exact trans (addPend_only _ _) (addOutgoing_only _ _)

theorem takeCancel_only (r : Request) (s : State) : OnlyUnits s (takeCancel r s) := by
  unfold takeCancel
  split
  · exact pushCompletion_only _ _
  · split
    · exact refl s
    · split
      · exact refl s
      · unfold cancelClaim
        dsimp only
        split
        · split
          · exact trans (setPend_only _ _ _) (addPend_only _ _)
          · exact trans (trans (removeOutgoing_only _ _) (withdrawClaim_only _ _ _ _))
              (pushCompletion_only _ _)
        · exact trans (trans (setPend_only _ _ _) (addPend_only _ _)) (addOutgoing_only _ _)
        all_goals exact refl s

theorem tellHostRelease_only (src : Source) (s : State) : OnlyUnits s (tellHostRelease src s) := by
  cases src
  · exact refl s
  · exact modifySlot_only _ _ _

theorem takeRelease_only (r : Request) (s : State) : OnlyUnits s (takeRelease r s) := by
  unfold takeRelease
  dsimp only
  split
  · exact trans (settleLeases_only _) (pushCompletion_only _ _)
  · split
    · exact trans (settleLeases_only _) (pushCompletion_only _ _)
    · exact trans (trans (trans (settleLeases_only _) (modifyLeases_only _ _ _)) (addPend_only _ _))
        (tellHostRelease_only _ _)

theorem takeQuery_only (r : Request) (s : State) : OnlyUnits s (takeQuery r s) := pushCompletion_only _ _
theorem takeUnknown_only (r : Request) (s : State) : OnlyUnits s (takeUnknown r s) := pushCompletion_only _ _

theorem issueSlot_only (n : BitVec 2) (s : State) : OnlyUnits s (issueSlot n s) := by
  unfold issueSlot
  dsimp only
  split
  · exact trans (trans (pushCompletion_only _ _) (slotEvent_only _ _ _)) (slotReturn_only _ _ _)
  · exact trans (trans (addPend_only _ _) (addOutgoing_only _ _)) (modifySlot_only _ _ _)

theorem placeHeld_only (s : State) : OnlyUnits s (placeHeld s) := by
  unfold placeHeld
  split
  · split
    · exact trans (setPend_only _ _ _) (addOutgoing_only _ _)
    · exact refl s
  · exact refl s

end Sys2Proof.Machine
end

