-- ==== Sys2Proof/WellFormed.lean ====
section
/-! DEFINITION. Which commands can reach the part: checks on the operands that their types leave open.
The meanings are total and do not ask for these checks. -/

namespace Sys2Proof

/-- A frame as sampled carries as many payload bytes as its length field says; a length above 96 is
itself a failure of the receive check (R8), and no payload byte is sampled as one. -/
def RawFrame.wf (f : RawFrame) : Bool :=
  if f.length.toNat ≤ Config.maxPayload then f.payload.length == f.length.toNat else f.payload.isEmpty

/-- Bits of a frame after its start bit and before its objection window. -/
def RawFrame.bits (f : RawFrame) : Nat := 51 + 8 * f.length.toNat

/-- Bits of the longest frame after its start bit and before its objection window. -/
def longestBits : Nat := 51 + 8 * Config.maxPayload

/-- Operands of a command that can reach the part: RSTn is asserted for at least one CLK period, a frame
has the payload its length gives, a bit error falls on a bit of the frame after its start bit and before its
objection window (of the longest one, where the operand does not give the frame; the model's reading of R8, log
44), and at most the 15 other stations contend (section 1.4 of the introduction). -/
def Instr.wf : Instr → Bool
  | .rstnWarmReset clks _ _ => decide (1 ≤ clks)
  | .transmitStart rivals => decide (rivals.length ≤ 15)
  | .frameAccepted (.received f) => f.wf
  | .frameVoided (.own (some k)) => decide (1 ≤ k) && decide (k ≤ longestBits)
  | .frameVoided (.received f none) => f.wf
  | .frameVoided (.received f (some k)) => f.wf && decide (1 ≤ k) && decide (k ≤ f.bits)
  | _ => true

end Sys2Proof
end

