-- ==== Sys2Proof/Tests/Slice0.lean ====
section
/-! SUPPORT. The model's own tests: each well-formedness check refuses an ill-formed command, each command does
on a small state what the manual's rules and worked examples say, and the hypotheses of every statement are met
by some state. -/

namespace Sys2Proof.Tests

set_option Elab.async false

open Sys2Proof Sys2Proof.Machine

/-! ## Small states -/

/-- The outcome is a next state with a property. -/
def nextHas (r : Result) (p : State → Bool) : Bool :=
  match r with
  | .next t => p t
  | .fault _ => false
  | .refused _ => false

/-- The outcome is this next state. -/
def nextIs (r : Result) (t : State) : Bool := nextHas r (fun u => decide (u = t))

/-- Station S3 with a committed configuration, in a membership state, at a start boundary of an idle line. -/
def at3 (st : MState) : State :=
  { State.reset with
    station := 3, addrPins := 3, config := { ConfigBlock.initial with status := .committed },
    member := { Member.initial with state := st }, line := { Line.initial with phase := .idle },
    time := ⟨true, 0⟩ }

/-- S3 in ACTIVE. -/
def act : State := at3 .active

/-- Entry k replaced. -/
def setEntry (k : Nat) (e : Entry) (s : State) : State := s.withTable (s.table.set k e)

/-- Entry k EXCLUSIVE with these holders and waiters. -/
def excl (k : Nat) (hs : List Holder) (ws : List Waiter) (s : State) : State :=
  setEntry k ⟨.exclusive, hs, ws, .none⟩ s

/-- The request at the head of the FIFO. -/
def asks (r : Request) (s : State) : State := s.withReq { s.req with fifo := [r] }

/-- Entries 0, 1, … of the pending table. -/
def pends (es : List PendEntry) (s : State) : State :=
  s.withReq { s.req with pend := es.map some ++ List.replicate (16 - es.length) none }

/-- The frames of the outgoing list. -/
def outs (fs : List OutFrame) (s : State) : State := s.withReq { s.req with outgoing := fs }

/-- An own frame on the line. -/
def sending (f : Frame) (entry : Option Nat) (s : State) : State :=
  s.withLine { s.line with phase := .inFrame, tx := some ⟨f, entry⟩ }

/-- Another station's frame on the line. -/
def hearing (s : State) : State := s.withLine { s.line with phase := .inFrame }

/-- The frame of a sender, accepted. -/
def hears (sender : Addr) (f : Frame) : Instr := .frameAccepted (.received (f.toRaw sender))

/-- Slot 0 replaced. -/
def slot0 (x : Slot) (s : State) : State := s.withSlots (s.slots.set 0 x)

/-- A slot of a source and a state for token 21. -/
def aSlot (mode : SlotMode) (source : BitVec 3) (st : SlotState) : Slot :=
  { Slot.initial true with mode := mode, source := source, state := st, spec := ⟨1, 21, 0, 0, 0, 1, 1, 7⟩ }

/-- A record for token k of class 1. -/
def lease (k counter : Nat) (st : LeaseState) (src : Source) : Lease := ⟨[k], 1, 1, counter, st, src, 21⟩

/-- A claim entry for token k. -/
def claimEntry (k : Nat) (src : Source) (ph : Phase) : PendEntry :=
  ⟨40, src, .acquire, some k, [k], 1, 1, ph, [], false⟩

/-- The peer a with an entry. -/
def peer (a : Addr) (p : Peer) (s : State) : State :=
  s.withMember { s.member with peers := s.member.peers.set a.toNat p }

/-- RFC and TFC. -/
def counters (rfc tfc : Nat) (s : State) : State := s.withLine { s.line with rfc := rfc, tfc := tfc }

/-! ## Well-formedness refuses ill-formed commands -/

theorem test_wf_reset_of_no_clock : Instr.wf (.rstnWarmReset 0 ⟨0, 0⟩ .none) = false := by decide
theorem test_wf_sixteen_rivals : Instr.wf (.transmitStart (List.replicate 16 0)) = false := by decide
theorem test_wf_payload_shorter_than_length :
    Instr.wf (.frameAccepted (.received ⟨0, 0, 2, [1], 0⟩)) = false := by decide
theorem test_wf_payload_with_a_length_above_96 :
    Instr.wf (.frameVoided (.received ⟨0, 0, 97, [1], 0⟩ none)) = false := by decide
theorem test_wf_bit_error_before_the_frame :
    Instr.wf (.frameVoided (.received ⟨0, 0, 0, [], 0⟩ (some 0))) = false := by decide
theorem test_wf_bit_error_after_the_frame :
    Instr.wf (.frameVoided (.received ⟨0, 0, 0, [], 0⟩ (some 52))) = false := by decide
theorem test_wf_good_frame : Instr.wf (hears 5 (.withdraw 4)) = true := by decide +kernel

theorem test_wf_own_bit_error_outside_the_frame :
    Instr.wf (.frameVoided (.own (some 0))) = false ∧ Instr.wf (.frameVoided (.own (some 820))) = false ∧
      Instr.wf (.frameVoided (.own (some 819))) = true := by decide

/-- No row of the table has bits, so no word spells a command. -/
theorem test_no_word_is_a_command : decodeTableWord 8 0x27 = none ∧ State.reset.withFetchWord 8 0x27 = State.reset :=
  by decide +kernel

/-! ## The check engine, frames and contention -/

/-- Of no bytes, the check value is the ones' complement of the initial register (R105). -/
theorem test_check_value_of_nothing : checkValue [] = 0 := by decide

/-- Of one byte, against the rule's definition carried out bit by bit: a shift by eight of all ones and the
polynomial for each bit that differs (R105). -/
theorem test_check_value_of_ff : checkValue [0xFF] = ~~~(0xFFFFFF00 : Word) := by decide

/-- The example of chapter 1: S7's RELEASE (23) beats S2's CLAIM (50) and S5's PRESENCE (117). -/
theorem test_contention_example :
    contentionOf 3 2 = 50 ∧ contentionOf 1 7 = 23 ∧ contentionOf 7 5 = 117 ∧
      wins 23 [50, 117] = true ∧ wins 50 [23, 117] = false ∧ wins 117 [23, 50] = false := by decide

/-- A SNAP that ends after the first byte of a second waiter record: a station listed twice is found at its nibble,
and another one only where the payload runs out. -/
theorem test_snap_ends_in_a_waiter_record :
    let t := (excl 12 [] [] State.reset).table
    let p (b : Byte) : List Byte := [0x05, 12, 0x00, 0x02, 0x31, 0x10, 12, b]
    checkSnap t (p 0x31) = .error ⟨payloadBit 60, false⟩ ∧ checkSnap t (p 0x41) = .error ⟨payloadBit 64, true⟩ := by
  decide +kernel

/-- A SNAP of an entry with holders and waiters passes the receive check and reads back. -/
theorem test_snap_reads_back :
    let e : Entry := ⟨.pool 4, [⟨3, 2⟩, ⟨6, 1⟩], [⟨1, 2, [12], 0⟩], .none⟩
    let t := State.reset.table.set 12 e
    (receiveCheck t 5 ((Frame.snap 5 12 e.kind e.holders e.waiters).toRaw 1)).toOption =
      some (.snap 5 12 e.kind e.holders e.waiters) := by decide +kernel

/-- A set CLAIM reads back, and a frame with the own address fails its check (R7, R8). -/
theorem test_claim_reads_back :
    (receiveCheck State.reset.table 5 ((Frame.claim .wait 1 [2, 8]).toRaw 1)).toOption =
      some (.claim .wait 1 [2, 8]) ∧
    (receiveCheck State.reset.table 1 ((Frame.claim .wait 1 [2, 8]).toRaw 1)).toOption = none := by
  decide +kernel

/-! ## The token table's worked examples (chapters 2 and 3) -/

/-- The table with entry 12 a POOL of capacity 6. -/
def poolTable (hs : List Holder) (ws : List Waiter) : List Entry :=
  State.reset.table.set 12 ⟨.pool 6, hs, ws, .none⟩

theorem test_pool_release_serves_the_queue :
    let a := applyFrame (poolTable [⟨1, 4⟩] [⟨4, 3, [12], 0⟩, ⟨9, 2, [12], 0⟩]) 64 9 1 (.release .host [12])
    entryAt a.table 12 = ⟨.pool 6, [⟨4, 3⟩, ⟨9, 2⟩], [], .released⟩ ∧
      a.reports = [.grant 12 12 2 (some [12])] := by decide +kernel

theorem test_pool_try_is_refused_behind_a_waiter :
    let a := applyFrame (poolTable [⟨1, 4⟩] [⟨4, 3, [12], 0⟩]) 64 6 6 (.claim .tryNow 1 [12])
    a.table = poolTable [⟨1, 4⟩] [⟨4, 3, [12], 0⟩] ∧ a.reports = [.refused 12] := by decide +kernel

/-- The eviction pass of chapter 2: S3 leaves T2, T5, T8 and T12, and S1's set claim completes within it. -/
theorem test_eviction_pass :
    let t := (((State.reset.table.set 2 ⟨.exclusive, [⟨3, 1⟩], [⟨1, 1, [2, 8], 0⟩], .none⟩).set 5
      ⟨.exclusive, [⟨6, 1⟩], [⟨3, 1, [5], 0⟩], .none⟩).set 8 ⟨.exclusive, [⟨3, 1⟩], [], .none⟩).set 12
      ⟨.pool 4, [⟨3, 2⟩, ⟨6, 1⟩], [⟨1, 2, [12], 0⟩], .none⟩
    let a := applyFrame t 64 1 6 (.evict 3 .dropout)
    entryAt a.table 2 = ⟨.exclusive, [⟨1, 1⟩], [], .evicted⟩ ∧
      entryAt a.table 5 = ⟨.exclusive, [⟨6, 1⟩], [], .evicted⟩ ∧
      entryAt a.table 8 = ⟨.exclusive, [⟨1, 1⟩], [], .evicted⟩ ∧
      entryAt a.table 12 = ⟨.pool 4, [⟨6, 1⟩, ⟨1, 2⟩], [], .evicted⟩ ∧
      a.reports = [.grant 2 2 1 none, .parked 2 8 1, .grant 2 8 1 (some [2, 8]),
        .grant 12 12 2 (some [12])] := by decide +kernel

/-! ## Resets, power and configuration -/

theorem test_power_on_samples_the_pins :
    nextHas (exec (.powerOnReset 9 0b0101) act) (fun t =>
      decide (t.station = 9 ∧ t.member.state = .unconfigured ∧ (t.slotAt 0).pin = true ∧
        (t.slotAt 1).pin = false)) = true := by decide +kernel

theorem test_rstn_keeps_the_configuration :
    nextHas (exec (.rstnWarmReset 2 ⟨4, 0b0001⟩ .none) act) (fun t =>
      decide (t.station = 4 ∧ t.member.state = .detached ∧ t.config.status = .committed ∧
        (t.slotAt 0).pin = true ∧ (t.slotAt 1).pin = false ∧ t.portOpen = false)) = true := by decide +kernel

theorem test_warm_reset_aborts_the_own_frame :
    nextHas (exec (.warmReset ⟨4, 0⟩ ⟨false, 5, false⟩) (sending (.withdraw 4) (some 0) act)) (fun t =>
      decide (t.ldeAsserted = true ∧ t.station = 3 ∧ t.resetWaits = true ∧
        (List.range 7).map t.ldeAt = [true, true, false, true, true, true, true])) = true := by decide +kernel

/-- A byte written to CONTROL during a hold as a receiver resets nothing before the hold's end (R19, R184). -/
theorem test_written_reset_waits_for_the_hold :
    nextHas (exec (.registerWrite 0x09 (.data 0x02 ⟨⟨4, 0b0001⟩, ⟨true, 9, false⟩⟩)) (hearing act)) (fun t =>
      decide (t.ldeAsserted = true ∧ t.ltx = false ∧ t.member.state = .active) &&
        nextHas (exec .abortHoldEnd t) (fun u =>
          decide (u.station = 4 ∧ u.member.state = .detached ∧ (u.slotAt 0).pin = true))) = true := by
  decide +kernel

/-- The rest of the transaction that wrote WARM_RESET is ignored after PORT_READY too (R184). -/
theorem test_rest_of_the_resetting_transaction_is_ignored :
    nextHas (exec (.registerWrite 0x09 (.data 0x02 ⟨⟨4, 0⟩, .none⟩)) act) (fun t => nextHas (exec .portReady t) (fun u =>
      nextIs (exec (.registerWrite 0x4C (.data 1 ⟨⟨4, 0⟩, .none⟩)) u) u &&
        nextHas (exec .transactionEnd u) State.portOpen)) = true := by decide +kernel

theorem test_port_ready_answers :
    nextHas (exec .portReady (act.withPort { act.port with state := .inReset })) State.portOpen = true := by
  decide +kernel

theorem test_commit_of_the_power_on_values : nextHas (exec .commit State.reset)
    (fun t => decide (t.config.status = .busy)) = true := by decide +kernel

theorem test_commit_refuses_kind_1 :
    nextHas (exec .commit (State.reset.withConfig
      { State.reset.config with fields :=
        { ConfigFields.initial with kinds := ConfigFields.initial.kinds.set 63 1 } }))
      (fun t => decide (t.config.status = .kindGrade ∧ t.config.detail = 63)) = true := by decide +kernel

/-- S3 with a commit under way. -/
def busy : State := State.reset.withConfig { State.reset.config with status := .busy }

theorem test_commit_complete_listens :
    nextHas (exec .commitComplete busy) (fun t =>
      decide (t.member.state = .listening ∧ t.time.running = true ∧ t.line.phase = .waiting)) = true := by
  decide +kernel

theorem test_config_write_refuses_a_zero_period :
    nextHas (exec (.configWrite (.presencePeriod 0)) State.reset) (fun t =>
      decide (t.config = State.reset.config)) = true := by decide +kernel

theorem test_config_write_takes_a_period :
    nextHas (exec (.configWrite (.presencePeriod 7)) State.reset) (fun t =>
      decide (t.presencePeriod = 7)) = true := by decide +kernel

theorem test_power_fail_lowers_the_outputs :
    nextHas (exec .powerFail (slot0 { aSlot .follow 1 .held with gnt := true } act)) (fun t =>
      decide ((t.slotAt 0).gnt = false ∧ t.portOpen = false)) = true := by decide +kernel

/-! ## The port -/

/-- A command byte opens a transaction before any data byte, and a reset that falls then ignores its rest (R178,
R184). -/
theorem test_command_byte_opens_a_transaction :
    nextHas (exec (commandOf 0x8E) act) (fun t =>
      decide (t.port.txn = .write ∧ t.port.addr = 0x0E ∧ t.port.sdo = some 0) &&
        nextHas (exec (.rstnWarmReset 2 ⟨4, 0⟩ .none) t) (fun u => decide (u.port.txn = .ignored))) = true := by
  decide +kernel

/-- A write begun at IRQ_EN. -/
def writing : State :=
  State.reset.withPort { State.reset.port with txn := .write, addr := 0x0F, wr := some (0x0E, [0x01]) }

theorem test_register_write_second_byte :
    nextHas (exec (.registerWrite 0x0F (.data 0x42 ⟨⟨0, 0⟩, .none⟩)) writing) (fun t => decide (t.events.irqEn = 0x0142)) = true := by
  decide +kernel

theorem test_transaction_end_gives_up_a_write :
    nextHas (exec .transactionEnd writing) (fun t => decide (t.port.wr = none ∧ t.events.irqEn = 0)) = true := by
  decide +kernel

theorem test_request_window_eighth_byte :
    nextHas (exec (.reqData 8) ((act.withReq { act.req with asm := [1, 2, 3, 4, 5, 6, 7] }).withPort
      { act.port with txn := .write, addr := 0x13 })) (fun t =>
      decide (t.req.fifo = [⟨1, 2, 3, 4, 5, 6, 7, 8⟩] ∧ t.req.asm = [])) = true := by decide +kernel

/-- A read goes through a register, past it, and from 0x7F to 0x00 (R178). -/
theorem test_read_goes_through_the_registers :
    (readBytes 4 0x02 act).1 = [64, 0x84, 3, 3] ∧ (readBytes 2 0x7F act).1 = [0, 0x6B] ∧
      (readBytes 4 0x02 act).2.port.addr = 0x06 := by decide +kernel

theorem test_completion_window_first_byte :
    nextHas (exec .cmpData (act.withReq { act.req with cmp := [.bare .done 41 .host 4] })) (fun t =>
      decide (t.port.sdo = some 0x0B ∧ t.req.cmp.length = 1)) = true := by decide +kernel

/-! ## Events and errors (example 10.4) -/

/-- A state with every event, latch flag and error set. -/
def loud : State :=
  (act.withEvents ⟨0x01FE, 0, 0, false, 0x08⟩).withErrors ⟨0x0FFF, 0, some .rxCheck, .noFrame⟩

theorem test_event_clear : nextHas (exec (.eventClear 0x0048) loud)
    (fun t => decide (t.events.latched = 0x01B6)) = true := by decide +kernel
theorem test_irq_en : nextHas (exec (.irqEn 0x0048) loud) State.irqAsserted = true := by decide +kernel
theorem test_wake_en : nextHas (exec (.wakeEn 0x0048) loud) State.wakeAsserted = true := by decide +kernel
theorem test_wake_any : nextHas (exec (.wakeAny true) loud) State.wakeAsserted = true := by decide +kernel
theorem test_signal_latch_clear : nextHas (exec (.signalLatchClear 0x08) loud)
    (fun t => decide (t.events.latch = 0)) = true := by decide +kernel
theorem test_err_status_clear : nextHas (exec (.errStatusClear 0x0001) loud)
    (fun t => decide (t.errors.status = 0x0FFE)) = true := by decide +kernel
theorem test_err_mask : nextHas (exec (.errMask 0xFFFF) loud)
    (fun t => decide (t.errors.mask = 0x0FFF)) = true := by decide +kernel
theorem test_err_first_clear : nextHas (exec (.errFirstClear 0) loud)
    (fun t => decide (t.errors.first = none)) = true := by decide +kernel

/-! ## Slots (example 9.8) -/

theorem test_slot_enable_arms :
    nextHas (exec (.slotEnable true) (slot0 (aSlot .follow 1 .disabled) act)) (fun t =>
      decide ((t.slotAt 0).state = .armed)) = true := by decide +kernel
theorem test_slot_enable_follow_needs_a_pin :
    nextHas (exec (.slotEnable true) (slot0 (aSlot .follow 3 .disabled) act)) (fun t =>
      decide ((t.slotAt 0).state = .disabled ∧ (t.slotAt 0).cause = .badMode)) = true := by decide +kernel
theorem test_slot_ctrl_stores_and_arms :
    nextHas (exec (.slotCtrl 0xC8) (slot0 (aSlot .single 0 .disabled) act)) (fun t =>
      decide ((t.slotAt 0).state = .armed ∧ (t.slotAt 0).mode = .follow ∧ (t.slotAt 0).source = 1)) = true := by
  decide +kernel
theorem test_fire_triggers :
    nextHas (exec .fire (slot0 (aSlot .single 0 .armed) act)) (fun t =>
      decide ((t.slotAt 0).state = .triggered)) = true := by decide +kernel
theorem test_trigger_flag_clear :
    nextHas (exec .triggerFlagClear (slot0 (aSlot .single 0 .triggered) act)) (fun t =>
      decide ((t.slotAt 0).state = .armed)) = true := by decide +kernel
theorem test_missed_clear :
    nextHas (exec .missedClear (slot0 { aSlot .single 0 .held with missed := true } act)) (fun t =>
      decide ((t.slotAt 0).missed = false)) = true := by decide +kernel

/-- Event 1 of 9.8: TRG falls at an armed slot. -/
theorem test_edge_triggers :
    nextHas (exec (.trgEdge 0 false) (slot0 (aSlot .follow 1 .armed) act)) (fun t =>
      decide ((t.slotAt 0).state = .triggered)) = true := by decide +kernel

/-- The claim of slot 0 that waits, its pin low. -/
def slotWaits : State :=
  pends [claimEntry 21 (.slot 0) .waiting]
    (slot0 { aSlot .follow 1 .claiming with pin := false, heldPlace := true } act)

/-- Event 4 of 9.8: the opposite edge withdraws a waiting claim. -/
theorem test_opposite_edge_withdraws :
    nextHas (exec (.trgEdge 0 true) slotWaits) (fun t =>
      decide ((t.slotAt 0).state = .withdrawing ∧ t.req.outgoing = [⟨0, .withdraw 21⟩])) = true := by
  decide +kernel

/-- Event 2 of 9.8. -/
theorem test_slot_issue :
    nextHas (exec .slotIssue (slot0 (aSlot .follow 1 .triggered) act)) (fun t =>
      decide ((t.slotAt 0).state = .claiming ∧ t.reserved = 2 ∧
        t.req.outgoing = [⟨0, .claim .wait 1 [21]⟩])) = true := by decide +kernel

/-- Event 5 of 9.8: the grant that a withdrawal raced is released at once. -/
theorem test_grant_while_withdrawing_releases :
    nextHas (exec (hears 9 (.release .host [21])) (hearing (excl 21 [⟨9, 1⟩] [⟨3, 1, [21], 0⟩]
      (outs [⟨0, .withdraw 21⟩] (pends [claimEntry 21 (.slot 0) .withdrawing]
        (slot0 { aSlot .follow 1 .withdrawing with heldPlace := true } act)))))) (fun t =>
      decide ((t.slotAt 0).state = .releasing ∧ (t.slotAt 0).gnt = false ∧ t.reserved = 2 ∧
        t.req.outgoing = [] ∧ t.leases.map Lease.state = [.releasePending] ∧
        (t.pendAt 0).map PendEntry.phase = some .releasing ∧
        (t.pendAt 0).map (fun e => e.bytes.getLast?) = some (some 0))) = true := by decide +kernel

/-- A WITHDRAW held on slot 0's claim entry. -/
def heldW : State := pends [{ claimEntry 21 (.slot 0) .withdrawing with heldWithdraw := true }] act

theorem test_held_withdraw_place :
    nextHas (exec .heldWithdrawPlace heldW) (fun t =>
      decide (t.req.outgoing = [⟨0, .withdraw 21⟩] ∧ t.heldWithdraws = 0)) = true := by decide +kernel

/-! ## Requests (examples 7.9 and 8.13) -/

/-- Event 1 of 8.13. -/
theorem test_acquire_is_taken :
    nextHas (exec .acquire (asks ⟨1, 40, 0x01, 0x11, 4, 0, 0, 0⟩ act)) (fun t =>
      decide (t.pendAt 0 = some (claimEntry 4 .host .outgoing) ∧
        t.req.outgoing = [⟨0, .claim .wait 1 [4]⟩] ∧ t.reserved = 1)) = true := by decide +kernel
theorem test_acquire_conflict :
    nextHas (exec .acquire (asks ⟨1, 40, 0x01, 0x11, 4, 0, 0, 0⟩
      (act.withLeases [lease 4 9 .running .host]))) (fun t =>
      decide (t.req.cmp = [.one .conflict 40 .host 1 4])) = true := by decide +kernel
/-- Example 7.9: the release taken at tick 1750. -/
theorem test_release_is_taken :
    nextHas (exec .release (asks ⟨2, 9, 0, 7, 0, 0, 0, 0⟩ (act.withLeases [lease 7 50 .warned .host])))
      (fun t => decide (t.leases = [lease 7 50 .releasePending .host])) = true := by decide +kernel
theorem test_release_too_late :
    nextHas (exec .release (asks ⟨2, 9, 0, 7, 0, 0, 0, 0⟩ (act.withLeases [lease 7 0 .expiredPending .host])))
      (fun t => decide (t.req.cmp = [.listed .tooLate 9 .host 2 [7] 1])) = true := by decide +kernel
/-- Example 7.9, ticks 600 and 800. -/
theorem test_renew_too_early :
    nextHas (exec .renew (asks ⟨3, 9, 0, 7, 0, 0, 0, 0⟩ (act.withLeases [lease 7 400 .running .host])))
      (fun t => decide (t.leases = [lease 7 400 .running .host] ∧ t.errors.status = 0x0020)) = true := by
  decide +kernel
theorem test_renew_in_time :
    nextHas (exec .renew (asks ⟨3, 9, 0, 7, 0, 0, 0, 0⟩ (act.withLeases [lease 7 200 .running .host])))
      (fun t => decide (t.leases = [lease 7 1000 .running .host])) = true := by decide +kernel
/-- Event 3 of 8.13. -/
theorem test_cancel_of_a_waiting_claim :
    nextHas (exec .cancel (asks ⟨4, 41, 4, 0, 0, 0, 0, 0⟩ (pends [claimEntry 4 .host .waiting] act)))
      (fun t => decide (t.req.outgoing = [⟨0, .withdraw 4⟩] ∧ t.reserved = 2)) = true := by decide +kernel
theorem test_cancel_before_the_claim_begins :
    nextHas (exec .cancel (asks ⟨4, 41, 4, 0, 0, 0, 0, 0⟩ (outs [⟨0, .claim .wait 1 [4]⟩]
      (pends [claimEntry 4 .host .outgoing] act)))) (fun t =>
      decide (t.req.outgoing = [] ∧ t.req.cmp.map Completion.status = [.withdrawn, .done])) = true := by
  decide +kernel
theorem test_signal_is_taken :
    nextHas (exec .signal (asks ⟨5, 3, 0x08, 0x40, 3, 0, 0, 0⟩ act)) (fun t =>
      decide (t.req.outgoing = [⟨0, .signal 0x0840 3⟩])) = true := by decide +kernel
theorem test_query_result :
    nextHas (exec .query (asks ⟨6, 3, 4, 0, 0, 0, 0, 0⟩ (excl 4 [⟨8, 1⟩] [⟨3, 1, [4], 0⟩] act))) (fun t =>
      decide (t.req.cmp = [⟨.queryResult, 3, .host, 6, 0x00, 0x10, 0x81, 0x10, 0x31⟩])) = true := by
  decide +kernel
theorem test_detach_leaves :
    nextHas (exec .detach (asks ⟨7, 3, 0, 0, 0, 0, 0, 0⟩ act)) (fun t =>
      decide (t.member.state = .leaving ∧ t.member.evictWants = [(3, .self)])) = true := by decide +kernel
theorem test_join_listens :
    nextHas (exec .join (asks ⟨8, 3, 0, 0, 0, 0, 0, 0⟩ (at3 .detached))) (fun t =>
      decide (t.member.state = .listening ∧ t.line.phase = .waiting)) = true := by decide +kernel
theorem test_unknown_request :
    nextHas (exec .unknownRequest (asks ⟨0, 3, 0, 0, 0, 0, 0, 0⟩ act)) (fun t =>
      decide (t.req.cmp = [.bare .badRequest 3 .host 0])) = true := by decide +kernel

/-! ## The line -/

theorem test_line_wait_done :
    nextHas (exec .lineWaitDone (act.withLine { act.line with phase := .waiting })) (fun t =>
      decide (t.line.phase = .idle)) = true := by decide +kernel
/-- LTX carries the complement of the bit that a sender drives dominant, and is high without a frame (R1,
R6). -/
theorem test_line_outputs :
    let s := sending (.withdraw 4) none act
    (s.ldeAt 0 = true ∧ s.ltxAt 0 = false) ∧ (s.ldeAt 51 = !s.ltxAt 51) ∧ (s.ldeAt 60 = false) ∧
      act.ldeAt 0 = false ∧ act.ltxAt 0 = true ∧ act.ltx = true := by decide +kernel
theorem test_idle_gap :
    nextHas (exec .idleGap (act.withLine { act.line with phase := .gap })) (fun t =>
      decide (t.line.phase = .idle)) = true := by decide +kernel
theorem test_yield_timeout :
    nextHas (exec .yieldTimeout (act.withLine { act.line with yielding := true })) (fun t =>
      decide (t.line.yielding = false)) = true := by decide +kernel

/-- S3 with a CLAIM on its outgoing list. -/
def claims : State := outs [⟨0, .claim .wait 1 [4]⟩] (pends [claimEntry 4 .host .outgoing] act)

theorem test_transmit_start_wins :
    nextHas (exec (.transmitStart [117]) claims) (fun t =>
      decide (t.line.tx = some ⟨.claim .wait 1 [4], some 0⟩)) = true := by decide +kernel
theorem test_transmit_start_loses :
    nextHas (exec (.transmitStart [23]) claims) (fun t =>
      decide (t.line.tx = none ∧ t.line.phase = .inFrame)) = true := by decide +kernel

/-- S3's CLAIM (51, 0110011) loses to 23 (0010111) at its second bit, having driven the start bit and one dominant
bit (R1, R6). -/
theorem test_loser_drives_as_far_as_the_loss :
    nextHas (exec (.transmitStart [23]) claims) (fun t =>
      decide ((List.range 8).map t.ldeAt = [true, true, false, false, false, false, false, false])) = true := by
  decide +kernel

/-- Event 2 of 8.13: the own CLAIM is accepted and parks. -/
theorem test_own_claim_parks :
    nextHas (exec (.frameAccepted .own) (excl 4 [⟨8, 1⟩] []
      (sending (.claim .wait 1 [4]) (some 0) claims))) (fun t =>
      decide (t.pendAt 0 = some (claimEntry 4 .host .waiting) ∧ t.req.outgoing = [] ∧
        t.line.yielding = true ∧ (entryAt t.table 4).waiters = [⟨3, 1, [4], 0⟩])) = true := by decide +kernel

/-- The cancel race of 8.13 before its last step. -/
def race : State :=
  excl 4 [⟨8, 1⟩] [⟨3, 1, [4], 0⟩] (outs [⟨0, .withdraw 4⟩] (pends [claimEntry 4 .host .withdrawing,
    ⟨41, .host, .cancel, some 4, [], 0, 0, .withdrawing, [], false⟩] act))

/-- Event 4 of 8.13, S8's RELEASE first: GRANTED and TOO_LATE. -/
theorem test_race_granted :
    nextHas (exec (hears 8 (.release .host [4])) (hearing race)) (fun t =>
      decide (t.req.cmp = [.listed .granted 40 .host 1 [4] 1, .one .tooLate 41 .host 4 4] ∧
        t.req.outgoing = [] ∧ t.pendCount = 0 ∧ (entryAt t.table 4).holders = [⟨3, 1⟩])) = true := by
  decide +kernel

theorem test_voided_claim_stays :
    nextHas (exec (.frameVoided (.own none)) (sending (.claim .wait 1 [4]) (some 0) claims)) (fun t =>
      decide (t.line.tfc = 4 ∧ t.req = claims.req ∧ t.errors.status = 0x0002)) = true := by decide +kernel
/-- A bit error of its own at bit 20 of a CLAIM of 3 payload bytes: the hold ends with the window (R9). -/
theorem test_own_bit_error_holds_to_the_window :
    nextHas (exec (.frameVoided (.own (some 20))) (sending (.claim .wait 1 [4]) (some 0) claims)) (fun t =>
      decide (t.line.driven = some (21, 77))) = true := by decide +kernel
theorem test_objection_counts :
    nextHas (exec (.frameVoided (.received ((Frame.withdraw 4).toRaw 8) (some 20))) (hearing act)) (fun t =>
      decide (t.line.rfc = 4 ∧ t.errors.first = some .rxCheck ∧ t.line.driven = some (21, 61))) = true := by
  decide +kernel

/-- S3 waits to leave, holding the line. -/
def holds (dest : MState) (s : State) : State :=
  s.withLine { s.line with phase := .inFrame, hold := some ⟨some ⟨.presence .active 0, none⟩, .leave dest .detached, 5⟩ }

theorem test_abort_hold_end :
    nextHas (exec .abortHoldEnd (holds .detached (pends [claimEntry 4 .host .waiting] act))) (fun t =>
      decide (t.member.state = .detached ∧ t.req.cmp = [.one .detached 40 .host 1 4])) = true := by
  decide +kernel

/-- Example 10.4: a SIGNAL at an armed slot. -/
theorem test_signal_at_a_slot :
    nextHas (exec (hears 1 (.signal 0x0808 3)) (hearing (slot0
      { aSlot .single 3 .armed with code := 3 } act))) (fun t =>
      decide (t.events.latch = 0x08 ∧ (t.slotAt 0).state = .triggered)) = true := by decide +kernel

/-- Example 6.7, frame 3 at S8 in the place of S3, over an empty table, whose digest is 0: the second DISAGREE
decides DIVERGENCE. -/
theorem test_divergence :
    nextHas (exec (hears 1 (.digest 5)) (hearing (peer 4 ⟨.active, 9, .matching, .disagree⟩
      (peer 1 ⟨.active, 9, .matching, .none⟩ (act.withTable []))))) (fun t =>
      decide (t.member.state = .detached ∧ t.errors.status = 0x0208)) = true := by decide +kernel

/-! ## Time -/

theorem test_tick_warns :
    nextHas (exec .tick (act.withLeases [lease 7 101 .running .host])) (fun t =>
      decide (t.leases = [lease 7 100 .warned .host] ∧ t.events.latched = 0x0002)) = true := by
  decide +kernel
theorem test_lease_expiry :
    nextHas (exec (.leaseExpiry 7) (act.withLeases [lease 7 0 .warned .host])) (fun t =>
      decide (t.leases = [lease 7 0 .expiredPending .host] ∧ t.events.latched = 0x0004)) = true := by
  decide +kernel
theorem test_presence_timer :
    nextHas (exec .presenceTimerExpiry (act.withMember { act.member with presenceTimer := some 0 }))
      (fun t => decide (t.member.presenceWant = true)) = true := by decide +kernel
theorem test_dropout_of_an_active_peer :
    nextHas (exec (.dropoutExpiry 5) (peer 5 ⟨.active, 0, .matching, .none⟩ act)) (fun t =>
      decide (t.member.evictWants = [(5, .dropout)] ∧ (t.peerAt 5).state = .active)) = true := by
  decide +kernel

/-- The listen interval has ended. -/
def listened (seen : Bool) : State :=
  (at3 .listening).withMember { (at3 .listening).member with listenTimer := some 0, activeSeen := seen }

theorem test_listen_end_founds :
    nextHas (exec .listenIntervalEnd (listened false)) (fun t =>
      decide (t.member.state = .active ∧ t.digest.timer = some 1000)) = true := by decide +kernel
theorem test_listen_end_joins :
    nextHas (exec .listenIntervalEnd (peer 6 ⟨.active, 9, .matching, .none⟩ (listened true))) (fun t =>
      decide (t.member.state = .joining ∧ t.snap.donor = some 6)) = true := by decide +kernel

/-- A joiner whose snapshot timer has run out. -/
def lost (failures : Nat) : State :=
  (at3 .joining).withSnap ⟨4, .receiving, some 6, failures, some 0, .none, [], none⟩

theorem test_donor_lost :
    nextHas (exec (.snapshotTimerExpiry .none) (lost 0)) (fun t =>
      decide (t.snap.engine = .seeking ∧ t.snap.failures = 1 ∧ t.snap.cursor = 4)) = true := by decide +kernel
theorem test_donor_limit :
    nextHas (exec (.snapshotTimerExpiry .none) (lost 2)) (fun t =>
      decide (t.member.state = .detached ∧ t.snap.cause = .donorLimit)) = true := by decide +kernel
theorem test_digest_timer :
    nextHas (exec .digestTimerExpiry (act.withDigest ⟨some 0, false⟩)) (fun t =>
      decide (t.digest = ⟨some 1000, true⟩)) = true := by decide +kernel

/-! ## The hypotheses of the statements are met

One theorem per statement of Sys2Proof/Certificates/Slice0/Obligations.lean that has hypotheses; where the
statement has clauses with hypotheses of their own, one line per clause. -/

theorem test_met_StepRunsTheFrontCommand :
    (State.reset.withPending [.tick]).pending = [.tick] ∧ State.reset.pending = [] := by decide +kernel

theorem test_met_ResetHoldsThePowerOnValues : State.reset = State.reset := rfl

theorem test_met_WarmResetKeepsAndClears :
    act.powered = true ∧ act.line.tx = none ∧ act.line.hold = none ∧ act.portOpen = true ∧
      (0x02 : Byte).getLsbD 1 = true ∧ HoldPlace.none.rxHold = false ∧
      (sending (.withdraw 4) none act).line.hold = none ∧ (⟨true, 40, true⟩ : HoldPlace).frameEnds = true := by
  decide +kernel

theorem test_met_WarmResetAbortsAFrameFirst :
    let s := sending (.withdraw 4) none act
    let h := hearing act
    (s.powered = true ∧ s.line.tx.isSome = true ∧ s.portOpen = true) ∧
      (h.powered = true ∧ h.line.tx = none ∧ h.line.hold = none ∧ h.takesPart = true ∧
        h.line.phase ≠ .waiting ∧ h.portOpen = true) ∧
      ((0x02 : Byte).getLsbD 1 = true ∧ (0x02 : Byte).getLsbD 0 = false ∧
        (0x02 : Byte).getLsbD 2 = act.events.wakeAny) ∧
      (⟨⟨3, 0⟩, ⟨true, 9, false⟩⟩ : ResetInputs).frameEnds = false ∧
      (let w := holds .listening act
       w.powered = true ∧ w.line.tx = none ∧ w.line.hold.isSome = true ∧ w.portOpen = true) := by decide +kernel

theorem test_met_HoldEndTakesTheChangeThatWaits :
    (∀ d ∈ [MState.detached, .listening], (holds d act).powered = true ∧
      (holds d act).line.hold = some ⟨some ⟨.presence .active 0, none⟩, .leave d .detached, 5⟩ ∧ (holds d act).takesPart = true ∧
      (holds d act).member.state.hasTable = true) ∧
    (holds .detached (at3 .joining)).line.hold = some ⟨some ⟨.presence .active 0, none⟩, .leave .detached .detached, 5⟩ ∧
      (holds .detached (at3 .joining)).takesPart = true ∧
      (holds .detached (at3 .joining)).member.state.hasTable = false ∧
    (slot0 (aSlot .follow 1 .held) (holds .detached act)).slots[0]? = some (aSlot .follow 1 .held) ∧
      (holds .detached act).slots[3]? = some (Slot.initial false) := by decide +kernel

theorem test_met_PortReadyAndPowerFail :
    let r := act.withPort { act.port with state := .inReset }
    let w := r.withLine { r.line with hold := some ⟨none, .warmReset, 5⟩ }
    let i := act.withPort { act.port with txn := .ignored }
    (r.powered = true ∧ r.port.state = .inReset ∧ r.resetWaits = false ∧ r.port.state ≠ .answering) ∧
      (w.powered = true ∧ w.port.state = .inReset ∧ w.resetWaits = true) ∧
      act.portAnswers = true ∧ act.port.state ≠ .inReset ∧ (i.powered = true ∧ i.port.txn = .ignored ∧ i.port.state = .answering) := by
  decide +kernel

/-- The state after reset with these configuration fields. -/
def fields (f : ConfigFields) : State := State.reset.withConfig { State.reset.config with fields := f }

/-- Checks 1 to 4 of a commit, as the statement says them. -/
def kindsOk (f : ConfigFields) : Bool :=
  (List.range 64).all (fun k => decide (f.kinds.getD k 0 = 0 ∨
    (2 ≤ (f.kinds.getD k 0).toNat ∧ (f.kinds.getD k 0).toNat ≤ 8)))
def dropoutOk (f : ConfigFields) : Bool := decide (4 * f.presencePeriod.toNat ≤ f.dropout.toNat)
def classOk (p : ClassParams) : Bool :=
  decide (1 ≤ p.len.toNat ∧ 1 ≤ p.w.toNat ∧ p.w.toNat ≤ p.len.toNat ∧ p.v.toNat ≤ p.w.toNat)
def digestOk (f : ConfigFields) : Bool := decide (f.digestInterval.toNat = 0 ∨ 16 ≤ f.digestInterval.toNat)

theorem test_met_CommitChecksInOrder :
    let i := ConfigFields.initial
    let bad : ClassParams := ⟨10, 11, 0, false⟩
    (fields i).portOpen = true ∧ (fields i).member.state = .unconfigured ∧
      (fields i).config.status ≠ .busy ∧ act.member.state ≠ .unconfigured ∧
    (i.kinds.set 63 9).getD 63 0 = 9 ∧
    kindsOk { i with kinds := i.kinds.set 63 8 } = true ∧
    dropoutOk { i with presencePeriod := 26 } = false ∧ dropoutOk { i with presencePeriod := 25 } = true ∧
    classOk bad = false ∧ classOk { bad with w := 10 } = true ∧
    digestOk { i with digestInterval := 15 } = false ∧ digestOk { i with digestInterval := 16 } = true := by
  decide +kernel

theorem test_met_CommitCompleteEntersListening :
    busy.powered = true ∧ busy.config.status = .busy := by decide +kernel

theorem test_met_ConfigWriteSetsItsField :
    let r := State.reset
    let l : State := { r with grade := .vg418l, port := { r.port with kindSel := 32 } }
    (r.portOpen = true ∧ r.member.state = .unconfigured ∧ r.config.status ≠ .busy ∧
      r.port.kindSel.toNat < r.n) ∧ (l.portOpen = true ∧ l.n ≤ l.port.kindSel.toNat) ∧
      (act.portOpen = true ∧ act.member.state ≠ .unconfigured) := by decide +kernel

/-- The port of the state after reset takes data bytes: EventAndErrorRegisterWrites asks no more. -/
theorem test_met_open_port : State.reset.portOpen = true := by decide +kernel

/-- Bytes for CONTROL without its bit 1, with and without bit 0. -/
theorem test_met_OneByteAndIgnoredWrites :
    State.reset.portOpen = true ∧ ((0x04 : Byte).getLsbD 1 = false ∧ (0x04 : Byte).getLsbD 0 = false) ∧
      ((0x05 : Byte).getLsbD 1 = false ∧ (0x05 : Byte).getLsbD 0 = true) := by decide +kernel

theorem test_met_MultiByteWriteTakesEffectAtItsLastByte :
    let s := slot0 (aSlot .single 0 .disabled) act
    let l : State := { act with grade := .vg418l, port := { act.port with slotSel := 2 } }
    (s.portOpen = true ∧ s.slotExists s.port.slotSel = true ∧ (s.slotAt s.port.slotSel).state = .disabled ∧
      s.port.wr = none) ∧ (l.portOpen = true ∧ l.slotExists l.port.slotSel = false) ∧
      (Reg.lease3, 0x71, 7) ∈ registerMap ∧ (Reg.irqEn, 0x0E, 2) ∈ registerMap ∧
      ((0x80 : Byte).getLsbD 7 = true ∧ (0x0C : Byte).getLsbD 3 = true ∧ (0x0C : Byte).getLsbD 2 = true) := by
  decide +kernel

theorem test_met_RegisterReads :
    let l : State := { State.reset with grade := .vg418l, port := { State.reset.port with slotSel := 2 } }
    State.reset.portOpen = true ∧ State.reset.grade = .vg418 ∧ l.portOpen = true ∧ l.grade = .vg418l ∧
      2 ≤ l.port.slotSel.toNat ∧ State.reset.leaseOf 0 = none ∧ State.reset.pendAt 0 = none ∧
      ({ State.reset with powered := false } : State).portOpen = false ∧ State.reset.snap.failures ≤ 3 ∧
      State.reset.errors.header.payload.length = 8 ∧ State.reset.port.txn ≠ .read ∧
      State.reset.slotExists State.reset.port.slotSel = true ∧
      nextHas (exec (commandOf 0x02) State.reset) (fun t =>
        decide (t.portOpen = true ∧ t.port.txn = .read ∧ t.port.rd = none)) = true := by decide +kernel

theorem test_met_RegisterReads_of_records :
    let s := (pends [claimEntry 4 .host .waiting] (act.withLeases [lease 0 65535 .warned (.slot 3)])).withPort
      { act.port with peerSel := 15 }
    let u := readByte 0x0C s
    (s.leaseOf s.port.leaseSel.toNat = some (lease 0 65535 .warned (.slot 3)) ∧
      (lease 0 65535 .warned (.slot 3)).tokens.length ≤ 4) ∧
      s.pendAt s.port.pendSel.toNat = some (claimEntry 4 .host .waiting) ∧
      (s.port.peerSel ≠ s.station ∧ (peer 15 ⟨.active, 1023, .matching, .none⟩ s).peerAt 15 =
        ⟨.active, 1023, .matching, .none⟩) ∧
      (s.withPort { s.port with peerSel := 3 }).port.peerSel = s.station ∧
      ((u.withEvents ⟨0x01FE, 0, 0, false, 0⟩).portOpen = true ∧
        (u.withEvents ⟨0x01FE, 0, 0, false, 0⟩).port = (readByte 0x0C s).port) := by decide +kernel

theorem test_met_RequestWindowAssemblesRecords :
    let q (fifo : List Request) (asm : List Byte) : State :=
      (act.withReq { act.req with fifo := fifo, asm := asm }).withPort
        { act.port with txn := .write, addr := 0x13 }
    let w (fifo : List Request) (asm : List Byte) : State := (q fifo asm).inWrite .reqData
    let r : Request := ⟨1, 0, 0, 0, 0, 0, 0, 0⟩
    ((q [] []).portOpen = true ∧ (q [] []).port.txn = .write ∧ (q [] []).port.addr = 0x13 ∧
        (w [] []).req.asm.length < 7) ∧
      ((w [r] [1, 2, 3, 4, 5, 6, 7]).req.asm = [1, 2, 3, 4, 5, 6, 7] ∧
        (q [r] [1, 2, 3, 4, 5, 6, 7]).req.fifo.length < 8) ∧
      ((w (List.replicate 8 r) [1, 2, 3, 4, 5, 6, 7]).req.asm.length = 7 ∧
        (q (List.replicate 8 r) [1, 2, 3, 4, 5, 6, 7]).req.fifo.length = 8) ∧
      act.port.txn ≠ .write := by decide +kernel

theorem test_met_CompletionWindowDeliversTheHead :
    let c (r : Option CmpRead) (l : List Completion) : State :=
      (act.withPort { act.port with txn := .read, addr := 0x15, cmp := r }).withReq { act.req with cmp := l }
    let d := Completion.bare .done 1 .host 1
    act.port.txn ≠ .read ∧
      ((c none [d]).portOpen = true ∧ (c none [d]).port.txn = .read ∧ (c none [d]).port.addr = 0x15 ∧
        (c none [d]).port.cmp = none ∧ (c none [d]).req.cmp = [d]) ∧
      (c none []).req.cmp = [] ∧
      (c (some ⟨d.bytes, true, 6⟩) [d]).port.cmp = some ⟨d.bytes, true, 6⟩ ∧
      (c (some ⟨d.bytes, true, 7⟩) [d]).port.cmp = some ⟨d.bytes, true, 7⟩ ∧
      (c (some ⟨zeros 8, false, 7⟩) []).port.cmp = some ⟨zeros 8, false, 7⟩ := by decide +kernel

theorem test_met_LoggingAnError :
    let m := act.withErrors { act.errors with mask := 0x0800 }
    m.errors.mask.getLsbD ErrKind.evicted.bit = true ∧
      (act.errors.mask.getLsbD ErrKind.evicted.bit = false ∧ act.errors.first = none) ∧
      loud.errors.first ≠ none := by decide +kernel

theorem test_met_EnableSetChecksTheSlot :
    let s (x : Slot) := slot0 x act
    let l : State := { act with grade := .vg418l, port := { act.port with slotSel := 2 } }
    (∀ x ∈ [aSlot .follow 1 .disabled, aSlot .follow 3 .disabled, aSlot .single 5 .disabled,
        aSlot .single 4 .held], (s x).portOpen = true ∧ (s x).slotExists (s x).port.slotSel = true ∧
        (s x).slotAt (s x).port.slotSel = x) ∧
      l.slotExists l.port.slotSel = false ∧ State.reset.member.state = .unconfigured := by decide +kernel

/-- Slot 0 in each state, selected: EnableClearedByState, SlotCtrlStoresAndThenEnables, FireAndFlagWrites. -/
theorem test_met_selected_slot :
    ∀ st ∈ [SlotState.disabled, .armed, .triggered, .claiming, .withdrawing, .held, .releasing],
      let s := slot0 (aSlot .single 0 st) act
      s.portOpen = true ∧ s.slotExists s.port.slotSel = true ∧ (s.slotAt s.port.slotSel).state = st ∧
        (s.slotAt s.port.slotSel).source = 0 := by decide +kernel

/-- State.sized, decided clause by clause. -/
def sizedB (s : State) : Bool :=
  decide (s.req.fifo.length ≤ 8) && decide (s.req.outgoing.length ≤ 8) && decide (s.req.asm.length ≤ 7) &&
    decide (s.req.pend.length = 16) && decide (s.member.peers.length = 16) && decide (s.slots.length = 4) &&
    decide (s.reserved ≤ 16) && decide (s.req.cmp.length ≤ 16) &&
    s.slots.all (fun x => x.heldPlace || !(x.state == .claiming || x.state == .withdrawing || x.state == .held)) &&
    s.snap.service.isEmpty && decide ((s.leases.map Lease.first).Pairwise (· ≤ ·))

theorem test_met_HeldSlotReleases :
    ∀ st ∈ [LeaseState.running, .expiredPending],
      let s := (slot0 { aSlot .follow 1 .held with pin := false, gnt := true, heldPlace := true } act).withLeases
        [lease 21 9 st (.slot 0)]
      s.powered = true ∧ s.freePend < 16 ∧ s.slotExists 0 = true ∧ (s.slotAt 0).state = .held ∧
        (∀ x ∈ s.leases, x.overdue = false) ∧ s.leaseOfSlot 0 = some (lease 21 9 st (.slot 0)) ∧
        (s.slotAt 0).pin ≠ true ∧ (s.slotAt 0).mode = .follow ∧ (s.slotAt 0).source = 1 ∧
        s.portOpen = true ∧ s.port.slotSel = 0 ∧
        sizedB s = true := by decide +kernel

theorem test_met_ClaimingSlotWithdraws :
    ∀ ph ∈ [Phase.outgoing, .waiting],
      let s := pends [claimEntry 21 (.slot 0) ph]
        (slot0 { aSlot .follow 1 .claiming with pin := false, heldPlace := true } act)
      let l := sending (.claim .wait 1 [21]) (some 0) s
      let f := outs (List.replicate 8 ⟨5, .signal 0 0⟩) s
      s.slotExists 0 = true ∧ (s.slotAt 0).state = .claiming ∧ s.claimOfSlot 0 = some 0 ∧
        s.pendAt 0 = some (claimEntry 21 (.slot 0) ph) ∧ s.cancelOf 21 = none ∧
        (s.slotAt 0).pin ≠ true ∧ s.claimOnLine 0 = false ∧ l.claimOnLine 0 = true ∧
        nextHas (exec (.rstnWarmReset 2 ⟨3, 0⟩ ⟨false, 9, false⟩) l) (fun t =>
          t.claimOnLine 0 && decide (t.line.tx = none ∧ t.claimOfSlot 0 = some 0 ∧ t.powered = true)) = true ∧
        0 < s.outgoingFree ∧ f.outgoingFree = 0 ∧ sizedB s = true ∧ sizedB f = true := by decide +kernel

theorem test_met_EdgesTriggerByState :
    (∀ st ∈ [SlotState.disabled, .armed, .triggered, .withdrawing, .held],
      ((slot0 (aSlot .follow 1 st) act).slotAt 0).pin ≠ false) ∧
      act.powered = true ∧ act.slotExists 0 = true ∧ (act.slotAt 0).pin = false := by decide +kernel

/-- An ACQUIRE with these mode and length, units and class, and first tokens, at the head of the FIFO. -/
def acq (b2 b3 t0 t1 : Byte) (s : State) : Request × State :=
  (⟨1, 40, b2, b3, t0, t1, 0, 0⟩, asks ⟨1, 40, b2, b3, t0, t1, 0, 0⟩ s)

theorem test_met_AcquireCheckedAndTaken :
    let l : State := setEntry 4 (Entry.free (.pool 4)) { act with grade := .vg418l }
    (∀ x ∈ [acq 0x01 0x11 4 0 (at3 .detached), acq 0x02 0x11 4 3 act, acq 0x01 0x21 4 0 l,
        acq 0x01 0x21 4 0 act, acq 0x02 0x13 4 63 act, acq 0x02 0x11 4 5 (act.withLeases
          [lease 5 9 .running .host])], x.2.powered = true ∧ x.2.dispatchable = some x.1 ∧ x.1.code = 1) := by
  decide +kernel

theorem test_met_ReleaseCheckedAndTaken :
    let ask (b2 b3 : Byte) (ls : List Lease) (st : MState) :=
      asks ⟨2, 9, b2, b3, 0, 0, 0, 0⟩ ((at3 st).withLeases ls)
    let free (s : State) (b2 b3 : Byte) : Prop :=
      s.powered = true ∧ s.dispatchable = some ⟨2, 9, b2, b3, 0, 0, 0, 0⟩
    free (ask 0 7 [] .detached) 0 7 ∧ free (ask 2 7 [] .active) 2 7 ∧ free (ask 1 3 [] .leaving) 1 3 ∧
      (∀ st ∈ [LeaseState.running, .releasePending], ∀ src ∈ [Source.host, .slot 3],
        free (ask 0 7 [lease 7 9 st src] .active) 0 7 ∧
        (ask 0 7 [lease 7 9 st src] .active).leaseOf 7 = some (lease 7 9 st src) ∧
        (lease 7 9 st src).overdue = false) ∧
      (ask 1 3 [lease 7 9 .running (.slot 3)] .active).leaseOfSlot 3 =
        some (lease 7 9 .running (.slot 3)) := by decide +kernel

theorem test_met_RenewAnswersFromTheRecord :
    (∀ x ∈ [lease 7 250 .running .host, lease 7 251 .running .host, lease 7 9 .releasePending .host,
        { lease 7 0 .running .host with cls := 0 }],
      let s := asks ⟨3, 9, 0, 7, 0, 0, 0, 0⟩ (act.withLeases [x])
      s.powered = true ∧ s.dispatchable = some ⟨3, 9, 0, 7, 0, 0, 0, 0⟩ ∧ s.leaseOf 7 = some x ∧
        x.overdue = false ∧ x.source = .host ∧ s.leaseOf x.first = some x) ∧
      (∀ p ∈ [(⟨9, 9, 9, true⟩ : ClassParams), ⟨9, 9, 8, false⟩],
        let f := act.withConfig { act.config with fields := { act.config.fields with class1 := p } }
        f.classParams 1 = p) := by decide +kernel

/-- The slot form at slot 3, and the requests that RENEW refuses. -/
theorem test_met_RenewAnswersFromTheRecord_slot_form :
    let ask (b2 b3 : Byte) (ls : List Lease) (st : MState) :=
      asks ⟨3, 9, b2, b3, 0, 0, 0, 0⟩ ((at3 st).withLeases ls)
    let free (s : State) (b2 b3 : Byte) : Prop :=
      s.powered = true ∧ s.dispatchable = some ⟨3, 9, b2, b3, 0, 0, 0, 0⟩
    free (ask 0 7 [] .detached) 0 7 ∧ free (ask 2 7 [] .active) 2 7 ∧
      (free (ask 1 3 [] .leaving) 1 3 ∧ (ask 1 3 [] .leaving).leaseOfSlot 3 = none) ∧
      (free (ask 0 7 [] .active) 0 7 ∧ (ask 0 7 [] .active).leaseOf 7 = none) ∧
      (∀ x ∈ [lease 7 251 .running (.slot 3)], free (ask 0 7 [x] .active) 0 7 ∧
        (ask 0 7 [x] .active).leaseOf 7 = some x ∧ free (ask 1 3 [x] .active) 1 3 ∧
        (ask 1 3 [x] .active).leaseOfSlot 3 = some x ∧ (ask 1 3 [x] .active).leaseOf x.first = some x ∧
        x.overdue = false) := by decide +kernel

theorem test_met_CancelByWhereTheClaimStands :
    (∀ ph ∈ [Phase.outgoing, .waiting, .withdrawing], ∀ src ∈ [Source.host, .slot 3],
      let s := asks ⟨4, 41, 4, 0, 0, 0, 0, 0⟩ (pends [claimEntry 4 src ph] act)
      let l := sending (.claim .wait 1 [4]) (some 0) s
      s.powered = true ∧ s.dispatchable = some ⟨4, 41, 4, 0, 0, 0, 0, 0⟩ ∧ s.claimOf 4 = some 0 ∧
        s.pendAt 0 = some (claimEntry 4 src ph) ∧ s.cancelOf 4 = none ∧ s.claimOnLine 0 = false ∧
        l.claimOnLine 0 = true ∧ l.dispatchable = some ⟨4, 41, 4, 0, 0, 0, 0, 0⟩) ∧
      (asks ⟨4, 41, 4, 0, 0, 0, 0, 0⟩ act).claimOf 4 = none := by decide +kernel

/-- The requests of SIGNAL, QUERY, DETACH, JOIN and of no kind are at the head: SignalCheckedAndTaken,
QueryAnswersFromTheReplica, DetachEntersLeaving, JoinAndUnknownRequest. -/
theorem test_met_simple_requests :
    ∀ c ∈ [(5 : Byte), 6, 7, 8, 0, 9, 255], ∀ b ∈ [(7 : Byte), 8, 63, 64],
      ∀ st ∈ [MState.active, .leaving, .detached, .unconfigured],
        let s := asks ⟨c, 1, b, 0, b, 0, 0, 0⟩ (at3 st)
        s.powered = true ∧ s.dispatchable = some ⟨c, 1, b, 0, b, 0, 0, 0⟩ := by decide +kernel

/-- A head that may go, one behind a slot that can issue, one of another kind, and no head. -/
theorem test_met_JoinAndUnknownRequest :
    let q := asks ⟨6, 1, 0, 0, 0, 0, 0, 0⟩ act
    q.dispatchable = some ⟨6, 1, 0, 0, 0, 0, 0, 0⟩ ∧
      (slot0 (aSlot .follow 1 .triggered) q).dispatchable = none ∧ act.dispatchable = none ∧
      (asks ⟨8, 3, 0, 0, 0, 0, 0, 0⟩ (at3 .detached)).member.state = .detached := by decide +kernel

theorem test_met_SlotIssueClaimsOrConflicts :
    let s := slot0 (aSlot .follow 1 .triggered) act
    let c := s.withLeases [lease 21 9 .running .host]
    s.powered = true ∧ s.member.state = .active ∧ s.reserved ≤ 14 ∧ 0 < s.outgoingFree ∧
      s.slotExists 0 = true ∧ (s.slotAt 0).state = .triggered ∧ s.leases = [] ∧ s.pendCount = 0 ∧
      (s.slotAt 0).spec.tokens = [] ++ 21 :: [] ∧ (c.leases.any (fun x => x.tokens.contains 21)) = true ∧
      (at3 .leaving).member.state ≠ .active := by decide +kernel

theorem test_met_HeldWithdrawIsPlaced :
    heldW.powered = true ∧ heldW.req.outgoing.length < 8 ∧ heldW.heldWithdraws = 1 ∧
      heldW.pendAt 0 = some { claimEntry 21 (.slot 0) .withdrawing with heldWithdraw := true } ∧
      8 ≤ (outs (List.replicate 8 ⟨5, .signal 0 0⟩) heldW).req.outgoing.length := by decide +kernel

theorem test_met_RecessiveCountsEndWaits :
    ∀ ph ∈ [LinePhase.waiting, .gap, .idle, .inFrame], ∀ y ∈ [true, false],
      let s := act.withLine { act.line with phase := ph, yielding := y }
      s.powered = true ∧ s.takesPart = true ∧ s.line.phase = ph ∧ s.line.hold = none ∧
        s.line.yielding = y := by decide +kernel

theorem test_met_LowestContentionValueSends :
    (claims.powered = true ∧ claims.takesPart = true ∧ claims.line.phase = .idle ∧ claims.line.hold = none ∧
      claims.chosen = some ⟨.claim .wait 1 [4], some 0⟩ ∧ claims.line.yielding = false ∧
      (Frame.claim .wait 1 [4]).classCode * 16 + claims.station.toNat = 51) ∧
      act.chosen = none ∧ (at3 .detached).takesPart = false ∧
      (let j := (at3 .joining).withSnap ⟨4, .requesting, some 6, 0, none, .none, [], none⟩
       let k := peer 9 ⟨.active, 9, .matching, .none⟩ j
       let l := peer 6 ⟨.active, 9, .matching, .none⟩ j
       j.line.phase = .idle ∧ j.line.hold = none ∧ j.line.tx = none ∧ j.eligible j.donorRef = false ∧
         j.findDonor j.donorRef = none ∧ k.eligible k.donorRef = false ∧ k.findDonor k.donorRef = some 9 ∧
         l.eligible l.donorRef = true ∧ l.chosen = some ⟨.snapreq 6 4, none⟩) ∧
      (holds .detached act).line.hold.isSome = true ∧ (holds .detached act).powered = true ∧
      ((sending (.withdraw 4) none act).line.hold = none ∧
        (sending (.withdraw 4) none act).line.tx = some ⟨.withdraw 4, none⟩) ∧
      ((Frame.withdraw 4).toRaw 3).payload[0]? = some 4 ∧
      (act.line.hold = none ∧ act.line.tx = none ∧ act.line.begun = []) ∧
      ((23 : BitVec 7) ∈ [23, 117] ∧ (23 : BitVec 7).toNat < 51 ∧
        (∀ r ∈ [(23 : BitVec 7), 117], (23 : BitVec 7).toNat ≤ r.toNat) ∧
        Nat.testBit 51 (6 - 1) ≠ (23 : BitVec 7).toNat.testBit (6 - 1) ∧
        Nat.testBit 51 (6 - 0) = (23 : BitVec 7).toNat.testBit (6 - 0)) := by decide +kernel

theorem test_met_LowestClassCandidateGoes :
    claims.chosen = some ⟨.claim .wait 1 [4], some 0⟩ ∧ act.chosen = none ∧
      (act.withMember { act.member with evictWants := [(9, .dropout), (5, .dropout)] }).chosen =
        some ⟨.evict 5 .dropout, none⟩ ∧
      (let s := act.withLeases [lease 4 9 .releasePending .host, lease 7 0 .expiredPending .host]
       s.chosen = some ⟨.release .host [4], none⟩ ∧
         (s.leases.map Lease.first).Pairwise (· ≤ ·)) ∧
      ((act.withSnap { act.snap with service := [(5, 63)] }).chosen =
        some ⟨.snap 5 63 .exclusive [] [], none⟩) := by decide +kernel

theorem test_met_AcceptedTableFrameIsApplied :
    ∀ st ∈ [MState.active, .leaving],
      let s := hearing (at3 st)
      s.powered = true ∧ s.member.state = st ∧ s.line.tx = none ∧ s.line.hold = none ∧
        s.line.phase ≠ .waiting ∧ s.member.peers.length = 16 ∧
        (∀ f ∈ [Frame.claim .wait 1 [2, 63], .release .expired [0, 1, 2, 63], .withdraw 63,
            .presence .listening s.config.digest, .evict 15 .self, .evict 3 .dropout, .evict 3 .self],
          (receiveCheck s.table s.station (f.toRaw 15)).toOption = some f ∧
          (applyFrame s.table s.n s.station 15 f).reports.isEmpty =
            (f != .evict 3 .dropout && f != .evict 3 .self)) ∧
        (∀ w ∈ s.table, (w.waiters.map Waiter.station).Nodup) := by
  decide +kernel

theorem test_met_OwnAcceptedFrameIsTaken :
    let e : PendEntry := ⟨3, .host, .signal, none, [], 0, 0, .signalling, [], false⟩
    ∀ f ∈ [Frame.claim .wait 1 [4], .release .host [4], .signal 8 7, .digest 5, .presence .active 0],
      let s := sending f (some 0) (pends [e] act)
      s.powered = true ∧ s.member.state = .active ∧ s.line.tx = some ⟨f, some 0⟩ ∧
        s.line.phase ≠ .waiting ∧ s.pendAt 0 = some e := by decide +kernel

/-- An own WITHDRAW with its entry, and an own CLAIM that parks, its claim WITHDRAWING or not. -/
theorem test_met_OwnAcceptedFrameIsTaken_claims :
    (sending (.withdraw 4) (some 0) race).line.tx = some ⟨.withdraw 4, some 0⟩ ∧
      ∀ ph ∈ [Phase.outgoing, .withdrawing],
        let s := sending (.claim .wait 1 [4]) (some 0)
          (excl 4 [⟨8, 1⟩] [] (pends [claimEntry 4 .host ph] act))
        let v := takeReports (applyFrame s.table s.n s.station s.station (.claim .wait 1 [4])).reports s
        s.line.tx = some ⟨.claim .wait 1 [4], some 0⟩ ∧ s.powered = true ∧ s.member.state = .active ∧
          s.line.phase ≠ .waiting ∧ v.pendAt 0 = some (claimEntry 4 .host
            (if ph = .outgoing then .waiting else .withdrawing)) := by decide +kernel

theorem test_met_OwnAcceptedFrameIsTaken_elsewhere :
    ∀ x ∈ [(MState.leaving, Frame.evict 3 .self), (.leaving, .snap 5 63 .exclusive [] []),
        (.listening, .presence .listening 0), (.joining, .snapreq 6 4)],
      let s := sending x.2 none (at3 x.1)
      s.powered = true ∧ s.line.phase ≠ .waiting ∧ s.line.hold = none ∧ s.member.state = x.1 ∧
        s.line.tx = some ⟨x.2, none⟩ ∧ (∀ w ∈ s.table, (w.waiters.map Waiter.station).Nodup) := by
  decide +kernel

/-- The own EVICT of a peer; the own RELEASE of a host's record, with its entry, in ACTIVE and LEAVING; and the own
PRESENCE in LEAVING and in each state of a joiner's engine. -/
theorem test_met_OwnAcceptedFrameIsTaken_evict_release_presence :
    (let s := sending (.evict 9 .dropout) none act
     s.line.tx = some ⟨.evict 9 .dropout, none⟩ ∧ 9 ≠ s.station ∧ s.line.phase ≠ .waiting ∧
       s.member.peers.length = 16 ∧ s.powered = true ∧
       ((peer 9 ⟨.active, 0, .matching, .none⟩ s).peerAt 9).state ≠ .absent) ∧
    (∀ st ∈ [MState.active, .leaving],
      let s := sending (.release .host [4]) none (excl 4 [⟨3, 1⟩] []
        (pends [⟨9, .host, .release, some 4, [4], 0, 0, .releasing, [], false⟩]
          ((at3 st).withLeases [lease 4 9 .releasePending .host])))
      s.line.tx = some ⟨.release .host [4], none⟩ ∧ s.line.phase ≠ .waiting ∧ s.member.state = st ∧
        (applyFrame s.table s.n s.station s.station (.release .host [4])).reports =
          [.released [4] .host [4]] ∧
        s.leases.find? (fun x => x.tokens == [4]) = some (lease 4 9 .releasePending .host) ∧
        s.findPend (fun x => x.kind == .release && x.list == [4]) = some 0 ∧
        s.pendAt 0 = some ⟨9, .host, .release, some 4, [4], 0, 0, .releasing, [], false⟩) ∧
    (sending (.presence .active 7) none (at3 .leaving)).line.tx = some ⟨.presence .active 7, none⟩ ∧
    (∀ e ∈ [Engine.seeking, .requesting, .receiving],
      let j := sending (.presence .joining 7) none
        ((at3 .joining).withSnap ⟨4, e, some 6, 0, none, .none, [], none⟩)
      let k := peer 6 ⟨.active, 9, .matching, .none⟩ j
      j.line.tx = some ⟨.presence .joining 7, none⟩ ∧ j.findDonor j.donorRef = none ∧
        k.eligible k.donorRef = true) := by decide +kernel

theorem test_met_VoidedFrameCountsAndLimits :
    (∀ c ∈ [0, 59, 60, 63],
      let s := counters c c (sending (.signal 0 0) none act)
      s.powered = true ∧ s.takesPart = true ∧ s.line.phase ≠ .waiting ∧ s.line.hold = none ∧
        s.line.tx = some ⟨.signal 0 0, none⟩ ∧ s.line.tfc = c) ∧
      (hearing act).line.tx = none ∧
      failureOf act.table 3 ((Frame.withdraw 4).toRaw 8) none = none ∧
      failureOf act.table 3 ((Frame.withdraw 4).toRaw 8) (some 18) = some ⟨18, true⟩ ∧
      failureOf act.table 3 ((Frame.withdraw 4).toRaw 3) none = some ⟨7, false⟩ := by decide +kernel

/-- The own CLAIM of a claim that withdraws, without a CANCEL and with one. -/
theorem test_met_VoidedFrameCountsAndLimits_races :
    let c : PendEntry := ⟨41, .host, .cancel, some 4, [], 0, 0, .withdrawing, [], false⟩
    let s (es : List PendEntry) : State := sending (.claim .wait 1 [4]) (some 0) (pends es act)
    let e := claimEntry 4 .host .withdrawing
    (s [e]).pendAt 0 = some e ∧ (s [e]).cancelOf 4 = none ∧ e.origin = some 4 ∧
      (s [e, c]).cancelOf 4 = some 1 ∧ (s [e, c]).pendAt 1 = some c ∧
      (s [e, c]).line.tfc + 4 < 64 := by decide +kernel

/-- The own CLAIM of a slot's claim that withdraws; and a joiner's SNAPREQ, its donor eligible and not any more. -/
theorem test_met_VoidedFrameCountsAndLimits_slots_and_joiners :
    (let s := sending (.claim .wait 1 [21]) (some 0) (pends [claimEntry 21 (.slot 0) .withdrawing] act)
     s.pendAt 0 = some (claimEntry 21 (.slot 0) .withdrawing) ∧ s.cancelOf 21 = none ∧
       s.line.tfc + 4 < 64) ∧
    (let j := sending (.snapreq 6 4) none
      ((at3 .joining).withSnap ⟨4, .requesting, some 6, 0, none, .none, [], none⟩)
     let six := peer 6 ⟨.active, 9, .matching, .none⟩ j
     let nine := peer 9 ⟨.active, 9, .matching, .none⟩ j
     j.powered = true ∧ j.takesPart = true ∧ j.line.phase ≠ .waiting ∧ j.line.hold = none ∧
       j.line.tx = some ⟨.snapreq 6 4, none⟩ ∧ j.line.tfc + 4 < 64 ∧ six.eligible six.donorRef = true ∧
       nine.eligible nine.donorRef = false ∧ nine.findDonor nine.donorRef = some 9 ∧
       j.findDonor j.donorRef = none) := by decide +kernel

/-- A joiner's own frame, and a peer's that it objects to, at whose end a counter reaches 64 at the moment of the
snapshot timer's end, the third in a row and the second. -/
theorem test_met_VoidedFrameCountsAndLimits_two_errors :
    ∀ n ∈ [1, 2],
      let s := counters 60 60 (hearing (lost n))
      let o := sending (.presence .joining 7) none s
      s.powered = true ∧ s.member.state = .joining ∧ s.snap.engine = .receiving ∧ s.snap.timer = some 0 ∧
        s.line.phase ≠ .waiting ∧ s.line.hold = none ∧ s.line.tx = none ∧ s.line.rfc < 64 ∧
        64 ≤ s.line.rfc + 4 ∧
        failureOf s.table s.station ((Frame.withdraw 4).toRaw 8) (some 18) = some ⟨18, true⟩ ∧
        o.line.tx = some ⟨.presence .joining 7, none⟩ ∧ o.line.tfc < 64 ∧ 64 ≤ o.line.tfc + 4 ∧
        o.line.phase ≠ .waiting ∧ s.snap.failures = n ∧ s.snap.cause = .none := by decide +kernel

theorem test_met_BuiltFramesPassTheReceiveCheck :
    State.reset.table.length ≤ 64 ∧ (Frame.withdraw 63).formed State.reset.table ∧
      (Frame.claim .wait 1 [0, 1, 62, 63]).formed State.reset.table := by
  refine ⟨by decide +kernel, ?_, ?_⟩
  · show 63 < State.reset.table.length
    decide +kernel
  · unfold Frame.formed listSound
    decide +kernel

theorem test_met_single_token_claims :
    let t := (State.reset.table.set 12 ⟨.pool 6, [⟨1, 4⟩], [], .none⟩).set 4 ⟨.exclusive, [⟨1, 1⟩], [], .none⟩
    t.length = 64 ∧ (entryAt t 63).kind = .exclusive ∧ (entryAt t 63).holders = [] ∧
      (entryAt t 4).holders ≠ [] ∧ (entryAt t 12).kind = .pool 6 ∧ (entryAt t 12).waiters = [] ∧
      2 ≤ 6 - heldUnits (entryAt t 12).holders ∧ ¬ 3 ≤ 6 - heldUnits (entryAt t 12).holders ∧
      (entryAt t 12).freeTo 2 = true ∧ (entryAt t 12).freeTo 3 = false := by decide +kernel

theorem test_met_SetClaimTakesThenParks :
    let t := State.reset.table.set 8 ⟨.exclusive, [⟨6, 1⟩], [], .none⟩
    ([2, 8, 9] : List Nat).Nodup ∧ ([2, 8, 9] : List Nat) = [2] ++ [8, 9] ∧ (∀ k ∈ [2, 8, 9], k < 64) ∧
      64 ≤ t.length ∧ (∀ k ∈ [2], (entryAt t k).holders = []) ∧ (entryAt t 8).holders ≠ [] ∧
      (∀ k ∈ [2, 9], (entryAt t k).holders = []) := by decide +kernel

/-- S3's set claim of 2 and 8 waits at 8 behind S1's, with S5 at 2 behind it; and S4 waits first at the
POOL. -/
def withdrawable : List Entry :=
  ((State.reset.table.set 2 ⟨.exclusive, [⟨3, 1⟩], [⟨5, 1, [2], 0⟩], .none⟩).set 8
    ⟨.exclusive, [⟨6, 1⟩], [⟨1, 1, [8], 0⟩, ⟨3, 1, [2, 8], 1⟩], .none⟩).set 12
    ⟨.pool 6, [⟨1, 4⟩], [⟨4, 3, [12], 0⟩, ⟨9, 2, [12], 0⟩], .none⟩

/-- A WITHDRAW with no record, of one at position 0 behind another, of the head of a POOL, and of a set
claim. -/
theorem test_met_SetClaimTakesThenParks_withdraw :
    let t := withdrawable
    let mine (st : Addr) (o : Nat) (w : Waiter) : Bool := decide (w.station = st ∧ w.list.head? = some o)
    let nowhere (st : Addr) (o n : Nat) : Bool :=
      (List.range n).all (fun k => (entryAt t k).waiters.all (fun w => !mine st o w))
    64 ≤ t.length ∧ nowhere 3 7 64 = true ∧
      ((entryAt t 8).waiters = [] ++ ⟨1, 1, [8], 0⟩ :: [⟨3, 1, [2, 8], 1⟩] ∧ nowhere 1 8 8 = true ∧
        (entryAt t 8).kind = .exclusive) ∧
      ((entryAt t 12).waiters = [] ++ ⟨4, 3, [12], 0⟩ :: [⟨9, 2, [12], 0⟩] ∧ nowhere 4 12 12 = true ∧
        (entryAt t 12).kind = .pool 6) ∧
      ((entryAt t 8).waiters = [⟨1, 1, [8], 0⟩] ++ ⟨3, 1, [2, 8], 1⟩ :: [] ∧ nowhere 3 2 8 = true ∧
        mine 3 2 ⟨1, 1, [8], 0⟩ = false ∧ ([2, 8] : List Nat).take 1 = [2] ∧ 8 ∉ [2] ∧
        (entryAt t 2).kind = .exclusive ∧ (entryAt t 2).holders = [⟨3, 1⟩] ∧
        (entryAt t 2).waiters.head? = some ⟨5, 1, [2], 0⟩) := by decide +kernel

theorem test_met_ReleasedExclusivePassesToTheHead :
    let t := ((State.reset.table.set 4 ⟨.exclusive, [⟨8, 1⟩], [⟨3, 1, [2, 4], 1⟩], .none⟩).set 5
      ⟨.exclusive, [⟨8, 1⟩], [], .none⟩).set 6 ⟨.exclusive, [⟨8, 1⟩], [⟨3, 1, [6, 7, 63, 5], 0⟩], .none⟩
    (entryAt t 4).kind = .exclusive ∧ (entryAt t 4).heldBy 3 = false ∧
      (entryAt t 4).holders = [⟨8, 1⟩] ∧ (entryAt t 4).waiters = ⟨3, 1, [2, 4], 1⟩ :: [] ∧
      (entryAt t 5).holders = [⟨8, 1⟩] ∧ (entryAt t 5).waiters = [] ∧
      (entryAt t 6).waiters = ⟨3, 1, [6, 7, 63, 5], 0⟩ :: [] ∧
      ([6, 7, 63, 5] : List Nat).drop (0 + 1) = [7, 63] ++ [5] ∧ (6 :: ([7, 63] ++ [5])).Nodup ∧
      (∀ j ∈ [7, 63], (entryAt t j).holders = []) ∧ 64 ≤ t.length := by decide +kernel

/-- S8 releases 4 and 63 together, and S3's set claim waits at 4 and goes on at 63. -/
theorem test_met_ReleasedExclusivePassesToTheHead_several :
    let t := (State.reset.table.set 4 ⟨.exclusive, [⟨8, 1⟩], [⟨3, 1, [2, 4, 63], 1⟩], .none⟩).set 63
      ⟨.exclusive, [⟨8, 1⟩], [], .none⟩
    4 < 63 ∧ 63 < 64 ∧ 64 ≤ t.length ∧ (entryAt t 4).kind = .exclusive ∧ (entryAt t 63).kind = .exclusive ∧
      (entryAt t 4).holders = [⟨8, 1⟩] ∧ (entryAt t 63).holders = [⟨8, 1⟩] ∧
      (entryAt t 4).waiters = ⟨3, 1, [2, 4, 63], 1⟩ :: [] ∧ (entryAt t 63).waiters = [] ∧
      ([2, 4, 63] : List Nat).drop (1 + 1) = [63] := by decide +kernel

theorem test_met_ReleasedPoolServesTheQueueInOrder :
    let e := entryAt (poolTable [⟨1, 4⟩] [⟨4, 3, [12], 0⟩, ⟨9, 2, [12], 0⟩]) 12
    e.kind = .pool 6 ∧ (1 ≤ 6 ∧ heldUnits e.holders ≤ 6) ∧ e.heldBy 1 = true := by decide +kernel

theorem test_met_EvictionLeavesNothingOfTheTarget :
    ∀ e ∈ poolTable [⟨1, 4⟩] [⟨4, 3, [12], 0⟩, ⟨9, 2, [12], 0⟩], (e.waiters.map Waiter.station).Nodup := by
  decide +kernel

theorem test_met_ReportsReachTheirUnits :
    (∀ src ∈ [Source.host, .slot 3], ∀ ph ∈ [Phase.waiting, .outgoing],
      let s := pends [claimEntry 4 src ph] act
      s.claimOf 4 = some 0 ∧ s.pendAt 0 = some (claimEntry 4 src ph) ∧ s.cancelOf 4 = none) ∧
    (race.claimOf 4 = some 0 ∧ race.pendAt 0 = some (claimEntry 4 .host .withdrawing) ∧
      race.cancelOf 4 = some 1 ∧
      race.pendAt 1 = some ⟨41, .host, .cancel, some 4, [], 0, 0, .withdrawing, [], false⟩) ∧
    (∀ st ∈ [LeaseState.expiredPending, .releasePending], ∀ src ∈ [Source.host, .slot 3],
      let s := pends [⟨9, .host, .release, some 4, [4], 0, 0, .releasing, [], false⟩]
        (act.withLeases [lease 4 9 st src])
      s.leases.find? (fun x => x.tokens == [4]) = some (lease 4 9 st src) ∧
        s.findPend (fun x => x.kind == .release && x.list == [4]) = some 0 ∧
        s.pendAt 0 = some ⟨9, .host, .release, some 4, [4], 0, 0, .releasing, [], false⟩) := by decide +kernel

/-- The claim of a WITHDRAWING slot. -/
theorem test_met_ReportsReachTheirUnits_withdrawing_slot :
    let s := pends [claimEntry 21 (.slot 0) .withdrawing]
      (slot0 { aSlot .follow 1 .withdrawing with heldPlace := true } act)
    s.claimOf 21 = some 0 ∧ s.pendAt 0 = some (claimEntry 21 (.slot 0) .withdrawing) ∧ s.cancelOf 21 = none ∧
      (s.slotAt 0).state = .withdrawing ∧ s.leaseOfSlot 0 = none ∧ s.slots.length = 4 ∧ s.leases = [] := by
  decide +kernel

theorem test_met_TickCountsEveryTimer :
    State.reset.time.running = false ∧ act.time.running = true ∧ act.takesPart = true ∧
      (at3 .detached).time.running = true ∧ (at3 .detached).takesPart = false ∧
      (act.classParams 1).v.toNat + 1 = 101 := by decide +kernel

theorem test_met_TimersActAtZero :
    (∀ src ∈ [Source.host, .slot 3],
      let s := act.withLeases [lease 63 0 .warned src]
      s.leaseOf 63 = some (lease 63 0 .warned src)) ∧
      (lease 63 1 .running .host).counter ≠ 0 ∧ act.leaseOf 63 = none ∧
      (act.withMember { act.member with presenceTimer := some 0 }).takesPart = true ∧
      act.member.presenceTimer ≠ some 0 ∧ act.digest.timer ≠ some 0 := by decide +kernel

theorem test_met_SilentPeerDropsOut :
    (∀ st ∈ [MState.active, .joining], ∀ ps ∈ [PeerState.active, .listening],
      let s := peer 15 ⟨ps, 0, .matching, .none⟩ (at3 st)
      s.powered = true ∧ s.takesPart = true ∧ 15 ≠ s.station ∧ s.member.peers.length = 16 ∧
        (s.peerAt 15).state = ps ∧ (s.peerAt 15).dropout = 0 ∧ s.wantsEvict 15 = false) ∧
      (act.peerAt 0).state = .absent := by decide +kernel

/-- The dropout of a joiner's chosen donor, with its SNAPREQ on the line and without, with another donor and
without one; and the dropout of another peer. -/
theorem test_met_SilentPeerDropsOut_donors :
    let j := (at3 .joining).withSnap ⟨4, .requesting, some 6, 0, none, .none, [], none⟩
    let s := peer 6 ⟨.active, 0, .matching, .none⟩ j
    s.member.state = .joining ∧ s.snap.engine = .requesting ∧ s.line.tx = none ∧ 6 = s.donorRef ∧
      (s.peerAt 6).dropout = 0 ∧ s.wantsEvict 6 = false ∧
      (sending (.snapreq 6 4) none s).line.ownFrame = some ⟨.snapreq 6 4, none⟩ ∧ s.line.ownFrame = none ∧
      (peer 9 ⟨.active, 5, .matching, .none⟩ j).findDonor 6 = some 9 ∧ j.findDonor 6 = none ∧
      (let k := peer 9 ⟨.listening, 0, .matching, .none⟩ s
       9 ≠ k.donorRef ∧ k.eligible k.donorRef = true ∧ (k.peerAt 9).state ≠ .active) := by decide +kernel

/-- The frames of the first part, in each state that takes part in the line; the last PRESENCE conflicts. -/
theorem test_met_SilentPeerDropsOut_frames :
    ∀ st ∈ [MState.listening, .joining, .active, .leaving],
      let s := hearing (at3 st)
      s.powered = true ∧ s.takesPart = true ∧ s.line.tx = none ∧ s.line.hold = none ∧
        s.line.phase ≠ .waiting ∧ s.member.peers.length = 16 ∧
        (∀ f ∈ [Frame.claim .wait 1 [2, 63], .snapreq 3 63, .snapreq 9 0, .evict 9 .dropout, .evict 1 .self,
            .presence .listening s.config.digest, .presence .active (~~~s.config.digest)],
          (receiveCheck s.table s.station (f.toRaw 1)).toOption = some f) ∧
        senderOf ((Frame.snapreq 3 63).toRaw 1) = 1 := by decide +kernel

theorem test_met_ListenIntervalFoundsOrJoins :
    (∀ b ∈ [true, false], (listened b).powered = true ∧ (listened b).member.state = .listening ∧
      (listened b).member.listenTimer = some 0 ∧ (listened b).member.activeSeen = b) ∧
      (peer 6 ⟨.active, 9, .matching, .none⟩ (listened true)).findDonor 15 = some 6 ∧
      (listened true).findDonor 15 = none ∧ act.member.state ≠ .listening := by decide +kernel

theorem test_met_LostDonorIsReplacedTwice :
    (∀ n ∈ [0, 1, 2], (lost n).powered = true ∧ (lost n).member.state = .joining ∧
      (lost n).snap.engine = .receiving ∧ (lost n).snap.timer = some 0 ∧ (lost n).snap.failures = n ∧
      (lost n).line.tx = none ∧ (lost n).line.hold = none) ∧
      (lost 0).findDonor (lost 0).donorRef = none ∧
      (peer 6 ⟨.active, 9, .matching, .none⟩ (lost 1)).findDonor 6 = some 6 ∧
      ((sending (.presence .joining 0) none (lost 2)).line.tx.isSome = true ∧
        (sending (.presence .joining 0) none (lost 2)).line.hold = none) ∧
      (hearing (lost 2)).line.phase ≠ .waiting ∧ (⟨true, 40, true⟩ : HoldPlace).frameEnds = true := by
  decide +kernel

/-- S3 joining at a cursor in a frame, token 2 held by S1. -/
def joins (engine : Engine) (cursor : Nat) : State :=
  hearing (excl 2 [⟨1, 1⟩] [] ((at3 .joining).withSnap ⟨cursor, engine, none, 0, some 9, .none, [], none⟩))

/-- A SNAP at the cursor, the last one and another one; frames below the cursor; a WITHDRAW that nothing
below the cursor answers; and a search that ends with the sender. -/
theorem test_met_LostDonorIsReplacedTwice_frames :
    (∀ c ∈ [4, 63], ∀ e ∈ [Engine.seeking, .requesting, .receiving],
      let s := joins e c
      s.powered = true ∧ s.member.state = .joining ∧ s.line.tx = none ∧ s.line.hold = none ∧
        s.line.phase ≠ .waiting ∧ s.member.peers.length = 16 ∧ s.snap.engine = e ∧
        (∀ f ∈ [Frame.snap 3 c .exclusive [⟨1, 1⟩] [], .snap 3 5 .exclusive [] [], .claim .wait 1 [2, 63],
            .release .host [2], .evict 9 .dropout, .claim .wait 1 [63],
            .presence .listening s.config.digest, .withdraw 3, .withdraw 2],
          (receiveCheck s.table s.station (f.toRaw 1)).toOption = some f) ∧
        s.snap.cursor = c ∧ (entryAt s.table 2).heldBy 1 = true ∧ (entryAt s.table 3).heldBy 1 = false ∧
        (∀ e ∈ s.table, e.waiters = [])) ∧
      (let s := joins .seeking 4
       s.snap.engine = .seeking ∧ (∀ i < 16, s.eligible (BitVec.ofNat 4 i) = false) ∧
         (receiveCheck s.table s.station
           ((Frame.presence .active s.config.digest).toRaw 1)).toOption =
           some (.presence .active s.config.digest)) := by decide +kernel

/-- A joiner in REQUESTING whose donor, S6, sends a PRESENCE of a newcomer or is evicted, with another donor and
without one, and whose donor stays; and a search that a SNAP of S9 ends, once that has shown S9 ACTIVE. -/
theorem test_met_LostDonorIsReplacedTwice_donors :
    let s := hearing (peer 6 ⟨.active, 9, .matching, .none⟩
      ((at3 .joining).withSnap ⟨4, .requesting, some 6, 0, none, .none, [], none⟩))
    let k := hearing (peer 9 ⟨.listening, 9, .matching, .none⟩
      ((at3 .joining).withSnap ⟨4, .seeking, some 6, 0, some 9, .none, [], none⟩))
    s.snap.engine = .requesting ∧ s.donorRef = 6 ∧ s.eligible s.donorRef = true ∧
      (∀ f ∈ [Frame.presence .listening s.config.digest, .presence .joining (~~~s.config.digest),
          .evict 6 .self, .digest 4],
        (receiveCheck s.table s.station (f.toRaw 6)).toOption = some f ∧ senderOf (f.toRaw 6) = 6) ∧
      nextHas (exec (hears 6 (.evict 6 .self)) s) (fun t => t.findDonor 6 == none) = true ∧
      nextHas (exec (hears 6 (.evict 6 .self)) (peer 9 ⟨.active, 9, .matching, .none⟩ s))
        (fun t => t.findDonor 6 == some 9) = true ∧
      nextHas (exec (hears 9 (.snap 3 4 .exclusive [] [])) k) (fun t => t.findDonor 6 == some 9) = true := by
  decide +kernel

/-- S3 in a frame, slot 0 armed for signal code 7. -/
def awaits : State := hearing (slot0 { aSlot .single 3 .armed with code := 7 } act)

theorem test_met_SignalSetsLatchAndTriggers :
    awaits.powered = true ∧ awaits.member.state = .active ∧ awaits.line.tx = none ∧
      awaits.line.hold = none ∧ awaits.line.phase ≠ .waiting ∧ awaits.slots.length = 4 ∧
      (hearing (at3 .leaving)).member.state = .leaving := by decide +kernel

theorem test_met_SignalSetsLatchAndTriggers_frames :
    (receiveCheck State.reset.table 3 ((Frame.signal 0x0008 7).toRaw 1)).toOption = some (.signal 0x0008 7) ∧
      (receiveCheck State.reset.table 3 ((Frame.signal 0x0100 7).toRaw 1)).toOption =
        some (.signal 0x0100 7) ∧ (0x0100 : Half).getLsbD 3 = false := by decide +kernel

/-- A peer's DIGEST at S3 in ACTIVE and LEAVING. -/
theorem test_met_SignalSetsLatchAndTriggers_digest :
    ∀ st ∈ [MState.active, .leaving],
      let s := hearing (at3 st)
      s.powered = true ∧ s.member.state = st ∧ s.line.tx = none ∧ s.line.hold = none ∧
        s.line.phase ≠ .waiting ∧ s.member.peers.length = 16 ∧
        (receiveCheck s.table s.station ((Frame.digest 5).toRaw 1)).toOption = some (.digest 5) := by
  decide +kernel

/-- The counters and the queue of the state after reset meet the premises of the invariants; the law of R18,
the soundness of the replica and the sizes hold of it by InvariantsHoldAtReset. -/
theorem test_met_invariants :
    State.reset.line.rfc ≤ 64 ∧ State.reset.line.tfc ≤ 64 ∧ State.reset.line.tx = none ∧
      State.reset.config.status ≠ .busy ∧
      (∀ e ∈ State.reset.table, e.kind = .exclusive ∧ e.holders.length ≤ 1) ∧
      nextIs (step State.reset) State.reset = true := by decide +kernel

/-- A frame that meets the premises of the invariants on the frames handed over: S1's CLAIM of free tokens,
and a grant of the own claim with its list. -/
theorem test_met_handed_over_frames :
    (let s := (hearing act).withPending [hears 1 (.claim .wait 1 [2, 63])]
     (s.handedOver (hears 1 (.claim .wait 1 [2, 63]))) = some (1, .claim .wait 1 [2, 63]) ∧
       ([2, 63] : List Nat).Nodup ∧ (∀ k ∈ [2, 63], k ∉ claimedBy s.table 1) ∧
       (∀ k ∈ [2, 63], (entryAt s.table k).kind = .exclusive)) ∧
    (let s := (hearing race).withPending [hears 8 (.release .host [4])]
     (s.handedOver (hears 8 (.release .host [4]))) = some (8, .release .host [4]) ∧
       (applyFrame s.table s.n s.station 8 (.release .host [4])).reports = [.grant 4 4 1 (some [4])] ∧
       s.claimOf 4 = some 0 ∧ s.pendAt 0 = some (claimEntry 4 .host .withdrawing) ∧
       s.ownTokens = [4]) := by decide +kernel

end Sys2Proof.Tests
end

