-- ==== Sys2Proof/Proofs/SingleTokenClaim.lean ====
section
/-! PROOFS. What a CLAIM naming one token does (R28, R30): when an entry is free, the grant, the refusal, and
the two statements on TRY claims. -/

namespace Sys2Proof.Machine

/-! ## When an entry is free (R21) -/

/-- Only the holders of an EXCLUSIVE entry count, not its queue nor the units asked for. -/
theorem Entry.freeTo_exclusive {e : Entry} {u : Nat} (h : e.kind = .exclusive) :
    e.freeTo u = true ↔ e.holders = [] := by
  simp [Entry.freeTo, h]

/-- A claim asks for one unit at least: were it none, an overfull POOL would tell the two sides apart. -/
theorem Entry.freeTo_pool {e : Entry} {c u : Nat} (h : e.kind = .pool c) (hu : 1 ≤ u) :
    e.freeTo u = true ↔ e.waiters = [] ∧ u ≤ c - heldUnits e.holders := by
  have fits : u + heldUnits e.holders ≤ c ↔ u ≤ c - heldUnits e.holders := by omega
  simp [Entry.freeTo, h, fits]

namespace Applying

/-! ## The fields after an operation -/

@[simp] theorem report_table (a : Applying) (st : Addr) (r : Report) : (a.report st r).table = a.table := by
  unfold report; split <;> rfl

theorem report_reports (a : Applying) (st : Addr) (r : Report) :
    (a.report st r).reports = a.reports ++ if st = a.self then [r] else [] := by
  unfold report; split <;> simp

@[simp] theorem update_self (a : Applying) (k : Nat) (f : Entry → Entry) : (a.update k f).self = a.self := rfl

@[simp] theorem update_reports (a : Applying) (k : Nat) (f : Entry → Entry) :
    (a.update k f).reports = a.reports := rfl

/-- The table after an update, as the one entry set. -/
theorem update_table (a : Applying) (k : Nat) (f : Entry → Entry) (h : k < a.table.length) :
    (a.update k f).table = a.table.set k { f (a.entry k) with change := a.change } := by
  refine List.ext_getElem? (fun i => ?_)
  simp only [update, List.getElem?_modify, List.getElem?_set]
  by_cases hi : k = i
  · subst hi
    simp [entry, entryAt, List.getD, h]
  · simp [hi]

/-! ## A claim of one token below the limit -/

/-- In either mode a claim that finds its token free is granted. -/
theorem claim_of_freeTo (a : Applying) (st : Addr) (m : ClaimMode) {u k : Nat} (hk : k < a.limit)
    (hf : (a.entry k).freeTo u = true) :
    a.claim st m u [k] = (a.addHolder k st u).report st (.grant k k u (some [k])) := by
  simp [claim, hf, Nat.not_le.2 hk]

/-- A TRY claim that finds its token not free is answered with the report of the refusal alone. -/
theorem claim_try_of_not_freeTo (a : Applying) (st : Addr) {u k : Nat} (hk : k < a.limit)
    (hf : ¬ (a.entry k).freeTo u = true) :
    a.claim st .tryNow u [k] = a.report st (.refused k) := by
  simp [claim, hf, Nat.not_le.2 hk]

end Applying

/-! ## The frame applied to a table -/

section
variable {t : List Entry} {limit k : Nat} (self st : Addr) {u : Nat}

/-- The accepted frame of a claim of one free token, in either mode. -/
theorem applyFrame_claim_of_freeTo (m : ClaimMode) (hk : k < limit) (hl : limit ≤ t.length)
    (hf : (entryAt t k).freeTo u = true) :
    let a := applyFrame t limit self st (.claim m u [k])
    a.table = t.set k { entryAt t k with holders := (entryAt t k).holders ++ [⟨st, u⟩], change := .claimed } ∧
      a.reports = if st = self then [.grant k k u (some [k])] else [] := by
  have granted : applyFrame t limit self st (.claim m u [k]) = _ :=
    Applying.claim_of_freeTo ⟨t, limit, .claimed, self, []⟩ st m hk hf
  simp only [granted, Applying.report_table, Applying.report_reports]
  exact ⟨Applying.update_table _ k _ (Nat.lt_of_lt_of_le hk hl), rfl⟩

/-- The accepted frame of a TRY claim of one token that is not free. -/
theorem applyFrame_claim_try_of_not_freeTo (hk : k < limit) (hf : ¬ (entryAt t k).freeTo u = true) :
    let a := applyFrame t limit self st (.claim .tryNow u [k])
    a.table = t ∧ a.reports = if st = self then [.refused k] else [] := by
  have refused : applyFrame t limit self st (.claim .tryNow u [k]) = _ :=
    Applying.claim_try_of_not_freeTo ⟨t, limit, .claimed, self, []⟩ st hk hf
  exact ⟨by simp only [refused, Applying.report_table],
    by simp only [refused, Applying.report_reports, List.nil_append]⟩

end

/-- Settles O44: an EXCLUSIVE token is free when it has no holder, so the new one is its only holder. -/
theorem tryClaimOfAnExclusiveToken : Obligations.TryClaimOfAnExclusiveToken := by
  intro t limit self st k hk hl hkind
  have free := Entry.freeTo_exclusive (u := 1) hkind
  constructor
  · intro unheld
    simpa only [unheld, List.nil_append] using
      applyFrame_claim_of_freeTo self st .tryNow hk hl (free.2 unheld)
  · intro held
    exact applyFrame_claim_try_of_not_freeTo self st hk (mt free.1 held)

/-- Settles O45: the units and the queue decide alike whether a POOL token is free. -/
theorem tryClaimOfAPoolToken : Obligations.TryClaimOfAPoolToken := by
  intro t limit self st k u c hk hl hkind hu
  have free := Entry.freeTo_pool hkind hu
  exact ⟨fun fits => applyFrame_claim_of_freeTo self st .tryNow hk hl (free.2 fits),
    fun short => applyFrame_claim_try_of_not_freeTo self st hk (mt free.1 short)⟩

end Sys2Proof.Machine
end

