-- ==== Sys2Proof/Proofs/Query.lean ====
section
/-! PROOFS. How the dispatcher hands over its head (R132), and what a QUERY is answered (R50, R147). -/

namespace Sys2Proof.Machine

/-! ## The head at the dispatcher -/

/-- A head of the command's kind is popped before its request is taken. -/
theorem takeHead_of_dispatchable {k : Option ReqKind} {f : Request → State → State} {s : State} {r : Request}
    (hd : s.dispatchable = some r) (hk : kindOfCode r.code = k) : takeHead k f s = f r (popRequest s) := by
  simp [takeHead, hd, hk]

theorem kindOfCode_query {code : Byte} (h : code = 0x06) : kindOfCode code = some .query := by
  subst h; rfl

/-! ## The states with a valid table (R45) -/

theorem MState.hasTable_iff (m : MState) : m.hasTable = true ↔ m = .active ∨ m = .leaving := by
  cases m <;> decide

theorem MState.hasTable_eq_false {m : MState} (ha : m ≠ .active) (hl : m ≠ .leaving) : m.hasTable = false :=
  Bool.eq_false_iff.2 (fun h => ((hasTable_iff m).1 h).elim ha hl)

/-! ## The value of TOKEN_KIND (R182) -/

@[simp] theorem TokenKind.byte_exclusive_toNat : TokenKind.exclusive.byte.toNat = 0 := rfl

@[simp] theorem TokenKind.byte_pool_toNat (c : Nat) : (TokenKind.pool c).byte.toNat = c % 256 :=
  BitVec.toNat_ofNat c 8

/-! ## The three answers to a QUERY (R147) -/

theorem takeQuery_of_no_table {r : Request} {s : State} (h : s.member.state.hasTable = false) :
    takeQuery r s = pushCompletion (.bare .notActive r.tag .host ReqKind.query.code) s := by
  simp [takeQuery, h]

theorem takeQuery_of_token_out {r : Request} {s : State} (h : s.member.state.hasTable = true)
    (ht : s.n ≤ r.b2.toNat) :
    takeQuery r s = pushCompletion (.bare .badRequest r.tag .host ReqKind.query.code) s := by
  simp [takeQuery, h, ht]

theorem takeQuery_of_token {r : Request} {s : State} (h : s.member.state.hasTable = true)
    (ht : r.b2.toNat < s.n) :
    takeQuery r s = pushCompletion (queryResult r.tag (entryAt s.table r.b2.toNat)) s := by
  simp [takeQuery, h, Nat.not_le.2 ht]

theorem exec_query (s : State) : exec .query s = execQuery s := rfl

theorem exec_query_of_dispatchable {s : State} {r : Request} (hp : s.powered = true)
    (hd : s.dispatchable = some r) (hc : r.code = 0x06) :
    exec .query s = .next (takeQuery r (popRequest s)) := by
  rw [exec_query, execQuery, live_on hp, takeHead_of_dispatchable hd (kindOfCode_query hc)]

/-- Settles O32: the pop before the checks leaves the state, the grade and the replica that they read. -/
theorem queryAnswersFromTheReplica : Obligations.QueryAnswersFromTheReplica := by
  intro s r hp hd hc p e answers refuses
  have taken := exec_query_of_dispatchable hp hd hc
  have refused {st : Status}
      (h : takeQuery r p = pushCompletion (.bare st r.tag .host ReqKind.query.code) p) : refuses st :=
    ⟨.bare st r.tag .host ReqKind.query.code, rfl, rfl, rfl, rfl, taken.trans (congrArg _ h)⟩
  refine ⟨fun notActive notLeaving => ?_, fun hasTable tokenOut => ?_, fun hasTable token => ?_⟩
  · exact refused (takeQuery_of_no_table (MState.hasTable_eq_false notActive notLeaving))
  · exact refused (takeQuery_of_token_out ((MState.hasTable_iff _).2 hasTable) tokenOut)
  · have answered : takeQuery r p = pushCompletion (queryResult r.tag e) p :=
      takeQuery_of_token ((MState.hasTable_iff _).2 hasTable) token
    refine taken.trans (congrArg _ (answered.trans (congrArg (pushCompletion · p) ?_)))
    cases hk : e.kind with
    | exclusive =>
      simp only [queryResult, hk, TokenKind.byte_exclusive_toNat]
      rfl
    | pool c =>
      simp only [queryResult, hk, TokenKind.byte_pool_toNat]
      rfl

end Sys2Proof.Machine
end

