-- ==== Sys2Proof/Proofs/KeptBase.lean ====
section
/-! PROOFS. What the operations leave alone. `State.base` gathers the records that no operation of the blocks
changes: the identity of the part, its pins and supply, its configuration, the time base, the port and the
queue. -/

namespace Sys2Proof.Machine

/-! ## The base of a state -/

/-- The records outside the blocks of the line, the table, the membership and the units. -/
structure Base where
  grade : Grade
  powered : Bool
  addrPins : Addr
  trgPins : BitVec 4
  station : Addr
  config : ConfigBlock
  time : TimeBase
  port : Port
  freeCount : Nat
  pending : List Instr

def State.base (s : State) : Base :=
  ⟨s.grade, s.powered, s.addrPins, s.trgPins, s.station, s.config, s.time, s.port, s.freeCount, s.pending⟩

section
variable {s t : State} (h : t.base = s.base)
include h

theorem grade_of_base : t.grade = s.grade := congrArg Base.grade h
theorem powered_of_base : t.powered = s.powered := congrArg Base.powered h
theorem addrPins_of_base : t.addrPins = s.addrPins := congrArg Base.addrPins h
theorem trgPins_of_base : t.trgPins = s.trgPins := congrArg Base.trgPins h
theorem station_of_base : t.station = s.station := congrArg Base.station h
theorem config_of_base : t.config = s.config := congrArg Base.config h
theorem time_of_base : t.time = s.time := congrArg Base.time h
theorem port_of_base : t.port = s.port := congrArg Base.port h
theorem freeCount_of_base : t.freeCount = s.freeCount := congrArg Base.freeCount h
theorem pending_of_base : t.pending = s.pending := congrArg Base.pending h
theorem n_of_base : t.n = s.n := congrArg (fun b : Base => b.grade.tokens) h

end

theorem OnlyUnits.base {s t : State} (h : OnlyUnits s t) : t.base = s.base := by
  obtain ⟨_, _, _, _, rfl⟩ := h; rfl

/-! ## Setters -/

@[simp] theorem base_withLine (s : State) (x : Line) : (s.withLine x).base = s.base := rfl
@[simp] theorem base_withTable (s : State) (x : List Entry) : (s.withTable x).base = s.base := rfl
@[simp] theorem base_withMember (s : State) (x : Member) : (s.withMember x).base = s.base := rfl
@[simp] theorem base_withSnap (s : State) (x : Snap) : (s.withSnap x).base = s.base := rfl
@[simp] theorem base_withDigest (s : State) (x : DigestUnit) : (s.withDigest x).base = s.base := rfl
@[simp] theorem base_withLeases (s : State) (x : List Lease) : (s.withLeases x).base = s.base := rfl
@[simp] theorem base_withReq (s : State) (x : Requests) : (s.withReq x).base = s.base := rfl
@[simp] theorem base_withSlots (s : State) (x : List Slot) : (s.withSlots x).base = s.base := rfl
@[simp] theorem base_withEvents (s : State) (x : Events) : (s.withEvents x).base = s.base := rfl
@[simp] theorem base_withErrors (s : State) (x : Errors) : (s.withErrors x).base = s.base := rfl

/-! ## The units -/

@[simp] theorem base_setEvent (e : Event) (s : State) : (setEvent e s).base = s.base := rfl
@[simp] theorem base_setEventIf (c : Bool) (e : Event) (s : State) : (setEventIf c e s).base = s.base :=
  (setEventIf_only c e s).base
@[simp] theorem base_pushCompletion (c : Completion) (s : State) : (pushCompletion c s).base = s.base := rfl
@[simp] theorem base_addPend (e : PendEntry) (s : State) : (addPend e s).base = s.base := rfl
@[simp] theorem base_triggerSignal (c : BitVec 3) (s : State) : (triggerSignal c s).base = s.base :=
  (triggerSignal_only c s).base
@[simp] theorem base_triggerActivation (s : State) : (triggerActivation s).base = s.base :=
  (triggerActivation_only s).base
@[simp] theorem base_takeReports (rs : List Report) (s : State) : (takeReports rs s).base = s.base :=
  (takeReports_only rs s).base
@[simp] theorem base_outgoingAccepted (n : Nat) (f : Frame) (s : State) :
    (outgoingAccepted n f s).base = s.base := (outgoingAccepted_only n f s).base
@[simp] theorem base_outgoingVoided (n : Nat) (f : Frame) (s : State) :
    (outgoingVoided n f s).base = s.base := (outgoingVoided_only n f s).base
@[simp] theorem base_logError (k : ErrKind) (h : Header) (s : State) : (logError k h s).base = s.base := by
  rw [logError_eq]; rfl

/-! ## The Snapshot Engine -/

@[simp] theorem base_requestFrom (d : Addr) (s : State) : (requestFrom d s).base = s.base := rfl
@[simp] theorem base_chooseDonor (a : Addr) (s : State) : (chooseDonor a s).base = s.base := by
  unfold chooseDonor; split <;> rfl
@[simp] theorem base_watchDonor (s : State) : (watchDonor s).base = s.base := by
  unfold watchDonor; split
  · exact base_chooseDonor _ s
  · rfl
@[simp] theorem base_seekDonor (s : State) : (seekDonor s).base = s.base := by
  unfold seekDonor; split
  · split <;> rfl
  · rfl
@[simp] theorem base_idleEngine (s : State) : (idleEngine s).base = s.base := rfl
@[simp] theorem base_takeSnap (i : Nat) (k : TokenKind) (hs : List Holder) (ws : List Waiter) (s : State) :
    (takeSnap i k hs ws s).base = s.base := rfl
@[simp] theorem base_snapreqAccepted (d : Addr) (s : State) : (snapreqAccepted d s).base = s.base := rfl
@[simp] theorem base_serviceRemove (j : Addr) (s : State) : (serviceRemove j s).base = s.base := rfl
@[simp] theorem base_serviceAdd (j : Addr) (i : Nat) (s : State) : (serviceAdd j i s).base = s.base := rfl
@[simp] theorem base_ownSnapAccepted (j : Addr) (i : Nat) (s : State) :
    (ownSnapAccepted j i s).base = s.base := by
  unfold ownSnapAccepted; split <;> rfl
@[simp] theorem base_serviceFrame (st : MState) (a : Addr) (own : Bool) (f : Frame) (s : State) :
    (serviceFrame st a own f s).base = s.base := by
  unfold serviceFrame
  cases f with
  | presence st d => cases st <;> cases own <;> rfl
  | snap j i k hs ws => cases own <;> simp
  | snapreq d i => dsimp only; split <;> [rfl; split <;> [split <;> rfl; rfl]]
  | _ => rfl

/-! ## The Membership Controller -/

@[simp] theorem base_clearPeers (s : State) : (clearPeers s).base = s.base := by rw [clearPeers_eq]; rfl
@[simp] theorem base_setMState (st : MState) (s : State) : (setMState st s).base = s.base := rfl
@[simp] theorem base_listeningActions (w : Bool) (s : State) : (listeningActions w s).base = s.base := by
  rw [listeningActions_eq]; rfl
@[simp] theorem base_enterListening (w : Bool) (s : State) : (enterListening w s).base = s.base := by
  rw [enterListening_eq]; simp
@[simp] theorem base_enterDetached (s : State) : (enterDetached s).base = s.base := rfl
@[simp] theorem base_becomeActive (s : State) : (becomeActive s).base = s.base := by simp [becomeActive]
@[simp] theorem base_found (s : State) : (found s).base = s.base := by simp [found]
@[simp] theorem base_enterJoining (s : State) : (enterJoining s).base = s.base := by simp [enterJoining]
@[simp] theorem base_joinComplete (s : State) : (joinComplete s).base = s.base := by simp [joinComplete]
theorem enterLeaving_eq (s : State) : enterLeaving s =
    ((((s.withLine { s.line with yielding := false }).withMember
      { s.member with state := .leaving, evictWants := (s.station, .self) :: s.member.evictWants }).withSnap
      { s.snap with service := [] }).withDigest .initial).withEvents
      { s.events with latched := s.events.latched ||| Event.membership.mask } := by
  unfold enterLeaving
  rw [setMState_eq]
  rfl
@[simp] theorem base_enterLeaving (s : State) : (enterLeaving s).base = s.base := by
  simp [enterLeaving_eq]
@[simp] theorem base_purgeCandidates (s : State) : (purgeCandidates s).base = s.base := rfl
@[simp] theorem base_purgeSlots (s : State) : (purgeSlots s).base = s.base := by simp [purgeSlots]
@[simp] theorem base_purgeEntries (st : Status) (s : State) : (purgeEntries st s).base = s.base := rfl
@[simp] theorem base_purge (dest : MState) (st : Status) (s : State) : (purge dest st s).base = s.base := by
  unfold purge; dsimp only; split <;> simp
@[simp] theorem base_detachJoiner (s : State) : (detachJoiner s).base = s.base := by simp [detachJoiner]
@[simp] theorem base_leaveNow (dest : MState) (st : Status) (s : State) : (leaveNow dest st s).base = s.base := by
  unfold leaveNow; split <;> simp
@[simp] theorem base_leaveAtOnce (dest : MState) (st : Status) (ends : Bool) (s : State) :
    (leaveAtOnce dest st ends s).base = s.base := by
  cases ends
  · simp
  · simp [leaveAtOnce_true]
@[simp] theorem base_leave (dest : MState) (st : Status) (place : HoldPlace) (s : State) :
    (leave dest st place s).base = s.base := by
  obtain ⟨_, h⟩ | ⟨l, _, h⟩ | ⟨_, _, h⟩ := leave_cases dest st place s <;> simp [h]
@[simp] theorem base_raise (k : ErrKind) (h : Header) (place : HoldPlace) (s : State) :
    (raise k h place s).base = s.base := by
  unfold raise; dsimp only; split <;> simp

@[simp] theorem base_setPeer (a : Addr) (p : Peer) (s : State) : (setPeer a p s).base = s.base := by
  simp [setPeer]
@[simp] theorem base_showSender (a : Addr) (f : Frame) (s : State) : (showSender a f s).base = s.base := by
  unfold showSender; split <;> simp
@[simp] theorem base_showTarget (f : Frame) (s : State) : (showTarget f s).base = s.base := by
  unfold showTarget
  cases f with
  | evict t c => dsimp only; split <;> simp
  | _ => rfl
@[simp] theorem base_endWants (a : Addr) (f : Frame) (s : State) : (endWants a f s).base = s.base := rfl
@[simp] theorem base_ownFrameMember (f : Frame) (s : State) : (ownFrameMember f s).base = s.base := by
  cases f <;> rfl
@[simp] theorem base_peerFrameMember (f : Frame) (s : State) : (peerFrameMember f s).base = s.base := rfl
@[simp] theorem base_memberFrame (a : Addr) (own : Bool) (f : Frame) (s : State) :
    (memberFrame a own f s).base = s.base := by
  unfold memberFrame; cases own <;> simp
@[simp] theorem base_decideMismatch (a : Addr) (own : Bool) (f : Frame) (h : Header) (s : State) :
    (decideMismatch a own f h s).base = s.base := by
  unfold decideMismatch
  cases f with
  | presence st d => dsimp only; split <;> [rfl; split <;> simp]
  | _ => rfl
@[simp] theorem base_decideEvict (f : Frame) (h : Header) (s : State) : (decideEvict f h s).base = s.base := by
  unfold decideEvict
  cases f with
  | evict t c => cases c <;> dsimp only <;> split <;> simp
  | _ => rfl
@[simp] theorem base_compareDigest (a : Addr) (v : Word) (h : Header) (s : State) :
    (compareDigest a v h s).base = s.base := by
  unfold compareDigest
  cases v == s.tableDigest <;> simp only [if_true, Bool.false_eq_true, if_false] <;> split <;> simp
@[simp] theorem base_digestFrame (a : Addr) (own : Bool) (f : Frame) (h : Header) (s : State) :
    (digestFrame a own f h s).base = s.base := by
  unfold digestFrame
  cases f with
  | digest v => dsimp only; split <;> [rfl; split <;> simp]
  | _ => rfl
@[simp] theorem base_signalFrame (f : Frame) (s : State) : (signalFrame f s).base = s.base := by
  unfold signalFrame
  cases f with
  | signal m c => dsimp only; split <;> simp
  | _ => rfl

/-! ## The Line Interface -/

@[simp] theorem base_tableFrame (a : Addr) (f : Frame) (s : State) : (tableFrame a f s).base = s.base := by
  simp [tableFrame]
@[simp] theorem base_joinerFrame (a : Addr) (f : Frame) (s : State) : (joinerFrame a f s).base = s.base := by
  unfold joinerFrame
  cases f with
  | withdraw o => dsimp only; split <;> simp
  | _ => rfl
@[simp] theorem base_joinerSnap (own : Bool) (f : Frame) (s : State) : (joinerSnap own f s).base = s.base := by
  unfold joinerSnap
  rw [base_seekDonor, base_watchDonor]
  cases f with
  | snap j i k hs ws => dsimp only; split <;> [split <;> simp; rfl]
  | snapreq d i => dsimp only; split <;> simp
  | _ => rfl
@[simp] theorem base_ownFrameOwner (tx : Option TxFrame) (s : State) : (ownFrameOwner tx s).base = s.base := by
  unfold ownFrameOwner; split <;> simp
/-! The blocks in the order in which they take an accepted frame, as stages of `acceptFrame`. -/

/-- The Token Table at an accepted frame, by the state in force. -/
def acceptTable (st : MState) (sender : Addr) (f : Frame) (s : State) : State :=
  match st with
  | .active | .leaving => tableFrame sender f s
  | .joining => joinerFrame sender f s
  | .unconfigured | .listening | .detached => s

/-- The joiner's Snapshot Engine at an accepted frame. -/
def acceptSnap (own : Bool) (f : Frame) (s : State) : State :=
  if s.member.state = .joining then joinerSnap own f s else s

/-- The Digest Unit, the Event Unit and the slots at an accepted frame, by the state in force. -/
def acceptEvents (st : MState) (sender : Addr) (own : Bool) (f : Frame) (h : Header) (s : State) : State :=
  if st.hasTable then signalFrame f (digestFrame sender own f h s) else s

theorem acceptFrame_eq (sender : Addr) (tx : Option TxFrame) (f : Frame) (h : Header) (s : State) :
    acceptFrame sender tx f h s =
      decideEvict f h (decideMismatch sender tx.isSome f h
        (acceptEvents s.member.state sender tx.isSome f h (acceptSnap tx.isSome f
          (serviceFrame s.member.state sender tx.isSome f (ownFrameOwner tx
            (acceptTable s.member.state sender f
              (memberFrame sender tx.isSome f (s.withLine (s.line.accepted tx.isSome)))))))))  := rfl

@[simp] theorem base_acceptTable (st : MState) (a : Addr) (f : Frame) (s : State) :
    (acceptTable st a f s).base = s.base := by
  cases st <;> simp [acceptTable]
@[simp] theorem base_acceptSnap (own : Bool) (f : Frame) (s : State) : (acceptSnap own f s).base = s.base := by
  unfold acceptSnap; split <;> simp
@[simp] theorem base_acceptEvents (st : MState) (a : Addr) (own : Bool) (f : Frame) (h : Header) (s : State) :
    (acceptEvents st a own f h s).base = s.base := by
  unfold acceptEvents; split <;> simp
@[simp] theorem base_acceptFrame (a : Addr) (tx : Option TxFrame) (f : Frame) (h : Header) (s : State) :
    (acceptFrame a tx f h s).base = s.base := by
  simp [acceptFrame_eq]
@[simp] theorem base_voidOwn (tx : TxFrame) (k : Option Nat) (s : State) : (voidOwn tx k s).base = s.base := by
  unfold voidOwn
  dsimp only
  cases tx.entry <;> dsimp only <;> split <;> simp
@[simp] theorem base_voidOther (f : RawFrame) (e : Option Failure) (s : State) :
    (voidOther f e s).base = s.base := by
  unfold voidOther
  cases e <;> dsimp only
  · rfl
  · split <;> simp
@[simp] theorem base_receiveFrame (f : RawFrame) (s : State) : (receiveFrame f s).base = s.base := by
  unfold receiveFrame; split <;> simp
@[simp] theorem base_outOfLine (s : State) : (outOfLine s).base = s.base := rfl
@[simp] theorem base_endedAccepted (f : LineFrame) (s : State) : (endedAccepted f s).base = s.base := by
  unfold endedAccepted
  split
  · rfl
  · split <;> simp
  · rfl
@[simp] theorem base_endedVoided (f : VoidedFrame) (s : State) : (endedVoided f s).base = s.base := by
  unfold endedVoided; split <;> simp
@[simp] theorem base_driveStart (rs : List (BitVec 7)) (s : State) : (driveStart rs s).base = s.base := by
  unfold driveStart
  dsimp only
  split
  · split <;> rfl
  · split
    · split <;> rfl
    · rfl
@[simp] theorem base_startBoundary (rs : List (BitVec 7)) (s : State) : (startBoundary rs s).base = s.base := by
  unfold startBoundary; split <;> simp

/-! ## Requests and time -/

@[simp] theorem base_popRequest (s : State) : (popRequest s).base = s.base := rfl
theorem base_takeRenew (r : Request) (s : State) : (takeRenew r s).base = s.base := by
  have settled := (settleLeases_only s).base
  unfold takeRenew
  dsimp only
  split
  · exact settled
  · split
    · exact settled
    · exact settled
    · rw [base_pushCompletion, base_setEventIf]; exact settled
    · rw [base_pushCompletion, base_logError]; exact settled
    · rw [base_pushCompletion, base_logError, (expireLease_only _ _).base]; exact settled
@[simp] theorem base_takeDetach (r : Request) (s : State) : (takeDetach r s).base = s.base := by
  unfold takeDetach; split <;> simp
@[simp] theorem base_takeJoin (r : Request) (s : State) : (takeJoin r s).base = s.base := by
  unfold takeJoin; split <;> simp
theorem base_takeHead {k : Option ReqKind} {f : Request → State → State} (hf : ∀ r s, (f r s).base = s.base)
    (s : State) : (takeHead k f s).base = s.base := by
  unfold takeHead
  split
  · rfl
  · split
    · rw [hf, base_popRequest]
    · rfl
@[simp] theorem base_tickStation (s : State) : (tickStation s).base = s.base := rfl
@[simp] theorem base_leaseExpiry (k : Nat) (s : State) : (leaseExpiry k s).base = s.base := by
  unfold leaseExpiry
  split
  · rfl
  · split
    · exact (expireLease_only k s).base
    · rfl
@[simp] theorem base_presenceExpiry (s : State) : (presenceExpiry s).base = s.base := by
  unfold presenceExpiry; split <;> rfl
@[simp] theorem base_dropoutExpiry (a : Addr) (s : State) : (dropoutExpiry a s).base = s.base := by
  unfold dropoutExpiry; dsimp only; split <;> [rfl; split <;> simp]
@[simp] theorem base_listenEnd (s : State) : (listenEnd s).base = s.base := by
  unfold listenEnd; split <;> [split <;> simp; rfl]
@[simp] theorem base_lapsedExpiry (n : Nat) (s : State) : (lapsedExpiry n s).base = s.base := by
  unfold lapsedExpiry; dsimp only; split <;> simp
@[simp] theorem base_snapshotExpiry (p : HoldPlace) (s : State) : (snapshotExpiry p s).base = s.base := by
  unfold snapshotExpiry
  dsimp only
  split
  · split <;> simp
  · split <;> simp
@[simp] theorem base_digestExpiry (s : State) : (digestExpiry s).base = s.base := by
  unfold digestExpiry; split <;> rfl
/-- A tick starts the prescaler again from 0 (R115). -/
theorem base_tick (s : State) :
    (tick s).base = if s.time.running then { s.base with time := { s.time with prescaler := 0 } } else s.base := by
  unfold tick
  cases s.time.running
  · rfl
  · have units := (tickLeases_only (s.withTime { s.time with prescaler := 0 })).base
    dsimp only
    simp only [if_true]
    split
    · rw [base_tickStation, units]; rfl
    · rw [units]; rfl

end Sys2Proof.Machine
end

