-- ==== Sys2Proof/Proofs/NextState.lean ====
section
/-! PROOFS. Every command leaves a next state, with the grade and the queue as they were (R181, log 2). -/

namespace Sys2Proof.Machine

/-! ## How the commands answer -/

theorem live_next {f : State → State} {s t : State} (h : live f s = .next t) :
    t = s ∨ (s.powered = true ∧ t = f s) := by
  cases hp : s.powered
  · rw [live_off hp] at h; injection h with h; exact .inl h.symm
  · rw [live_on hp] at h; injection h with h; exact .inr ⟨rfl, h.symm⟩

theorem hostWrite_next {r : Reg} {f : State → State} {s t : State} (h : hostWrite r f s = .next t) :
    t = passBy s ∨ (s.portOpen = true ∧ t = f (s.inWrite r)) := by
  cases hp : s.portOpen
  · rw [hostWrite_shut hp] at h; injection h with h; exact .inl h.symm
  · rw [hostWrite_open hp] at h; injection h with h; exact .inr ⟨rfl, h.symm⟩

theorem onPort_next {f : State → State} {s t : State} (h : onPort f s = .next t) :
    t = passBy s ∨ (s.portOpen = true ∧ t = f s) := by
  cases hp : s.portOpen
  · rw [onPort_shut hp] at h; injection h with h; exact .inl h.symm
  · rw [onPort_open hp] at h; injection h with h; exact .inr ⟨rfl, h.symm⟩

/-! ## What the commands of the line do, named -/

/-- The start boundaries begin after the wait of R2. -/
def lineWaitDone (s : State) : State :=
  if s.takesPart && s.line.phase == .waiting then
    s.withLine { s.line with phase := .idle, recessive := Config.lineWaitBits }
  else s

/-- The start boundaries begin after the idle gap (R2). -/
def idleGap (s : State) : State :=
  if s.takesPart && s.line.phase == .gap && s.line.hold.isNone then
    s.withLine { s.line with phase := .idle, recessive := Config.idleGapBits }
  else s

/-- The yield state ends (R15). -/
def yieldTimeout (s : State) : State :=
  if s.takesPart && s.line.yielding && (s.line.phase == .gap || s.line.phase == .idle) then
    s.withLine { s.line with phase := .idle, yielding := false, recessive := Config.yieldBits }
  else s

/-- An own frame that ends accepted. -/
def ownFrameAccepted (s : State) : State :=
  match s.line.tx with
  | some tx =>
    if s.listens then acceptFrame s.station (some tx) tx.frame (headerSent s.station tx.frame) s else s
  | none => s

/-- A frame ends with no objection of another station (R10). -/
def frameAccepted (f : LineFrame) (s : State) : State :=
  if !s.takesPart then endedAccepted f s
  else match f with
    | .own => ownFrameAccepted s
    | .received r => if s.receives && s.line.hold.isNone then receiveFrame r s else s

/-- An own frame that ends voided. -/
def ownFrameVoided (bitErrorAt : Option Nat) (s : State) : State :=
  match s.line.tx with
  | some tx => if s.listens then voidOwn tx bitErrorAt s else s
  | none => s

/-- A frame ends voided (R10, R11). -/
def frameVoided (f : VoidedFrame) (s : State) : State :=
  if !s.takesPart then endedVoided f s
  else match f with
    | .own bitErrorAt => ownFrameVoided bitErrorAt s
    | .received r bitErrorAt =>
      if s.receives then voidOther r (failureOf s.table s.station r bitErrorAt) s else s

/-- The slot that may issue does (R156). -/
def slotIssue (s : State) : State :=
  match s.issuableSlot with
  | some n => issueSlot n s
  | none => s

theorem exec_lineWaitDone (s : State) : exec .lineWaitDone s = live lineWaitDone s := rfl
theorem exec_idleGap (s : State) : exec .idleGap s = live idleGap s := rfl
theorem exec_yieldTimeout (s : State) : exec .yieldTimeout s = live yieldTimeout s := rfl
theorem exec_slotIssue (s : State) : exec .slotIssue s = live slotIssue s := rfl
theorem exec_frameAccepted (f : LineFrame) (s : State) :
    exec (.frameAccepted f) s = live (frameAccepted f) s := rfl
theorem exec_frameVoided (f : VoidedFrame) (s : State) :
    exec (.frameVoided f) s = live (frameVoided f) s := rfl

/-! ## The same part -/

/-- t is a state of the same part as s, with the same commands waiting. -/
structure SamePart (s t : State) : Prop where
  grade : t.grade = s.grade
  pending : t.pending = s.pending

namespace SamePart

theorem refl (s : State) : SamePart s s := ⟨rfl, rfl⟩
theorem andThen {s t u : State} (h : SamePart s t) (g : SamePart t u) : SamePart s u :=
  ⟨g.grade.trans h.grade, g.pending.trans h.pending⟩
/-- The later stage first: it says through which state the two meet. -/
theorem after {s t u : State} (g : SamePart t u) (h : SamePart s t) : SamePart s u := h.andThen g
theorem of_base {s t : State} (h : t.base = s.base) : SamePart s t := ⟨grade_of_base h, pending_of_base h⟩
theorem of_units {s t : State} (h : OnlyUnits s t) : SamePart s t := ⟨h.grade, h.pending⟩
theorem ite {c : Prop} [Decidable c] {s t u : State} (ht : SamePart s t) (hu : SamePart s u) :
    SamePart s (if c then t else u) := by split <;> assumption

end SamePart

open SamePart

theorem inWrite_same (s : State) (r : Reg) : SamePart s (s.inWrite r) :=
  ⟨inWrite_grade s r, inWrite_pending s r⟩
theorem passBy_same (s : State) : SamePart s (passBy s) := by rw [passBy_eq]; exact ⟨rfl, rfl⟩
theorem inTransaction_same (k : Txn) (a : BitVec 7) (s : State) : SamePart s (inTransaction k a s) := by
  rw [inTransaction_eq]; exact ⟨rfl, rfl⟩
theorem beginTransaction_same (w : Bool) (a : BitVec 7) (s : State) : SamePart s (beginTransaction w a s) := by
  rw [beginTransaction_eq]; exact ⟨rfl, rfl⟩

/-! ## Resets and configuration -/

theorem warmResetNow_same (s : State) : SamePart s (warmResetNow s) := by
  unfold warmResetNow
  dsimp only
  split
  · exact (of_base (base_withEvents _ _)).after ((of_base (base_listeningActions true _)).after ⟨rfl, rfl⟩)
  · exact ⟨rfl, rfl⟩

theorem warmStart_same (ins : ResetInputs) (s : State) : SamePart s (warmStart ins s) := by
  unfold warmStart
  dsimp only
  split
  · exact ⟨rfl, rfl⟩
  · split
    · exact ⟨rfl, rfl⟩
    · exact (warmResetNow_same _).after ⟨rfl, rfl⟩

theorem assertReset_same (clks : Nat) (ins : ResetInputs) (s : State) : SamePart s (assertReset clks ins s) := by
  unfold assertReset
  dsimp only
  exact ite (warmStart_same ins s) (ite (refl s) (ite ((warmStart_same ins _).after ⟨rfl, rfl⟩) ⟨rfl, rfl⟩))

theorem holdEnd_same (s : State) : SamePart s (holdEnd s) := by
  unfold holdEnd
  split
  · exact refl s
  · dsimp only
    split
    · exact (warmResetNow_same _).after ⟨rfl, rfl⟩
    · exact of_base (by simp)

theorem portReady_same (s : State) : SamePart s (portReady s) := by
  unfold portReady
  split <;> exact ⟨rfl, rfl⟩

theorem startCommit_same (s : State) : SamePart s (startCommit s) := by
  unfold startCommit
  split <;> [split; skip] <;> exact ⟨rfl, rfl⟩

theorem commitComplete_same (s : State) : SamePart s (commitComplete s) :=
  ite ((of_base (base_enterListening _ _)).after ⟨rfl, rfl⟩) (refl s)

theorem writeField_same (w : ConfigWrite) (s : State) : SamePart s (writeField w s) :=
  ite ⟨rfl, rfl⟩ (refl s)

/-! ## Slots and the port -/

theorem pinEdge_same (n : BitVec 2) (level : Bool) (s : State) : SamePart s (pinEdge n level s) := by
  obtain ⟨x, h⟩ := pinEdge_only n level s
  exact (of_units h).after ⟨rfl, rfl⟩

theorem slotWrite_same {f : BitVec 2 → State → State} (hf : ∀ n s, SamePart s (f n s)) (s : State) :
    SamePart s (slotWrite f s) := ite (hf _ s) (refl s)

theorem clearSlotFlags_same (n : BitVec 2) (b : Byte) (s : State) : SamePart s (clearSlotFlags n b s) := by
  unfold clearSlotFlags
  dsimp only
  split <;> split <;> exact ⟨rfl, rfl⟩

theorem writeSlotStatus_same (n : BitVec 2) (b0 b1 : Byte) (s : State) :
    SamePart s (writeSlotStatus n b0 b1 s) := by
  unfold writeSlotStatus
  dsimp only
  have fire (s : State) : SamePart s (fireSlot n s) := of_units (fireSlot_only n s)
  have clear (s : State) : SamePart s (clearSlotFlags n b0 s) := clearSlotFlags_same n b0 s
  refine ite (ite ?_ ?_) (ite (fire s) (clear s))
  · exact (clear _).after ((fire _).after ⟨rfl, rfl⟩)
  · exact (fire _).after ((clear _).after ⟨rfl, rfl⟩)

theorem writeControl_same (b : Byte) (ins : ResetInputs) (s : State) : SamePart s (writeControl b ins s) := by
  have commit : SamePart s (if bitOf b 0 then startCommit (setWakeAny (bitOf b 2) s)
      else setWakeAny (bitOf b 2) s) := ite ((startCommit_same _).after ⟨rfl, rfl⟩) ⟨rfl, rfl⟩
  exact ite (andThen commit (warmStart_same ins _)) commit

theorem takeReqByte_same (b : Byte) (s : State) : SamePart s (takeReqByte b s) := by
  unfold takeReqByte pushRequest
  dsimp only
  split <;> [skip; split] <;> exact ⟨rfl, rfl⟩

theorem writeRegister_same (r : Reg) (bs : List Byte) (ins : ResetInputs) (s : State) :
    SamePart s (writeRegister r bs ins s) := by
  cases r with
  | control => exact writeControl_same _ _ _
  | reqData => exact takeReqByte_same _ _
  | slotCtrl => exact slotWrite_same (fun n s => of_units (writeSlotCtrl_only n _ s)) s
  | slotSpec => exact slotWrite_same (fun n s => of_units (modifySlot_only n _ s)) s
  | slotStatus => exact slotWrite_same (fun n s => writeSlotStatus_same n _ _ s) s
  | kindData | presencePeriod | dropout | digestInterval | tickDiv | bitDiv | configFlags | lease1 | lease2
  | lease3 => exact writeField_same _ _
  | _ => exact ⟨rfl, rfl⟩

theorem writeByte_same (a : BitVec 7) (b : Byte) (ins : ResetInputs) (s : State) :
    SamePart s (writeByte a b ins s) := by
  refine andThen (inTransaction_same .write a s) ?_
  unfold writeByte
  dsimp only
  split
  · exact ⟨rfl, rfl⟩
  · split
    · exact ⟨rfl, rfl⟩
    · exact ite ((writeRegister_same _ _ _ _).after ⟨rfl, rfl⟩) ⟨rfl, rfl⟩

theorem readByte_same (a : BitVec 7) (s : State) : SamePart s (readByte a s) := by
  refine andThen (inTransaction_same .read a s) ?_
  unfold readByte
  dsimp only
  split
  · unfold readCmpByte
    dsimp only
    split <;> exact ⟨rfl, rfl⟩
  · split <;> exact ⟨rfl, rfl⟩

/-! ## Time -/

theorem tick_same (s : State) : SamePart s (tick s) := by
  have h := base_tick s
  split at h
  · exact ⟨congrArg Base.grade h, congrArg Base.pending h⟩
  · exact of_base h

/-! ## The commands -/

/-- A meaning that answers a state of the same part, whatever its wrapper. -/
def Answers (r : Result) (s : State) : Prop := ∃ t, r = .next t ∧ SamePart s t

theorem live_answers {f : State → State} (hf : ∀ s, SamePart s (f s)) (s : State) : Answers (live f s) s :=
  ⟨_, rfl, ite (hf s) (refl s)⟩

theorem hostWrite_answers {r : Reg} {f : State → State} (hf : ∀ s, SamePart s (f s)) (s : State) :
    Answers (hostWrite r f s) s :=
  ⟨_, rfl, ite (andThen (inWrite_same s r) (hf _)) (passBy_same s)⟩

theorem onPort_answers {f : State → State} (hf : ∀ s, SamePart s (f s)) (s : State) : Answers (onPort f s) s :=
  ⟨_, rfl, ite (hf s) (passBy_same s)⟩

theorem request_answers {k : Option ReqKind} {f : Request → State → State} (hf : ∀ r s, (f r s).base = s.base)
    (s : State) : Answers (live (takeHead k f) s) s := live_answers (fun s => of_base (base_takeHead hf s)) s

theorem request_answers_units {k : Option ReqKind} {f : Request → State → State}
    (hf : ∀ r s, OnlyUnits s (f r s)) (s : State) : Answers (live (takeHead k f) s) s :=
  request_answers (fun r s => (hf r s).base) s

theorem slotWrite_answers {r : Reg} {f : BitVec 2 → State → State} (hf : ∀ n s, OnlyUnits s (f n s))
    (s : State) : Answers (hostWrite r (slotWrite f) s) s :=
  hostWrite_answers (slotWrite_same (fun n s => of_units (hf n s))) s

theorem lineWaitDone_same (s : State) : SamePart s (lineWaitDone s) := by
  unfold lineWaitDone; split <;> exact ⟨rfl, rfl⟩
theorem idleGap_same (s : State) : SamePart s (idleGap s) := by
  unfold idleGap; split <;> exact ⟨rfl, rfl⟩
theorem yieldTimeout_same (s : State) : SamePart s (yieldTimeout s) := by
  unfold yieldTimeout; split <;> exact ⟨rfl, rfl⟩

theorem slotIssue_only (s : State) : OnlyUnits s (slotIssue s) := by
  unfold slotIssue
  split
  · exact issueSlot_only _ s
  · exact OnlyUnits.refl s

@[simp] theorem base_frameAccepted (f : LineFrame) (s : State) : (frameAccepted f s).base = s.base := by
  unfold frameAccepted ownFrameAccepted
  split
  · simp
  · cases f with
    | own => dsimp only; split <;> [split; skip] <;> simp
    | received r => dsimp only; split <;> simp

@[simp] theorem base_frameVoided (f : VoidedFrame) (s : State) : (frameVoided f s).base = s.base := by
  unfold frameVoided ownFrameVoided
  split
  · simp
  · cases f with
    | own k => dsimp only; split <;> [split; skip] <;> simp
    | received r k => dsimp only; split <;> simp

theorem exec_answers (c : Instr) (s : State) : Answers (exec c s) s := by
  cases c with
  | powerOnReset a trg => exact ⟨_, rfl, rfl, rfl⟩
  | rstnWarmReset k p pl => exact live_answers (assertReset_same k _) s
  | warmReset p pl => exact hostWrite_answers (warmStart_same _) s
  | portReady => exact live_answers portReady_same s
  | commit => exact hostWrite_answers startCommit_same s
  | commitComplete => exact live_answers commitComplete_same s
  | configWrite w => exact hostWrite_answers (writeField_same w) s
  | registerWrite a d =>
    cases d with
    | command w => exact live_answers (beginTransaction_same w a) s
    | data b ins => exact onPort_answers (writeByte_same a b ins) s
  | transactionEnd => exact live_answers (f := endTransaction) (fun _ => ⟨rfl, rfl⟩) s
  | reqData b => exact hostWrite_answers (takeReqByte_same b) s
  | cmpData => exact onPort_answers (readByte_same cmpDataAddr) s
  | eventClear v => exact hostWrite_answers (f := clearEvents v) (fun _ => ⟨rfl, rfl⟩) s
  | irqEn v => exact hostWrite_answers (f := setIrqEn v) (fun _ => ⟨rfl, rfl⟩) s
  | wakeEn v => exact hostWrite_answers (f := setWakeEn v) (fun _ => ⟨rfl, rfl⟩) s
  | wakeAny v => exact hostWrite_answers (f := setWakeAny v) (fun _ => ⟨rfl, rfl⟩) s
  | signalLatchClear v => exact hostWrite_answers (f := clearLatch v) (fun _ => ⟨rfl, rfl⟩) s
  | errStatusClear v => exact hostWrite_answers (f := clearErrStatus v) (fun _ => ⟨rfl, rfl⟩) s
  | errMask v => exact hostWrite_answers (f := setErrMask v) (fun _ => ⟨rfl, rfl⟩) s
  | errFirstClear v => exact hostWrite_answers (f := clearErrFirst) (fun _ => ⟨rfl, rfl⟩) s
  | slotEnable v => exact slotWrite_answers (fun n => writeEnable_only n v) s
  | slotCtrl v => exact slotWrite_answers (fun n => writeSlotCtrl_only n v) s
  | fire => exact slotWrite_answers fireSlot_only s
  | triggerFlagClear | missedClear => exact slotWrite_answers (fun n => modifySlot_only n _) s
  | trgEdge n l => exact live_answers (pinEdge_same n l) s
  | acquire => exact request_answers_units takeAcquire_only s
  | release => exact request_answers_units takeRelease_only s
  | renew => exact request_answers base_takeRenew s
  | cancel => exact request_answers_units takeCancel_only s
  | signal => exact request_answers_units takeSignal_only s
  | query => exact request_answers_units takeQuery_only s
  | detach => exact request_answers base_takeDetach s
  | join => exact request_answers base_takeJoin s
  | unknownRequest => exact request_answers_units takeUnknown_only s
  | slotIssue => exact live_answers (fun s => of_units (slotIssue_only s)) s
  | heldWithdrawPlace => exact live_answers (fun s => of_units (placeHeld_only s)) s
  | lineWaitDone => exact live_answers lineWaitDone_same s
  | idleGap => exact live_answers idleGap_same s
  | yieldTimeout => exact live_answers yieldTimeout_same s
  | transmitStart rs => exact live_answers (fun s => of_base (base_startBoundary rs s)) s
  | frameAccepted f => rw [exec_frameAccepted]; exact live_answers (fun s => of_base (base_frameAccepted f s)) s
  | frameVoided f => rw [exec_frameVoided]; exact live_answers (fun s => of_base (base_frameVoided f s)) s
  | abortHoldEnd => exact live_answers holdEnd_same s
  | tick => exact live_answers tick_same s
  | leaseExpiry k => exact live_answers (fun s => of_base (base_leaseExpiry _ s)) s
  | presenceTimerExpiry => exact live_answers (fun s => of_base (base_presenceExpiry s)) s
  | dropoutExpiry a => exact live_answers (fun s => of_base (base_dropoutExpiry a s)) s
  | listenIntervalEnd => exact live_answers (fun s => of_base (base_listenEnd s)) s
  | snapshotTimerExpiry p => exact live_answers (fun s => of_base (base_snapshotExpiry p s)) s
  | digestTimerExpiry => exact live_answers (fun s => of_base (base_digestExpiry s)) s
  | powerFail => exact live_answers (f := powerFail) (fun _ => ⟨rfl, rfl⟩) s

/-- Settles O2: every wrapper answers a next state, and no meaning touches the grade or the queue. -/
theorem everyCommandLeavesANextState : Obligations.EveryCommandLeavesANextState := by
  intro c s
  obtain ⟨t, ht, same⟩ := exec_answers c s
  exact ⟨t, ht, same.grade, same.pending⟩

/-- Settles O1: both clauses are the two equations of `step`. -/
theorem stepRunsTheFrontCommand : Obligations.StepRunsTheFrontCommand :=
  ⟨fun _ _ _ h => by simp only [step, h], fun _ h => by simp only [step, h]⟩

end Sys2Proof.Machine
end

