-- ==== Sys2Proof/Proofs/Orderly.lean ====
section
/-! PROOFS. What the application of a frame keeps of the order of the table: no station claims a token twice
(R23), and every head waiter is blocked (R26). The claims of the stations are counted token by token, and a claim
in flight between two operations is a debt of its station. -/

namespace Sys2Proof.Machine

/-! ## The claims of a station, counted -/

/-- The holder records of a station in an entry. -/
def Entry.holdCount (e : Entry) (st : Addr) : Nat := e.holders.countP (fun h => h.station == st)

/-- How often the queue of an entry has a station still to take token x. -/
def queueCount (st : Addr) (x : Nat) (ws : List Waiter) : Nat :=
  (ws.map (fun w => if w.station = st then (w.list.drop w.position).count x else 0)).sum

/-- How often a station claims token x. -/
def claimCount (t : List Entry) (st : Addr) (x : Nat) : Nat :=
  (entryAt t x).holdCount st + (t.map (fun e => queueCount st x e.waiters)).sum

theorem queueCount_nil (st : Addr) (x : Nat) : queueCount st x [] = 0 := rfl

theorem queueCount_cons (st : Addr) (x : Nat) (w : Waiter) (ws : List Waiter) :
    queueCount st x (w :: ws) =
      (if w.station = st then (w.list.drop w.position).count x else 0) + queueCount st x ws := rfl

theorem queueCount_append (st : Addr) (x : Nat) (ws vs : List Waiter) :
    queueCount st x (ws ++ vs) = queueCount st x ws + queueCount st x vs := by
  simp [queueCount]

theorem queueCount_eraseP_le (st : Addr) (x : Nat) (p : Waiter → Bool) (ws : List Waiter) :
    queueCount st x (ws.eraseP p) ≤ queueCount st x ws := by
  induction ws with
  | nil => simp
  | cons w ws ih =>
    rw [List.eraseP_cons]
    cases p w <;> simp only [cond_true, cond_false, queueCount_cons] <;> omega

theorem sum_range_at (g : Nat → Nat) (x n : Nat) :
    ((List.range n).map (fun k => if k = x then g k else 0)).sum = if x < n then g x else 0 := by
  induction n with
  | zero => simp
  | succ n ih =>
    rw [List.range_succ, List.map_append, List.sum_append, ih]
    by_cases h : n = x
    · subst h; simp
    · by_cases hx : x < n
      · simp [h, hx, Nat.lt_succ_of_lt hx]
      · have : ¬ x < n + 1 := by omega
        simp [h, hx, this]

theorem entryAt_beyond {t : List Entry} {k : Nat} (h : t.length ≤ k) : entryAt t k = Entry.free .exclusive := by
  simp [entryAt, List.getD, List.getElem?_eq_none h]

theorem count_claimedBy (t : List Entry) (st : Addr) (x : Nat) :
    (claimedBy t st).count x = claimCount t st x := by
  have holders (k : Nat) :
      (((entryAt t k).holders.filter (fun h => h.station == st)).map (fun _ => k)).count x =
        if k = x then (entryAt t k).holdCount st else 0 := by
    rw [List.map_const', List.count_replicate, Entry.holdCount, List.countP_eq_length_filter]
    simp
  have queue (ws : List Waiter) :
      (ws.flatMap (fun w => if w.station = st then w.list.drop w.position else [])).count x =
        queueCount st x ws := by
    rw [List.count_flatMap, queueCount]
    congr 1
    refine List.map_congr_left (fun w _ => ?_)
    simp only [Function.comp]
    split <;> simp
  unfold claimedBy claimCount
  rw [List.count_append, List.count_flatMap, List.count_flatMap]
  congr 1
  · simp only [Function.comp_def, holders, sum_range_at]
    split
    · rfl
    · rw [entryAt_beyond (by omega)]; rfl
  · simp only [Function.comp_def, queue]

theorem sum_map_set (g : Entry → Nat) (t : List Entry) (k : Nat) (e : Entry) (h : k < t.length) :
    ((t.set k e).map g).sum + g (entryAt t k) = (t.map g).sum + g e := by
  induction t generalizing k with
  | nil => simp at h
  | cons a t ih =>
    cases k with
    | zero => simp [entryAt]; omega
    | succ k =>
      have := ih k (by simpa using h)
      simp only [List.set_cons_succ, List.map_cons, List.sum_cons]
      have same : entryAt (a :: t) (k + 1) = entryAt t k := by simp [entryAt]
      rw [same]
      omega

theorem entryAt_set (t : List Entry) (k j : Nat) (e : Entry) (h : k < t.length) :
    entryAt (t.set k e) j = if j = k then e else entryAt t j := by
  by_cases hj : j = k
  · subst hj; simp [entryAt, List.getD, h]
  · simp [entryAt, List.getD, List.getElem?_set_ne (Ne.symm hj), hj]

/-! ## The order of a table in the midst of an application -/

/-- The kind of a token in the kinds of a table. -/
def kindAt (K : List TokenKind) (k : Nat) : TokenKind := K.getD k .exclusive

theorem entryAt_kind (t : List Entry) (k : Nat) : (entryAt t k).kind = kindAt (t.map Entry.kind) k := by
  simp only [entryAt, kindAt, List.getD, List.getElem?_map]
  cases t[k]? <;> rfl

/-- The part of tableOrderly that speaks of a waiter record at entry k. -/
def Waiter.fitsAt (K : List TokenKind) (k : Nat) (w : Waiter) : Prop :=
  w.list[w.position]? = some k ∧ (1 < w.list.length → ∀ j ∈ w.list, kindAt K j = .exclusive)

/-- What a station is still to take in the midst of an application, token by token. -/
abbrev Debt := Addr → Nat → Nat

def Debt.none : Debt := fun _ _ => 0

/-- A station is still to take the tokens of a list. -/
def Debt.of (st : Addr) (l : List Nat) : Debt := fun a x => if a = st then l.count x else 0

/-- A table with these kinds in the midst of an application: with the debts d, no station claims a token
twice, and every head waiter is blocked but the one of the entry `o`. -/
structure Orderly (K : List TokenKind) (d : Debt) (o : Option Nat) (t : List Entry) : Prop where
  kinds : t.map Entry.kind = K
  claims : ∀ st x, claimCount t st x + d st x ≤ 1
  blocked : ∀ (k : Nat) (e : Entry), t[k]? = some e → o ≠ some k → e.headBlocked
  waiters : ∀ (k : Nat) (e : Entry), t[k]? = some e → ∀ w ∈ e.waiters, w.fitsAt K k

namespace Orderly

variable {K : List TokenKind} {d d' : Debt} {o o' : Option Nat} {t : List Entry}

theorem length (h : Orderly K d o t) : t.length = K.length := by simpa using congrArg List.length h.kinds

theorem entry_kind (h : Orderly K d o t) (k : Nat) : (entryAt t k).kind = kindAt K k := by
  rw [entryAt_kind, h.kinds]

/-- A debt may be forgiven. -/
theorem forgive (h : Orderly K d o t) (hd : ∀ st x, d' st x ≤ d st x) : Orderly K d' o t :=
  ⟨h.kinds, fun st x => Nat.le_trans (Nat.add_le_add_left (hd st x) _) (h.claims st x), h.blocked, h.waiters⟩

theorem entry_cases (t : List Entry) (k : Nat) :
    (k < t.length ∧ t[k]? = some (entryAt t k)) ∨ (t.length ≤ k ∧ entryAt t k = Entry.free .exclusive) := by
  by_cases h : k < t.length
  · exact .inl ⟨h, by simp [entryAt, List.getD, h]⟩
  · exact .inr ⟨by omega, entryAt_beyond (by omega)⟩

theorem entry_waiters (h : Orderly K d o t) (k : Nat) : ∀ w ∈ (entryAt t k).waiters, w.fitsAt K k := by
  obtain ⟨_, hk⟩ | ⟨_, hk⟩ := entry_cases t k
  · exact h.waiters k _ hk
  · simp [hk, Entry.free]

theorem entry_blocked (h : Orderly K d o t) {k : Nat} (ho : o ≠ some k) : (entryAt t k).headBlocked := by
  obtain ⟨_, hk⟩ | ⟨_, hk⟩ := entry_cases t k
  · exact h.blocked k _ hk ho
  · simp [hk, Entry.free, Entry.headBlocked]

/-- A waiter's list goes on with the token at which it waits. -/
theorem drop_eq {w : Waiter} {k : Nat} (h : w.fitsAt K k) :
    w.list.drop w.position = k :: w.list.drop (w.position + 1) := by
  obtain ⟨hp, hk⟩ := List.getElem?_eq_some_iff.1 h.1
  rw [← hk]; exact List.drop_eq_getElem_cons hp

/-- A waiter at a POOL token claims that token alone. -/
theorem pool_list {w : Waiter} {k : Nat} (h : w.fitsAt K k) (hk : kindAt K k ≠ .exclusive) :
    w.list = [k] ∧ w.position = 0 := by
  obtain ⟨hp, hg⟩ := List.getElem?_eq_some_iff.1 h.1
  have single : ¬ 1 < w.list.length := fun hl => hk (h.2 hl k (List.mem_of_getElem? h.1))
  obtain ⟨x, hx⟩ := List.length_eq_one_iff.1 (by omega : w.list.length = 1)
  have pos : w.position = 0 := by omega
  have here := h.1
  simp [hx, pos] at here
  exact ⟨by rw [hx, here], pos⟩

end Orderly

/-- Between operations, with no debt and every head blocked, the order is that of the statement. -/
theorem orderly_iff {K : List TokenKind} {t : List Entry} (hK : t.map Entry.kind = K) :
    tableOrderly t ↔ Orderly K .none none t := by
  have kind (j : Nat) : (entryAt t j).kind = kindAt K j := by rw [entryAt_kind, hK]
  constructor
  · rintro ⟨once, entries⟩
    refine ⟨hK, fun st x => ?_, fun k e he _ => (entries k e he).2.1, fun k e he w hw => ?_⟩
    · rw [← count_claimedBy]
      exact List.nodup_iff_count_le_one.1 (once st) x
    · obtain ⟨pos, multi⟩ := (entries k e he).2.2 w hw
      exact ⟨pos, fun hl j hj => by rw [← kind]; exact multi hl j hj⟩
  · intro h
    refine ⟨fun st => List.nodup_iff_count_le_one.2 (fun x => ?_), fun k e he => ⟨?_, ?_, ?_⟩⟩
    · rw [count_claimedBy]; exact h.claims st x
    · refine List.nodup_iff_count_le_one.2 (fun st => ?_)
      have queue : ∀ ws : List Waiter, (∀ w ∈ ws, w.fitsAt K k) →
          (ws.map Waiter.station).count st ≤ queueCount st k ws := by
        intro ws hws
        induction ws with
        | nil => simp
        | cons w ws ih =>
          have := ih (fun v hv => hws v (List.mem_cons_of_mem _ hv))
          rw [List.map_cons, List.count_cons, queueCount_cons, Orderly.drop_eq (hws w (by simp)),
            List.count_cons_self]
          by_cases hst : w.station = st <;> simp [hst] <;> omega
      have here : queueCount st k e.waiters ≤ (t.map (fun e => queueCount st k e.waiters)).sum :=
        List.le_sum_of_mem (List.mem_map.2 ⟨e, List.mem_of_getElem? he, rfl⟩)
      have once := h.claims st k
      have holders : (e.holders.map Holder.station).count st = (entryAt t k).holdCount st := by
        rw [entryAt_of_getElem? he, Entry.holdCount, List.count, List.countP_map]
        rfl
      have waiting := queue e.waiters (h.waiters k e he)
      rw [List.count_append, holders]
      unfold claimCount at once
      omega
    · exact h.blocked k e he (by simp)
    · intro w hw
      obtain ⟨pos, multi⟩ := h.waiters k e he w hw
      exact ⟨pos, fun hl j hj => by rw [kind]; exact multi hl j hj⟩

namespace Applying

variable {K : List TokenKind} {d d' : Debt} {o o' : Option Nat} {a : Applying}

/-- An update of entry k keeps the order where the entry's claims grow by no more than the debts fall. -/
theorem update_orderly (h : Orderly K d o a.table) (k : Nat) (f : Entry → Entry) (hkind : ∀ e, (f e).kind = e.kind)
    (hw : ∀ w ∈ (f (a.entry k)).waiters, w.fitsAt K k)
    (hb : o' ≠ some k → (f (a.entry k)).headBlocked) (ho : ∀ j, j ≠ k → o = some j → o' = some j)
    (balance : ∀ st x, (if x = k then (f (a.entry k)).holdCount st else 0) +
        queueCount st x (f (a.entry k)).waiters + d' st x ≤
      (if x = k then (a.entry k).holdCount st else 0) + queueCount st x (a.entry k).waiters + d st x) :
    Orderly K d' o' (a.update k f).table := by
  by_cases hk : k < a.table.length
  · have kinds : (a.update k f).table.map Entry.kind = K := by
      rw [(update_keeps (P := False) a k f hkind False.elim).kinds, h.kinds]
    rw [update_table a k f hk] at kinds ⊢
    refine ⟨kinds, fun st x => ?_, fun j e he hoj => ?_, fun j e he => ?_⟩
    · have before := h.claims st x
      have change := balance st x
      have moved := sum_map_set (fun e => queueCount st x e.waiters) a.table k
        { f (a.entry k) with change := a.change } hk
      unfold claimCount at before ⊢
      rw [entryAt_set _ _ _ _ hk]
      simp only at moved
      change _ + queueCount st x (a.entry k).waiters = _ at moved
      by_cases hx : x = k
      · subst hx
        simp only [if_true] at change ⊢
        change (f (a.entry x)).holdCount st + _ + _ ≤ 1
        change (a.entry x).holdCount st + _ + _ ≤ 1 at before
        omega
      · simp only [hx, if_false] at change ⊢
        omega
    · rw [List.getElem?_set] at he
      by_cases hj : k = j
      · subst hj
        simp [hk] at he
        subst he
        exact hb hoj
      · simp [hj] at he
        exact h.blocked j e he (fun hc => hoj (ho j (Ne.symm hj) hc))
    · rw [List.getElem?_set] at he
      by_cases hj : k = j
      · subst hj
        simp [hk] at he
        subst he
        exact hw
      · simp [hj] at he
        exact h.waiters j e he
  · have free : a.entry k = Entry.free .exclusive := entryAt_beyond (by omega)
    rw [update_beyond a k f (by omega)]
    refine ⟨h.kinds, fun st x => ?_, fun j e he hoj => ?_, h.waiters⟩
    · have before := h.claims st x
      have change := balance st x
      have none : (if x = k then (a.entry k).holdCount st else 0) = 0 := by
        rw [free]; split <;> rfl
      have empty : queueCount st x (a.entry k).waiters = 0 := by rw [free]; rfl
      omega
    · have hj : j ≠ k := by
        rintro rfl
        exact hk (List.getElem?_eq_some_iff.1 he).1
      exact h.blocked j e he (fun hc => hoj (ho j hj hc))

end Applying

end Sys2Proof.Machine
end

