-- ==== Sys2Proof/Proofs/OrderlyOps.lean ====
section
/-! PROOFS. Every operation of the Token Table keeps the order of the table (R23, R26): one lemma per operation of
Machine/TokenTable.lean, and the application of a frame as a whole. -/

namespace Sys2Proof.Machine

/-! ## Entries -/

theorem holdCount_append (e : Entry) (hs : List Holder) (x : Addr) (h : Holder) (hh : e.holders = hs ++ [h]) :
    e.holdCount x = hs.countP (fun h => h.station == x) + if h.station = x then 1 else 0 := by
  simp [Entry.holdCount, hh, List.countP_append, List.countP_cons]

/-- An EXCLUSIVE entry with a holder blocks its queue. -/
theorem headBlocked_of_held {e : Entry} (hk : e.kind = .exclusive) (hh : e.holders ≠ []) : e.headBlocked := by
  intro w _
  simpa only [hk] using hh

theorem headBlocked_of_no_waiters {e : Entry} (h : e.waiters = []) : e.headBlocked := by
  intro w hw
  simp [h] at hw

/-- A blocked queue stays so when records behind its head go. -/
theorem headBlocked_of_same_head {e : Entry} {ws : List Waiter} (h : e.headBlocked)
    (hw : ws.head? = e.waiters.head?) : ({ e with waiters := ws } : Entry).headBlocked := by
  intro w hhead
  exact h w (by rw [← hw]; exact hhead)

/-- The queue of a held EXCLUSIVE entry is blocked, whatever leaves it. -/
theorem headBlocked_of_exclusive {e : Entry} {ws : List Waiter} (h : e.headBlocked) (hk : e.kind = .exclusive)
    (hw : e.waiters = [] → ws = []) : ({ e with waiters := ws } : Entry).headBlocked := by
  cases hq : e.waiters with
  | nil => exact headBlocked_of_no_waiters (hw hq)
  | cons v vs =>
    have held := h v (by simp [hq])
    simp only [hk] at held
    exact headBlocked_of_held hk held

theorem head?_eraseP_of_not {p : Waiter → Bool} {ws : List Waiter} (h : ∀ w, ws.head? = some w → p w = false) :
    (ws.eraseP p).head? = ws.head? := by
  cases ws with
  | nil => rfl
  | cons w ws => simp [h w rfl]

/-! ## The pool cascade -/

theorem poolGrants_fits {c : Nat} {hs : List Holder} {w : Waiter} (ws : List Waiter)
    (h : w.units + heldUnits hs ≤ c) :
    poolGrants c hs (w :: ws) = ((poolGrants c (hs ++ [⟨w.station, w.units⟩]) ws).1,
      (poolGrants c (hs ++ [⟨w.station, w.units⟩]) ws).2.1,
      w :: (poolGrants c (hs ++ [⟨w.station, w.units⟩]) ws).2.2) := by
  simp [poolGrants, h]

theorem poolGrants_stops {c : Nat} {hs : List Holder} {w : Waiter} (ws : List Waiter)
    (h : ¬ w.units + heldUnits hs ≤ c) : poolGrants c hs (w :: ws) = (hs, w :: ws, []) := by
  simp [poolGrants, h]

/-- A cascade hands the claims over from the queue to the holders. -/
theorem poolGrants_claims {K : List TokenKind} {k c : Nat} (hK : kindAt K k = .pool c) (st : Addr) (x : Nat)
    (hs : List Holder) (ws : List Waiter) (hw : ∀ w ∈ ws, w.fitsAt K k) :
    (if x = k then (poolGrants c hs ws).1.countP (fun h => h.station == st) else 0) +
        queueCount st x (poolGrants c hs ws).2.1 =
      (if x = k then hs.countP (fun h => h.station == st) else 0) + queueCount st x ws := by
  induction ws generalizing hs with
  | nil => rfl
  | cons w ws ih =>
    obtain ⟨list, pos⟩ := Orderly.pool_list (hw w (by simp)) (by simp [hK])
    by_cases fit : w.units + heldUnits hs ≤ c
    · rw [poolGrants_fits ws fit, ih _ (fun v hv => hw v (List.mem_cons_of_mem _ hv)), queueCount_cons, list, pos,
        List.countP_append, List.countP_cons]
      by_cases hx : x = k
      · subst hx
        by_cases hst : w.station = st <;> simp [hst]; omega
      · simp [hx, Ne.symm hx]
    · rw [poolGrants_stops ws fit]

theorem poolGrants_subset (c : Nat) (hs : List Holder) (ws : List Waiter) : (poolGrants c hs ws).2.1 ⊆ ws := by
  induction ws generalizing hs with
  | nil => simp [poolGrants]
  | cons w ws ih =>
    by_cases fit : w.units + heldUnits hs ≤ c
    · rw [poolGrants_fits ws fit]
      exact fun v hv => List.mem_cons_of_mem _ (ih _ hv)
    · rw [poolGrants_stops ws fit]
      exact fun v hv => hv

/-- A cascade stops at a head that lacks units (R40). -/
theorem poolGrants_blocked (c : Nat) (hs : List Holder) (ws : List Waiter) :
    ∀ w, (poolGrants c hs ws).2.1.head? = some w → c < w.units + heldUnits (poolGrants c hs ws).1 := by
  induction ws generalizing hs with
  | nil => simp [poolGrants]
  | cons w ws ih =>
    by_cases fit : w.units + heldUnits hs ≤ c
    · rw [poolGrants_fits ws fit]
      exact ih _
    · rw [poolGrants_stops ws fit]
      intro v hv
      obtain rfl := Option.some.inj hv
      exact Nat.lt_of_not_le fit

/-! ## Debts -/

theorem Debt.of_cons (st : Addr) (k : Nat) (l : List Nat) (s : Addr) (x : Nat) :
    Debt.of st (k :: l) s x = (if x = k ∧ s = st then 1 else 0) + Debt.of st l s x := by
  unfold Debt.of
  rw [List.count_cons]
  by_cases hs : s = st
  · by_cases hx : x = k
    · subst hx; simp [hs]; omega
    · simp [hs, hx, Ne.symm hx]
  · simp [hs]

theorem Debt.of_comm (st : Addr) (l : List Nat) (s : Addr) (x : Nat) :
    Debt.of st l s x = if st = s then l.count x else 0 := by
  simp only [Debt.of, eq_comm]

/-- A record takes over the whole debt of its station. -/
theorem Debt.of_apply (st : Addr) (l : List Nat) (s : Addr) (x : Nat) :
    (if st = s then l.count x else 0) + Debt.none s x = Debt.of st l s x := (Debt.of_comm st l s x).symm

namespace Applying

variable {K : List TokenKind} {d d' : Debt} {o : Option Nat} {a : Applying}

/-! ## One entry -/

/-- A report does not touch the table. -/
theorem report_orderly (h : Orderly K d o a.table) (st : Addr) (r : Report) :
    Orderly K d o (a.report st r).table := by rw [report_table]; exact h

/-- A station takes a free token that it is still to take. -/
theorem addHolder_orderly (h : Orderly K d none a.table) (k : Nat) (st : Addr) (u : Nat)
    (hb : (a.entry k).kind = .exclusive ∨ (a.entry k).waiters = [])
    (hd : ∀ s x, (if x = k ∧ s = st then 1 else 0) + d' s x ≤ d s x) :
    Orderly K d' none (a.addHolder k st u).table := by
  refine update_orderly h k _ (fun _ => rfl) (h.entry_waiters k) (fun _ => ?_) (fun _ _ => id) (fun s x => ?_)
  · rcases hb with hb | hb
    · exact headBlocked_of_held hb (by simp)
    · exact headBlocked_of_no_waiters hb
  · rw [holdCount_append _ (a.entry k).holders s ⟨st, u⟩ rfl]
    have := hd s x
    change _ ≤ (if x = k then (a.entry k).holders.countP _ else 0) + _ + _
    rcases eq_or_ne st s with rfl | hs <;> rcases eq_or_ne x k with rfl | hx <;>
      simp [*, Ne.symm] at this ⊢ <;> omega

/-- A station joins the queue of a token with what it is still to take. -/
theorem park_orderly (h : Orderly K d none a.table) (k : Nat) (w : Waiter) (hw : w.fitsAt K k)
    (hb : ({ a.entry k with waiters := (a.entry k).waiters ++ [w] } : Entry).headBlocked)
    (hd : ∀ s x, (if w.station = s then (w.list.drop w.position).count x else 0) + d' s x ≤ d s x) :
    Orderly K d' none (a.park k w).table := by
  refine report_orderly (update_orderly h k (fun e => { e with waiters := e.waiters ++ [w] }) (fun _ => rfl) ?_
    (fun _ => hb) (fun _ _ => id) ?_) _ _
  · intro v hv
    rcases List.mem_append.1 hv with hv | hv
    · exact h.entry_waiters k v hv
    · rw [List.mem_singleton.1 hv]; exact hw
  · intro s x
    have := hd s x
    simp only [queueCount_append, queueCount_cons, queueCount_nil]
    change (if x = k then (a.entry k).holdCount s else 0) + _ + _ ≤ _
    omega

/-! ## Sets -/

/-- A set goes on: what its station is still to take becomes holdings, a record, or nothing (R32). -/
theorem setStep_orderly (st : Addr) (list : List Nat) (rest : List Nat) (pos : Nat) (a : Applying)
    (h : Orderly K (Debt.of st rest) none a.table) (hrest : list.drop pos = rest)
    (hx : ∀ j ∈ rest, kindAt K j = .exclusive) (hl : 1 < list.length → ∀ j ∈ list, kindAt K j = .exclusive) :
    Orderly K .none none (a.setStep st list pos rest).table := by
  induction rest generalizing a pos with
  | nil => exact h.forgive (fun _ _ => Nat.zero_le _)
  | cons k rest ih =>
    have kind : (a.entry k).kind = .exclusive := (h.entry_kind k).trans (hx k (by simp))
    unfold setStep
    split
    · exact h.forgive (fun _ _ => Nat.zero_le _)
    · split
      · refine ih _ _ (report_orderly (addHolder_orderly h k st 1 (.inl kind) (fun s x => ?_)) _ _)
          (by rw [← List.drop_drop, hrest]; rfl) (fun j hj => hx j (List.mem_cons_of_mem _ hj))
        rw [Debt.of_cons]
      · rename_i held
        have here : list[pos]? = some k := by
          rw [← List.head?_drop, hrest]; rfl
        refine park_orderly h k _ ⟨here, hl⟩ (headBlocked_of_held kind ?_) (fun s x => ?_)
        · simpa [List.isEmpty_iff] using held
        · rw [hrest]
          exact Nat.le_of_eq (Debt.of_apply st _ s x)

/-! ## Cascades -/

/-- The claim of the head that an EXCLUSIVE entry is handed to goes on (R39, R41). -/
theorem exclusiveCascade_orderly (k : Nat) (a : Applying) (h : Orderly K .none (some k) a.table)
    (hk : (a.entry k).kind = .exclusive) : Orderly K .none none (a.exclusiveCascade k).table := by
  unfold exclusiveCascade
  have fits := h.entry_waiters k
  split
  · rename_i empty
    refine ⟨h.kinds, h.claims, fun j e he _ => ?_, h.waiters⟩
    by_cases hj : j = k
    · subst hj
      rw [← entryAt_of_getElem? he]
      exact headBlocked_of_no_waiters empty
    · exact h.blocked j e he (by simpa using Ne.symm hj)
  · rename_i w ws hws
    have hw := fits w (by simp [show (entryAt a.table k).waiters = w :: ws from hws])
    refine setStep_orderly _ _ _ _ _ (report_orderly (update_orderly h k
      (fun e => { e with holders := e.holders ++ [⟨w.station, 1⟩], waiters := ws }) (fun _ => rfl) ?_ (fun _ => ?_)
      (fun j hj hc => absurd (Option.some.inj hc).symm hj) (fun s x => ?_)) _ _) rfl ?_ hw.2
    · exact fun v hv => fits v (by
        rw [show (entryAt a.table k).waiters = w :: ws from hws]; exact List.mem_cons_of_mem _ hv)
    · exact headBlocked_of_held hk (by simp)
    · rw [hws, queueCount_cons, Orderly.drop_eq hw, holdCount_append _ (a.entry k).holders s ⟨w.station, 1⟩ rfl]
      change _ ≤ (if x = k then (a.entry k).holders.countP _ else 0) + _ + 0
      rw [Debt.of_comm, List.count_cons]
      rcases eq_or_ne w.station s with hs | hs <;> rcases eq_or_ne k x with rfl | hx <;>
        simp [*, Ne.symm] <;> omega
    · intro j hj
      refine hw.2 ?_ j (List.mem_of_mem_drop hj)
      have := List.length_pos_of_mem hj
      rw [List.length_drop] at this
      omega

theorem poolCascade_orderly (k c : Nat) (a : Applying) (h : Orderly K .none o a.table)
    (ho : ∀ j, j ≠ k → o ≠ some j) (hk : (a.entry k).kind = .pool c) :
    Orderly K .none none (a.poolCascade k).table := by
  have grants : ∀ (l : List Waiter) (b : Applying) (r : Waiter → Report),
      (l.foldl (fun b w => b.report w.station (r w)) b).table = b.table := by
    intro l
    induction l with
    | nil => exact fun _ _ => rfl
    | cons w l ih => exact fun b r => by rw [List.foldl_cons, ih, report_table]
  have fits := h.entry_waiters k
  have hK : kindAt K k = .pool c := (h.entry_kind k).symm.trans hk
  unfold poolCascade
  dsimp only
  rw [grants, hk]
  refine update_orderly h k _ (fun _ => rfl) ?_ (fun _ w hw => ?_) (fun j hj hc => absurd hc (ho j hj))
    (fun s x => ?_)
  · exact fun w hw => fits w (poolGrants_subset _ _ _ hw)
  · simp only [hk]
    exact poolGrants_blocked _ _ _ w hw
  · exact Nat.le_of_eq (congrArg (· + 0) (poolGrants_claims hK s x (a.entry k).holders (a.entry k).waiters fits))

/-- The cascade of an entry closes it: its head is served, or blocked. -/
theorem cascade_orderly (k : Nat) (a : Applying) (h : Orderly K .none (some k) a.table) :
    Orderly K .none none (a.cascade k).table := by
  unfold cascade
  cases hk : (a.entry k).kind with
  | exclusive => exact exclusiveCascade_orderly k a h hk
  | pool c => exact poolCascade_orderly k c a h (fun j hj hc => hj (Option.some.inj hc).symm) hk

theorem removeHolder_orderly (st : Addr) (k : Nat) (a : Applying) (h : Orderly K .none none a.table) :
    Orderly K .none none (a.removeHolder st k).table := by
  unfold removeHolder
  split
  · refine cascade_orderly k _ (update_orderly h k _ (fun _ => rfl) (h.entry_waiters k) (fun hc => absurd rfl hc)
      (fun j _ hc => by simp at hc) (fun s x => ?_))
    have fewer : ((a.entry k).holders.filter (fun h => h.station != st)).countP (fun h => h.station == s) ≤
        (a.entry k).holders.countP (fun h => h.station == s) := List.filter_sublist.countP_le
    simp only [Entry.holdCount]
    split <;> omega
  · exact h

/-- Holdings leave one after another, each with its cascade. -/
theorem removeHolders_orderly (st : Addr) (l : List Nat) (a : Applying) (h : Orderly K .none none a.table) :
    Orderly K .none none (l.foldl (fun b t => b.removeHolder st t) a).table := by
  induction l generalizing a with
  | nil => exact h
  | cons k l ih => exact ih _ (removeHolder_orderly st k a h)

/-! ## Frames -/

theorem claim_orderly (st : Addr) (m : ClaimMode) (u : Nat) (l : List Nat) (a : Applying)
    (h : Orderly K (Debt.of st l) none a.table) (hl : 1 < l.length → ∀ j ∈ l, kindAt K j = .exclusive) :
    Orderly K .none none (a.claim st m u l).table := by
  have settled := h.forgive (d' := .none) (fun _ _ => Nat.zero_le _)
  unfold claim
  split
  · rename_i k
    split
    · exact settled
    · split
      · rename_i free
        refine report_orderly (addHolder_orderly h k st u ?_ (fun s x => ?_)) _ _
        · unfold Entry.freeTo at free
          cases hk : (a.entry k).kind with
          | exclusive => exact .inl rfl
          | pool c =>
            simp only [hk, Bool.and_eq_true, List.isEmpty_iff] at free
            exact .inr free.1
        · rw [Debt.of_cons]
          exact Nat.add_le_add_left (Nat.zero_le _) _
      · rename_i taken
        cases m with
        | tryNow => exact report_orderly settled _ _
        | wait =>
          refine park_orderly h k _ ⟨rfl, by simp⟩ ?_ (fun s x => ?_)
          · unfold Entry.freeTo at taken
            cases hk : (a.entry k).kind with
            | exclusive =>
              simp only [hk] at taken
              exact headBlocked_of_held hk (by simpa [List.isEmpty_iff] using taken)
            | pool c =>
              cases hq : (a.entry k).waiters with
              | nil =>
                simp only [hk, hq] at taken
                intro w hw
                simp at hw
                subst hw
                simp only [hk]
                simpa using taken
              | cons w ws =>
                exact headBlocked_of_same_head (h.entry_blocked (by simp)) (by
                  exact (congrArg List.head? hq).symm)
          · exact Nat.le_of_eq (Debt.of_apply st _ s x)
  · rename_i many
    refine setStep_orderly st l l 0 a h rfl ?_ hl
    cases l with
    | nil => simp
    | cons j l =>
      cases l with
      | nil => exact absurd rfl (many j)
      | cons i l => exact hl (by simp)

theorem release_orderly (st : Addr) (c : ReleaseCause) (l : List Nat) (a : Applying)
    (h : Orderly K .none none a.table) : Orderly K .none none (a.release st c l).table := by
  have fold : ∀ (l : List Nat) (x : Applying × List Nat), Orderly K .none none x.1.table →
      Orderly K .none none (l.foldl (fun (x : Applying × List Nat) k =>
        if k < x.1.limit && (x.1.entry k).heldBy st then (x.1.removeHolder st k, x.2 ++ [k]) else x) x).1.table := by
    intro l
    induction l with
    | nil => exact fun _ hx => hx
    | cons k l ih =>
      intro x hx
      rw [List.foldl_cons]
      split
      · exact ih _ (removeHolder_orderly st k _ hx)
      · exact ih _ hx
  exact report_orderly (fold l (a, []) h) _ _

/-- A record leaves the queue of an entry; the entry of a POOL whose head it was is left open. -/
theorem eraseWaiter_orderly (p : Waiter → Bool) (k : Nat) (a : Applying) (h : Orderly K .none none a.table)
    (ho : (a.entry k).kind = .exclusive ∨ o = some k ∨
      ∀ w, (a.entry k).waiters.head? = some w → p w = false) :
    Orderly K .none o (a.update k (fun e => { e with waiters := e.waiters.eraseP p })).table := by
  refine update_orderly h k _ (fun _ => rfl) (fun w hw => h.entry_waiters k w (List.mem_of_mem_eraseP hw))
    (fun hok => ?_) (fun j _ hc => by simp at hc) (fun s x => ?_)
  · have blocked : (a.entry k).headBlocked := h.entry_blocked (by simp)
    rcases ho with ho | ho | ho
    · exact headBlocked_of_exclusive blocked ho (fun he => by simp [he])
    · exact absurd ho hok
    · exact headBlocked_of_same_head blocked (head?_eraseP_of_not ho)
  · have := queueCount_eraseP_le s x p (a.entry k).waiters
    change (if x = k then (a.entry k).holdCount s else 0) + _ + _ ≤ _
    simp only
    omega

theorem withdraw_orderly (st : Addr) (oTok : Nat) (a : Applying) (h : Orderly K .none none a.table) :
    Orderly K .none none (a.withdraw st oTok).table := by
  unfold withdraw
  split
  · exact h
  · rename_i k _
    split
    · exact h
    · rename_i w hfind
      dsimp only
      refine report_orderly ?_ _ _
      have hin : w ∈ (a.entry k).waiters := List.mem_of_find?_eq_some hfind
      have fits := h.entry_waiters k w hin
      have kindK := h.entry_kind k
      cases hk : (a.entry k).kind with
      | exclusive =>
        have freed := fun l => removeHolders_orderly st l _
          (eraseWaiter_orderly (fun x => x.isOf st oTok) k a h (.inl hk))
        have kind := fun l => ((freed l).entry_kind k).trans (kindK.symm.trans hk)
        rw [if_neg (by simp [entry, kind, TokenKind.isExclusive])]
        exact freed _
      | pool c =>
        obtain ⟨_, pos⟩ := Orderly.pool_list fits (by rw [← kindK]; simp [show (entryAt a.table k).kind = _ from hk])
        rw [pos, List.take_zero, List.filter_nil, List.foldl_nil]
        split
        · have opened := eraseWaiter_orderly (o := some k) (fun x => x.isOf st oTok) k a h (.inr (.inl rfl))
          exact poolCascade_orderly k c _ opened (fun j hj hc => hj (Option.some.inj hc).symm)
            ((opened.entry_kind k).trans (kindK.symm.trans hk))
        · rename_i notHead
          refine eraseWaiter_orderly (fun x => x.isOf st oTok) k a h (.inr (.inr (fun v hv => ?_)))
          have kind : ((a.update k (fun e => { e with waiters := e.waiters.eraseP (fun x => x.isOf st oTok) })).entry
              k).kind = .pool c :=
            ((eraseWaiter_orderly (o := some k) (fun x => x.isOf st oTok) k a h (.inr (.inl rfl))).entry_kind
              k).trans (kindK.symm.trans hk)
          rw [kind] at notHead
          simp only [TokenKind.isExclusive, Bool.not_false, Bool.and_true, beq_iff_eq] at notHead
          refine Bool.eq_false_iff.2 (fun hof => notHead ?_)
          rw [← hfind, hv]
          obtain ⟨vs, hvs⟩ : ∃ vs, (a.entry k).waiters = v :: vs := List.head?_eq_some_iff.1 hv
          rw [hvs, List.find?_cons, hof]

theorem evictEntry_orderly (target : Addr) (k : Nat) (a : Applying) (h : Orderly K .none none a.table) :
    Orderly K .none none (a.evictEntry target k).table := by
  unfold evictEntry
  dsimp only
  refine removeHolder_orderly target k _ ?_
  split
  · split
    · rename_i hp
      have opened := eraseWaiter_orderly (o := some k) (fun w => w.station == target) k a h (.inr (.inl rfl))
      cases hk : (a.entry k).kind with
      | exclusive => simp [hk, TokenKind.isExclusive] at hp
      | pool c =>
        exact poolCascade_orderly k c _ opened (fun j hj hc => hj (Option.some.inj hc).symm)
          ((opened.entry_kind k).trans ((h.entry_kind k).symm.trans hk))
    · rename_i hp
      refine eraseWaiter_orderly (fun w => w.station == target) k a h ?_
      cases hk : (a.entry k).kind with
      | exclusive => exact .inl rfl
      | pool c =>
        refine .inr (.inr (fun w hw => ?_))
        simpa [hk, TokenKind.isExclusive, hw] using hp
  · exact h

/-- The order that a frame asks of the claim it carries: its tokens are still to be taken. -/
def debtOf (sender : Addr) : Frame → Debt
  | .claim _ _ l => Debt.of sender l
  | .evict _ _ | .release _ _ | .withdraw _ | .signal _ _ | .snapreq _ _ | .snap _ _ _ _ _ | .digest _
  | .presence _ _ => .none

theorem apply_orderly (sender : Addr) (f : Frame) (a : Applying) (h : Orderly K (debtOf sender f) none a.table)
    (hl : ∀ m u l, f = .claim m u l → 1 < l.length → ∀ j ∈ l, kindAt K j = .exclusive) :
    Orderly K .none none (a.apply sender f).table := by
  have pass : ∀ (t : Addr) (l : List Nat) (a : Applying), Orderly K .none none a.table →
      Orderly K .none none (l.foldl (fun b k => b.evictEntry t k) a).table := by
    intro t l
    induction l with
    | nil => exact fun _ ha => ha
    | cons k l ih => exact fun a ha => ih _ (evictEntry_orderly t k a ha)
  cases f with
  | claim m u l => exact claim_orderly sender m u l a h (hl m u l rfl)
  | release c l => exact release_orderly sender c l a h
  | withdraw o => exact withdraw_orderly sender o a h
  | evict t c => exact report_orderly (pass t _ a h) _ _
  | presence st w =>
    cases st with
    | listening => exact pass sender _ a h
    | joining | active => exact h
  | signal _ _ | snapreq _ _ | snap _ _ _ _ _ | digest _ => exact h

end Applying

/-- A frame as the stations of a system send it keeps the table orderly (R23, R26). -/
theorem applyFrame_orderly {s : State} {sender : Addr} {f : Frame} (h : tableOrderly s.table)
    (hf : s.lawfulFrame sender f) (limit : Nat) (self : Addr) :
    tableOrderly (applyFrame s.table limit self sender f).table := by
  have before := (orderly_iff rfl).1 h
  have claimed : Orderly (s.table.map Entry.kind) (Applying.debtOf sender f) none s.table := by
    cases f with
    | claim m u l =>
      obtain ⟨once, fresh, _⟩ := hf
      refine ⟨before.kinds, fun st x => ?_, before.blocked, before.waiters⟩
      have held := before.claims st x
      simp only [Applying.debtOf, Debt.of, Debt.none] at held ⊢
      split
      · rename_i hst
        by_cases hx : x ∈ l
        · have zero : claimCount s.table st x = 0 := by
            rw [← count_claimedBy, hst]; exact List.count_eq_zero.2 (fresh x hx)
          have := List.nodup_iff_count_le_one.1 once x
          omega
        · rw [List.count_eq_zero.2 hx]; omega
      · omega
    | _ => exact before
  refine (orderly_iff (applyFrame_kinds s.table limit self sender f)).2
    (Applying.apply_orderly sender f ⟨s.table, limit, f.lastChange, self, []⟩ claimed ?_)
  rintro m u l rfl hlen j hj
  rw [← entryAt_kind]
  exact hf.2.2 hlen j hj

end Sys2Proof.Machine
end

