-- ==== Sys2Proof/Proofs/Lawful.lean ====
section
/-! PROOFS. What a step makes of the own frame on the line and of the replica: the law of R18, and the ways in which
the table can change. -/

namespace Sys2Proof.Machine

/-! ## Operations that leave the frame on the line and the table alone -/

/-- The own frame on the line, the membership state, and the replica. -/
structure Sending where
  tx : Option TxFrame
  state : MState
  table : List Entry

def State.sending (s : State) : Sending := ⟨s.line.tx, s.member.state, s.table⟩

theorem OnlyUnits.sending {s t : State} (h : OnlyUnits s t) : t.sending = s.sending := by
  obtain ⟨_, _, _, _, rfl⟩ := h; rfl

@[simp] theorem sending_setEventIf (c : Bool) (e : Event) (s : State) : (setEventIf c e s).sending = s.sending :=
  (setEventIf_only c e s).sending
@[simp] theorem sending_logError (k : ErrKind) (h : Header) (s : State) : (logError k h s).sending = s.sending := by
  rw [logError_eq]; rfl
/-- The choice of a donor changes the Snapshot Engine alone. -/
theorem chooseDonor_eq (a : Addr) (s : State) : chooseDonor a s = s.withSnap (chooseDonor a s).snap := by
  unfold chooseDonor; split <;> rfl
theorem watchDonor_eq (s : State) : watchDonor s = s.withSnap (watchDonor s).snap := by
  unfold watchDonor
  split
  · exact chooseDonor_eq _ s
  · rfl
@[simp] theorem sending_chooseDonor (a : Addr) (s : State) : (chooseDonor a s).sending = s.sending := by
  unfold chooseDonor; split <;> rfl
@[simp] theorem sending_watchDonor (s : State) : (watchDonor s).sending = s.sending := by
  unfold watchDonor
  split
  · exact sending_chooseDonor _ s
  · rfl
@[simp] theorem sending_seekDonor (s : State) : (seekDonor s).sending = s.sending := by
  unfold seekDonor
  split
  · split <;> rfl
  · rfl
@[simp] theorem sending_setPeer (a : Addr) (p : Peer) (s : State) : (setPeer a p s).sending = s.sending :=
  sending_setEventIf _ _ _
@[simp] theorem sending_showSender (a : Addr) (f : Frame) (s : State) : (showSender a f s).sending = s.sending := by
  unfold showSender
  split
  · rfl
  · simp
@[simp] theorem sending_showTarget (f : Frame) (s : State) : (showTarget f s).sending = s.sending := by
  unfold showTarget
  cases f with
  | evict t c => dsimp only; split <;> simp
  | _ => rfl
@[simp] theorem sending_memberFrame (a : Addr) (own : Bool) (f : Frame) (s : State) :
    (memberFrame a own f s).sending = s.sending := by
  have shown : (endWants a f (showTarget f (showSender a f s))).sending = s.sending :=
    (sending_showTarget f _).trans (sending_showSender a f s)
  unfold memberFrame
  cases own
  · exact shown
  · cases f <;> exact shown
@[simp] theorem sending_serviceFrame (st : MState) (a : Addr) (own : Bool) (f : Frame) (s : State) :
    (serviceFrame st a own f s).sending = s.sending := by
  unfold serviceFrame ownSnapAccepted
  cases f with
  | presence st d => cases st <;> cases own <;> rfl
  | snap j i k hs ws => cases own <;> [rfl; (dsimp only; simp only [if_true]; split <;> rfl)]
  | snapreq d i => dsimp only; split <;> [rfl; split <;> [split <;> rfl; rfl]]
  | _ => rfl
@[simp] theorem sending_ownFrameOwner (tx : Option TxFrame) (s : State) :
    (ownFrameOwner tx s).sending = s.sending := by
  unfold ownFrameOwner
  split
  · exact (outgoingAccepted_only _ _ _).sending
  · rfl

/-! ## Operations that can end the station's part in the line -/

theorem clearEntries_clearEntries (t : List Entry) : clearEntries (clearEntries t) = clearEntries t := by
  simp [clearEntries, Entry.free, Function.comp_def]

/-- No own frame comes on the line, and the table stays or is cleared with its kinds kept. -/
structure Quiet (s t : State) : Prop where
  tx : s.line.tx = none → t.line.tx = none
  table : t.table = s.table ∨ t.table = clearEntries s.table

namespace Quiet

variable {s t u : State}

theorem refl (s : State) : Quiet s s := ⟨id, .inl rfl⟩

theorem andThen (h : Quiet s t) (g : Quiet t u) : Quiet s u := by
  refine ⟨g.tx ∘ h.tx, ?_⟩
  rcases g.table with g | g <;> rcases h.table with h | h <;> simp [g, h, clearEntries_clearEntries]

/-- The later stage first: it says through which state the two meet. -/
theorem after (g : Quiet t u) (h : Quiet s t) : Quiet s u := h.andThen g

theorem of_sending (h : t.sending = s.sending) : Quiet s t :=
  ⟨fun hs => (congrArg Sending.tx h).trans hs, .inl (congrArg Sending.table h)⟩

theorem of_units (h : OnlyUnits s t) : Quiet s t := of_sending h.sending

theorem ite {c : Prop} [Decidable c] (ht : Quiet s t) (hu : Quiet s u) : Quiet s (if c then t else u) := by
  split <;> assumption

end Quiet

open Quiet

theorem clearPeers_quiet (s : State) : Quiet s (clearPeers s) := by rw [clearPeers_eq]; exact ⟨id, .inl rfl⟩
theorem enterListening_quiet (w : Bool) (s : State) : Quiet s (enterListening w s) := by
  rw [enterListening_eq, listeningActions_eq]; exact ⟨id, .inl rfl⟩
theorem enterDetached_quiet (s : State) : Quiet s (enterDetached s) := ⟨fun _ => rfl, .inl rfl⟩
theorem becomeActive_quiet (s : State) : Quiet s (becomeActive s) :=
  (of_units (triggerActivation_only _)).after ⟨id, .inl rfl⟩
theorem purgeUnits_quiet (st : Status) (s : State) :
    Quiet s (purgeEntries st (purgeSlots (purgeCandidates s))) := by
  have candidates : Quiet s (purgeCandidates s) := ⟨id, .inl rfl⟩
  have slots (t : State) : OnlyUnits t (purgeSlots t) :=
    ((OnlyUnits.withLeases _ _).trans (OnlyUnits.withSlots _ _)).trans (setEventIf_only _ _ _)
  exact (of_units ((slots _).trans (OnlyUnits.withReq _ _))).after candidates
theorem purge_quiet (dest : MState) (st : Status) (s : State) : Quiet s (purge dest st s) := by
  have units := purgeUnits_quiet st s
  have cleared : Quiet s (clearPeers ((purgeEntries st (purgeSlots (purgeCandidates s))).withTable
      (clearEntries (purgeEntries st (purgeSlots (purgeCandidates s))).table))) :=
    (clearPeers_quiet _).after (units.andThen ⟨id, .inr rfl⟩)
  unfold purge
  exact ite ((enterListening_quiet false _).after cleared) ((enterDetached_quiet _).after cleared)
theorem detachJoiner_quiet (s : State) : Quiet s (detachJoiner s) := by
  have cleared : Quiet s (clearPeers ((s.withSnap
      { s.snap with lapsed := if s.snapTimerOut then some s.snap.failures else none }).withTable
      (clearEntries s.table))) := (clearPeers_quiet _).after ⟨id, .inr rfl⟩
  exact (enterDetached_quiet _).after (cleared.andThen ⟨id, .inl rfl⟩)
theorem leaveNow_quiet (dest : MState) (st : Status) (s : State) : Quiet s (leaveNow dest st s) := by
  unfold leaveNow
  split
  · exact purge_quiet _ _ _
  · exact purge_quiet _ _ _
  · exact detachJoiner_quiet _
  · exact detachJoiner_quiet _
  all_goals exact refl s
theorem leaveAtOnce_quiet (dest : MState) (st : Status) (ends : Bool) (s : State) :
    Quiet s (leaveAtOnce dest st ends s) := by
  cases ends
  · exact leaveNow_quiet dest st s
  · rw [leaveAtOnce_true]
    exact (leaveNow_quiet dest st s).andThen ⟨id, .inl rfl⟩
theorem leave_quiet (dest : MState) (st : Status) (place : HoldPlace) (s : State) :
    Quiet s (leave dest st place s) := by
  obtain ⟨_, h⟩ | ⟨l, hl, h⟩ | ⟨_, _, h⟩ := leave_cases dest st place s <;> rw [h]
  · exact refl s
  · exact ⟨fun _ => (heldLine_hold hl).1, .inl rfl⟩
  · exact leaveAtOnce_quiet _ _ _ _
theorem raise_quiet (k : ErrKind) (h : Header) (place : HoldPlace) (s : State) : Quiet s (raise k h place s) := by
  have logged : Quiet s (logError k h s) := of_sending (sending_logError k h s)
  unfold raise
  dsimp only
  split
  · exact logged
  · exact (leave_quiet _ _ _ _).after logged
theorem decideMismatch_quiet (a : Addr) (own : Bool) (f : Frame) (h : Header) (s : State) :
    Quiet s (decideMismatch a own f h s) := by
  unfold decideMismatch
  cases f with
  | presence st d =>
    refine ite (refl s) ?_
    split
    · exact raise_quiet _ _ _ _
    · exact refl s
  | _ => exact refl s
theorem decideEvict_quiet (f : Frame) (h : Header) (s : State) : Quiet s (decideEvict f h s) := by
  unfold decideEvict
  cases f with
  | evict t c =>
    cases c
    · exact ite (raise_quiet _ _ _ _) (refl s)
    · exact ite (leave_quiet _ _ _ _) (refl s)
  | _ => exact refl s
theorem compareDigest_quiet (a : Addr) (v : Word) (h : Header) (s : State) :
    Quiet s (compareDigest a v h s) := by
  have set (p : Peer) : Quiet s (setPeer a p s) := of_sending (sending_setPeer a p s)
  unfold compareDigest
  cases v == s.tableDigest <;> simp only [if_true, Bool.false_eq_true, if_false]
  · have disagreed := (raise_quiet .digestDisagree h .none _).after (set { s.peerAt a with digest := .disagree })
    exact ite ((raise_quiet _ _ _ _).after disagreed) disagreed
  · exact ite ((raise_quiet _ _ _ _).after (set _)) (set _)
theorem digestFrame_quiet (a : Addr) (own : Bool) (f : Frame) (h : Header) (s : State) :
    Quiet s (digestFrame a own f h s) := by
  unfold digestFrame
  cases f with
  | digest v => exact ite ⟨id, .inl rfl⟩ (ite (compareDigest_quiet _ _ _ _) (refl s))
  | _ => exact refl s
theorem signalFrame_quiet (f : Frame) (s : State) : Quiet s (signalFrame f s) := by
  unfold signalFrame
  cases f with
  | signal m c => exact ite ((of_units (triggerSignal_only _ _)).after ⟨id, .inl rfl⟩) (refl s)
  | _ => exact refl s
theorem acceptEvents_quiet (st : MState) (a : Addr) (own : Bool) (f : Frame) (h : Header) (s : State) :
    Quiet s (acceptEvents st a own f h s) :=
  ite ((signalFrame_quiet _ _).after (digestFrame_quiet _ _ _ _ _)) (refl s)

/-! ## The law of R18 -/

/-- A state with no own frame on the line is lawful where no commit is under way. -/
theorem lawful_of_silent {s : State} (ht : s.line.tx = none)
    (hc : s.config.status = .busy → s.member.state = .unconfigured) : s.lawful :=
  ⟨fun tx h => absurd (ht.symm.trans h) (by simp), hc⟩

theorem not_busy_of_takesPart {s : State} (h : s.lawful) (hp : s.takesPart = true) : s.config.status ≠ .busy := by
  intro hb
  simp [State.takesPart, h.2 hb, MState.takesPart] at hp

/-- A station that takes no part in the line has no own frame on it. -/
theorem silent_of_not_takesPart {s : State} (h : s.lawful) (hp : s.takesPart = false) : s.line.tx = none := by
  cases htx : s.line.tx with
  | none => rfl
  | some x => rw [(h.1 x htx).1] at hp; cases hp

/-- The law looks at the line, the membership state and CONFIG_STATUS alone. -/
theorem lawful_of_same {s t : State} (h : s.lawful) (hl : t.line = s.line)
    (hm : t.member.state = s.member.state) (hc : t.config.status = s.config.status) : t.lawful := by
  refine ⟨fun tx htx => ?_, fun hb => by rw [hm]; exact h.2 (hc ▸ hb)⟩
  rw [hl] at htx ⊢
  obtain ⟨part, phase, hold, frame⟩ := h.1 tx htx
  exact ⟨by rw [State.takesPart, hm]; exact part, phase, hold, by rw [hm]; exact frame⟩

/-- After the acceptance or the voiding of a frame at a station that takes part, nothing of its own is on the
line. -/
theorem lawful_of_quiet {s t u : State} (h : s.lawful) (hp : s.takesPart = true) (hb : u.base = s.base)
    (ht : t.line.tx = none) (q : Quiet t u) : u.lawful :=
  lawful_of_silent (q.tx ht) (fun hc => by
    rw [config_of_base hb] at hc
    exact absurd hc (not_busy_of_takesPart h hp))

theorem enterDetached_silent (s : State) : (enterDetached s).line.tx = none := rfl

/-- The move to DETACHED takes an own frame off the line. -/
theorem leaveNow_detached_silent {s : State} (h : s.lawful) (st : Status) :
    (leaveNow .detached st s).line.tx = none := by
  unfold leaveNow
  cases hs : s.member.state with
  | unconfigured | detached => exact silent_of_not_takesPart h (by simp [State.takesPart, hs, MState.takesPart])
  | _ => rfl

theorem leaveNow_unconfigured {s : State} (dest : MState) (st : Status) (h : s.member.state = .unconfigured) :
    leaveNow dest st s = s := by
  simp [leaveNow, h]

/-- A move out of the line keeps the law: it aborts an own frame, or ends with it on the way to DETACHED. -/
theorem leave_lawful {s : State} (h : s.lawful) (dest : MState) (st : Status) (place : HoldPlace)
    (hd : dest = .detached ∨ place.frameEnds = false) : (leave dest st place s).lawful := by
  obtain ⟨_, hs⟩ | ⟨l, hl, hs⟩ | ⟨_, hn, hs⟩ := leave_cases dest st place s <;> rw [hs]
  · exact h
  · exact lawful_of_silent (heldLine_hold hl).1 h.2
  · refine lawful_of_silent ?_ (fun hb => ?_)
    · rcases hd with rfl | hd
      · cases place.frameEnds
        · exact leaveNow_detached_silent h st
        · exact leaveNow_detached_silent h st
      · have silent : s.line.tx = none := by
          rcases (heldLine_eq_none s _ place).1 hn with he | he
          · rw [hd] at he; cases he
          · exact he.1
        exact (leaveAtOnce_quiet dest st _ s).tx silent
    · rw [config_of_base (base_leaveAtOnce dest st _ s)] at hb
      have hu := h.2 hb
      cases place.frameEnds
      · rw [leaveAtOnce_false, leaveNow_unconfigured dest st hu]; exact hu
      · rw [leaveAtOnce_true, leaveNow_unconfigured dest st hu]; exact hu

theorem logError_lawful {s : State} (h : s.lawful) (k : ErrKind) (hd : Header) : (logError k hd s).lawful := by
  rw [logError_eq]; exact lawful_of_same h rfl rfl rfl

theorem joinFailed_lawful {s : State} (h : s.lawful) (hd : Header) (place : HoldPlace) :
    (raise .joinFailed hd place s).lawful := by
  have logged := logError_lawful h .joinFailed hd
  unfold raise
  simp only [State.fatalMove]
  split
  · exact logged
  · rename_i hm
    split at hm
    · cases hm
      exact leave_lawful logged _ _ _ (.inl rfl)
    · cases hm

/-! ## The ways in which a step changes the table -/

/-- What a command can make of the table: what the frame it hands over makes of it, the entry that a SNAP brings,
the tables of a reset and of a commit, and those cleared with the kinds kept. -/
inductive TableStep (s : State) (c : Instr) : List Entry → Prop where
  | same : TableStep s c s.table
  | applied (sender : Addr) (f : Frame) (limit : Nat) (self : Addr) :
      s.handedOver c = some (sender, f) → TableStep s c (applyFrame s.table limit self sender f).table
  | snap (sender j : Addr) (i : Nat) (k : TokenKind) (hs : List Holder) (ws : List Waiter) :
      s.handedOver c = some (sender, .snap j i k hs ws) → i = s.snap.cursor →
      ((∀ e ∈ s.table, e.sound) → (⟨k, hs, ws, .none⟩ : Entry).sound) →
      TableStep s c (replaceEntry s.table i k hs ws)
  | cleared (t : List Entry) : TableStep s c t → TableStep s c (clearEntries t)
  | configured (kinds : List Byte) (n : Nat) : TableStep s c (tableOfKinds kinds n)
  | fresh (n : Nat) : TableStep s c (List.replicate n (Entry.free .exclusive))

theorem Entry.free_sound {k : TokenKind} (h : ∀ c, k = .pool c → 1 ≤ c) : (Entry.free k).sound := by
  unfold Entry.sound Entry.free
  cases k with
  | exclusive => simp
  | pool c => simpa [heldUnits] using h c rfl

theorem Entry.capacity_pos {e : Entry} (h : e.sound) {c : Nat} (hk : e.kind = .pool c) : 1 ≤ c := by
  unfold Entry.sound at h
  rw [hk] at h
  exact h.1

/-- A table whose entries are all free is orderly. -/
theorem orderly_of_free {t : List Entry} (h : ∀ e ∈ t, e.holders = [] ∧ e.waiters = []) : tableOrderly t := by
  refine (orderly_iff rfl).2 ⟨rfl, fun st x => ?_, fun k e he _ => ?_, fun k e he => ?_⟩
  · have holders : (entryAt t x).holdCount st = 0 := by
      obtain ⟨_, hx⟩ | ⟨_, hx⟩ := Orderly.entry_cases t x
      · simp [Entry.holdCount, (h _ (List.mem_of_getElem? hx)).1]
      · simp [hx, Entry.holdCount, Entry.free]
    have queues : (t.map (fun e => queueCount st x e.waiters)).sum = 0 :=
      List.sum_eq_zero (fun n hn => by
        obtain ⟨e, he, rfl⟩ := List.mem_map.1 hn
        rw [(h e he).2]; rfl)
    simp [claimCount, holders, queues, Debt.none]
  · exact headBlocked_of_no_waiters (h e (List.mem_of_getElem? he)).2
  · simp [(h e (List.mem_of_getElem? he)).2]

theorem TableStep.sound {s : State} {c : Instr} {t : List Entry} (h : TableStep s c t) (hs : s.replicaSound) :
    ∀ e ∈ t, e.sound := by
  induction h with
  | same => exact hs
  | applied sender f limit self _ => exact applyFrame_sound _ _ _ _ _ hs
  | snap sender j i k hs' ws _ _ hsound =>
    intro e he
    rcases List.mem_or_eq_of_mem_set he with he | rfl
    · exact hs e he
    · exact hsound hs
  | cleared t _ ih =>
    intro e he
    obtain ⟨x, hx, rfl⟩ := List.mem_map.1 he
    exact Entry.free_sound (fun c hc => Entry.capacity_pos (ih x hx) hc)
  | configured kinds n =>
    intro e he
    obtain ⟨b, _, rfl⟩ := List.mem_map.1 he
    refine Entry.free_sound (fun c hc => ?_)
    unfold TokenKind.ofByte at hc
    split at hc
    · cases hc
    · rename_i hb
      cases hc
      exact Nat.one_le_iff_ne_zero.2 (fun h0 => hb (BitVec.eq_of_toNat_eq h0))
  | fresh n =>
    intro e he
    rw [List.eq_of_mem_replicate he]
    exact Entry.free_sound (by simp)

theorem TableStep.orderly {s : State} {c : Instr} {t : List Entry} (h : TableStep s c t)
    (ht : tableOrderly s.table)
    (hf : ∀ sender f, s.handedOver c = some (sender, f) → s.lawfulFrame sender f) : tableOrderly t := by
  cases h with
  | same => exact ht
  | applied sender f limit self hand => exact applyFrame_orderly ht (hf _ _ hand) limit self
  | snap sender j i k hs' ws hand hi _ => exact hf _ _ hand hi
  | cleared t _ =>
    refine orderly_of_free (fun e he => ?_)
    obtain ⟨x, _, rfl⟩ := List.mem_map.1 he
    exact ⟨rfl, rfl⟩
  | configured kinds n =>
    refine orderly_of_free (fun e he => ?_)
    obtain ⟨x, _, rfl⟩ := List.mem_map.1 he
    exact ⟨rfl, rfl⟩
  | fresh n => exact orderly_of_free (fun e he => by rw [List.eq_of_mem_replicate he]; exact ⟨rfl, rfl⟩)

theorem TableStep.quiet {s : State} {c : Instr} {t u : State} (h : TableStep s c t.table) (q : Quiet t u) :
    TableStep s c u.table := by
  rcases q.table with q | q <;> rw [q]
  · exact h
  · exact .cleared _ h

end Sys2Proof.Machine
end

