-- ==== Sys2Proof/Proofs/ReplicaLaw.lean ====
section
/-! PROOFS. Every step keeps the law of R18 on transmission, the soundness of the replica (R22) and its order (R23,
R26): the frames that the receive check passes, the commands, and the statement. -/

namespace Sys2Proof.Machine

/-! ## What the receive check passes -/

theorem except_bind_ok {ε α β : Type} {x : Except ε α} {f : α → Except ε β} {r : β} :
    (x >>= f) = .ok r ↔ ∃ a, x = .ok a ∧ f a = .ok r := by
  cases x with
  | error e => simp [bind, Except.bind]
  | ok a => simp [bind, Except.bind]

theorem except_pure_ok {ε α : Type} {a b : α} : (pure a : Except ε α) = .ok b ↔ a = b := by
  simp [pure, Except.pure]

theorem need_ok {c : Bool} {k : Nat} {u : Unit} : need c k = .ok u ↔ c = true := by
  cases c <;> simp [need]

theorem needLength_ok {c : Bool} {k : Nat} {u : Unit} : needLength c k = .ok u ↔ c = true := by
  cases c <;> simp [needLength]

/-- The holder records that the check passes: as many as asked for, within the capacity of a POOL. -/
theorem scanHolders_ok {kind : TokenKind} {n : Nat} {bs : List Byte} {bits : Nat} {seen : List Addr} {held : Nat}
    {r : List Holder × List Byte × Nat × List Addr} (h : scanHolders kind n bs bits seen held = .ok r)
    (hc : kind.isExclusive = true ∨ held ≤ kind.capacity) :
    r.1.length = n ∧ (kind.isExclusive = true ∨ held + heldUnits r.1 ≤ kind.capacity) := by
  induction n generalizing bs bits seen held r with
  | zero =>
    simp only [scanHolders, Except.ok.injEq] at h
    subst h
    exact ⟨rfl, hc⟩
  | succ n ih =>
    cases bs with
    | nil => simp [scanHolders] at h
    | cons b bs =>
      simp only [scanHolders, except_bind_ok, need_ok, except_pure_ok] at h
      obtain ⟨_, _, _, fits, q, hq, rfl⟩ := h
      have fits' : kind.isExclusive = true ∨ held + loNibble b ≤ kind.capacity := by simpa using fits
      obtain ⟨len, units⟩ := ih hq fits'
      refine ⟨by simp [len], units.imp id (fun hu => ?_)⟩
      simp only [heldUnits, List.map_cons, List.sum_cons] at hu ⊢
      omega

/-- A SNAP that the check passes brings a sound entry to a sound table. -/
theorem checkSnap_sound {t : List Entry} {p : List Byte} {j : Addr} {i : Nat} {k : TokenKind} {hs : List Holder}
    {ws : List Waiter} (h : checkSnap t p = .ok (.snap j i k hs ws)) (ht : ∀ e ∈ t, e.sound) :
    (⟨k, hs, ws, .none⟩ : Entry).sound := by
  simp only [checkSnap, except_bind_ok, need_ok, needLength_ok, except_pure_ok, Frame.snap.injEq] at h
  obtain ⟨_, _, _, _, _, inTable, _, _, _, count, _, _, r, hr, _, _, _, rfl, rfl, rfl, rfl⟩ := h
  have entry : (entryAt t (p.getD 1 0).toNat).sound :=
    ht _ (by
      obtain ⟨_, hk⟩ | ⟨hk, _⟩ := Orderly.entry_cases t (p.getD 1 0).toNat
      · exact List.mem_of_getElem? hk
      · exact absurd (of_decide_eq_true inTable) (by omega))
  obtain ⟨len, units⟩ := scanHolders_ok hr (.inr (Nat.zero_le _))
  unfold Entry.sound
  cases hk : (entryAt t (p.getD 1 0).toNat).kind with
  | exclusive =>
    simp only [hk, TokenKind.isExclusive] at count len
    simpa [len] using count
  | pool c =>
    simp only [hk, TokenKind.isExclusive, TokenKind.capacity] at units
    exact ⟨Entry.capacity_pos entry hk, by simpa using units⟩

/-- Only the payload of a SNAP is read as a SNAP. -/
theorem checkPayload_snap {t : List Entry} {code : Nat} {p : List Byte} {j : Addr} {i : Nat} {k : TokenKind}
    {hs : List Holder} {ws : List Waiter} (h : checkPayload t code p = .ok (.snap j i k hs ws)) :
    checkSnap t p = .ok (.snap j i k hs ws) := by
  unfold checkPayload checkRelease checkClaim at h
  dsimp only at h
  split_ifs at h
  all_goals try simp only [except_bind_ok, except_pure_ok, reduceCtorEq, and_false, exists_false] at h
  exact h

theorem receiveCheck_snap_sound {t : List Entry} {self : Addr} {r : RawFrame} {j : Addr} {i : Nat}
    {k : TokenKind} {hs : List Holder} {ws : List Waiter}
    (h : receiveCheck t self r = .ok (.snap j i k hs ws)) (ht : ∀ e ∈ t, e.sound) :
    (⟨k, hs, ws, .none⟩ : Entry).sound := by
  simp only [receiveCheck, except_bind_ok, except_pure_ok] at h
  obtain ⟨_, _, _, _, _, _, c, hc, _, _, rfl⟩ := h
  exact checkSnap_sound (checkPayload_snap hc) ht

/-! ## An accepted frame -/

@[simp] theorem memberFrame_snap (a : Addr) (own : Bool) (f : Frame) (s : State) :
    (memberFrame a own f s).snap = s.snap := by
  have setPeer_snap (b : Addr) (p : Peer) (u : State) : (setPeer b p u).snap = u.snap :=
    (setEventIf_only _ _ _).snap
  have shown : (endWants a f (showTarget f (showSender a f s))).snap = s.snap := by
    unfold showSender showTarget
    cases f with
    | evict t c =>
      dsimp only
      split <;> split <;> simp [endWants, setPeer_snap]
    | _ =>
      dsimp only
      split <;> simp [endWants, setPeer_snap]
  unfold memberFrame
  cases own
  · exact shown
  · cases f <;> exact shown

theorem joinerFrame_tableStep {s : State} {c : Instr} {sender : Addr} {f : Frame} {u : State}
    (hand : s.handedOver c = some (sender, f)) (hu : u.table = s.table) (htx : u.line.tx = none) :
    TableStep s c (joinerFrame sender f u).table ∧ (joinerFrame sender f u).line.tx = none := by
  have go : TableStep s c (applyFrame u.table u.snap.cursor u.station sender f).table := by
    rw [hu]; exact .applied sender f _ _ hand
  unfold joinerFrame
  cases f with
  | withdraw o =>
    dsimp only
    split
    · have q := raise_quiet .joinFailed .noFrame .none
        (u.withSnap { u.snap with cause := .withdrawUnresolved })
      have start : TableStep s c (u.withSnap { u.snap with cause := .withdrawUnresolved }).table := by
        change TableStep s c u.table
        rw [hu]; exact .same
      exact ⟨start.quiet q, q.tx htx⟩
    · exact ⟨go, htx⟩
  | _ => exact ⟨go, htx⟩

theorem acceptTable_tableStep {s : State} {c : Instr} {sender : Addr} {f : Frame} {u : State} (st : MState)
    (hand : s.handedOver c = some (sender, f)) (hu : u.table = s.table) (htx : u.line.tx = none) :
    TableStep s c (acceptTable st sender f u).table ∧ (acceptTable st sender f u).line.tx = none := by
  have applied : TableStep s c (tableFrame sender f u).table ∧ (tableFrame sender f u).line.tx = none := by
    unfold tableFrame
    have units := takeReports_only (applyFrame u.table u.n u.station sender f).reports
      (u.withTable (applyFrame u.table u.n u.station sender f).table)
    dsimp only
    rw [units.table, units.line]
    refine ⟨?_, htx⟩
    change TableStep s c (applyFrame u.table u.n u.station sender f).table
    rw [hu]
    exact .applied sender f _ _ hand
  cases st with
  | active | leaving => exact applied
  | joining => exact joinerFrame_tableStep hand hu htx
  | unconfigured | listening | detached => exact ⟨by rw [acceptTable, hu]; exact .same, htx⟩

/-- A SNAP changes no table but that of a joiner at whose cursor it is (R27). -/
theorem acceptTable_snap (st : MState) (sender j : Addr) (i : Nat) (k : TokenKind) (hs : List Holder)
    (ws : List Waiter) (u : State) :
    (acceptTable st sender (.snap j i k hs ws) u).table = u.table ∧
      (acceptTable st sender (.snap j i k hs ws) u).snap = u.snap := by
  cases st <;> exact ⟨rfl, rfl⟩

/-- The Snapshot Engine leaves the table alone but for the SNAP at its cursor. -/
theorem joinerSnap_quiet_of_not_snap (own : Bool) (f : Frame) (s : State)
    (hf : ∀ j i k hs ws, f = .snap j i k hs ws → i ≠ s.snap.cursor) : Quiet s (joinerSnap own f s) := by
  have choice (u : State) : Quiet u (seekDonor (watchDonor u)) :=
    Quiet.of_sending ((sending_seekDonor _).trans (sending_watchDonor u))
  unfold joinerSnap
  refine (choice _).after ?_
  cases f with
  | snap j i k hs ws =>
    dsimp only
    rw [if_neg (hf j i k hs ws rfl)]
    exact Quiet.refl s
  | snapreq d i => exact Quiet.ite ⟨id, .inl rfl⟩ (Quiet.refl s)
  | _ => exact Quiet.refl s

theorem joinerSnap_quiet_of_snap (own : Bool) (j : Addr) (i : Nat) (k : TokenKind) (hs : List Holder)
    (ws : List Waiter) (s : State) (hi : i = s.snap.cursor) :
    Quiet (s.withTable (replaceEntry s.table i k hs ws)) (joinerSnap own (.snap j i k hs ws) s) := by
  have taken : Quiet (s.withTable (replaceEntry s.table i k hs ws)) (takeSnap i k hs ws s) := ⟨id, .inl rfl⟩
  unfold joinerSnap
  dsimp only
  rw [if_pos hi]
  refine (Quiet.of_sending ((sending_seekDonor _).trans (sending_watchDonor _))).after ?_
  refine Quiet.ite ?_ taken
  exact (becomeActive_quiet _).after (taken.andThen ⟨id, .inl rfl⟩)

/-- An accepted frame at a station that takes part. The SNAPs that reach a joiner are of other stations, and
checked. -/
theorem acceptFrame_tableStep {s : State} {c : Instr} {sender : Addr} {tx : Option TxFrame} {f : Frame}
    (h : Header) (hand : s.handedOver c = some (sender, f))
    (hsnap : s.member.state = .joining → ∀ j i k hs ws, f = .snap j i k hs ws → tx = none ∧
      ((∀ e ∈ s.table, e.sound) → (⟨k, hs, ws, .none⟩ : Entry).sound)) :
    TableStep s c (acceptFrame sender tx f h s).table ∧ (acceptFrame sender tx f h s).line.tx = none := by
  rw [acceptFrame_eq]
  set s2 := memberFrame sender tx.isSome f (s.withLine (s.line.accepted tx.isSome)) with hs2
  have member : s2.sending = ⟨none, s.member.state, s.table⟩ := sending_memberFrame _ _ _ _
  have table2 : s2.table = s.table := congrArg Sending.table member
  have tx2 : s2.line.tx = none := congrArg Sending.tx member
  set s3 := acceptTable s.member.state sender f s2 with hs3
  obtain ⟨step3, tx3⟩ : TableStep s c s3.table ∧ s3.line.tx = none :=
    acceptTable_tableStep s.member.state hand table2 tx2
  set s5 := serviceFrame s.member.state sender tx.isSome f (ownFrameOwner tx s3) with hs5
  have owner : s5.sending = s3.sending := (sending_serviceFrame _ _ _ _ _).trans (sending_ownFrameOwner tx s3)
  have table5 : s5.table = s3.table := congrArg Sending.table owner
  have tx5 : s5.line.tx = none := (congrArg Sending.tx owner).trans tx3
  have step6 : TableStep s c (acceptSnap tx.isSome f s5).table ∧ (acceptSnap tx.isSome f s5).line.tx = none := by
    have quiet (q : Quiet s5 (acceptSnap tx.isSome f s5)) :
        TableStep s c (acceptSnap tx.isSome f s5).table ∧ (acceptSnap tx.isSome f s5).line.tx = none :=
      ⟨TableStep.quiet (table5 ▸ step3) q, q.tx tx5⟩
    by_cases joining : s5.member.state = .joining
    swap
    · exact quiet (by rw [acceptSnap, if_neg joining]; exact Quiet.refl _)
    by_cases atCursor : ∃ j i k hs ws, f = .snap j i k hs ws ∧ i = s5.snap.cursor
    swap
    · refine quiet (by
        rw [acceptSnap, if_pos joining]
        exact joinerSnap_quiet_of_not_snap _ _ _ (fun j i k hs ws hf hi => atCursor ⟨j, i, k, hs, ws, hf, hi⟩))
    obtain ⟨j, i, k, hs, ws, rfl, hi⟩ := atCursor
    obtain ⟨table3, snap3⟩ := acceptTable_snap s.member.state sender j i k hs ws s2
    have wasJoining : s.member.state = .joining := by
      have state3 : s5.member.state = s3.member.state := congrArg Sending.state owner
      have state2 : s2.member.state = s.member.state := congrArg Sending.state member
      rw [state3, hs3] at joining
      rw [← state2]
      cases hst : s.member.state <;> rw [hst] at joining <;> exact joining
    obtain ⟨rfl, sound⟩ := hsnap wasJoining j i k hs ws rfl
    have cursor5 : s5.snap.cursor = s.snap.cursor := by
      rw [hs5]
      change s3.snap.cursor = _
      rw [hs3, snap3, hs2, memberFrame_snap]
      rfl
    have q := joinerSnap_quiet_of_snap false j i k hs ws s5 hi
    rw [acceptSnap, if_pos joining]
    refine ⟨TableStep.quiet ?_ q, q.tx tx5⟩
    change TableStep s c (replaceEntry s5.table i k hs ws)
    rw [table5, hs3, table3, table2]
    exact .snap sender j i k hs ws hand (hi.trans cursor5) sound
  have events := acceptEvents_quiet s.member.state sender tx.isSome f h (acceptSnap tx.isSome f s5)
  have decided := (decideEvict_quiet f h _).after
    ((decideMismatch_quiet sender tx.isSome f h _).after events)
  exact ⟨step6.1.quiet decided, decided.tx step6.2⟩

end Sys2Proof.Machine
end

