-- ==== Sys2Proof/Proofs/ReplicaStep.lean ====
section
/-! PROOFS. The law of transmission and the replica over every command, and over every step (O59). -/

namespace Sys2Proof.Machine

/-- What a command keeps: the law of R18, and a table that it changes in one of the ways of `TableStep`. -/
structure KeepsLaw (s : State) (c : Instr) (t : State) : Prop where
  lawful : t.lawful
  table : TableStep s c t.table

namespace KeepsLaw

variable {s t : State} {c : Instr}

theorem refl (h : s.lawful) : KeepsLaw s c s := ⟨h, .same⟩

/-- A command that touches neither the line, nor the membership state, nor CONFIG_STATUS, nor the table. -/
theorem of_same (h : s.lawful) (hl : t.line = s.line) (hm : t.member.state = s.member.state)
    (hc : t.config.status = s.config.status) (ht : t.table = s.table) : KeepsLaw s c t :=
  ⟨lawful_of_same h hl hm hc, by rw [ht]; exact .same⟩

theorem of_units (h : s.lawful) (u : OnlyUnits s t) : KeepsLaw s c t :=
  of_same h u.line (congrArg Member.state u.member) (congrArg ConfigBlock.status u.config) u.table

/-- The law speaks of a later stage too when the earlier one differs in other records alone. -/
theorem of_stage {u : State} (hl : u.line = s.line) (hm : u.member.state = s.member.state)
    (hc : u.config.status = s.config.status) (ht : u.table = s.table)
    (k : u.lawful → t.lawful ∧ (t.table = u.table ∨ t.table = clearEntries u.table)) (h : s.lawful) :
    KeepsLaw s c t := by
  obtain ⟨law, table⟩ := k (lawful_of_same h hl hm hc)
  refine ⟨law, ?_⟩
  rcases table with table | table <;> rw [table, ht]
  · exact .same
  · exact .cleared _ .same

theorem of_quiet (law : t.lawful) (q : Quiet s t) : KeepsLaw s c t := ⟨law, TableStep.same.quiet q⟩

theorem ite {p : Prop} [Decidable p] {u : State} (ht : KeepsLaw s c t) (hu : KeepsLaw s c u) :
    KeepsLaw s c (if p then t else u) := by split <;> assumption

end KeepsLaw

open KeepsLaw

/-! ## Resets and configuration -/

theorem warmResetNow_law {s : State} (h : s.lawful) : (warmResetNow s).lawful ∧
    (warmResetNow s).table = clearEntries s.table := by
  have silent : (warmResetNow s).line.tx = none := by
    unfold warmResetNow
    dsimp only
    split
    · rw [listeningActions_eq]; rfl
    · rfl
  have config : (warmResetNow s).config = warmConfig (decide (s.member.state = .unconfigured)) s.config := by
    unfold warmResetNow
    dsimp only
    split
    · rw [listeningActions_eq]; rfl
    · rfl
  refine ⟨lawful_of_silent silent (fun hb => ?_), ?_⟩
  · rw [config] at hb
    unfold warmConfig at hb
    by_cases hu : s.member.state = .unconfigured
    · simp [hu] at hb
    · simp only [hu, decide_false, Bool.false_eq_true, if_false] at hb
      exact absurd (h.2 hb) hu
  · unfold warmResetNow
    dsimp only
    split
    · rw [listeningActions_eq]; rfl
    · rfl

theorem warmStart_law {s : State} (ins : ResetInputs) (h : s.lawful) : (warmStart ins s).lawful ∧
    ((warmStart ins s).table = s.table ∨ (warmStart ins s).table = clearEntries s.table) := by
  unfold warmStart
  dsimp only
  split
  · rename_i hold htx _
    exact ⟨lawful_of_silent htx h.2, .inl rfl⟩
  · split
    · rename_i l hl
      exact ⟨lawful_of_silent (heldLine_hold hl).1 h.2, .inl rfl⟩
    · have reset := warmResetNow_law (s := ({ s with addrPins := ins.addr, trgPins := ins.trg } : State).withPort
        s.port.enterReset) (lawful_of_same h rfl rfl rfl)
      exact ⟨reset.1, .inr reset.2⟩

theorem startCommit_law {s : State} (h : s.lawful) : (startCommit s).lawful ∧ (startCommit s).table = s.table := by
  unfold startCommit
  split
  · rename_i hw
    have un : s.member.state = .unconfigured := (of_decide_eq_true hw).1
    have silent := silent_of_not_takesPart h (by simp [State.takesPart, un, MState.takesPart])
    split <;> exact ⟨lawful_of_silent silent (fun _ => un), rfl⟩
  · exact ⟨h, rfl⟩

theorem commitComplete_law {s : State} (c : Instr) (h : s.lawful) : KeepsLaw s c (commitComplete s) := by
  unfold commitComplete
  split
  · rename_i hb
    have silent := silent_of_not_takesPart h (by simp [State.takesPart, h.2 hb, MState.takesPart])
    have q := enterListening_quiet true (takeConfiguration s)
    have table : TableStep s c (takeConfiguration s).table := .configured s.config.fields.kinds s.n
    refine ⟨lawful_of_silent (q.tx silent) (fun hc => ?_), table.quiet q⟩
    rw [config_of_base (base_enterListening true (takeConfiguration s))] at hc
    cases hc
  · exact refl h

theorem writeField_law {s : State} (w : ConfigWrite) (h : s.lawful) :
    (writeField w s).lawful ∧ (writeField w s).table = s.table := by
  unfold writeField
  split
  · exact ⟨lawful_of_same h rfl rfl rfl, rfl⟩
  · exact ⟨h, rfl⟩

theorem holdEnd_law {s : State} (c : Instr) (h : s.lawful) : KeepsLaw s c (holdEnd s) := by
  unfold holdEnd
  split
  · exact refl h
  · rename_i hold hh
    have silent : s.line.tx = none := by
      cases htx : s.line.tx with
      | none => rfl
      | some x => have := (h.1 x htx).2.2.1; rw [hh] at this; cases this
    have law1 : (s.withLine { s.line with phase := .gap, recessive := 0, begun := [], hold := none }).lawful :=
      lawful_of_silent silent h.2
    dsimp only
    split
    · obtain ⟨law, table⟩ := warmResetNow_law law1
      exact ⟨law, by rw [table]; exact .cleared _ .same⟩
    · rename_i dest st _
      have q := leaveNow_quiet dest st
        (s.withLine { s.line with phase := .gap, recessive := 0, begun := [], hold := none })
      refine ⟨lawful_of_silent (q.tx silent) (fun hb => ?_), TableStep.same.quiet (q.after ⟨id, .inl rfl⟩)⟩
      rw [config_of_base (base_leaveNow dest st _)] at hb
      have un := h.2 hb
      rw [leaveNow_unconfigured dest st (by exact un)]
      exact un

/-! ## The port -/

theorem slotWrite_units {f : BitVec 2 → State → State} (hf : ∀ n s, OnlyUnits s (f n s)) (s : State) :
    OnlyUnits s (slotWrite f s) := by
  unfold slotWrite
  split
  · exact hf _ s
  · exact OnlyUnits.refl s

theorem clearSlotFlags_only (n : BitVec 2) (b : Byte) (s : State) : OnlyUnits s (clearSlotFlags n b s) := by
  unfold clearSlotFlags
  dsimp only
  split <;> split
  · exact (modifySlot_only _ _ _).trans (modifySlot_only _ _ _)
  · exact modifySlot_only _ _ _
  · exact modifySlot_only _ _ _
  · exact OnlyUnits.refl s

/-- A write of SLOT_STATUS changes the units, and counts the free choice of their order. -/
theorem writeSlotStatus_only (n : BitVec 2) (b0 b1 : Byte) (s : State) :
    ∃ k, OnlyUnits { s with freeCount := k } (writeSlotStatus n b0 b1 s) := by
  unfold writeSlotStatus
  dsimp only
  split
  · refine ⟨s.freeCount + 1, ?_⟩
    split
    · exact (fireSlot_only _ _).trans (clearSlotFlags_only _ _ _)
    · exact (clearSlotFlags_only _ _ _).trans (fireSlot_only _ _)
  · refine ⟨s.freeCount, ?_⟩
    split
    · exact fireSlot_only _ _
    · exact clearSlotFlags_only _ _ _

theorem writeControl_law {s : State} (b : Byte) (ins : ResetInputs) (h : s.lawful) :
    (writeControl b ins s).lawful ∧
      ((writeControl b ins s).table = s.table ∨ (writeControl b ins s).table = clearEntries s.table) := by
  have any : (setWakeAny (bitOf b 2) s).lawful := lawful_of_same h rfl rfl rfl
  have commit : (if bitOf b 0 then startCommit (setWakeAny (bitOf b 2) s) else setWakeAny (bitOf b 2) s).lawful ∧
      (if bitOf b 0 then startCommit (setWakeAny (bitOf b 2) s) else setWakeAny (bitOf b 2) s).table =
        s.table := by
    split
    · exact startCommit_law any
    · exact ⟨any, rfl⟩
  unfold writeControl
  dsimp only
  split
  · rw [← commit.2]
    exact warmStart_law ins commit.1
  · exact ⟨commit.1, .inl commit.2⟩

theorem takeReqByte_only (b : Byte) (s : State) : OnlyUnits s (takeReqByte b s) := by
  unfold takeReqByte pushRequest
  dsimp only
  split
  · exact OnlyUnits.withReq _ _
  · split
    · exact OnlyUnits.withReq _ _
    · exact (OnlyUnits.withReq _ _).trans (setEvent_only _ _)

theorem writeRegister_law {s : State} (r : Reg) (bs : List Byte) (ins : ResetInputs) (h : s.lawful) :
    (writeRegister r bs ins s).lawful ∧
      ((writeRegister r bs ins s).table = s.table ∨ (writeRegister r bs ins s).table = clearEntries s.table) := by
  have same {t : State} (hl : t.line = s.line) (hm : t.member = s.member) (hc : t.config = s.config)
      (ht : t.table = s.table) : t.lawful ∧ (t.table = s.table ∨ t.table = clearEntries s.table) :=
    ⟨lawful_of_same h hl (congrArg Member.state hm) (congrArg ConfigBlock.status hc), .inl ht⟩
  have units {t : State} (u : OnlyUnits s t) : t.lawful ∧ (t.table = s.table ∨ t.table = clearEntries s.table) :=
    same u.line u.member u.config u.table
  have field (w : ConfigWrite) : (writeField w s).lawful ∧
      ((writeField w s).table = s.table ∨ (writeField w s).table = clearEntries s.table) :=
    ⟨(writeField_law w h).1, .inl (writeField_law w h).2⟩
  cases r with
  | control => exact writeControl_law _ ins h
  | reqData => exact units (takeReqByte_only _ s)
  | slotCtrl => exact units (slotWrite_units (fun n => writeSlotCtrl_only n _) s)
  | slotSpec => exact units (slotWrite_units (fun n => modifySlot_only n _) s)
  | slotStatus =>
    unfold writeRegister slotWrite
    dsimp only
    split
    · obtain ⟨k, u⟩ := writeSlotStatus_only s.port.slotSel (bs.getD 0 0) (bs.getD 1 0) s
      exact same u.line u.member u.config u.table
    · exact same rfl rfl rfl rfl
  | kindData | presencePeriod | dropout | digestInterval | tickDiv | bitDiv | configFlags | lease1 | lease2
  | lease3 => exact field _
  | _ => exact same rfl rfl rfl rfl

theorem writeByte_law {s : State} (c : Instr) (a : BitVec 7) (b : Byte) (ins : ResetInputs) (h : s.lawful) :
    KeepsLaw s c (writeByte a b ins s) := by
  have start := inTransaction_eq .write a s
  have law0 : (inTransaction .write a s).lawful := by rw [start]; exact lawful_of_same h rfl rfl rfl
  have table0 : (inTransaction .write a s).table = s.table := by rw [start]; rfl
  have begun : TableStep s c (inTransaction .write a s).table := by rw [table0]; exact .same
  unfold writeByte
  dsimp only
  split
  · exact ⟨lawful_of_same law0 rfl rfl rfl, begun⟩
  · split
    · exact ⟨lawful_of_same law0 rfl rfl rfl, begun⟩
    · split
      · refine And.elim (fun law table => ⟨law, ?_⟩)
          (writeRegister_law _ _ ins (lawful_of_same law0 rfl rfl rfl))
        rcases table with table | table <;> rw [table]
        · exact begun
        · exact .cleared _ begun
      · exact ⟨lawful_of_same law0 rfl rfl rfl, begun⟩

theorem readByte_law {s : State} (c : Instr) (a : BitVec 7) (h : s.lawful) : KeepsLaw s c (readByte a s) := by
  have start := inTransaction_eq .read a s
  refine of_same h ?_ ?_ ?_ ?_ <;>
    · unfold readByte readCmpByte
      dsimp only
      rw [start]
      split
      · split <;> rfl
      · split <;> rfl

/-! ## Requests -/

theorem takeHead_law {s : State} {c : Instr} {k : Option ReqKind} {f : Request → State → State} (h : s.lawful)
    (hf : ∀ r u, u.lawful → u.sending = s.sending → KeepsLaw s c (f r u)) :
    KeepsLaw s c (takeHead k f s) := by
  unfold takeHead
  split
  · exact refl h
  · split
    · exact hf _ _ (lawful_of_same h rfl rfl rfl) rfl
    · exact refl h

theorem request_law {s : State} {c : Instr} {k : Option ReqKind} {f : Request → State → State} (h : s.lawful)
    (hf : ∀ r u, OnlyUnits u (f r u)) : KeepsLaw s c (takeHead k f s) := by
  refine takeHead_law h (fun r u hu same => ?_)
  have units := hf r u
  refine ⟨lawful_of_same hu units.line (congrArg Member.state units.member)
    (congrArg ConfigBlock.status units.config), ?_⟩
  rw [units.table, show u.table = s.table from congrArg Sending.table same]
  exact .same

/-- A RENEW changes the units and the error records alone. -/
theorem takeRenew_only (r : Request) (s : State) :
    ∃ e, OnlyUnits (s.withErrors e) (takeRenew r s) := by
  have settled := settleLeases_only s
  have logged (c : Completion) (u : State) (hu : OnlyUnits s u) :
      ∃ e, OnlyUnits (s.withErrors e) (pushCompletion c (logError .earlyRenew .noFrame u)) := by
    obtain ⟨_, _, _, _, rfl⟩ := hu
    rw [logError_eq]
    exact ⟨_, _, _, _, _, rfl⟩
  unfold takeRenew
  dsimp only
  split
  · exact ⟨s.errors, settled.trans (pushCompletion_only _ _)⟩
  · split
    · exact ⟨s.errors, settled.trans (pushCompletion_only _ _)⟩
    · exact ⟨s.errors, settled.trans (pushCompletion_only _ _)⟩
    · exact ⟨s.errors, ((settled.trans (modifyLeases_only _ _ _)).trans (setEventIf_only _ _ _)).trans
        (pushCompletion_only _ _)⟩
    · exact logged _ _ settled
    · exact logged _ _ (settled.trans (expireLease_only _ _))

theorem takeRenew_law {u : State} (r : Request) (h : u.lawful) :
    (takeRenew r u).lawful ∧ (takeRenew r u).table = u.table := by
  obtain ⟨e, units⟩ := takeRenew_only r u
  exact ⟨lawful_of_same h units.line (congrArg Member.state units.member)
    (congrArg ConfigBlock.status units.config), units.table⟩

theorem takeDetach_law {u : State} (r : Request) (h : u.lawful) :
    (takeDetach r u).lawful ∧ (takeDetach r u).table = u.table := by
  unfold takeDetach
  split
  · rename_i active
    rw [enterLeaving_eq]
    refine ⟨⟨fun tx htx => ?_, fun hb => ?_⟩, rfl⟩
    · obtain ⟨_, phase, hold, _⟩ := h.1 tx htx
      exact ⟨rfl, phase, hold, by simp⟩
    · have := h.2 hb
      rw [active] at this
      cases this
  · exact ⟨lawful_of_same h rfl rfl rfl, rfl⟩

theorem takeJoin_law {u : State} (r : Request) (h : u.lawful) :
    (takeJoin r u).lawful ∧ (takeJoin r u).table = u.table := by
  unfold takeJoin
  split
  · rename_i detached
    have silent := silent_of_not_takesPart h (by simp [State.takesPart, detached, MState.takesPart])
    have line : (enterListening true u).line.tx = none := (enterListening_quiet true u).tx silent
    have table : (enterListening true u).table = u.table := by
      rw [enterListening_eq, listeningActions_eq]; rfl
    refine ⟨lawful_of_silent line (fun hb => ?_), table⟩
    have hc : (enterListening true u).config = u.config := config_of_base (base_enterListening true u)
    have := h.2 (hc ▸ hb)
    rw [detached] at this
    cases this
  · exact ⟨lawful_of_same h rfl rfl rfl, rfl⟩

theorem takeHead_law_of_table {s : State} {c : Instr} {k : Option ReqKind} {f : Request → State → State}
    (h : s.lawful) (hf : ∀ r u, u.lawful → (f r u).lawful ∧ (f r u).table = u.table) :
    KeepsLaw s c (takeHead k f s) := by
  refine takeHead_law h (fun r u hu same => ⟨(hf r u hu).1, ?_⟩)
  rw [(hf r u hu).2, show u.table = s.table from congrArg Sending.table same]
  exact .same

end Sys2Proof.Machine
end

