-- ==== Sys2Proof/Proofs/ReplicaSound.lean ====
section
/-! PROOFS. The line, the time and all commands, and the statement on every step (O59). -/

namespace Sys2Proof.Machine

open KeepsLaw

/-! ## The line -/

theorem driveStart_law {s : State} (c : Instr) (rivals : List (BitVec 7)) (h : s.lawful)
    (hp : s.takesPart = true) (hh : s.line.hold = none) : KeepsLaw s c (driveStart rivals s) := by
  have received : KeepsLaw s c (if rivals.isEmpty then s
      else s.withLine { s.line with phase := .inFrame, recessive := 0, tx := none, begun := [] }) :=
    KeepsLaw.ite (refl h) ⟨lawful_of_silent rfl h.2, .same⟩
  unfold driveStart
  dsimp only
  split
  · exact received
  · rename_i cand hc
    split
    · exact received
    · refine ⟨⟨fun tx htx => ?_, h.2⟩, .same⟩
      have sent : tx = cand := by
        simp only [State.withLine] at htx
        split at htx
        · exact (Option.some.inj htx).symm
        · cases htx
      subst sent
      have perm : permitted s.member.state s.station tx.frame = true :=
        List.find?_some (p := fun c : TxFrame => permitted s.member.state s.station c.frame) hc
      refine ⟨hp, rfl, hh, ?_⟩
      change s.member.state = .listening ∨ s.member.state = .joining → _
      rintro (hm | hm) <;> rw [hm] at perm <;> revert perm <;> cases tx.frame <;>
        simp [permitted, Frame.isPresenceOrSnapreq]

theorem startBoundary_law {s : State} (c : Instr) (rivals : List (BitVec 7)) (h : s.lawful) :
    KeepsLaw s c (startBoundary rivals s) := by
  have line : (watchDonor s).line = s.line := by rw [watchDonor_eq]; rfl
  have sending := sending_watchDonor s
  have state : (watchDonor s).member.state = s.member.state := congrArg Sending.state sending
  have table : (watchDonor s).table = s.table := congrArg Sending.table sending
  have law : (watchDonor s).lawful :=
    lawful_of_same h line state (congrArg ConfigBlock.status (config_of_base (base_watchDonor s)))
  unfold startBoundary
  split
  · rename_i hc
    simp only [Bool.and_eq_true, Option.isNone_iff_eq_none] at hc
    have drive := driveStart_law c rivals law (by rw [State.takesPart, state]; exact hc.1.1)
      (by rw [line]; exact hc.2)
    refine ⟨drive.lawful, ?_⟩
    have kept : (driveStart rivals (watchDonor s)).table = s.table := by
      rw [← table]
      unfold driveStart
      dsimp only
      split
      · split <;> rfl
      · split
        · split <;> rfl
        · rfl
    rw [kept]
    exact .same
  · exact refl h

/-- A change of phase at a station whose own frame is not on the line. -/
theorem phase_law {s : State} (c : Instr) (l : Line) (h : s.lawful) (hs : s.line.phase ≠ .inFrame)
    (hl : l.tx = s.line.tx) : KeepsLaw s c (s.withLine l) := by
  refine ⟨lawful_of_silent ?_ h.2, .same⟩
  cases htx : s.line.tx with
  | none => exact hl.trans htx
  | some x => exact absurd (h.1 x htx).2.1 hs

theorem lineWaitDone_law {s : State} (c : Instr) (h : s.lawful) : KeepsLaw s c (lineWaitDone s) := by
  unfold lineWaitDone
  split
  · rename_i hw
    simp only [Bool.and_eq_true, beq_iff_eq] at hw
    exact phase_law _ _ h (by simp [hw.2]) rfl
  · exact refl h

theorem idleGap_law {s : State} (c : Instr) (h : s.lawful) : KeepsLaw s c (idleGap s) := by
  unfold idleGap
  split
  · rename_i hw
    simp only [Bool.and_eq_true, beq_iff_eq] at hw
    exact phase_law _ _ h (by simp [hw.1.2]) rfl
  · exact refl h

theorem yieldTimeout_law {s : State} (c : Instr) (h : s.lawful) : KeepsLaw s c (yieldTimeout s) := by
  unfold yieldTimeout
  split
  · rename_i hw
    simp only [Bool.and_eq_true, Bool.or_eq_true, beq_iff_eq] at hw
    exact phase_law _ _ h (by rcases hw.2 with hw | hw <;> simp [hw]) rfl
  · exact refl h

theorem acceptFrame_law {s : State} {c : Instr} {sender : Addr} {tx : Option TxFrame} {f : Frame} (hd : Header)
    (h : s.lawful) (hp : s.takesPart = true) (hand : s.handedOver c = some (sender, f))
    (hsnap : s.member.state = .joining → ∀ j i k hs ws, f = .snap j i k hs ws → tx = none ∧
      ((∀ e ∈ s.table, e.sound) → (⟨k, hs, ws, .none⟩ : Entry).sound)) :
    KeepsLaw s c (acceptFrame sender tx f hd s) := by
  obtain ⟨table, silent⟩ := acceptFrame_tableStep (tx := tx) hd hand hsnap
  exact ⟨lawful_of_quiet h hp (base_acceptFrame sender tx f hd s) silent (Quiet.refl _), table⟩

theorem voidOther_quiet (f : RawFrame) (e : Option Failure) (s : State) : Quiet s (voidOther f e s) := by
  unfold voidOther
  split
  · exact ⟨id, .inl rfl⟩
  · rename_i e
    have logged : Quiet s ((logError .rxCheck (headerReceived e.bits f) s).withLine
        { (logError .rxCheck (headerReceived e.bits f) s).line.otherVoided true with
          driven := some (objectionSpan f e) }) :=
      (Quiet.of_sending (sending_logError _ _ s)).andThen ⟨id, .inl rfl⟩
    exact Quiet.ite ((raise_quiet _ _ _ _).after logged) logged

/-- The voiding of an own frame up to the limit of TFC: the counters, the log and the frame's owner. -/
def ownVoiding (tx : TxFrame) (k : Option Nat) (s : State) : State :=
  let logged := logError .txVoided (headerSent s.station tx.frame)
    (s.withLine (s.line.ownVoided.gaveUp (tx.frame.toRaw s.station) k))
  match tx.entry with
  | some n => outgoingVoided n tx.frame logged
  | none => logged

theorem voidOwn_eq (tx : TxFrame) (k : Option Nat) (s : State) :
    voidOwn tx k s =
      if s.line.tfc < Config.faultLimit ∧ (ownVoiding tx k s).line.tfc = Config.faultLimit
      then raise .txLimit (headerSent s.station tx.frame) .none (ownVoiding tx k s) else ownVoiding tx k s := rfl

/-- The owner's part changes the units alone. -/
theorem ownVoiding_only (tx : TxFrame) (k : Option Nat) (s : State) :
    OnlyUnits (logError .txVoided (headerSent s.station tx.frame)
      (s.withLine (s.line.ownVoided.gaveUp (tx.frame.toRaw s.station) k))) (ownVoiding tx k s) := by
  unfold ownVoiding
  cases tx.entry with
  | none => exact OnlyUnits.refl _
  | some n => exact outgoingVoided_only _ _ _

theorem ownVoiding_member (tx : TxFrame) (k : Option Nat) (s : State) :
    (ownVoiding tx k s).member = s.member := by
  rw [(ownVoiding_only tx k s).member, logError_eq]; rfl

theorem voidOwn_quiet (tx : TxFrame) (k : Option Nat) (s : State) :
    Quiet (s.withLine { s.line with tx := none }) (voidOwn tx k s) := by
  have line : Quiet (s.withLine { s.line with tx := none })
      (s.withLine (s.line.ownVoided.gaveUp (tx.frame.toRaw s.station) k)) := by
    refine ⟨fun _ => ?_, .inl rfl⟩
    cases k <;> rfl
  have owner := (Quiet.of_units (ownVoiding_only tx k s)).after
    ((Quiet.of_sending (sending_logError _ _ _)).after line)
  rw [voidOwn_eq]
  exact Quiet.ite ((raise_quiet _ _ _ _).after owner) owner

theorem outOfLine_law {s u : State} (c : Instr) (h : s.lawful) (hp : s.takesPart = false) (hb : u.base = s.base)
    (q : Quiet s u) (hm : u.member.state = s.member.state) : KeepsLaw s c (outOfLine u) := by
  refine ⟨lawful_of_silent (q.tx (silent_of_not_takesPart h hp)) (fun hc => ?_), ?_⟩
  · exact hm.trans (h.2 (config_of_base hb ▸ hc))
  · exact TableStep.same.quiet (q.andThen ⟨id, .inl rfl⟩)

/-- At a station that takes no part in the line no error moves the membership. -/
theorem fatalMove_none {s : State} (k : ErrKind) (h : s.takesPart = false) : s.fatalMove k = none := by
  have idle : s.member.state = .unconfigured ∨ s.member.state = .detached := by
    revert h
    unfold State.takesPart
    cases s.member.state <;> simp [MState.takesPart]
  rcases idle with idle | idle <;> cases k <;> simp [State.fatalMove, h, idle]

theorem raise_out {s : State} (k : ErrKind) (hd : Header) (place : HoldPlace) (h : s.takesPart = false) :
    raise k hd place s = logError k hd s := by
  have part : (logError k hd s).takesPart = false := by rw [logError_eq]; exact h
  simp [raise, fatalMove_none k part]

theorem voidOther_state {s : State} (f : RawFrame) (e : Option Failure) (h : s.takesPart = false) :
    (voidOther f e s).member.state = s.member.state := by
  unfold voidOther
  split
  · rfl
  · rename_i e
    have logged : (logError .rxCheck (headerReceived e.bits f) s).member = s.member := by rw [logError_eq]; rfl
    dsimp only
    split
    · rw [raise_out _ _ _ (by exact (congrArg (fun m : Member => m.state.takesPart) logged).trans h), logError_eq]
      exact congrArg Member.state logged
    · exact congrArg Member.state logged

theorem voidOwn_state {s : State} (tx : TxFrame) (k : Option Nat) (h : s.takesPart = false) :
    (voidOwn tx k s).member.state = s.member.state := by
  have member := ownVoiding_member tx k s
  have part : (ownVoiding tx k s).takesPart = false := by rw [State.takesPart, member]; exact h
  rw [voidOwn_eq]
  split
  · rw [raise_out _ _ _ part, logError_eq]
    exact congrArg Member.state member
  · exact congrArg Member.state member

theorem endedAccepted_law {s : State} (c : Instr) (f : LineFrame) (h : s.lawful) (hp : s.takesPart = false) :
    KeepsLaw s c (endedAccepted f s) := by
  unfold endedAccepted
  split
  · exact outOfLine_law c h hp rfl ⟨fun _ => rfl, .inl rfl⟩ rfl
  · split
    · exact outOfLine_law c h hp rfl ⟨fun _ => rfl, .inl rfl⟩ rfl
    · exact outOfLine_law c h hp (by simp) (voidOther_quiet _ _ _) (voidOther_state _ _ hp)
  · exact refl h

theorem endedVoided_law {s : State} (c : Instr) (f : VoidedFrame) (h : s.lawful) (hp : s.takesPart = false) :
    KeepsLaw s c (endedVoided f s) := by
  unfold endedVoided
  split
  · exact outOfLine_law c h hp (by simp) ((voidOwn_quiet _ _ _).after ⟨fun _ => rfl, .inl rfl⟩)
      (voidOwn_state _ _ hp)
  · exact outOfLine_law c h hp (by simp) (voidOther_quiet _ _ _) (voidOther_state _ _ hp)
  · exact refl h

theorem voidOther_law {s : State} (c : Instr) (f : RawFrame) (e : Option Failure) (h : s.lawful)
    (hp : s.takesPart = true) (htx : s.line.tx = none) : KeepsLaw s c (voidOther f e s) :=
  of_quiet (lawful_of_quiet h hp (base_voidOther f e s) htx (voidOther_quiet f e s)) (voidOther_quiet f e s)

theorem ownFrameAccepted_law {s : State} (h : s.lawful) (hp : s.takesPart = true) :
    KeepsLaw s (.frameAccepted .own) (ownFrameAccepted s) := by
  unfold ownFrameAccepted
  split
  · rename_i tx htx
    refine KeepsLaw.ite (acceptFrame_law _ h hp (by simp only [State.handedOver, htx, Option.map_some]) ?_) (refl h)
    intro joining j i k hs ws hf
    have sent := (h.1 tx htx).2.2.2 (.inr joining)
    rw [hf] at sent
    cases sent
  · exact refl h

theorem frameAccepted_law {s : State} (f : LineFrame) (h : s.lawful) :
    KeepsLaw s (.frameAccepted f) (frameAccepted f s) := by
  unfold frameAccepted
  split
  · rename_i hp
    exact endedAccepted_law _ f h (by simpa using hp)
  · rename_i hp
    replace hp : s.takesPart = true := by simpa using hp
    cases f with
    | own => exact ownFrameAccepted_law h hp
    | received r =>
      dsimp only
      split
      · rename_i hr
        simp only [State.receives, Bool.and_eq_true, Option.isNone_iff_eq_none] at hr
        unfold receiveFrame
        split
        · rename_i fr hok
          exact acceptFrame_law _ h hp (by simp only [State.handedOver, hok]) (fun _ j i k hs ws hf =>
            ⟨rfl, fun sound => receiveCheck_snap_sound (hf ▸ hok) sound⟩)
        · exact voidOther_law _ _ _ h hp hr.1.1.2
      · exact refl h

theorem ownFrameVoided_law {s : State} (k : Option Nat) (h : s.lawful) (hp : s.takesPart = true) :
    KeepsLaw s (.frameVoided (.own k)) (ownFrameVoided k s) := by
  unfold ownFrameVoided
  split
  · rename_i tx _
    have q := voidOwn_quiet tx k s
    exact KeepsLaw.ite ⟨lawful_of_quiet h hp (base_voidOwn tx k s) rfl q,
      TableStep.same.quiet (q.after ⟨fun _ => rfl, .inl rfl⟩)⟩ (refl h)
  · exact refl h

theorem frameVoided_law {s : State} (f : VoidedFrame) (h : s.lawful) :
    KeepsLaw s (.frameVoided f) (frameVoided f s) := by
  unfold frameVoided
  split
  · rename_i hp
    exact endedVoided_law _ f h (by simpa using hp)
  · rename_i hp
    replace hp : s.takesPart = true := by simpa using hp
    cases f with
    | own k => exact ownFrameVoided_law k h hp
    | received r k =>
      dsimp only
      split
      · rename_i hr
        simp only [State.receives, Bool.and_eq_true, Option.isNone_iff_eq_none] at hr
        exact voidOther_law _ _ _ h hp hr.1.2
      · exact refl h

theorem presenceExpiry_law {s : State} (c : Instr) (h : s.lawful) : KeepsLaw s c (presenceExpiry s) := by
  unfold presenceExpiry
  split
  · exact of_same h rfl rfl rfl rfl
  · exact refl h

theorem digestExpiry_law {s : State} (c : Instr) (h : s.lawful) : KeepsLaw s c (digestExpiry s) := by
  unfold digestExpiry
  split
  · exact of_same h rfl rfl rfl rfl
  · exact refl h

/-! ## Time -/

theorem tick_law {s : State} (c : Instr) (h : s.lawful) : KeepsLaw s c (tick s) := by
  unfold tick
  split
  · have units := tickLeases_only (s.withTime { s.time with prescaler := 0 })
    have same : KeepsLaw s c (tickLeases (s.withTime { s.time with prescaler := 0 })) :=
      of_same h units.line (congrArg Member.state units.member) (congrArg ConfigBlock.status units.config)
        units.table
    exact KeepsLaw.ite ⟨lawful_of_same same.lawful rfl rfl rfl, same.table⟩ same
  · exact refl h

theorem dropoutExpiry_law {s : State} (c : Instr) (a : Addr) (h : s.lawful) : KeepsLaw s c (dropoutExpiry a s) := by
  have watched (u : State) : (watchDonor u).line = u.line := by rw [watchDonor_eq]; rfl
  have peer (p : Peer) (u : State) : (setPeer a p u).line = u.line := (setEventIf_only _ _ _).line
  unfold dropoutExpiry
  dsimp only
  refine KeepsLaw.ite (refl h) (KeepsLaw.ite (of_same h rfl rfl rfl rfl) ?_)
  have sending : ∀ p, (watchDonor (setPeer a p (serviceRemove a s))).sending = s.sending := fun p =>
    (sending_watchDonor _).trans (sending_setPeer a p _)
  exact of_same h ((watched _).trans (peer _ _)) (congrArg Sending.state (sending _))
    (congrArg ConfigBlock.status (config_of_base (by simp))) (congrArg Sending.table (sending _))

/-- A state entered from LISTENING with the table cleared: the own PRESENCE may still be on the line. -/
theorem entered_law {s t : State} (c : Instr) (h : s.lawful) (hs : s.member.state = .listening)
    (hb : t.base = s.base) (hl : t.line = { s.line with yielding := false })
    (hm : t.member.state = .active ∨ t.member.state = .joining)
    (ht : t.table = clearEntries s.table) : KeepsLaw s c t := by
  have part : t.takesPart = true := by
    rcases hm with hm | hm <;> rw [State.takesPart, hm] <;> rfl
  have busy : t.config.status ≠ .busy := by
    rw [config_of_base hb]
    exact not_busy_of_takesPart h (by rw [State.takesPart, hs]; rfl)
  refine ⟨⟨fun tx htx => ?_, fun hc => absurd hc busy⟩, by rw [ht]; exact .cleared _ .same⟩
  rw [hl] at htx ⊢
  obtain ⟨_, phase, hold, frame⟩ := h.1 tx htx
  exact ⟨part, phase, hold, fun _ => frame (.inl hs)⟩

theorem listenEnd_law {s : State} (c : Instr) (h : s.lawful) : KeepsLaw s c (listenEnd s) := by
  unfold listenEnd
  split
  · rename_i hs
    split
    · have joining : (enterJoining s).line = { s.line with yielding := false } ∧
          (enterJoining s).sending = ⟨s.line.tx, .joining, clearEntries s.table⟩ := by
        unfold enterJoining
        dsimp only
        rw [chooseDonor_eq]
        exact ⟨rfl, rfl⟩
      exact entered_law c h hs.1 (base_enterJoining s) joining.1 (.inr (congrArg Sending.state joining.2))
        (congrArg Sending.table joining.2)
    · have units := triggerActivation_only
      unfold found becomeActive
      refine entered_law c h hs.1 (base_found s) ?_ (.inl ?_) ?_
      · exact (units _).line
      · exact congrArg Member.state (units _).member
      · exact (units _).table
  · exact refl h

theorem joinFailed_law {s u : State} (c : Instr) (hd : Header) (place : HoldPlace) (hu : u.lawful)
    (ht : u.table = s.table) : KeepsLaw s c (raise .joinFailed hd place u) :=
  ⟨joinFailed_lawful hu hd place, TableStep.quiet (by rw [ht]; exact .same) (raise_quiet _ _ _ _)⟩

theorem snapshotExpiry_law {s : State} (c : Instr) (place : HoldPlace) (h : s.lawful) :
    KeepsLaw s c (snapshotExpiry place s) := by
  have logged (x y : Snap) : ((logError .donorLost .noFrame (s.withSnap x)).withSnap y).lawful := by
    rw [logError_eq]; exact lawful_of_same h rfl rfl rfl
  have table (x y : Snap) : ((logError .donorLost .noFrame (s.withSnap x)).withSnap y).table = s.table := by
    rw [logError_eq]; rfl
  have lost (x : Snap) : KeepsLaw s c (logError .donorLost .noFrame (s.withSnap x)) := by
    rw [logError_eq]; exact of_same h rfl rfl rfl rfl
  have chosen (a : Addr) (u : State) (hu : KeepsLaw s c u) : KeepsLaw s c (chooseDonor a u) := by
    unfold chooseDonor
    split
    · exact ⟨lawful_of_same hu.lawful rfl rfl rfl, hu.table⟩
    · exact ⟨lawful_of_same hu.lawful rfl rfl rfl, hu.table⟩
  unfold snapshotExpiry
  dsimp only
  split
  · exact KeepsLaw.ite (joinFailed_law c _ place (logged _ _) (table _ _)) (chosen _ _ (lost _))
  · split
    · unfold lapsedExpiry
      exact KeepsLaw.ite (joinFailed_law c _ .none (logged _ _) (table _ _)) (lost _)
    · exact refl h

/-! ## All commands -/

theorem of_law_table {s t : State} {c : Instr} (h : t.lawful ∧ (t.table = s.table ∨ t.table = clearEntries s.table)) :
    KeepsLaw s c t := by
  refine ⟨h.1, ?_⟩
  rcases h.2 with table | table <;> rw [table]
  · exact .same
  · exact .cleared _ .same

theorem passBy_law {s : State} {c : Instr} (h : s.lawful) : KeepsLaw s c (passBy s) := by
  rw [passBy_eq]; exact of_same h rfl rfl rfl rfl

theorem inWrite_lawful {s : State} (r : Reg) (h : s.lawful) : (s.inWrite r).lawful := by
  rw [inWrite_eq]; exact lawful_of_same h rfl rfl rfl

theorem live_law {f : State → State} {s t : State} {c : Instr} (h : s.lawful) (hf : KeepsLaw s c (f s))
    (ht : live f s = .next t) : KeepsLaw s c t := by
  obtain rfl | ⟨_, rfl⟩ := live_next ht
  · exact refl h
  · exact hf

theorem hostWrite_law {r : Reg} {f : State → State} {s t : State} {c : Instr} (h : s.lawful)
    (hf : ∀ u, u.lawful → (f u).lawful ∧ ((f u).table = u.table ∨ (f u).table = clearEntries u.table))
    (ht : hostWrite r f s = .next t) : KeepsLaw s c t := by
  obtain rfl | ⟨_, rfl⟩ := hostWrite_next ht
  · exact passBy_law h
  · have := hf _ (inWrite_lawful r h)
    rw [inWrite_table] at this
    exact of_law_table this

theorem hostWrite_law_units {r : Reg} {f : State → State} {s t : State} {c : Instr} (h : s.lawful)
    (hf : ∀ u, OnlyUnits u (f u)) (ht : hostWrite r f s = .next t) : KeepsLaw s c t :=
  hostWrite_law h (fun u hu => ⟨lawful_of_same hu (hf u).line (congrArg Member.state (hf u).member)
    (congrArg ConfigBlock.status (hf u).config), .inl (hf u).table⟩) ht

theorem hostWrite_law_errors {r : Reg} (f : State → State) {s t : State} {c : Instr} (h : s.lawful)
    (hf : ∀ u, f u = u.withErrors (f u).errors) (ht : hostWrite r f s = .next t) : KeepsLaw s c t :=
  hostWrite_law h (fun u hu => by rw [hf u]; exact ⟨lawful_of_same hu rfl rfl rfl, .inl rfl⟩) ht

theorem onPort_law {f : State → State} {s t : State} {c : Instr} (h : s.lawful) (hf : KeepsLaw s c (f s))
    (ht : onPort f s = .next t) : KeepsLaw s c t := by
  obtain rfl | ⟨_, rfl⟩ := onPort_next ht
  · exact passBy_law h
  · exact hf

theorem assertReset_law {s : State} (c : Instr) (clks : Nat) (ins : ResetInputs) (h : s.lawful) :
    KeepsLaw s c (assertReset clks ins s) := by
  have counted : KeepsLaw s c { s with freeCount := s.freeCount + 1 } := of_same h rfl rfl rfl rfl
  exact KeepsLaw.ite (of_law_table (warmStart_law ins h)) (KeepsLaw.ite (refl h)
    (KeepsLaw.ite (of_law_table (warmStart_law (s := { s with freeCount := s.freeCount + 1 }) ins counted.lawful))
      counted))

theorem exec_keepsLaw {s t : State} (c : Instr) (h : s.lawful) (ht : exec c s = .next t) : KeepsLaw s c t := by
  cases c with
  | powerOnReset a trg => injection ht with ht; subst ht; exact ⟨lawful_of_silent rfl (fun hc => by cases hc), .fresh _⟩
  | rstnWarmReset k p pl => exact live_law h (assertReset_law _ k _ h) ht
  | warmReset p pl => exact hostWrite_law h (fun u hu => warmStart_law _ hu) ht
  | portReady =>
    refine live_law h ?_ ht
    unfold portReady
    split <;> exact of_same h rfl rfl rfl rfl
  | commit => exact hostWrite_law h (fun u hu => ⟨(startCommit_law hu).1, .inl (startCommit_law hu).2⟩) ht
  | commitComplete => exact live_law h (commitComplete_law _ h) ht
  | configWrite w => exact hostWrite_law h (fun u hu => ⟨(writeField_law w hu).1, .inl (writeField_law w hu).2⟩) ht
  | registerWrite a d =>
    cases d with
    | command w =>
      refine live_law (f := beginTransaction w a) h ?_ ht
      rw [beginTransaction_eq]
      exact of_same h rfl rfl rfl rfl
    | data b ins => exact onPort_law h (writeByte_law _ a b ins h) ht
  | transactionEnd => exact live_law (f := endTransaction) h (of_same h rfl rfl rfl rfl) ht
  | reqData b => exact hostWrite_law_units h (takeReqByte_only b) ht
  | cmpData => exact onPort_law h (readByte_law _ cmpDataAddr h) ht
  | eventClear v => exact hostWrite_law_units (f := clearEvents v) h (fun _ => OnlyUnits.withEvents _ _) ht
  | irqEn v => exact hostWrite_law_units (f := setIrqEn v) h (fun _ => OnlyUnits.withEvents _ _) ht
  | wakeEn v => exact hostWrite_law_units (f := setWakeEn v) h (fun _ => OnlyUnits.withEvents _ _) ht
  | wakeAny v => exact hostWrite_law_units (f := setWakeAny v) h (fun _ => OnlyUnits.withEvents _ _) ht
  | signalLatchClear v => exact hostWrite_law_units (f := clearLatch v) h (fun _ => OnlyUnits.withEvents _ _) ht
  | errStatusClear v => exact hostWrite_law_errors (clearErrStatus v) h (fun _ => rfl) ht
  | errMask v => exact hostWrite_law_errors (setErrMask v) h (fun _ => rfl) ht
  | errFirstClear v => exact hostWrite_law_errors (clearErrFirst) h (fun _ => rfl) ht
  | slotEnable v => exact hostWrite_law_units h (slotWrite_units (fun n => writeEnable_only n v)) ht
  | slotCtrl v => exact hostWrite_law_units h (slotWrite_units (fun n => writeSlotCtrl_only n v)) ht
  | fire => exact hostWrite_law_units h (slotWrite_units fireSlot_only) ht
  | triggerFlagClear | missedClear => exact hostWrite_law_units h (slotWrite_units (fun n => modifySlot_only n _)) ht
  | trgEdge n l =>
    obtain ⟨x, units⟩ := pinEdge_only n l s
    exact live_law h (of_same h units.line (congrArg Member.state units.member)
      (congrArg ConfigBlock.status units.config) units.table) ht
  | acquire => exact live_law h (request_law h takeAcquire_only) ht
  | release => exact live_law h (request_law h takeRelease_only) ht
  | renew => exact live_law h (takeHead_law_of_table h (fun r _ hu => takeRenew_law r hu)) ht
  | cancel => exact live_law h (request_law h takeCancel_only) ht
  | signal => exact live_law h (request_law h takeSignal_only) ht
  | query => exact live_law h (request_law h takeQuery_only) ht
  | detach => exact live_law h (takeHead_law_of_table h (fun r _ hu => takeDetach_law r hu)) ht
  | join => exact live_law h (takeHead_law_of_table h (fun r _ hu => takeJoin_law r hu)) ht
  | unknownRequest => exact live_law h (request_law h takeUnknown_only) ht
  | slotIssue => exact live_law h (of_units h (slotIssue_only s)) ht
  | heldWithdrawPlace => exact live_law h (of_units h (placeHeld_only s)) ht
  | lineWaitDone => exact live_law h (lineWaitDone_law _ h) ht
  | idleGap => exact live_law h (idleGap_law _ h) ht
  | yieldTimeout => exact live_law h (yieldTimeout_law _ h) ht
  | transmitStart rs => exact live_law h (startBoundary_law _ rs h) ht
  | frameAccepted f => exact live_law h (frameAccepted_law f h) ht
  | frameVoided f => exact live_law h (frameVoided_law f h) ht
  | abortHoldEnd => exact live_law h (holdEnd_law _ h) ht
  | tick => exact live_law h (tick_law _ h) ht
  | leaseExpiry k =>
    refine live_law h ?_ ht
    unfold leaseExpiry
    split
    · exact refl h
    · exact KeepsLaw.ite (of_units h (expireLease_only _ s)) (refl h)
  | presenceTimerExpiry => exact live_law h (presenceExpiry_law _ h) ht
  | dropoutExpiry a => exact live_law h (dropoutExpiry_law _ a h) ht
  | listenIntervalEnd => exact live_law h (listenEnd_law _ h) ht
  | snapshotTimerExpiry p => exact live_law h (snapshotExpiry_law _ p h) ht
  | digestTimerExpiry => exact live_law h (digestExpiry_law _ h) ht
  | powerFail => exact live_law (f := powerFail) h ⟨lawful_of_silent rfl h.2, .same⟩ ht

/-- Settles O59: each command keeps the law and changes the table in one of the ways of `TableStep`, each of which
keeps the entries sound, and orderly where the frame handed over is a lawful one. -/
theorem everyStepKeepsTheReplicaSound : Obligations.EveryStepKeepsTheReplicaSound := by
  intro s t law sound hstep
  cases hq : s.pending with
  | nil =>
    rw [stepRunsTheFrontCommand.2 s hq] at hstep
    injection hstep with hstep
    subst hstep
    exact ⟨law, sound, fun orderly _ => orderly⟩
  | cons c rest =>
    rw [stepRunsTheFrontCommand.1 c rest s hq] at hstep
    have kept := exec_keepsLaw (s := s.withPending rest) c (lawful_of_same law rfl rfl rfl) hstep
    refine ⟨kept.lawful, kept.table.sound sound, fun orderly frames => ?_⟩
    exact kept.table.orderly orderly (fun sender f hand => frames c rest sender f rfl hand)

end Sys2Proof.Machine
end

