-- ==== Sys2Proof/Proofs/EventWrites.lean ====
section
/-! PROOFS. The host's writes to the event and error registers (R167 to R174), the interrupt outputs (R169, R170)
and the logging of an error (R173, R174). -/

namespace Sys2Proof.Machine

/-! ## The commands, as writes of their registers -/

theorem exec_eventClear (v : Half) (s : State) : exec (.eventClear v) s = hostWrite .event (clearEvents v) s := rfl
theorem exec_irqEn (v : Half) (s : State) : exec (.irqEn v) s = hostWrite .irqEn (setIrqEn v) s := rfl
theorem exec_wakeEn (v : Half) (s : State) : exec (.wakeEn v) s = hostWrite .wakeEn (setWakeEn v) s := rfl
theorem exec_wakeAny (b : Bool) (s : State) : exec (.wakeAny b) s = hostWrite .control (setWakeAny b) s := rfl
theorem exec_signalLatchClear (v : Byte) (s : State) :
    exec (.signalLatchClear v) s = hostWrite .signalLatch (clearLatch v) s := rfl
theorem exec_errStatusClear (v : Half) (s : State) :
    exec (.errStatusClear v) s = hostWrite .errStatus (clearErrStatus v) s := rfl
theorem exec_errMask (v : Half) (s : State) : exec (.errMask v) s = hostWrite .errMask (setErrMask v) s := rfl
theorem exec_errFirstClear (v : Byte) (s : State) :
    exec (.errFirstClear v) s = hostWrite .errFirst clearErrFirst s := rfl

/-- Settles O17: the write of a register keeps the records that the new value is made of. -/
theorem eventAndErrorRegisterWrites : Obligations.EventAndErrorRegisterWrites := by
  intro s h
  refine ⟨fun v => ?_, fun v => ?_, fun v => ?_, fun v => ?_, fun v => ?_, fun v => ?_, fun v => ?_, fun v => ?_⟩
  · simp [exec_eventClear, hostWrite_open h, clearEvents]
  · simp [exec_irqEn, hostWrite_open h, setIrqEn, eventMask]
  · simp [exec_wakeEn, hostWrite_open h, setWakeEn, eventMask]
  · simp [exec_wakeAny, hostWrite_open h, setWakeAny]
  · simp [exec_signalLatchClear, hostWrite_open h, clearLatch]
  · simp [exec_errStatusClear, hostWrite_open h, clearErrStatus]
  · simp [exec_errMask, hostWrite_open h, setErrMask, errorMask]
  · simp [exec_errFirstClear, hostWrite_open h, clearErrFirst]

/-! ## One bit of a half word -/

/-- A half word has the bit of a power of two exactly where it has that bit. -/
theorem and_twoPow_ne_zero (x : Half) {i : Nat} (hi : i < 16) :
    (x &&& BitVec.ofNat 16 (2 ^ i) != 0) = x.getLsbD i := by
  have bit : BitVec.ofNat 16 (2 ^ i) = BitVec.twoPow 16 i := by
    refine BitVec.eq_of_toNat_eq ?_
    rw [BitVec.toNat_ofNat, BitVec.toNat_twoPow]
  rw [bit, BitVec.and_twoPow]
  cases x.getLsbD i
  · simp
  · have : BitVec.twoPow 16 i ≠ 0 := fun h0 => by
      have := congrArg (fun y => BitVec.getLsbD y i) h0
      simp [hi] at this
    simpa using this

theorem ErrKind.bit_lt (k : ErrKind) : k.bit < 16 := by cases k <;> decide

theorem masked_eq (s : State) (k : ErrKind) : s.masked k = s.errors.mask.getLsbD k.bit :=
  and_twoPow_ne_zero _ k.bit_lt

/-- Settles O19: the two conditions of the log are the mask and the pointer. -/
theorem loggingAnError : Obligations.LoggingAnError := by
  intro s k h flagged event
  refine ⟨fun masked => ?_, fun unmasked empty => ?_, fun unmasked full => ?_⟩
  · rw [logError_eq, masked_eq, masked]
    rfl
  · rw [logError_eq, masked_eq, unmasked, empty]
    rfl
  · rw [logError_eq, masked_eq, unmasked]
    simp only [full, and_false, if_false]
    rfl

/-! ## The outputs (R169, R170) -/

theorem Event.bit_le (e : Event) : e.bit ≤ 8 := by cases e <;> decide

/-- Every bit up to 8 is an event's. -/
theorem Event.exists_bit {i : Nat} (h : i ≤ 8) : ∃ e : Event, e.bit = i := by
  match i, h with
  | 0, _ => exact ⟨.cmpReady, rfl⟩
  | 1, _ => exact ⟨.leaseWarn, rfl⟩
  | 2, _ => exact ⟨.leaseExpired, rfl⟩
  | 3, _ => exact ⟨.signal, rfl⟩
  | 4, _ => exact ⟨.membership, rfl⟩
  | 5, _ => exact ⟨.peer, rfl⟩
  | 6, _ => exact ⟨.slot, rfl⟩
  | 7, _ => exact ⟨.error, rfl⟩
  | 8, _ => exact ⟨.reqDropped, rfl⟩

/-- The bits of CMP_READY's mask. -/
theorem cmpReady_mask_bit (i : Nat) : Event.cmpReady.mask.getLsbD i = decide (i = 0) := by
  have one : Event.cmpReady.mask = 1#16 := rfl
  simp [one, BitVec.getLsbD_one]

/-- The latched events are bits 1 to 8. -/
theorem latchedMask_bit (i : Nat) : latchedMask.getLsbD i = decide (1 ≤ i ∧ i ≤ 8) := by
  by_cases h : i < 16
  · interval_cases i <;> rfl
  · rw [BitVec.getLsbD_of_ge _ _ (by omega)]
    simp; omega

theorem eventWord_bit (s : State) (i : Nat) : s.eventWord.getLsbD i =
    (s.events.latched.getLsbD i && decide (1 ≤ i ∧ i ≤ 8) || (s.cmpReady && decide (i = 0))) := by
  unfold State.eventWord
  rw [BitVec.getLsbD_or, BitVec.getLsbD_and, latchedMask_bit]
  cases s.cmpReady
  · simp
  · simp [cmpReady_mask_bit]

theorem eventWord_bit_le {s : State} {i : Nat} (h : s.eventWord.getLsbD i = true) : i ≤ 8 := by
  rw [eventWord_bit] at h
  simp only [Bool.or_eq_true, Bool.and_eq_true, decide_eq_true_eq] at h
  omega

/-- A half word is not 0 exactly where it has a bit. -/
theorem ne_zero_iff_bit (x : Half) : (x != 0) = true ↔ ∃ i, x.getLsbD i = true := by
  rw [bne_iff_ne]
  constructor
  · intro h
    by_contra hn
    push Not at hn
    exact h (BitVec.eq_of_getLsbD_eq (fun i _ => by simpa using hn i))
  · rintro ⟨i, hi⟩ rfl
    simp at hi

/-- The events of the register that a mask lets through are the bits that the two have in common. -/
theorem enabled_iff (s : State) (m : Half) : (s.eventWord &&& m != 0) = true ↔
    ∃ e : Event, s.eventWord.getLsbD e.bit = true ∧ m.getLsbD e.bit = true := by
  rw [ne_zero_iff_bit]
  constructor
  · rintro ⟨i, hi⟩
    rw [BitVec.getLsbD_and, Bool.and_eq_true] at hi
    obtain ⟨e, he⟩ := Event.exists_bit (eventWord_bit_le hi.1)
    exact ⟨e, he ▸ hi.1, he ▸ hi.2⟩
  · rintro ⟨e, h1, h2⟩
    exact ⟨e.bit, by rw [BitVec.getLsbD_and, h1, h2]; rfl⟩

theorem anyEvent_iff (s : State) : (s.eventWord != 0) = true ↔ ∃ e : Event, s.eventWord.getLsbD e.bit = true := by
  rw [ne_zero_iff_bit]
  constructor
  · rintro ⟨i, hi⟩
    obtain ⟨e, he⟩ := Event.exists_bit (eventWord_bit_le hi)
    exact ⟨e, he ▸ hi⟩
  · rintro ⟨e, he⟩
    exact ⟨e.bit, he⟩

/-- Settles O18: an output sees bits 0 to 8 of the register alone, and each of these is an event. -/
theorem outputsFollowTheEvents : Obligations.OutputsFollowTheEvents := by
  intro s
  refine ⟨?_, ?_, ?_⟩
  · rw [State.irqAsserted, Bool.and_eq_true, enabled_iff]
  · rw [State.wakeAsserted, Bool.and_eq_true, Bool.or_eq_true, Bool.and_eq_true, enabled_iff, anyEvent_iff]
    refine and_congr_right fun _ => ⟨?_, ?_⟩
    · rintro (⟨e, h1, h2⟩ | ⟨h2, e, h1⟩)
      · exact ⟨e, h1, .inl h2⟩
      · exact ⟨e, h1, .inr h2⟩
    · rintro ⟨e, h1, h2 | h2⟩
      · exact .inl ⟨e, h1, h2⟩
      · exact .inr ⟨h2, e, h1⟩
  · rw [eventWord_bit]
    simp [State.cmpReady]

end Sys2Proof.Machine
end

