-- ==== Sys2Proof/Proofs/ConfigRules.lean ====
section
/-! PROOFS. The configuration (R182, R183): the writes of its fields, the checks of a commit, and what its end
makes take effect. -/

namespace Sys2Proof.Machine

theorem exec_configWrite (w : ConfigWrite) (s : State) :
    exec (.configWrite w) s = hostWrite (regOf w) (writeField w) s := rfl
theorem exec_commit (s : State) : exec .commit s = hostWrite .control startCommit s := rfl
theorem exec_commitComplete (s : State) : exec .commitComplete s = live commitComplete s := rfl

/-! ## When the configuration is written -/

theorem configWritable_iff (s : State) :
    s.configWritable = true ↔ s.member.state = .unconfigured ∧ s.config.status ≠ .busy := by
  simp [State.configWritable]

theorem configWritable_eq_false {s : State} (h : s.member.state ≠ .unconfigured ∨ s.config.status = .busy) :
    s.configWritable = false := by
  rw [Bool.eq_false_iff, Ne, configWritable_iff]
  tauto

@[simp] theorem configWritable_inWrite (s : State) (r : Reg) : (s.inWrite r).configWritable = s.configWritable := by
  simp [State.configWritable]

@[simp] theorem n_inWrite (s : State) (r : Reg) : (s.inWrite r).n = s.n := by simp [State.n]

theorem port_openTransaction (k : Txn) (a : BitVec 7) (s : State) :
    (openTransaction k a s).port =
      { s.port with txn := k, addr := a, wr := none, rd := none, cmp := none, sdo := some 0 } := rfl

/-- What a transaction keeps of the port: the state and the selectors. -/
theorem port_inTransaction (k : Txn) (a : BitVec 7) (s : State) : (inTransaction k a s).port =
    { s.port with
      txn := k, addr := a, wr := (inTransaction k a s).port.wr, rd := (inTransaction k a s).port.rd,
      cmp := (inTransaction k a s).port.cmp, sdo := (inTransaction k a s).port.sdo } := by
  unfold inTransaction
  split
  · rename_i h
    obtain ⟨rfl, rfl⟩ := h
    rfl
  · rfl

/-- The port in the write of a whole register. -/
theorem port_inWrite (s : State) (r : Reg) : (s.inWrite r).port =
    { s.port with
      txn := .write, addr := nextAddr (r.base + BitVec.ofNat 7 (r.bytes - 1)), wr := none,
      rd := (s.inWrite r).port.rd, cmp := (s.inWrite r).port.cmp, sdo := some 0 } := by
  unfold State.inWrite
  dsimp only [State.withPort_port]
  rw [port_inTransaction]

@[simp] theorem inWrite_slotSel (s : State) (r : Reg) : (s.inWrite r).port.slotSel = s.port.slotSel := by
  rw [port_inWrite]
@[simp] theorem inWrite_kindSel (s : State) (r : Reg) : (s.inWrite r).port.kindSel = s.port.kindSel := by
  rw [port_inWrite]

@[simp] theorem kindSelExists_inWrite (s : State) (r : Reg) : (s.inWrite r).kindSelExists = s.kindSelExists := by
  simp [State.kindSelExists]

/-! ## The writes of the fields (R182) -/

theorem writeField_of_writable {w : ConfigWrite} {s : State} (h : s.configWritable = true) :
    writeField w s =
      s.withConfig { s.config with fields := setField w s.port.kindSel s.kindSelExists s.config.fields } := by
  simp [writeField, h]

theorem writeField_of_not_writable {w : ConfigWrite} {s : State} (h : s.configWritable = false) :
    writeField w s = s := by
  simp [writeField, h]

/-- The write of a field by the host, when the configuration may be written. -/
theorem exec_configWrite_of_writable {w : ConfigWrite} {s : State} (h : s.portOpen = true)
    (hw : s.configWritable = true) : exec (.configWrite w) s = .next ((s.inWrite (regOf w)).withConfig
      { s.config with fields := setField w s.port.kindSel s.kindSelExists s.config.fields }) := by
  rw [exec_configWrite, hostWrite_open h, writeField_of_writable (by simpa using hw)]
  simp

/-- Settles O11: the field written is the one that `setField` gives. -/
theorem configWriteSetsItsField : Obligations.ConfigWriteSetsItsField := by
  intro s h f sets kind
  refine ⟨fun shut w => ?_, fun unconfigured ready => ?_⟩
  · rw [exec_configWrite, hostWrite_open h,
      writeField_of_not_writable (by simpa using configWritable_eq_false shut)]
  · have write (w : ConfigWrite) {g : ConfigFields} (hg : setField w s.port.kindSel s.kindSelExists f = g) :
        sets (regOf w) w g :=
      hg ▸ exec_configWrite_of_writable h ((configWritable_iff s).2 ⟨unconfigured, ready⟩)
    refine ⟨fun v hk => write (.tokenKind v) ?_, fun v hk => write (.tokenKind v) ?_,
      fun v hv => write (.presencePeriod v) (if_neg hv), write (.presencePeriod 0) rfl,
      fun v => write (.dropout v) rfl, fun v => write (.digestInterval v) rfl, fun v => write (.tickDiv v) rfl,
      fun v hv => write (.bitDiv v) (if_neg hv), write (.bitDiv 0) rfl, fun v => write (.flags v) rfl,
      fun len w v b => write (.lease .one len w v b) rfl, fun len w v b => write (.lease .two len w v b) rfl,
      fun len w v b => write (.lease .three len w v b) rfl⟩
    · exact if_pos (by simpa [State.kindSelExists] using hk)
    · exact if_neg (by simpa [State.kindSelExists] using hk)

/-! ## The checks of a commit (R183) -/

/-- A TOKEN_KIND value that check 1 lets through. -/
theorem kindValid_iff (g : Grade) (b : Byte) :
    kindValid g b = true ↔ b = 0 ∨ (g = .vg418 ∧ 2 ≤ b.toNat ∧ b.toNat ≤ 8) := by
  simp [kindValid, and_assoc]

/-- The parameters of a class that check 3 lets through. -/
theorem ClassParams.valid_iff (p : ClassParams) :
    p.valid = true ↔ 1 ≤ p.len.toNat ∧ 1 ≤ p.w.toNat ∧ p.w.toNat ≤ p.len.toNat ∧ p.v.toNat ≤ p.w.toNat := by
  simp [ClassParams.valid, and_assoc]

theorem badKind_eq_some {g : Grade} {kinds : List Byte} {k : Nat} (hk : k < g.tokens)
    (bad : ¬ kindValid g (kinds.getD k 0) = true) (below : ∀ j, j < k → kindValid g (kinds.getD j 0) = true) :
    badKind g kinds = some k := by
  rw [badKind, List.find?_range_eq_some]
  refine ⟨by simpa using bad, List.mem_range.2 hk, fun j hj => by simpa using below j hj⟩

theorem badKind_eq_none {g : Grade} {kinds : List Byte}
    (ok : ∀ k, k < g.tokens → kindValid g (kinds.getD k 0) = true) : badKind g kinds = none := by
  rw [badKind, List.find?_range_eq_none]
  intro k hk
  simpa using ok k hk

/-- The commit of a configuration that may be written: the failure that it finds, or BUSY. -/
theorem exec_commit_of_writable {s : State} (h : s.portOpen = true) (hw : s.configWritable = true) :
    exec .commit s = .next ((s.inWrite .control).withConfig
      (match commitFailure s.grade s.config.fields with
        | some (code, detail) => { s.config with status := code, detail := detail }
        | none => { s.config with status := .busy, detail := 0 })) := by
  rw [exec_commit, hostWrite_open h, startCommit]
  simp only [configWritable_inWrite, hw, if_true, inWrite_grade, inWrite_config]
  cases commitFailure s.grade s.config.fields <;> rfl

/-- Settles O9: each check is looked at once the ones before it pass. -/
theorem commitChecksInOrder : Obligations.CommitChecksInOrder := by
  intro s h f sets kindOk classOk kindsOk dropoutOk digestOk
  refine ⟨fun shut => ?_, fun unconfigured ready => ?_⟩
  · rw [exec_commit, hostWrite_open h, startCommit]
    simp [configWritable_eq_false shut]
  have fails {code : ConfigStatus} {detail : Byte} (hf : commitFailure s.grade f = some (code, detail)) :
      sets code detail := by
    have hc := exec_commit_of_writable h ((configWritable_iff s).2 ⟨unconfigured, ready⟩)
    rwa [hf] at hc
  have passes (hf : commitFailure s.grade f = none) : sets .busy 0 := by
    have hc := exec_commit_of_writable h ((configWritable_iff s).2 ⟨unconfigured, ready⟩)
    rwa [hf] at hc
  have kinds (ok : kindsOk) : badKind s.grade f.kinds = none :=
    badKind_eq_none (fun k hk => (kindValid_iff _ _).2 (ok k hk))
  have valid (p : ClassParams) (ok : classOk p) : p.valid = true := (ClassParams.valid_iff p).2 ok
  have invalid (p : ClassParams) (bad : ¬ classOk p) : p.valid = false :=
    Bool.eq_false_iff.2 (fun hv => bad ((ClassParams.valid_iff p).1 hv))
  have dropout (ok : dropoutOk) : ¬ f.dropout.toNat < 4 * f.presencePeriod.toNat := Nat.not_lt.2 ok
  refine ⟨fun k hk bad below => fails ?_, fun hks hd => fails ?_, fun hks hd h1 => fails ?_,
    fun hks hd h1 h2 => fails ?_, fun hks hd h1 h2 h3 => fails ?_, fun hks hd h1 h2 h3 hi => fails ?_,
    fun hks hd h1 h2 h3 hi => passes ?_⟩
  · have lowest : badKind s.grade f.kinds = some k :=
      badKind_eq_some hk (fun hv => bad ((kindValid_iff _ _).1 hv)) (fun j hj => (kindValid_iff _ _).2 (below j hj))
    simp [commitFailure, lowest, byteOf]
  · simp [commitFailure, kinds hks, Nat.not_le.1 hd]
  · simp [commitFailure, kinds hks, dropout hd, badClass, invalid _ h1, byteOf]
  · simp [commitFailure, kinds hks, dropout hd, badClass, valid _ h1, invalid _ h2, byteOf]
  · simp [commitFailure, kinds hks, dropout hd, badClass, valid _ h1, valid _ h2, invalid _ h3, byteOf]
  · have range : ¬ (f.digestInterval.toNat = 0 ∨ 16 ≤ f.digestInterval.toNat) := hi
    simp only [commitFailure, kinds hks, if_neg (dropout hd), badClass, valid _ h1, valid _ h2, valid _ h3, if_neg range]
    rfl
  · have range : f.digestInterval.toNat = 0 ∨ 16 ≤ f.digestInterval.toNat := hi
    simp only [commitFailure, kinds hks, if_neg (dropout hd), badClass, valid _ h1, valid _ h2, valid _ h3, if_pos range]
    rfl

/-! ## The end of a commit (R183) -/

/-- The MEMBERSHIP event stays set whatever is set with it. -/
theorem membership_bit (c : Prop) [Decidable c] (x y : Half) :
    (if c then x ||| Event.membership.mask ||| y else x ||| Event.membership.mask)[4] = true := by
  have mask : Event.membership.mask[4] = true := rfl
  split <;> simp [BitVec.getElem_or, mask]

/-- Settles O10: the configuration takes effect, and the entry actions of LISTENING with the wait of R2 follow. -/
theorem commitCompleteEntersListening : Obligations.CommitCompleteEntersListening := by
  intro s hp busy
  refine ⟨enterListening true (takeConfiguration s), ?_, ?_⟩
  · rw [exec_commitComplete, live_on hp, commitComplete, if_pos busy]
  rw [enterListening_eq, listeningActions_eq, setMState_eq]
  simp [takeConfiguration, configDigest, byteOf, tableOfKinds, Entry.free, TokenKind.ofByte, membership_bit]

end Sys2Proof.Machine
end

