-- ==== Sys2Proof/Proofs/SlotRules.lean ====
section
/-! PROOFS. The trigger slots: what a change of one slot does to the others, the outcomes of a trigger event
(R155), the writes of the slot registers (R152 to R154) and the edges of the TRG inputs (R154). -/

namespace Sys2Proof.Machine

theorem exec_slotEnable (v : Bool) (s : State) :
    exec (.slotEnable v) s = hostWrite .slotCtrl (slotWrite (fun n => writeEnable n v)) s := rfl
theorem exec_slotCtrl (v : Byte) (s : State) :
    exec (.slotCtrl v) s = hostWrite .slotCtrl (slotWrite (fun n => writeSlotCtrl n v)) s := rfl
theorem exec_fire (s : State) : exec .fire s = hostWrite .slotStatus (slotWrite fireSlot) s := rfl
theorem exec_triggerFlagClear (s : State) : exec .triggerFlagClear s =
    hostWrite .slotStatus (slotWrite (fun n => modifySlot n Slot.clearTrigger)) s := rfl
theorem exec_missedClear (s : State) : exec .missedClear s =
    hostWrite .slotStatus (slotWrite (fun n => modifySlot n Slot.clearMissed)) s := rfl
theorem exec_trgEdge (n : BitVec 2) (level : Bool) (s : State) :
    exec (.trgEdge n level) s = live (pinEdge n level) s := rfl

/-! ## A change of one slot -/

section
variable {s : State} {n m : BitVec 2} {f g : Slot → Slot}

@[simp] theorem slotAt_inWrite (s : State) (r : Reg) (n : BitVec 2) : (s.inWrite r).slotAt n = s.slotAt n := by
  simp [State.slotAt]

@[simp] theorem slotExists_inWrite (s : State) (r : Reg) (n : BitVec 2) :
    (s.inWrite r).slotExists n = s.slotExists n := by
  simp [State.slotExists]

theorem modifySlot_modifySlot (n : BitVec 2) (f g : Slot → Slot) (s : State) :
    modifySlot n f (modifySlot n g s) = modifySlot n (fun x => f (g x)) s := by
  simp only [modifySlot, State.withSlots_slots, withSlots_withSlots]
  congr 1
  refine List.ext_getElem? (fun i => ?_)
  simp only [List.getElem?_modify]
  cases s.slots[i]? with
  | none => rfl
  | some x => by_cases h : n.toNat = i <;> simp [h]

/-- A change of a slot is told by what it does to the record that stands there. -/
theorem modifySlot_congr (h : f (s.slotAt n) = g (s.slotAt n)) : modifySlot n f s = modifySlot n g s := by
  simp only [modifySlot]
  congr 1
  refine List.ext_getElem? (fun i => ?_)
  simp only [List.getElem?_modify]
  by_cases hi : n.toNat = i
  · subst hi
    cases hx : s.slots[n.toNat]? with
    | none => rfl
    | some x =>
      have : s.slotAt n = x := by simp [State.slotAt, List.getD, hx]
      simp [this ▸ h]
  · simp [hi]

theorem modifySlot_self (h : f (s.slotAt n) = s.slotAt n) : modifySlot n f s = s := by
  rw [modifySlot_congr (g := fun x => x) h]
  have same : s.slots.modify n.toNat (fun x => x) = s.slots := List.modify_id _ _
  rw [modifySlot, same]
  rfl

/-- What a change leaves of the records, it leaves of the record that stands there. -/
theorem slotAt_modifySlot_keeps {β : Type} (p : Slot → β) (h : ∀ x, p (f x) = p x) (m : BitVec 2) :
    p ((modifySlot n f s).slotAt m) = p (s.slotAt m) := by
  simp only [modifySlot, State.slotAt, State.withSlots_slots, List.getD, List.getElem?_modify]
  cases s.slots[m.toNat]? with
  | none => rfl
  | some x => by_cases hi : n.toNat = m.toNat <;> simp [hi, h]

theorem slotAt_modifySlot (n m : BitVec 2) (f : Slot → Slot) (hs : s.slots.length = 4) :
    (modifySlot n f s).slotAt m = if m = n then f (s.slotAt m) else s.slotAt m := by
  have hm : m.toNat < s.slots.length := by have := m.isLt; omega
  simp only [modifySlot, State.withSlots, State.slotAt, List.getD, List.getElem?_modify]
  by_cases h : m = n
  · subst h; simp [hm]
  · have : n.toNat ≠ m.toNat := fun hc => h (BitVec.eq_of_toNat_eq hc.symm)
    simp [h, this]

theorem slotAt_modifySlot_ne (h : m ≠ n) : (modifySlot n f s).slotAt m = s.slotAt m := by
  have : n.toNat ≠ m.toNat := fun hc => h (BitVec.eq_of_toNat_eq hc.symm)
  simp [modifySlot, State.slotAt, List.getD, this]

theorem slotAt_mem (n : BitVec 2) (hs : s.slots.length = 4) : s.slotAt n ∈ s.slots := by
  have hn : n.toNat < s.slots.length := by have := n.isLt; omega
  simp only [State.slotAt, List.getD, List.getElem?_eq_getElem hn, Option.getD_some]
  exact List.getElem_mem hn

theorem slotWrite_of_exists {f : BitVec 2 → State → State} (h : s.slotExists s.port.slotSel = true) :
    slotWrite f s = f s.port.slotSel s := by
  simp [slotWrite, h]

theorem slotWrite_of_not_exists {f : BitVec 2 → State → State} (h : s.slotExists s.port.slotSel = false) :
    slotWrite f s = s := by
  simp [slotWrite, h]

/-- A write of a slot register by the host, to a slot that the grade has. -/
theorem hostWrite_slotWrite {r : Reg} {f : BitVec 2 → State → State} (h : s.portOpen = true)
    (he : s.slotExists s.port.slotSel = true) :
    hostWrite r (slotWrite f) s = .next (f s.port.slotSel (s.inWrite r)) := by
  rw [hostWrite_open h, slotWrite_of_exists (by simpa using he), inWrite_slotSel]

end

/-! ## Trigger events (R155) -/

theorem slotEvent_eq (n : BitVec 2) (c : SlotCause) (s : State) :
    slotEvent n c s = (modifySlot n (fun x => { x with cause := c }) s).withEvents
      { s.events with latched := s.events.latched ||| 0x0040 } := rfl

section
variable {s : State} {n : BitVec 2}

theorem slotTrigger_of_disabled (h : (s.slotAt n).state = .disabled) : slotTrigger n s = s := by
  simp [slotTrigger, h]

theorem slotTrigger_of_armed (h : (s.slotAt n).state = .armed) :
    slotTrigger n s = modifySlot n (fun x => { x with state := .triggered }) s := by
  simp [slotTrigger, h]

/-- A trigger event that the slot misses (R152, R155). -/
theorem slotTrigger_of_busy (hd : (s.slotAt n).state ≠ .disabled) (ha : (s.slotAt n).state ≠ .armed) :
    slotTrigger n s = (modifySlot n (fun x => { x with missed := true, cause := .missed }) s).withEvents
      { s.events with latched := s.events.latched ||| 0x0040 } := by
  have missed : slotTrigger n s = slotEvent n .missed (modifySlot n (fun x => { x with missed := true }) s) := by
    unfold slotTrigger
    cases hx : (s.slotAt n).state with
    | disabled => exact absurd hx hd
    | armed => exact absurd hx ha
    | triggered | claiming | withdrawing | held | releasing => rfl
  rw [missed, slotEvent_eq, modifySlot_modifySlot]
  rfl

theorem fireSlot_of_software (h : (s.slotAt n).source = 0) : fireSlot n s = slotTrigger n s := by
  simp [fireSlot, h]

theorem fireSlot_of_other (h : (s.slotAt n).source ≠ 0) : fireSlot n s = s := by
  simp only [fireSlot, h, if_false]

end

/-- Settles O25: FIRE is a trigger event of a slot of source SOFTWARE; the flags are written as they stand. -/
theorem fireAndFlagWrites : Obligations.FireAndFlagWrites := by
  intro s h he n x
  have fire : exec .fire s = .next (fireSlot n (s.inWrite .slotStatus)) := by
    rw [exec_fire, hostWrite_slotWrite h he]
  have clear : exec .triggerFlagClear s = .next (modifySlot n Slot.clearTrigger (s.inWrite .slotStatus)) := by
    rw [exec_triggerFlagClear, hostWrite_slotWrite h he]
  have sameSlot : (s.inWrite .slotStatus).slotAt n = x := slotAt_inWrite _ _ _
  refine ⟨fun other => ?_, fun soft disabled => ?_, fun soft armed => ?_, fun soft disabled armed => ?_,
    fun triggered => ?_, fun waiting => ?_, ?_⟩
  · rw [fire, fireSlot_of_other (sameSlot ▸ other)]
  · rw [fire, fireSlot_of_software (sameSlot ▸ soft), slotTrigger_of_disabled (sameSlot ▸ disabled)]
  · rw [fire, fireSlot_of_software (sameSlot ▸ soft), slotTrigger_of_armed (sameSlot ▸ armed)]
  · rw [fire, fireSlot_of_software (sameSlot ▸ soft),
      slotTrigger_of_busy (sameSlot ▸ disabled) (sameSlot ▸ armed), inWrite_events]
  · rw [clear, modifySlot_congr (g := fun y => { y with state := .armed })]
    rw [sameSlot, Slot.clearTrigger, if_pos triggered]
  · rw [clear, modifySlot_self]
    rw [sameSlot, Slot.clearTrigger, if_neg waiting]
  · rw [exec_missedClear, hostWrite_slotWrite h he]
    rfl

/-! ## SLOT_CTRL (R153, R185) -/

theorem writeEnable_true (n : BitVec 2) (s : State) : writeEnable n true s = enableSlot n s := rfl
theorem writeEnable_false (n : BitVec 2) (s : State) : writeEnable n false s = disableSlot n s := rfl

theorem portOpen_modifySlot (n : BitVec 2) (f : Slot → Slot) (s : State) :
    (modifySlot n f s).portOpen = s.portOpen := rfl

/-- A change of a slot and the port's part of a write do not meet. -/
theorem modifySlot_inWrite (n : BitVec 2) (f : Slot → Slot) (s : State) (r : Reg) :
    (modifySlot n f s).inWrite r = modifySlot n f (s.inWrite r) := by
  unfold State.inWrite inTransaction
  by_cases h : s.port.txn = .write ∧ s.port.addr = r.base
  · simp [h, modifySlot]; rfl
  · simp [h, modifySlot]; rfl

/-- Settles O24: the fields are stored in a DISABLED slot alone, and the ENABLE that is written acts on what is
stored. -/
theorem slotCtrlStoresAndThenEnables : Obligations.SlotCtrlStoresAndThenEnables := by
  intro s v h he n stored
  have write : exec (.slotCtrl v) s =
      .next (writeEnable n (v.getLsbD 7) (modifySlot n (Slot.setCtrl v) (s.inWrite .slotCtrl))) := by
    rw [exec_slotCtrl, hostWrite_slotWrite h he]
    rfl
  have sameSlot : (s.inWrite .slotCtrl).slotAt n = s.slotAt n := slotAt_inWrite _ _ _
  have stores (t : State) (ht : (t.slotAt n).state = .disabled) :
      modifySlot n (Slot.setCtrl v) t = stored t := by
    refine modifySlot_congr ?_
    have source : v.extractLsb' 3 3 = BitVec.ofNat 3 (v.toNat / 8) := by
      refine BitVec.eq_of_toNat_eq ?_
      simp [Nat.shiftRight_eq_div_pow]
    have code : v.extractLsb' 0 3 = BitVec.ofNat 3 v.toNat := by
      refine BitVec.eq_of_toNat_eq ?_
      simp
    simp only [Slot.setCtrl, ht, if_true, source, code]
  have keptState (t : State) : ((stored t).slotAt n).state = (t.slotAt n).state :=
    slotAt_modifySlot_keeps (f := fun y => { y with
      mode := if v.getLsbD 6 then .follow else .single, source := BitVec.ofNat 3 (v.toNat / 8),
      code := BitVec.ofNat 3 v.toNat }) Slot.state (fun _ => rfl) n
  refine ⟨fun disabled clear => ?_, fun disabled set => ?_, fun busy => ?_⟩
  · rw [write, clear, writeEnable_false, stores _ (by rw [sameSlot, disabled])]
    have still : ((stored (s.inWrite .slotCtrl)).slotAt n).state = .disabled := by
      rw [keptState, sameSlot, disabled]
    simp [disableSlot, still]
  · rw [write, set, stores _ (by rw [sameSlot, disabled]), exec_slotEnable,
      hostWrite_slotWrite (by exact h) (by exact he), modifySlot_inWrite]
    rfl
  · rw [write, exec_slotEnable, hostWrite_slotWrite h he, modifySlot_self]
    rw [sameSlot, Slot.setCtrl, if_neg busy]

/-! ## SLOT_ENABLE (R153) -/

/-- Settles O21: with no claim to give up, the clearing of ENABLE disables the slot or asks it to stop. -/
theorem enableClearedByState : Obligations.EnableClearedByState := by
  intro s h he n
  have write : exec (.slotEnable false) s = .next (disableSlot n (s.inWrite .slotCtrl)) := by
    rw [exec_slotEnable, hostWrite_slotWrite h he]
    rfl
  have sameSlot : (s.inWrite .slotCtrl).slotAt n = s.slotAt n := slotAt_inWrite _ _ _
  refine ⟨fun disabled => ?_, fun ready => ?_, fun ending => ?_⟩
  · rw [write, disableSlot, sameSlot, disabled]
  · rw [write, disableSlot, sameSlot]
    rcases ready with hx | hx <;> rw [hx]
  · rw [write, disableSlot, sameSlot]
    rcases ending with hx | hx <;> rw [hx] <;> rfl

/-- The order of every list of tokens, as a relation between all of them. -/
theorem ascending_iff (l : List Nat) : ascending l = true ↔ l.Pairwise (· < ·) := by
  rw [← List.isChain_iff_pairwise]
  induction l with
  | nil => simp [ascending]
  | cons a l ih =>
    cases l with
    | nil => simp [ascending]
    | cons b l => simp [ascending, ih]

theorem TokenKind.isExclusive_iff (k : TokenKind) : k.isExclusive = true ↔ k = .exclusive := by
  cases k <;> simp [TokenKind.isExclusive]

/-- The checks on a specification that R153 names BAD_SPEC. -/
def specPasses (g : Grade) (t : List Entry) (x : Slot) : Prop :=
  1 ≤ x.spec.listLen.toNat ∧ x.spec.listLen.toNat ≤ 4 ∧ (∀ k ∈ x.spec.tokens, k < g.tokens) ∧
    x.spec.tokens.Pairwise (· < ·) ∧ 1 ≤ x.spec.units.toNat ∧
    (∀ k ∈ x.spec.tokens, x.spec.units.toNat ≤ (entryAt t k).kind.capacity) ∧
    (x.spec.tokens.length ≠ 1 → x.spec.units.toNat = 1 ∧ ∀ k ∈ x.spec.tokens, (entryAt t k).kind = .exclusive) ∧
    (g = .vg418l → x.spec.units.toNat = 1) ∧ x.spec.cls.toNat ≤ 3 ∧ x.source.toNat ≤ 4

theorem Grade.ne_vg418 (g : Grade) : g ≠ .vg418 ↔ g = .vg418l := by cases g <;> decide

/-- The check of ENABLE in its three steps: a station with no configuration, the mode, the specification. -/
theorem slotCheck_unconfigured (g : Grade) (t : List Entry) (x : Slot) : slotCheck g true t x = some .badSpec := rfl

theorem slotCheck_badMode (g : Grade) (t : List Entry) {x : Slot} (follow : x.mode = .follow)
    (source : ¬ (x.source = 1 ∨ x.source = 2)) : slotCheck g false t x = some .badMode := by
  obtain ⟨fall, rise⟩ := not_or.1 source
  have bad : x.mode = .follow ∧ x.source ≠ pinFall ∧ x.source ≠ pinRise := ⟨follow, fall, rise⟩
  simp only [slotCheck, Bool.false_eq_true, if_false, if_pos bad]

theorem slotCheck_spec (g : Grade) (t : List Entry) {x : Slot}
    (mode : x.mode = .follow → x.source = 1 ∨ x.source = 2) :
    (slotCheck g false t x = none ∧ specPasses g t x) ∨
      (slotCheck g false t x = some .badSpec ∧ ¬ specPasses g t x) := by
  have modeOk : ¬ (x.mode = .follow ∧ x.source ≠ pinFall ∧ x.source ≠ pinRise) := by
    rintro ⟨follow, fall, rise⟩
    exact (mode follow).elim fall rise
  simp only [slotCheck, Bool.false_eq_true, if_false, if_neg modeOk]
  split
  · rename_i passes
    simp only [Bool.and_eq_true, Bool.or_eq_true, decide_eq_true_eq, List.all_eq_true, beq_iff_eq, ascending_iff,
      TokenKind.isExclusive_iff, and_assoc, or_iff_not_imp_left, ← ne_eq, Grade.ne_vg418] at passes
    exact .inl ⟨rfl, passes⟩
  · rename_i fails
    simp only [Bool.and_eq_true, Bool.or_eq_true, decide_eq_true_eq, List.all_eq_true, beq_iff_eq, ascending_iff,
      TokenKind.isExclusive_iff, and_assoc, or_iff_not_imp_left, ← ne_eq, Grade.ne_vg418] at fails
    exact .inr ⟨rfl, fails⟩

/-- ENABLE written 1 to a slot that is not DISABLED, and to one whose check fails or passes. -/
theorem enableSlot_of_busy {n : BitVec 2} {s : State} (h : (s.slotAt n).state ≠ .disabled) : enableSlot n s = s := by
  simp [enableSlot, h]

theorem enableSlot_of_fails {n : BitVec 2} {s : State} {c : SlotCause} (h : (s.slotAt n).state = .disabled)
    (hc : slotCheck s.grade (decide (s.member.state = .unconfigured)) s.table (s.slotAt n) = some c) :
    enableSlot n s = slotEvent n c s := by
  simp [enableSlot, h, hc]

theorem enableSlot_of_passes {n : BitVec 2} {s : State} (h : (s.slotAt n).state = .disabled)
    (hc : slotCheck s.grade (decide (s.member.state = .unconfigured)) s.table (s.slotAt n) = none) :
    enableSlot n s = modifySlot n Slot.armed s := by
  simp [enableSlot, h, hc]

/-- Settles O20: the outcome of the check of R153 at a DISABLED slot. -/
theorem enableSetChecksTheSlot : Obligations.EnableSetChecksTheSlot := by
  intro s h n x l units modeOk specOk fails
  refine ⟨fun lacks v => ?_, fun he busy => ?_, fun he disabled => ?_⟩
  · rw [exec_slotEnable, hostWrite_open h, slotWrite_of_not_exists (by simpa using lacks)]
  · rw [exec_slotEnable, hostWrite_slotWrite h he, writeEnable_true, enableSlot_of_busy (by simpa using busy)]
  have write : exec (.slotEnable true) s = .next (enableSlot n (s.inWrite .slotCtrl)) := by
    rw [exec_slotEnable, hostWrite_slotWrite h he, writeEnable_true]
  have refused {c : SlotCause}
      (hc : slotCheck s.grade (decide (s.member.state = .unconfigured)) s.table x = some c) : fails c := by
    refine write.trans ?_
    rw [enableSlot_of_fails (c := c) (by simpa using disabled) (by simpa using hc), slotEvent_eq,
      inWrite_events]
  refine ⟨fun unconfigured => ?_, fun configured follow => ?_, fun configured follow bad => ?_,
    fun configured follow ok => ?_⟩
  · exact refused (by rw [decide_eq_true unconfigured]; rfl)
  · obtain ⟨follow, source⟩ := Classical.not_imp.1 follow
    exact refused (by rw [decide_eq_false configured]; exact slotCheck_badMode _ _ follow source)
  · rcases slotCheck_spec s.grade s.table follow with ⟨_, passes⟩ | ⟨check, _⟩
    · exact absurd passes bad
    · exact refused (by rw [decide_eq_false configured]; exact check)
  · rcases slotCheck_spec s.grade s.table follow with ⟨check, _⟩ | ⟨_, notOk⟩
    · rw [write, enableSlot_of_passes (by simpa using disabled) (by simpa [configured] using check)]
      rfl
    · exact absurd ok notOk

/-! ## Edges (R154, R155) -/

theorem Slot.triggeredBy_iff (x : Slot) (level : Bool) :
    x.triggeredBy level = true ↔ (x.source = 1 ∧ level = false) ∨ (x.source = 2 ∧ level = true) := by
  simp [Slot.triggeredBy, pinFall, pinRise]

theorem Slot.oppositeTo_iff (x : Slot) (level : Bool) : x.oppositeTo level = true ↔
    x.mode = .follow ∧ ((x.source = 1 ∧ level = true) ∨ (x.source = 2 ∧ level = false)) := by
  simp [Slot.oppositeTo, pinFall, pinRise]

/-- The level of TRGn is taken down, at the pin's record and where a reset samples it. -/
def pinTaken (n : BitVec 2) (level : Bool) (s : State) : State :=
  modifySlot n (fun y => { y with pin := level }) (setTrgPin n level s)

theorem pinTaken_keeps {β : Type} (p : Slot → β) (h : ∀ (x : Slot) (b : Bool), p { x with pin := b } = p x)
    (n m : BitVec 2) (level : Bool) (s : State) : p ((pinTaken n level s).slotAt m) = p (s.slotAt m) :=
  slotAt_modifySlot_keeps (s := setTrgPin n level s) (f := fun y => { y with pin := level }) p (fun x => h x level) m

section
variable {s : State} {n : BitVec 2} {level : Bool}

theorem pinEdge_of_none (h : s.slotExists n = false ∨ (s.slotAt n).pin = level) : pinEdge n level s = s := by
  simp only [pinEdge, if_pos h]

/-- An edge: the slot's trigger event, its opposite edge, or nothing. -/
theorem pinEdge_of_edge (he : s.slotExists n = true) (hp : (s.slotAt n).pin ≠ level) :
    pinEdge n level s = if (s.slotAt n).triggeredBy level then slotTrigger n (pinTaken n level s)
      else if (s.slotAt n).oppositeTo level then oppositeEdge n (pinTaken n level s)
      else pinTaken n level s := by
  have edge : ¬ (s.slotExists n = false ∨ (s.slotAt n).pin = level) := by simp [he, hp]
  simp only [pinEdge, if_neg edge]
  rfl

end

/-- Settles O26: the slot's state before the edge decides, for the level alone is taken down first. -/
theorem edgesTriggerByState : Obligations.EdgesTriggerByState := by
  intro s n level hp x s1 pinOnly leading opposite
  have edge : exec (.trgEdge n level) s = .next (pinEdge n level s) := by rw [exec_trgEdge, live_on hp]
  have taken : pinTaken n level s = pinOnly := rfl
  have state : ((pinTaken n level s).slotAt n).state = x.state := pinTaken_keeps Slot.state (fun _ _ => rfl) n n level s
  have changed (f : Slot → Slot) : modifySlot n f (pinTaken n level s) =
      modifySlot n (fun y => f { y with pin := level }) s1 := modifySlot_modifySlot n f _ s1
  refine ⟨fun none => ?_, fun he moved => ⟨fun notLeading notOpposite => ?_, ?_⟩⟩
  · rw [edge, pinEdge_of_none none]
  · rw [edge, pinEdge_of_edge he moved, if_neg (by rwa [Slot.triggeredBy_iff]),
      if_neg (by rwa [Slot.oppositeTo_iff]), taken]
  have trigger (h : leading) : exec (.trgEdge n level) s = .next (slotTrigger n (pinTaken n level s)) := by
    rw [edge, pinEdge_of_edge he moved, if_pos ((Slot.triggeredBy_iff _ _).2 h)]
  have opposes (h : opposite) : exec (.trgEdge n level) s = .next (oppositeEdge n (pinTaken n level s)) := by
    have notLeading : ¬ leading := by
      obtain ⟨_, hs | hs⟩ := h <;> rintro (hl | hl) <;> simp_all
    rw [edge, pinEdge_of_edge he moved, if_neg (by rwa [Slot.triggeredBy_iff]),
      if_pos ((Slot.oppositeTo_iff _ _).2 h)]
  refine ⟨fun h disabled => ?_, fun h armed => ?_, fun h disabled armed => ?_, fun h triggered => ?_, fun h quiet => ?_⟩
  · rw [trigger h, slotTrigger_of_disabled (state.trans disabled), taken]
  · rw [trigger h, slotTrigger_of_armed (state.trans armed), changed]
  · rw [trigger h, slotTrigger_of_busy (state ▸ disabled) (state ▸ armed), changed]
    rfl
  · rw [opposes h, oppositeEdge, state.trans triggered]
    exact congrArg _ (changed _)
  · rw [opposes h, oppositeEdge]
    rcases quiet with hx | hx | hx | hx <;> rw [state.trans hx] <;> rfl

end Sys2Proof.Machine
end

