-- ==== Sys2Proof/Proofs/ResetRules.lean ====
section
/-! PROOFS. The power-on values (R66 to R185) and the power-on reset (R87), and the invariants there. -/

namespace Sys2Proof.Machine

/-! ## The power-on values -/

theorem reset_slotAt (n : BitVec 2) : State.reset.slotAt n = Slot.initial false :=
  List.getElem?_getD_replicate_default_eq _ 4 n.toNat

theorem reset_entry {e : Entry} (h : e ∈ State.reset.table) : e = Entry.free .exclusive :=
  List.eq_of_mem_replicate h

theorem reset_peerAt (a : Addr) : State.reset.peerAt a = Peer.cleared :=
  List.getElem?_getD_replicate_default_eq _ 16 a.toNat

theorem reset_pendAt (n : Nat) : State.reset.pendAt n = none :=
  List.getElem?_getD_replicate_default_eq _ 16 n

/-- Settles O3: the tables are read by their replicated entries, all else as it is written down. -/
theorem resetHoldsThePowerOnValues : Obligations.ResetHoldsThePowerOnValues := by
  rintro _ rfl
  refine ⟨rfl, rfl, reset_peerAt, by decide, ?_, rfl, rfl, rfl, reset_pendAt, rfl, rfl, by decide, by decide, rfl,
    rfl, rfl, rfl, by decide, by decide, rfl, rfl, rfl, rfl, by decide, by decide, rfl, rfl, by decide, rfl, rfl,
    rfl, rfl, ?_, rfl, rfl, rfl, rfl, rfl, rfl, rfl, rfl, rfl, rfl, reset_slotAt, rfl, rfl, rfl, rfl, rfl⟩
  · intro e he
    rw [reset_entry he]
    exact ⟨rfl, rfl, rfl⟩
  · intro b hb
    exact List.eq_of_mem_replicate hb

/-! ## The power-on reset -/

/-- The first sample of each TRG input that the grade has. -/
theorem slotAt_resetSlots {s : State} {trg : BitVec 4} (h : s.slots = resetSlots s.grade trg) (n : BitVec 2) :
    s.slotAt n = Slot.initial (s.slotExists n && trg.getLsbD n.toNat) := by
  have hn : n.toNat < 4 := n.isLt
  rw [State.slotAt, h, resetSlots]
  simp [List.getD, hn, State.slotExists]

theorem exec_powerOnReset (addr : Addr) (trg : BitVec 4) (s : State) :
    exec (.powerOnReset addr trg) s = .next (powerOn addr trg s) := rfl

/-- Settles O4. -/
theorem powerOnResetSetsEveryRecord : Obligations.PowerOnResetSetsEveryRecord := by
  intro addr trg s
  refine ⟨powerOn addr trg s, exec_powerOnReset addr trg s, rfl, rfl, rfl, rfl, rfl, rfl, rfl, rfl, rfl, rfl, rfl,
    rfl, rfl, rfl, List.length_replicate, fun e he => ?_, fun n => slotAt_resetSlots rfl n⟩
  rw [List.eq_of_mem_replicate he]
  exact ⟨rfl, rfl, rfl⟩

/-! ## The invariants -/

theorem reset_sized : State.reset.sized := by
  refine ⟨by decide, by decide, by decide, by decide, by decide, by decide, by decide, by decide, ?_, by decide,
    by decide, by decide, by decide⟩
  intro x hx
  rw [List.eq_of_mem_replicate hx]
  decide

theorem reset_tokensApart : State.reset.tokensApart := by
  refine ⟨by decide, fun p hp => ?_, fun n => ?_⟩
  · exact absurd (List.eq_of_mem_replicate hp) (by simp)
  · rw [reset_slotAt]
    have none : State.reset.claimsOfSlot n = 0 := by
      simp [State.claimsOfSlot, State.reset, Requests.initial]
    exact ⟨fun h => absurd rfl h, fun _ => none, none ▸ Nat.zero_le 1⟩

/-- Settles O58: no frame is on the line, no commit under way, and every collection is empty. -/
theorem invariantsHoldAtReset : Obligations.InvariantsHoldAtReset := by
  have free (e : Entry) (he : e ∈ State.reset.table) : e = Entry.free .exclusive := reset_entry he
  refine ⟨⟨Nat.zero_le _, Nat.zero_le _⟩, lawful_of_silent rfl (by decide), fun e he => ?_, reset_sized, ?_,
    reset_tokensApart⟩
  · rw [free e he]
    exact Entry.free_sound (by simp)
  · exact orderly_of_free (fun e he => by rw [free e he]; exact ⟨rfl, rfl⟩)

end Sys2Proof.Machine
end

