-- ==== Sys2Proof/Proofs/PortRules.lean ====
section
/-! PROOFS. The serial port (R178): which register a byte of a write reaches, when a register takes its value, and
what a write leaves of the state. -/

namespace Sys2Proof.Machine

theorem exec_data (a : BitVec 7) (b : Byte) (ins : ResetInputs) (s : State) :
    exec (.registerWrite a (.data b ins)) s = onPort (writeByte a b ins) s := rfl
theorem exec_transactionEnd (s : State) : exec .transactionEnd s = live endTransaction s := rfl
theorem exec_reqData (b : Byte) (s : State) : exec (.reqData b) s = hostWrite .reqData (takeReqByte b) s := rfl
theorem exec_cmpData (s : State) : exec .cmpData s = onPort (readByte cmpDataAddr) s := rfl

/-! ## The register map (section 12.5) -/

section
variable {r : Reg} {base len : Nat}

/-- Every address of a register is its own. -/
theorem registerAt_of_mem (h : (r, base, len) ∈ registerMap) {k : Nat} (hk : k < len) :
    registerAt (BitVec.ofNat 7 (base + k)) = some (r, base, len) := by
  have all : ∀ x ∈ registerMap, ∀ k < x.2.2, registerAt (BitVec.ofNat 7 (x.2.1 + k)) = some x := by decide
  exact all _ h k hk

theorem base_of_mem (h : (r, base, len) ∈ registerMap) : r.base = BitVec.ofNat 7 base := by
  have all : ∀ x ∈ registerMap, x.1.base = BitVec.ofNat 7 x.2.1 := by decide
  exact all _ h

theorem bytes_of_mem (h : (r, base, len) ∈ registerMap) : r.bytes = len := by
  have all : ∀ x ∈ registerMap, x.1.bytes = x.2.2 := by decide
  exact all _ h

/-- The map ends below 0x78, and no register is empty. -/
theorem bounds_of_mem (h : (r, base, len) ∈ registerMap) : 0 < len ∧ base + len ≤ 0x78 := by
  have all : ∀ x ∈ registerMap, 0 < x.2.2 ∧ x.2.1 + x.2.2 ≤ 0x78 := by decide
  exact all _ h

/-- The address moves on within a register and past it, but at the two windows. -/
theorem nextAddr_of_mem (h : (r, base, len) ∈ registerMap) (hq : r ≠ .reqData) (hc : r ≠ .cmpData) {k : Nat}
    (hk : k < len) : nextAddr (BitVec.ofNat 7 (base + k)) = BitVec.ofNat 7 (base + k + 1) := by
  have all : ∀ x ∈ registerMap, x.1 ≠ .reqData → x.1 ≠ .cmpData → ∀ k < x.2.2,
      nextAddr (BitVec.ofNat 7 (x.2.1 + k)) = BitVec.ofNat 7 (x.2.1 + k + 1) := by decide
  exact all _ h hq hc k hk

theorem mem_of_registerAt {a : BitVec 7} (h : registerAt a = some (r, base, len)) :
    (r, base, len) ∈ registerMap ∧ base ≤ a.toNat ∧ a.toNat < base + len := by
  have inside := List.find?_some h
  simp only [Bool.and_eq_true, decide_eq_true_eq] at inside
  exact ⟨List.mem_of_find?_eq_some h, inside⟩

end

/-! ## What a write leaves of the state -/

namespace State.sameButTransaction

theorem refl (s : State) : s.sameButTransaction s := rfl

theorem andThen {s t u : State} (h : s.sameButTransaction t) (g : t.sameButTransaction u) :
    s.sameButTransaction u := by
  unfold State.sameButTransaction at h g ⊢
  refine g.trans ?_
  rw [h]
  rfl

variable {s t : State}

theorem powered (h : s.sameButTransaction t) : t.powered = s.powered := by
  unfold State.sameButTransaction at h
  rw [h]
  rfl

/-- The records outside the port, all at once. -/
theorem records (h : s.sameButTransaction t) : t.grade = s.grade ∧ t.station = s.station ∧ t.config = s.config ∧
    t.line = s.line ∧ t.table = s.table ∧ t.member = s.member ∧ t.snap = s.snap ∧ t.digest = s.digest ∧
    t.time = s.time ∧ t.leases = s.leases ∧ t.req = { s.req with asm := t.req.asm } ∧ t.slots = s.slots ∧
    t.events = s.events ∧ t.errors = s.errors ∧ t.pending = s.pending := by
  unfold State.sameButTransaction at h
  rw [h]
  exact ⟨rfl, rfl, rfl, rfl, rfl, rfl, rfl, rfl, rfl, rfl, rfl, rfl, rfl, rfl, rfl⟩

end State.sameButTransaction

theorem openTransaction_sameBut (k : Txn) (a : BitVec 7) (s : State) :
    s.sameButTransaction (openTransaction k a s) := rfl

theorem inTransaction_sameBut (k : Txn) (a : BitVec 7) (s : State) : s.sameButTransaction (inTransaction k a s) := by
  unfold inTransaction
  split
  · exact .refl s
  · exact openTransaction_sameBut k a s

/-- The transaction's part of the port changes. -/
theorem withPort_sameBut (s : State) (k : Txn) (a : BitVec 7) (wr : Option (BitVec 7 × List Byte))
    (rd : Option RegRead) (cmp : Option CmpRead) (sdo : Option Byte) :
    s.sameButTransaction (s.withPort { s.port with
      txn := k, addr := a, wr := wr, rd := rd, cmp := cmp, sdo := sdo }) := rfl

theorem endTransaction_sameBut (s : State) : s.sameButTransaction (endTransaction s) := rfl

theorem inWrite_sameBut (s : State) (r : Reg) : s.sameButTransaction (s.inWrite r) :=
  (inTransaction_sameBut _ _ _).andThen (withPort_sameBut _ _ _ _ _ _ _)

@[simp] theorem inTransaction_txn (k : Txn) (a : BitVec 7) (s : State) : (inTransaction k a s).port.txn = k := by
  rw [port_inTransaction]
@[simp] theorem inTransaction_addr (k : Txn) (a : BitVec 7) (s : State) : (inTransaction k a s).port.addr = a := by
  rw [port_inTransaction]

/-! ## One byte of a write (R178) -/

/-- The port when a byte has been written at an address, with what is held of a register begun. -/
def byteTaken (a : BitVec 7) (wr : Option (BitVec 7 × List Byte)) (s : State) : State :=
  (inTransaction .write a s).withPort
    { (inTransaction .write a s).port with addr := nextAddr a, wr := wr, sdo := some 0 }

theorem byteTaken_sameBut (a : BitVec 7) (wr : Option (BitVec 7 × List Byte)) (s : State) :
    s.sameButTransaction (byteTaken a wr s) :=
  (inTransaction_sameBut _ _ _).andThen (withPort_sameBut _ _ _ _ _ _ _)

theorem inWrite_of_mem {r : Reg} {base : Nat} (h : (r, base, 1) ∈ registerMap) (s : State) :
    s.inWrite r = byteTaken (BitVec.ofNat 7 base) none s := by
  unfold State.inWrite byteTaken
  rw [bytes_of_mem h, base_of_mem h]
  simp

/-- The byte of a register of one byte makes it take its value. -/
theorem writeByte_whole {r : Reg} {base : Nat} (h : (r, base, 1) ∈ registerMap) (b : Byte) (ins : ResetInputs)
    (s : State) : writeByte (BitVec.ofNat 7 base) b ins s = writeRegister r [b] ins (s.inWrite r) := by
  have at0 := registerAt_of_mem h (k := 0) Nat.one_pos
  have first : (BitVec.ofNat 7 base).toNat = base := by
    have := bounds_of_mem h
    rw [BitVec.toNat_ofNat]; omega
  rw [inWrite_of_mem h, writeByte]
  simp only [Nat.add_zero] at at0
  simp only [at0, Port.written, first, if_true, List.length_nil, Nat.zero_add, List.nil_append]
  rfl

/-- The registers that a write leaves as they are (R178). -/
def Reg.readOnly : Reg → Bool
  | .id | .capability | .station | .membership | .configStatus | .reqSpace | .cmpData | .cmpCount | .rfc | .tfc
  | .errHeader | .tableDigest | .configDigest | .leaseView | .pendView | .peerView => true
  | .control | .event | .irqEn | .wakeEn | .signalLatch | .reqData | .errStatus | .errMask | .errFirst | .leaseSel
  | .pendSel | .peerSel | .slotSel | .slotCtrl | .slotSpec | .slotStatus | .kindSel | .kindData | .presencePeriod
  | .dropout | .digestInterval | .tickDiv | .bitDiv | .configFlags | .lease1 | .lease2 | .lease3 => false

theorem writeRegister_readOnly {r : Reg} (h : r.readOnly = true) (bs : List Byte) (ins : ResetInputs) (s : State) :
    writeRegister r bs ins s = s := by
  cases r with
  | id | capability | station | membership | configStatus | reqSpace | cmpData | cmpCount | rfc | tfc
  | errHeader | tableDigest | configDigest | leaseView | pendView | peerView => rfl
  | control | event | irqEn | wakeEn | signalLatch | reqData | errStatus | errMask | errFirst | leaseSel
  | pendSel | peerSel | slotSel | slotCtrl | slotSpec | slotStatus | kindSel | kindData | presencePeriod
  | dropout | digestInterval | tickDiv | bitDiv | configFlags | lease1 | lease2 | lease3 => simp [Reg.readOnly] at h

/-- A byte at an address with no register, or with one that is only read, moves the address on. -/
theorem writeByte_ignored {a : BitVec 7} (h : ∀ r base len, registerAt a = some (r, base, len) → r.readOnly = true)
    (b : Byte) (ins : ResetInputs) (s : State) : ∃ wr, writeByte a b ins s = byteTaken a wr s := by
  unfold writeByte
  dsimp only
  split
  · exact ⟨none, rfl⟩
  · rename_i r base len hr
    split
    · exact ⟨none, rfl⟩
    · split
      · rw [writeRegister_readOnly (h r base len hr)]
        exact ⟨none, rfl⟩
      · exact ⟨some _, rfl⟩

end Sys2Proof.Machine
end

