-- ==== Sys2Proof/Proofs/PortWrites.lean ====
section
/-! PROOFS. What the bytes of a transaction do: writes of the registers of one byte and of those that ignore them
(R178), and the two windows (R179, R180). -/

namespace Sys2Proof.Machine

/-! ## The registers of one byte -/

/-- The byte of a register of one byte, as a command. -/
theorem exec_data_whole {r : Reg} {base : Nat} (h : (r, base, 1) ∈ registerMap) {s : State}
    (ho : s.portOpen = true) (b : Byte) (ins : ResetInputs) :
    exec (.registerWrite (BitVec.ofNat 7 base) (.data b ins)) s = .next (writeRegister r [b] ins (s.inWrite r)) := by
  rw [exec_data, onPort_open ho, writeByte_whole h]

theorem withEvents_inWrite (s : State) (e : Events) (r : Reg) :
    (s.withEvents e).inWrite r = (s.inWrite r).withEvents e := by
  unfold State.inWrite inTransaction
  by_cases h : s.port.txn = .write ∧ s.port.addr = r.base
  · simp [h]; rfl
  · simp [h]; rfl

/-- The addresses that O13 names as ignored hold no register, or one that is only read. -/
theorem readOnly_of_ignored {a : BitVec 7}
    (h : a.toNat ≤ 0x08 ∨ a = 0x0A ∨ a = 0x0B ∨ a = 0x14 ∨ (0x16 ≤ a.toNat ∧ a.toNat ≤ 0x18) ∨
      (0x1E ≤ a.toNat ∧ a.toNat ≤ 0x31) ∨ (0x33 ≤ a.toNat ∧ a.toNat ≤ 0x3C) ∨
      (0x3E ≤ a.toNat ∧ a.toNat ≤ 0x47) ∨ (0x49 ≤ a.toNat ∧ a.toNat ≤ 0x4B) ∨ a = 0x15 ∨ 0x78 ≤ a.toNat)
    (r : Reg) (base len : Nat) (hr : registerAt a = some (r, base, len)) : r.readOnly = true := by
  obtain ⟨hm, low, high⟩ := mem_of_registerAt hr
  have written : ∀ x ∈ registerMap, x.1.readOnly = false → ∀ i < x.2.2,
      ¬ (x.2.1 + i ≤ 0x08 ∨ x.2.1 + i = 0x0A ∨ x.2.1 + i = 0x0B ∨ x.2.1 + i = 0x14 ∨
        (0x16 ≤ x.2.1 + i ∧ x.2.1 + i ≤ 0x18) ∨ (0x1E ≤ x.2.1 + i ∧ x.2.1 + i ≤ 0x31) ∨
        (0x33 ≤ x.2.1 + i ∧ x.2.1 + i ≤ 0x3C) ∨ (0x3E ≤ x.2.1 + i ∧ x.2.1 + i ≤ 0x47) ∨
        (0x49 ≤ x.2.1 + i ∧ x.2.1 + i ≤ 0x4B) ∨ x.2.1 + i = 0x15 ∨ 0x78 ≤ x.2.1 + i) := by decide
  by_contra hw
  refine written _ hm (by simpa using hw) (a.toNat - base) (by simp only; omega) ?_
  have number (k : Nat) (e : a = BitVec.ofNat 7 k) (hk : k < 128) : a.toNat = k := by
    rw [e, BitVec.toNat_ofNat]; omega
  simp only [Nat.add_sub_cancel' low]
  rcases h with h | h | h | h | h | h | h | h | h | h | h
  · exact .inl h
  · exact .inr (.inl (number 0x0A h (by omega)))
  · exact .inr (.inr (.inl (number 0x0B h (by omega))))
  · exact .inr (.inr (.inr (.inl (number 0x14 h (by omega)))))
  · omega
  · omega
  · omega
  · omega
  · omega
  · have := number 0x15 h (by omega); omega
  · omega

/-- Settles O13: a byte of a register of one byte is the whole write of it; every other address named holds
nothing that a write changes. -/
theorem oneByteAndIgnoredWrites : Obligations.OneByteAndIgnoredWrites := by
  intro s d ins h selects ignores acts
  have whole {r : Reg} {base : Nat} (hr : (r, base, 1) ∈ registerMap) :
      exec (.registerWrite (BitVec.ofNat 7 base) (.data d ins)) s = .next (writeRegister r [d] ins (s.inWrite r)) :=
    exec_data_whole hr h d ins
  have ignored {a next : BitVec 7} (ha : ∀ r base len, registerAt a = some (r, base, len) → r.readOnly = true)
      (hn : nextAddr a = next) : ignores a next := by
    obtain ⟨wr, hw⟩ := writeByte_ignored ha d ins s
    refine ⟨byteTaken a wr s, ?_, byteTaken_sameBut a wr s, hn, rfl, inTransaction_txn .write a s⟩
    rw [exec_data, onPort_open h, hw]
  have onward {a : BitVec 7} (hq : a ≠ 0x13) (hc : a ≠ 0x15) : nextAddr a = a + 1 := if_neg (not_or.2 ⟨hq, hc⟩)
  have control : exec (.registerWrite 0x09 (.data d ins)) s = .next (writeControl d ins (s.inWrite .control)) :=
    whole (r := .control) (base := 0x09) (by decide)
  refine ⟨?_, ?_, ?_, ?_, ?_, ?_, ?_, fun noReset noCommit => ?_, fun noReset commit => ?_, ?_, ?_, ?_, ?_, ?_,
    fun a ha => ?_, ?_, fun a ha top => ?_, ?_, fun r base len hr hq hc => ?_⟩
  · exact (whole (r := .signalLatch) (base := 0x12) (by decide)).trans (hostWrite_open h).symm
  · exact (whole (r := .errFirst) (base := 0x1D) (by decide)).trans (hostWrite_open h).symm
  · exact (whole (r := .slotCtrl) (base := 0x4D) (by decide)).trans (hostWrite_open h).symm
  · exact (whole (r := .kindData) (base := 0x59) (by decide)).trans (hostWrite_open h).symm
  · exact (whole (r := .presencePeriod) (base := 0x5A) (by decide)).trans (hostWrite_open h).symm
  · exact (whole (r := .bitDiv) (base := 0x61) (by decide)).trans (hostWrite_open h).symm
  · exact (whole (r := .configFlags) (base := 0x62) (by decide)).trans (hostWrite_open h).symm
  · refine control.trans ?_
    rw [exec_wakeAny, hostWrite_open h]
    simp only [writeControl, bitOf, noReset, noCommit, Bool.false_eq_true, if_false]
  · refine control.trans ?_
    rw [exec_commit, hostWrite_open (by exact h), withEvents_inWrite]
    simp only [writeControl, bitOf, noReset, commit, Bool.false_eq_true, if_false, if_true, setWakeAny, inWrite_events]
  · refine (whole (r := .leaseSel) (base := 0x32) (by decide)).trans ?_
    rw [BitVec.ofNat_toNat]; rfl
  · refine (whole (r := .pendSel) (base := 0x3D) (by decide)).trans ?_
    rw [BitVec.ofNat_toNat]; rfl
  · refine (whole (r := .peerSel) (base := 0x48) (by decide)).trans ?_
    rw [BitVec.ofNat_toNat]; rfl
  · refine (whole (r := .slotSel) (base := 0x4C) (by decide)).trans ?_
    rw [BitVec.ofNat_toNat]; rfl
  · refine (whole (r := .kindSel) (base := 0x58) (by decide)).trans ?_
    rw [BitVec.ofNat_toNat]; rfl
  · refine ignored (readOnly_of_ignored (by tauto)) (onward ?_ ?_)
    · rintro rfl; revert ha; decide
    · rintro rfl; revert ha; decide
  · exact ignored (readOnly_of_ignored (by decide)) rfl
  · refine ignored (readOnly_of_ignored (by tauto)) (onward ?_ ?_)
    · rintro rfl; revert ha; decide
    · rintro rfl; revert ha; decide
  · exact ignored (readOnly_of_ignored (by decide)) rfl
  · have last := bounds_of_mem hr
    have next := nextAddr_of_mem hr hq hc (k := len - 1) (by omega)
    refine ⟨inWrite_sameBut s r, ?_, ?_, ?_, ?_⟩
    · rw [port_inWrite, bytes_of_mem hr, base_of_mem hr]
      show nextAddr (BitVec.ofNat 7 base + BitVec.ofNat 7 (len - 1)) = _
      rw [← BitVec.ofNat_add, next, show base + (len - 1) + 1 = base + len by omega]
    all_goals rw [port_inWrite]

/-! ## The request window (R179) -/

theorem reqData_base : Reg.reqData.base = 0x13 := rfl

theorem takeReqByte_of_short {b : Byte} {s : State} (h : s.req.asm.length < 7) :
    takeReqByte b s = s.withReq { s.req with asm := s.req.asm ++ [b] } := by
  have : (s.req.asm ++ [b]).length < 8 := by simp; omega
  simp only [takeReqByte, if_pos this]

theorem takeReqByte_of_eighth {b : Byte} {s : State} (h : s.req.asm.length = 7) :
    takeReqByte b s = pushRequest (requestOf (s.req.asm ++ [b])) (s.withReq { s.req with asm := [] }) := by
  have : ¬ (s.req.asm ++ [b]).length < 8 := by simp; omega
  simp only [takeReqByte, if_neg this]

theorem pushRequest_of_room {r : Request} {s : State} (h : s.req.fifo.length < 8) :
    pushRequest r s = s.withReq { s.req with fifo := s.req.fifo ++ [r] } :=
  if_pos h

theorem pushRequest_of_full {r : Request} {s : State} (h : s.req.fifo.length = 8) :
    pushRequest r s = setEvent .reqDropped s :=
  if_neg (by rw [h]; decide)

theorem reqDropped_mask : Event.reqDropped.mask = 0x0100 := rfl

/-- Settles O15: the eighth byte completes the record, which the FIFO takes or loses. -/
theorem requestWindowAssemblesRecords : Obligations.RequestWindowAssemblesRecords := by
  intro s b h w
  have write : exec (.reqData b) s = .next (takeReqByte b w) := by rw [exec_reqData, hostWrite_open h]
  have fifo : w.req.fifo = s.req.fifo := inWrite_fifo s .reqData
  refine ⟨fun txn addr => ?_, fun begins => ?_, fun ins => ?_, fun short => ?_, ?_, fun seven full => ?_, ?_⟩
  · simp only [w, State.inWrite, inTransaction_goes_on (k := .write) txn (addr.trans reqData_base.symm)]
    rw [show nextAddr (Reg.reqData.base + BitVec.ofNat 7 (Reg.reqData.bytes - 1)) = s.port.addr from addr.symm]
  · have opened : inTransaction .write Reg.reqData.base s = openTransaction .write 0x13 s := by
      rw [inTransaction, reqData_base, if_neg (by tauto)]
    simp only [w, State.inWrite, opened, openTransaction_eq]
    rfl
  · exact (exec_data_whole (r := .reqData) (base := 0x13) (by decide) h b ins).trans (hostWrite_open h).symm
  · rw [write, takeReqByte_of_short short]
  · intro b0 b1 b2 b3 b4 b5 b6 seven room
    rw [write, takeReqByte_of_eighth (by rw [seven]; rfl), seven, pushRequest_of_room (fifo ▸ room)]
    simp [requestOf, fifo]
  · rw [write, takeReqByte_of_eighth seven, pushRequest_of_full (fifo.symm ▸ full)]
    simp [setEvent_eq, reqDropped_mask, w]
  · rw [exec_transactionEnd, live_on ((portOpen_iff s).1 h).1]
    rfl

/-! ## The completion window (R180) -/

theorem cmpData_base : cmpDataAddr = 0x15 := rfl

/-- What the completion being read becomes with one more byte taken. -/
def CmpRead.next (c : CmpRead) : Option CmpRead :=
  if 8 ≤ c.taken + 1 then none else some { c with taken := c.taken + 1 }

theorem readCmpByte_keeps {s : State} {c : CmpRead} (hc : s.cmpReading = c) (h : ¬ (8 ≤ c.taken + 1 ∧ c.isHead = true)) :
    readCmpByte s = s.withPort { s.port with
      addr := 0x15, wr := none, rd := none, sdo := some (c.record.getD c.taken 0), cmp := c.next } := by
  simp only [readCmpByte, hc, if_neg h]
  rfl

theorem readCmpByte_pops {s : State} {c : CmpRead} (hc : s.cmpReading = c) (h : 8 ≤ c.taken + 1 ∧ c.isHead = true) :
    readCmpByte s = (s.withPort { s.port with
      addr := 0x15, wr := none, rd := none, sdo := some (c.record.getD c.taken 0), cmp := c.next }).withReq
      { s.req with cmp := s.req.cmp.drop 1 } := by
  simp only [readCmpByte, hc, if_pos h]
  rfl

/-- The first byte of a record: the head's, or the EMPTY record's (R180). -/
theorem readCmpByte_of_head {s : State} {c : Completion} {rest : List Completion} (hn : s.port.cmp = none)
    (hc : s.req.cmp = c :: rest) : readCmpByte s = s.withPort { s.port with
      addr := 0x15, wr := none, rd := none, sdo := some c.status.code, cmp := some ⟨c.bytes, true, 1⟩ } := by
  have reading : s.cmpReading = ⟨c.bytes, true, 0⟩ := by simp [State.cmpReading, State.cmpCapture, hn, hc]
  exact readCmpByte_keeps reading (by simp)

theorem readCmpByte_of_empty {s : State} (hn : s.port.cmp = none) (hc : s.req.cmp = []) :
    readCmpByte s = s.withPort { s.port with
      addr := 0x15, wr := none, rd := none, sdo := some 0, cmp := some ⟨List.replicate 8 0, false, 1⟩ } := by
  have reading : s.cmpReading = ⟨List.replicate 8 0, false, 0⟩ := by
    simp [State.cmpReading, State.cmpCapture, hn, hc, zeros]
  exact readCmpByte_keeps reading (by decide)

/-- Settles O16: the capture is taken where no record is being read, and the eighth byte of a head pops it. -/
theorem completionWindowDeliversTheHead : Obligations.CompletionWindowDeliversTheHead := by
  intro s h goesOn reads first
  have read : exec .cmpData s = .next (readCmpByte (inTransaction .read 0x15 s)) := by
    rw [exec_cmpData, onPort_open h]
    rfl
  refine ⟨fun begins => ?_, fun on => ?_⟩
  · have opened : inTransaction .read 0x15 s = openTransaction .read 0x15 s := if_neg begins
    rw [opened] at read
    refine ⟨fun c rest hc => ?_, fun hc => ?_⟩
    · rw [read, readCmpByte_of_head (s := openTransaction .read 0x15 s) rfl hc]
      rfl
    · rw [read, readCmpByte_of_empty (s := openTransaction .read 0x15 s) rfl hc]
      rfl
  · obtain ⟨txn, addr⟩ := on
    rw [inTransaction_goes_on txn addr] at read
    have onward (b : Byte) (c : Option CmpRead) : reads s.req.asm b c =
        s.withPort { s.port with addr := 0x15, wr := none, rd := none, sdo := some b, cmp := c } := by
      simp only [reads, ← txn]
      rfl
    refine ⟨fun none => ⟨fun c rest hc => ?_, fun hc => ?_⟩, fun bs head n hc hn => ?_, fun bs hc => ?_,
      fun bs hc => ?_⟩
    · rw [read, readCmpByte_of_head none hc, onward]
    · rw [read, readCmpByte_of_empty none hc, onward]
    · have reading : s.cmpReading = ⟨bs, head, n⟩ := by simp [State.cmpReading, hc]
      have more : ¬ 8 ≤ n + 1 := by omega
      rw [read, readCmpByte_keeps reading (fun hl => more hl.1), onward, CmpRead.next, if_neg more]
    · have reading : s.cmpReading = ⟨bs, true, 7⟩ := by simp [State.cmpReading, hc]
      rw [read, readCmpByte_pops reading ⟨Nat.le_refl 8, rfl⟩, onward]
      rfl
    · have reading : s.cmpReading = ⟨bs, false, 7⟩ := by simp [State.cmpReading, hc]
      rw [read, readCmpByte_keeps reading (by simp), onward]
      rfl

end Sys2Proof.Machine
end

