-- ==== Sys2Proof/Proofs/PortMulti.lean ====
section
/-! PROOFS. Registers of two bytes or more (R178): the bytes of a write before the last are held in the port, and the
last one makes the register take them all. -/

namespace Sys2Proof.Machine

/-! ## Commands one after another -/

theorem execAll_append (cs ds : List Instr) (s : State) : execAll (cs ++ ds) s = execAll ds (execAll cs s) :=
  List.foldl_append

theorem execAll_one {c : Instr} {s t : State} (h : exec c s = .next t) : execAll [c] s = t := by
  simp [execAll, h]

theorem byteWrites_append (ins : ResetInputs) (a : BitVec 7) (bs cs : List Byte) :
    byteWrites ins a (bs ++ cs) = byteWrites ins a bs ++ byteWrites ins (a + BitVec.ofNat 7 bs.length) cs := by
  induction bs generalizing a with
  | nil => simp [byteWrites]
  | cons b bs ih =>
    simp only [List.cons_append, byteWrites, ih, List.length_cons, List.cons.injEq, true_and]
    congr 2
    rw [BitVec.add_assoc, show (1 : BitVec 7) = BitVec.ofNat 7 1 from rfl, ← BitVec.ofNat_add, Nat.add_comm]

/-! ## The write of a register, byte by byte -/

section
variable {r : Reg} {base len : Nat} {s : State} {ins : ResetInputs}

/-- A register of more than one byte is no window. -/
theorem window_of_mem (h : (r, base, len) ∈ registerMap) (hl : 2 ≤ len) : r ≠ .reqData ∧ r ≠ .cmpData := by
  have all : ∀ x ∈ registerMap, 2 ≤ x.2.2 → x.1 ≠ .reqData ∧ x.1 ≠ .cmpData := by decide
  exact all _ h hl

theorem toNat_of_mem (h : (r, base, len) ∈ registerMap) {k : Nat} (hk : k < len) :
    (BitVec.ofNat 7 (base + k)).toNat = base + k := by
  have := bounds_of_mem h
  rw [BitVec.toNat_ofNat]; omega

/-- The port after the bytes so far of a register that is not whole yet. -/
def registerBegun (base : Nat) (bs : List Byte) (s : State) : State :=
  (inTransaction .write (BitVec.ofNat 7 base) s).withPort
    { (inTransaction .write (BitVec.ofNat 7 base) s).port with
      addr := BitVec.ofNat 7 (base + bs.length), wr := some (BitVec.ofNat 7 base, bs), sdo := some 0 }

theorem registerBegun_sameBut (base : Nat) (bs : List Byte) (s : State) :
    s.sameButTransaction (registerBegun base bs s) :=
  (inTransaction_sameBut _ _ _).andThen (withPort_sameBut _ _ _ _ _ _ _)

/-- The first byte of a register of more than one. -/
theorem writeByte_first (h : (r, base, len) ∈ registerMap) (hl : 2 ≤ len) (b : Byte) :
    writeByte (BitVec.ofNat 7 base) b ins s = registerBegun base [b] s := by
  obtain ⟨hq, hc⟩ := window_of_mem h hl
  have here := registerAt_of_mem h (k := 0) (by omega)
  have first := toNat_of_mem h (k := 0) (by omega)
  have next := nextAddr_of_mem h hq hc (k := 0) (by omega)
  simp only [Nat.add_zero] at here first next
  have more : ¬ 0 + 1 = len := by omega
  simp only [writeByte, here, Port.written, first, if_true, List.length_nil, if_neg more, List.nil_append, next]
  rfl

theorem inTransaction_begun (base : Nat) (bs : List Byte) (s : State) :
    inTransaction .write (BitVec.ofNat 7 (base + bs.length)) (registerBegun base bs s) = registerBegun base bs s :=
  inTransaction_goes_on (inTransaction_txn .write _ s) rfl

theorem written_begun (h : (r, base, len) ∈ registerMap) {bs : List Byte} (h0 : 0 < bs.length) (hb : bs.length < len) :
    (registerBegun base bs s).port.written (BitVec.ofNat 7 (base + bs.length)) base = some bs := by
  have first := toNat_of_mem h (k := 0) (by omega)
  have here := toNat_of_mem h hb
  have on : ¬ base + bs.length = base := by omega
  simp only [Nat.add_zero] at first
  simp only [Port.written, here, if_neg on, registerBegun, State.withPort_port, first, true_and,
    Nat.add_sub_cancel_left, if_true]

/-- A byte in the middle of a register goes on with what is held. -/
theorem writeByte_middle (h : (r, base, len) ∈ registerMap) {bs : List Byte} (h0 : 0 < bs.length)
    (hb : bs.length + 1 < len) (b : Byte) :
    writeByte (BitVec.ofNat 7 (base + bs.length)) b ins (registerBegun base bs s) = registerBegun base (bs ++ [b]) s := by
  obtain ⟨hq, hc⟩ := window_of_mem h (by omega)
  have more : ¬ bs.length + 1 = len := by omega
  have next := nextAddr_of_mem h hq hc (k := bs.length) (by omega)
  simp only [writeByte, inTransaction_begun, registerAt_of_mem h (k := bs.length) (by omega),
    written_begun h h0 (by omega), if_neg more, next]
  simp only [registerBegun, List.length_append, List.length_singleton, Nat.add_assoc]
  rfl

/-- The last byte makes the register take them all. -/
theorem writeByte_last (h : (r, base, len) ∈ registerMap) {bs : List Byte} (h0 : 0 < bs.length)
    (hb : bs.length + 1 = len) (b : Byte) :
    writeByte (BitVec.ofNat 7 (base + bs.length)) b ins (registerBegun base bs s) =
      writeRegister r (bs ++ [b]) ins (s.inWrite r) := by
  simp only [writeByte, inTransaction_begun, registerAt_of_mem h (k := bs.length) (by omega),
    written_begun h h0 (by omega), hb, if_true]
  congr 1
  unfold State.inWrite registerBegun
  rw [bytes_of_mem h, base_of_mem h, show len - 1 = bs.length by omega, ← BitVec.ofNat_add]
  rfl

theorem portOpen_begun (ho : s.portOpen = true) (base : Nat) (bs : List Byte) :
    (registerBegun base bs s).portOpen = true := by
  obtain ⟨hp, ha, _⟩ := (portOpen_iff s).1 ho
  refine (portOpen_iff _).2 ⟨?_, ?_, ?_⟩
  · exact (registerBegun_sameBut base bs s).powered.trans hp
  · rw [registerBegun, State.withPort_port, port_inTransaction]
    exact ha
  · simp only [registerBegun, State.withPort_port, inTransaction_txn, ne_eq, reduceCtorEq, not_false_eq_true]

/-- One more byte of a write, as a command. -/
theorem execAll_data (a : BitVec 7) (b : Byte) {t : State} (ho : t.portOpen = true) :
    execAll (byteWrites ins a [b]) t = writeByte a b ins t :=
  execAll_one ((exec_data a b ins t).trans (onPort_open ho))

/-- The bytes before the last are held in the port. -/
theorem execAll_begun (h : (r, base, len) ∈ registerMap) (ho : s.portOpen = true) {bs : List Byte}
    (h0 : 0 < bs.length) (hb : bs.length < len) :
    execAll (byteWrites ins (BitVec.ofNat 7 base) bs) s = registerBegun base bs s := by
  induction bs using List.reverseRecOn with
  | nil => simp at h0
  | append_singleton bs b ih =>
    rw [List.length_append, List.length_singleton] at hb
    rw [byteWrites_append, execAll_append, ← BitVec.ofNat_add]
    rcases Nat.eq_zero_or_pos bs.length with hz | hz
    · obtain rfl := List.length_eq_zero_iff.1 hz
      exact (execAll_data _ b ho).trans (writeByte_first h (by simpa using Nat.succ_le_of_lt hb) b)
    · rw [ih hz (by omega), execAll_data _ b (portOpen_begun ho base bs), writeByte_middle h hz hb]

/-- The whole register, byte by byte. -/
theorem execAll_whole (h : (r, base, len) ∈ registerMap) (hl : 2 ≤ len) (ho : s.portOpen = true) {bs : List Byte}
    (hb : bs.length = len) :
    execAll (byteWrites ins (BitVec.ofNat 7 base) bs) s = writeRegister r bs ins (s.inWrite r) := by
  rcases List.eq_nil_or_concat' bs with rfl | ⟨cs, b, rfl⟩
  · simp only [List.length_nil] at hb; omega
  · rw [List.length_append, List.length_singleton] at hb
    rw [byteWrites_append, execAll_append, ← BitVec.ofNat_add, execAll_begun h ho (by omega) (by omega),
      execAll_data _ b (portOpen_begun ho base cs), writeByte_last h (by omega) hb]

/-- A byte inside a register with no write begun at its first byte changes nothing in it. -/
theorem writeByte_inside (h : (r, base, len) ∈ registerMap) (hn : s.port.wr = none) {k : Nat} (h0 : 0 < k)
    (hk : k < len) (b : Byte) :
    writeByte (BitVec.ofNat 7 (base + k)) b ins s = byteTaken (BitVec.ofNat 7 (base + k)) none s := by
  have none : (inTransaction .write (BitVec.ofNat 7 (base + k)) s).port.wr = none := by
    unfold inTransaction
    split
    · exact hn
    · rfl
  have here := toNat_of_mem h hk
  have on : ¬ base + k = base := by omega
  simp only [writeByte, registerAt_of_mem h hk, Port.written, here, if_neg on, none]
  rfl

end

/-! ## The statement -/

/-- 1 written to the flags of SLOT_STATUS, as one change of the slot. -/
theorem clearSlotFlags_eq (n : BitVec 2) (b : Byte) (s : State) :
    clearSlotFlags n b s = modifySlot n (fun x => { x with
      state := if b.getLsbD 3 = true ∧ x.state = .triggered then .armed else x.state,
      missed := if b.getLsbD 2 = true then false else x.missed }) s := by
  unfold clearSlotFlags bitOf
  have trigger (x : Slot) : x.clearTrigger = { x with
      state := if x.state = .triggered then .armed else x.state } := by
    unfold Slot.clearTrigger
    split <;> rfl
  cases h3 : b.getLsbD 3 <;> cases h2 : b.getLsbD 2 <;> dsimp only
  · exact (modifySlot_self (by simp)).symm
  · exact modifySlot_congr (by simp [Slot.clearMissed])
  · exact modifySlot_congr (by simp [trigger])
  · rw [if_pos rfl, if_pos rfl, modifySlot_modifySlot]
    exact modifySlot_congr (by simp [Slot.clearMissed, trigger])

/-- The first of the two orders that a write of SLOT_STATUS leaves open (log 13). -/
theorem writeSlotStatus_cases (n : BitVec 2) (b0 b1 : Byte) (s : State) :
    (b1.getLsbD 7 = false → writeSlotStatus n b0 b1 s = clearSlotFlags n b0 s) ∧
    (b1.getLsbD 7 = true → b0.getLsbD 3 = false → b0.getLsbD 2 = false →
      writeSlotStatus n b0 b1 s = fireSlot n s) ∧
    (b1.getLsbD 7 = true → b0.getLsbD 3 = true ∨ b0.getLsbD 2 = true →
      let f : State := { s with freeCount := s.freeCount + 1 }
      writeSlotStatus n b0 b1 s = clearSlotFlags n b0 (fireSlot n f) ∨
        writeSlotStatus n b0 b1 s = fireSlot n (clearSlotFlags n b0 f)) := by
  unfold writeSlotStatus bitOf
  refine ⟨fun noFire => ?_, fun fire h3 h2 => ?_, fun fire flags => ?_⟩
  · simp only [noFire, Bool.false_eq_true, false_and, if_false]
  · simp only [fire, h3, h2, Bool.false_eq_true, or_self, and_false, if_false, if_true]
  · simp only [fire, flags, and_self, if_true]
    split
    · exact .inl rfl
    · exact .inr rfl

/-- Settles O12: a multi-byte register holds the bytes in the port until the last, which is its whole write. -/
theorem multiByteWriteTakesEffectAtItsLastByte : Obligations.MultiByteWriteTakesEffectAtItsLastByte := by
  intro s ins h wr n
  have whole {r : Reg} {base len : Nat} (hr : (r, base, len) ∈ registerMap) (hl : 2 ≤ len) {bs : List Byte}
      (hb : bs.length = len) : wr (BitVec.ofNat 7 base) bs = writeRegister r bs ins (s.inWrite r) :=
    execAll_whole hr hl h hb
  have acts {c : Instr} {r : Reg} {f : State → State} {base len : Nat} (hc : exec c s = hostWrite r f s)
      (hr : (r, base, len) ∈ registerMap) (hl : 2 ≤ len) {bs : List Byte} (hb : bs.length = len)
      (hf : f (s.inWrite r) = writeRegister r bs ins (s.inWrite r)) :
      exec c s = .next (wr (BitVec.ofNat 7 base) bs) := by
    rw [hc, hostWrite_open h, hf, whole hr hl hb]
  refine ⟨fun hi lo => ?_, fun b0 b1 b2 b3 b4 b5 b6 => ?_, fun b0 b1 b2 b3 b4 b5 b6 b7 => ?_, fun b0 b1 => ?_,
    fun r base len hr hl => ⟨fun bs hb => ?_, fun k d h0 hk hn => ?_⟩⟩
  · exact ⟨acts (exec_eventClear _ s) (base := 0x0C) (len := 2) (by decide) (by decide) rfl rfl,
      acts (exec_irqEn _ s) (base := 0x0E) (len := 2) (by decide) (by decide) rfl rfl,
      acts (exec_wakeEn _ s) (base := 0x10) (len := 2) (by decide) (by decide) rfl rfl,
      acts (exec_errStatusClear _ s) (base := 0x19) (len := 2) (by decide) (by decide) rfl rfl,
      acts (exec_errMask _ s) (base := 0x1B) (len := 2) (by decide) (by decide) rfl rfl,
      acts (exec_configWrite _ s) (r := .dropout) (base := 0x5B) (len := 2) (by decide) (by decide) rfl rfl,
      acts (exec_configWrite _ s) (r := .digestInterval) (base := 0x5D) (len := 2) (by decide) (by decide) rfl rfl,
      acts (exec_configWrite _ s) (r := .tickDiv) (base := 0x5F) (len := 2) (by decide) (by decide) rfl rfl⟩
  · exact ⟨acts (exec_configWrite _ s) (r := .lease1) (base := 0x63) (len := 7) (by decide) (by decide) rfl rfl,
      acts (exec_configWrite _ s) (r := .lease2) (base := 0x6A) (len := 7) (by decide) (by decide) rfl rfl,
      acts (exec_configWrite _ s) (r := .lease3) (base := 0x71) (len := 7) (by decide) (by decide) rfl rfl⟩
  · have written := whole (r := .slotSpec) (base := 0x4E) (len := 8) (by decide) (by decide)
      (bs := [b0, b1, b2, b3, b4, b5, b6, b7]) rfl
    refine written.trans ?_
    show slotWrite (fun n => modifySlot n (Slot.setSpec ⟨b0, b1, b2, b3, b4, b5, b6, b7⟩)) (s.inWrite .slotSpec) = _
    cases he : s.slotExists n with
    | false => rw [slotWrite_of_not_exists (by simpa using he)]; simp
    | true =>
      rw [slotWrite_of_exists (by simpa using he), inWrite_slotSel]
      by_cases hd : (s.slotAt n).state = .disabled
      · rw [if_pos ⟨rfl, hd⟩]
        exact modifySlot_congr (by rw [slotAt_inWrite, Slot.setSpec, if_pos hd])
      · rw [if_neg (fun hc => hd hc.2)]
        exact modifySlot_self (by rw [slotAt_inWrite, Slot.setSpec, if_neg hd])
  · intro w cleared u
    have written : u = slotWrite (fun n => writeSlotStatus n b0 b1) w :=
      whole (r := .slotStatus) (base := 0x56) (len := 2) (by decide) (by decide) (bs := [b0, b1]) rfl
    have atSlot (he : s.slotExists n = true) : u = writeSlotStatus n b0 b1 w := by
      rw [written, slotWrite_of_exists (by simpa [w] using he)]
      simp only [w, inWrite_slotSel]
      rfl
    obtain ⟨clears, fires, both⟩ := writeSlotStatus_cases n b0 b1 w
    refine ⟨fun lacks => ?_, fun he noFire => ?_, fun he fire h3 h2 => ?_, fun he fire flags => ?_⟩
    · rw [written, slotWrite_of_not_exists (by simpa [w] using lacks)]
    · rw [atSlot he, clears noFire, clearSlotFlags_eq]
    · rw [atSlot he, fires fire h3 h2, exec_fire, hostWrite_slotWrite h he]
    · have clear (t : State) : cleared t = clearSlotFlags n b0 t := (clearSlotFlags_eq n b0 t).symm
      intro f
      rw [atSlot he, clear, clear]
      exact both fire flags
  · intro u
    have same : s.sameButTransaction u := by
      rcases Nat.eq_zero_or_pos bs.length with hz | hz
      · obtain rfl := List.length_eq_zero_iff.1 hz
        exact .refl s
      · have begun : u = registerBegun base bs s := execAll_begun hr h hz hb
        exact begun ▸ registerBegun_sameBut base bs s
    have live : u.powered = true := same.powered.trans ((portOpen_iff s).1 h).1
    exact ⟨same, endTransaction u, by rw [exec_transactionEnd, live_on live],
      same.andThen (endTransaction_sameBut u), rfl, rfl, rfl⟩
  · obtain ⟨hq, hc⟩ := window_of_mem hr hl
    refine ⟨byteTaken (BitVec.ofNat 7 (base + k)) none s, ?_, byteTaken_sameBut _ _ _, rfl,
      nextAddr_of_mem hr hq hc hk⟩
    rw [exec_data, onPort_open h, writeByte_inside hr hn h0 hk]

end Sys2Proof.Machine
end

