-- ==== Sys2Proof/Proofs/WarmReset.lean ====
section
/-! PROOFS. The warm reset (R87, R184): what it makes of the records, at once or at the end of the hold that it waits
for (R19). -/

namespace Sys2Proof.Machine

theorem exec_rstnWarmReset (clks : Nat) (pins : ResetPins) (place : HoldPlace) (s : State) :
    exec (.rstnWarmReset clks pins place) s = live (assertReset clks ⟨pins, place⟩) s := rfl
theorem exec_warmReset (pins : ResetPins) (place : HoldPlace) (s : State) :
    exec (.warmReset pins place) s = hostWrite .control (warmStart ⟨pins, place⟩) s := rfl
theorem exec_abortHoldEnd (s : State) : exec .abortHoldEnd s = live holdEnd s := rfl
theorem exec_portReady (s : State) : exec .portReady s = live portReady s := rfl
theorem exec_powerFail (s : State) : exec .powerFail s = live powerFail s := rfl

/-! ## The reset of every block -/

/-- The destination of R87, written out. -/
theorem warmDest_eq (s : State) : s.warmDest = if s.member.state = .unconfigured then .unconfigured
    else if s.config.fields.autojoin then .listening else .detached := rfl

/-- The records after the warm reset, with the entry actions of LISTENING where the station enters it. -/
theorem warmResetNow_eq (s : State) : warmResetNow s =
    { s with
      station := s.addrPins,
      config := warmConfig (decide (s.member.state = .unconfigured)) s.config,
      line := { Line.initial with
        phase := if s.warmDest = .listening then .waiting else .off,
        bitDiv := if decide (s.member.state = .unconfigured) then none else s.line.bitDiv },
      table := clearEntries s.table,
      member := { Member.initial with state := s.warmDest, presenceWant := decide (s.warmDest = .listening) },
      snap := .initial, digest := .initial, time := ⟨!decide (s.member.state = .unconfigured), 0⟩, leases := [],
      req := .initial, slots := resetSlots s.grade s.trgPins, events := .initial,
      errors := { s.errors with mask := 0 },
      port := { Port.initial with
        state := if s.port.state = .readyAtHoldEnd then .answering else .inReset, txn := s.port.txn } } := by
  unfold warmResetNow
  by_cases hd : s.warmDest = .listening
  · simp only [hd, if_true, decide_true, listeningActions_eq]
    rfl
  · simp only [hd, if_false, decide_false]
    rfl

theorem warmResetNow_done {s : State} (h : s.port.state ≠ .readyAtHoldEnd) :
    s.warmDone s.addrPins s.trgPins (warmResetNow s) := by
  have notReady (t : State) (ht : t.port.state = .inReset) : t.portAnswers = false := by
    simp [State.portAnswers, ht]
  unfold State.warmDone
  rw [warmResetNow_eq, ← warmDest_eq]
  refine ⟨rfl, rfl, rfl, ?_, ?_, ?_, ?_, rfl, rfl, rfl, rfl, rfl, rfl, rfl, rfl, rfl, rfl, ?_, rfl, rfl, rfl, rfl, rfl,
    rfl, rfl, rfl, rfl, rfl, rfl, ?_, rfl, rfl, rfl, fun n => slotAt_resetSlots rfl n, rfl, rfl, rfl, rfl, rfl,
    notReady _ (if_neg h)⟩
  all_goals by_cases hu : s.member.state = .unconfigured
  all_goals simp [warmConfig, hu]

/-! ## A reset with nothing to wait for -/

theorem warmStart_of_free {s : State} {ins : ResetInputs} (hold : s.line.hold = none)
    (free : (s.line.tx = none ∧ ins.rxHold = false) ∨ ins.frameEnds = true) :
    warmStart ins s = warmResetNow
      (({ s with addrPins := ins.addr, trgPins := ins.trg } : State).withPort s.port.enterReset) := by
  have none : s.heldLine .warmReset ins.toHoldPlace = none := by
    rw [heldLine_eq_none]
    rcases free with ⟨tx, rx⟩ | ends
    · exact .inr ⟨tx, by simp [rx]⟩
    · exact .inl ends
  unfold warmStart
  simp only [hold, none]
  cases s.line.tx <;> rfl

/-- The warm reset starts where nothing on the line holds it up. -/
theorem warmStart_done {s : State} {ins : ResetInputs} (hold : s.line.hold = none)
    (free : (s.line.tx = none ∧ ins.rxHold = false) ∨ ins.frameEnds = true) :
    s.warmDone ins.addr ins.trg (warmStart ins s) ∧
      (warmStart ins s).port.txn = if s.port.txn = .closed then .closed else .ignored := by
  rw [warmStart_of_free hold free]
  refine ⟨warmResetNow_done (s := ({ s with addrPins := ins.addr, trgPins := ins.trg } : State).withPort
    s.port.enterReset) (by simp [Port.enterReset]), ?_⟩
  rw [warmResetNow_eq]
  rfl

/-- The records of s that a warm reset looks at, in two states that have them in common. -/
theorem warmDone_of_same {s u t : State} {addr : Addr} {trg : BitVec 4} (h : u.warmDone addr trg t)
    (grade : u.grade = s.grade) (pending : u.pending = s.pending) (fields : u.config.fields = s.config.fields)
    (digest : u.config.digest = s.config.digest) (member : u.member = s.member) (bitDiv : u.line.bitDiv = s.line.bitDiv)
    (config : s.member.state ≠ .unconfigured → u.config = s.config) (errors : u.errors = s.errors)
    (table : u.table = s.table) : s.warmDone addr trg t := by
  unfold State.warmDone at h ⊢
  have status : (if u.member.state = .unconfigured then .uncommitted else u.config.status) =
      (if s.member.state = .unconfigured then ConfigStatus.uncommitted else s.config.status) := by
    rw [member]
    split
    · rfl
    · rename_i hu
      rw [config hu]
  have detail : (if u.member.state = .unconfigured then 0 else u.config.detail) =
      (if s.member.state = .unconfigured then 0 else s.config.detail) := by
    rw [member]
    split
    · rfl
    · rename_i hu
      rw [config hu]
  rw [status, detail] at h
  simpa only [grade, pending, fields, digest, member, bitDiv, errors, table, State.slotExists] using h

/-- What the write of a control register by the host leaves for the reset to find. -/
theorem warmDone_of_control {s u t : State} {addr : Addr} {trg : BitVec 4} (h : u.warmDone addr trg t)
    (hu : u = s.inWrite .control ∨ ∃ e : Events, u = (s.inWrite .control).withEvents e ∨
      u = startCommit ((s.inWrite .control).withEvents e)) : s.warmDone addr trg t := by
  rcases hu with rfl | ⟨e, rfl | rfl⟩
  · exact warmDone_of_same h (by simp) (by simp) (by simp) (by simp) (by simp) (by simp) (by simp) (by simp) (by simp)
  · exact warmDone_of_same h (by simp) (by simp) (by simp) (by simp) (by simp) (by simp) (by simp) (by simp) (by simp)
  · have config : ∃ c, startCommit ((s.inWrite .control).withEvents e) =
        ((s.inWrite .control).withEvents e).withConfig c ∧ c.fields = s.config.fields ∧
        c.digest = s.config.digest ∧ (s.member.state ≠ .unconfigured → c = s.config) := by
      unfold startCommit
      split
      · rename_i writable
        have unconfigured := ((configWritable_iff _).1 writable).1
        simp only [State.withEvents_member, inWrite_member] at unconfigured
        split <;> exact ⟨_, rfl, by simp, by simp, fun hn => absurd unconfigured hn⟩
      · exact ⟨s.config, by rw [← inWrite_config s .control]; rfl, rfl, rfl, fun _ => rfl⟩
    obtain ⟨c, hc, fields, digest, kept⟩ := config
    rw [hc] at h
    exact warmDone_of_same h (by simp) (by simp) (by simpa using fields) (by simpa using digest) (by simp) (by simp)
      (fun hn => by simpa using kept hn) (by simp) (by simp)

/-- The write of CONTROL with WARM_RESET set. -/
theorem exec_control_reset {s : State} {d : Byte} (ins : ResetInputs) (h : s.portOpen = true)
    (hd : d.getLsbD 1 = true) : ∃ e : Events, ∃ u, (u = (s.inWrite .control).withEvents e ∨
        u = startCommit ((s.inWrite .control).withEvents e)) ∧
      e = { s.events with wakeAny := d.getLsbD 2 } ∧ (d.getLsbD 0 = false → u = (s.inWrite .control).withEvents e) ∧
      exec (.registerWrite 0x09 (.data d ins)) s = .next (warmStart ins u) := by
  have write : exec (.registerWrite 0x09 (.data d ins)) s = .next (writeControl d ins (s.inWrite .control)) :=
    exec_data_whole (r := .control) (base := 0x09) (by decide) h d ins
  refine ⟨{ s.events with wakeAny := d.getLsbD 2 }, if d.getLsbD 0 then startCommit ((s.inWrite .control).withEvents
    { s.events with wakeAny := d.getLsbD 2 }) else (s.inWrite .control).withEvents
    { s.events with wakeAny := d.getLsbD 2 }, ?_, rfl, fun h0 => by rw [h0]; rfl, ?_⟩
  · split
    · exact .inr rfl
    · exact .inl rfl
  · rw [write]
    simp only [writeControl, bitOf, hd, if_true, setWakeAny, inWrite_events]

@[simp] theorem inWrite_txn (s : State) (r : Reg) : (s.inWrite r).port.txn = .write := by rw [port_inWrite]

@[simp] theorem startCommit_line (s : State) : (startCommit s).line = s.line := by
  unfold startCommit
  split <;> [split; skip] <;> rfl

@[simp] theorem startCommit_port (s : State) : (startCommit s).port = s.port := by
  unfold startCommit
  split <;> [split; skip] <;> rfl

/-- Settles O5: the reset is the same from every cause; a write of CONTROL leaves it a transaction to ignore. -/
theorem warmResetKeepsAndClears : Obligations.WarmResetKeepsAndClears := by
  intro s addr trg clks place c hp free hold long pin written cause
  have direct (hpin : pin) : ∃ t, exec c s = .next t ∧ s.warmDone addr trg t ∧
      t.port.txn = (if s.port.txn = .closed then .closed else .ignored) := by
    have start : assertReset clks ⟨⟨addr, trg⟩, place⟩ s = warmStart ⟨⟨addr, trg⟩, place⟩ s := if_pos long
    refine ⟨_, ?_, warmStart_done (ins := ⟨⟨addr, trg⟩, place⟩) hold free⟩
    rw [hpin, exec_rstnWarmReset, live_on hp, start]
  have byWrite (hw : written) (ho : s.portOpen = true) : ∃ t, exec c s = .next t ∧ s.warmDone addr trg t ∧
      t.port.txn = .ignored := by
    have done (u : State) (hl : u.line = s.line) (ht : u.port.txn = .write) (hu : u = s.inWrite .control ∨
        ∃ e : Events, u = (s.inWrite .control).withEvents e ∨ u = startCommit ((s.inWrite .control).withEvents e)) :
        s.warmDone addr trg (warmStart ⟨⟨addr, trg⟩, place⟩ u) ∧
          (warmStart ⟨⟨addr, trg⟩, place⟩ u).port.txn = .ignored := by
      obtain ⟨reset, txn⟩ := warmStart_done (s := u) (ins := ⟨⟨addr, trg⟩, place⟩) (hl ▸ hold) (hl ▸ free)
      exact ⟨warmDone_of_control reset hu, by rw [txn, ht]; rfl⟩
    rcases hw with rfl | ⟨d, hd, rfl⟩
    · exact ⟨_, by rw [exec_warmReset, hostWrite_open ho], done _ (by simp) (by simp) (.inl rfl)⟩
    · obtain ⟨e, u, hu, _, _, hx⟩ := exec_control_reset ⟨⟨addr, trg⟩, place⟩ ho hd
      refine ⟨_, hx, done u ?_ ?_ (.inr ⟨e, hu⟩)⟩
      · rcases hu with rfl | rfl <;> simp
      · rcases hu with rfl | rfl <;> simp
  have notBoth (hw : written) : ¬ pin := by
    intro hpin
    rcases hw with hc | ⟨d, _, hc⟩ <;> exact absurd (hc.symm.trans hpin) (by simp)
  rcases cause with hpin | ⟨hw, ho⟩
  · obtain ⟨t, hx, done, txn⟩ := direct hpin
    exact ⟨t, hx, done, by simpa [hpin] using txn⟩
  · obtain ⟨t, hx, done, txn⟩ := byWrite hw ho
    exact ⟨t, hx, done, by simpa [notBoth hw] using txn⟩

end Sys2Proof.Machine
end

