-- ==== Sys2Proof/Proofs/WarmAbort.lean ====
section
/-! PROOFS. The warm reset that has a hold to wait for (R19, R184), and the port and the supply around it (R178, R19). -/

namespace Sys2Proof.Machine

/-! ## The hold that the reset waits for -/

/-- The error hold at whose end the reset comes: the one under way, with its change replaced, or a new one. -/
def resetHold (s : State) (start : Nat) : Hold :=
  match s.line.tx, s.line.hold with
  | none, some h => { h with change := .warmReset }
  | own, _ => ⟨own, .warmReset, start⟩

/-- The line while the reset waits: an own frame is driven as far as the hold's first bit time. -/
def resetLine (s : State) (start : Nat) : Line :=
  { s.line with
    tx := none, hold := some (resetHold s start),
    begun := match s.line.tx with
      | some x => (levelsOf (x.frame.toRaw s.station)).take start
      | none => s.line.begun }

/-- A warm reset waits where a frame of its own is on the line, a hold is under way, or one is made as a receiver. -/
def State.resetHeldUp (s : State) (ins : ResetInputs) : Prop :=
  (ins.frameEnds = false ∧ (s.line.tx.isSome = true ∨ (s.line.tx = none ∧ s.line.hold = none ∧
    ins.rxHold = true ∧ s.takesPart = true ∧ s.line.phase ≠ .waiting))) ∨
    (s.line.tx = none ∧ s.line.hold.isSome = true)

theorem warmStart_of_heldUp {s : State} {ins : ResetInputs} (h : s.resetHeldUp ins) : warmStart ins s =
    (({ s with addrPins := ins.addr, trgPins := ins.trg } : State).withPort s.port.enterReset).withLine
      (resetLine s ins.start) := by
  unfold warmStart resetLine resetHold
  cases htx : s.line.tx with
  | some x =>
    have running : ins.frameEnds = false := by
      rcases h with ⟨ends, _⟩ | ⟨tx, _⟩
      · exact ends
      · simp [htx] at tx
    simp only [State.heldLine, running, htx]
    rfl
  | none =>
    cases hh : s.line.hold with
    | some held => simp only [htx]
    | none =>
      have receiver : ins.frameEnds = false ∧ ins.rxHold = true ∧ s.takesPart = true ∧ s.line.phase ≠ .waiting := by
        rcases h with ⟨ends, sends | ⟨_, _, rx⟩⟩ | ⟨_, hold⟩
        · simp [htx] at sends
        · exact ⟨ends, rx⟩
        · simp [hh] at hold
      obtain ⟨running, rx, part, phase⟩ := receiver
      simp only [State.heldLine, running, htx, rx, part]
      simp [phase]

/-- The own frame stays on the line to the end of the hold (R10, R136). -/
theorem resetLine_ownFrame (s : State) (start : Nat) : (resetLine s start).ownFrame = s.line.ownFrame := by
  unfold resetLine resetHold Line.ownFrame
  cases s.line.tx <;> cases s.line.hold <;> rfl

theorem ldeAt_eq (s : State) (k : Nat) : s.ldeAt k =
    (s.powered && (s.line.hold.any (fun h => decide (h.start ≤ k)) || !(s.ownLevels.getD k true))) := rfl

/-- Before the hold LDE is as it was: the own frame is driven so far (R1, R19). -/
theorem resetLine_lde {s u : State} {start k : Nat} (hu : u.line = resetLine s start) (hp : u.powered = s.powered)
    (free : s.line.tx = none ∨ s.line.hold = none) (hk : k < (resetHold s start).start) : u.ldeAt k = s.ldeAt k := by
  have before : ¬ (resetHold s start).start ≤ k := Nat.not_le.2 hk
  have notYet : u.line.hold.any (fun h => decide (h.start ≤ k)) = false := by
    rw [hu]
    simpa [resetLine] using before
  rw [ldeAt_eq, ldeAt_eq, notYet, hp]
  unfold State.ownLevels
  rw [hu]
  cases htx : s.line.tx with
  | some x =>
    have none : s.line.hold = none := free.resolve_left (by simp [htx])
    have inFrame : k < start := by simpa [resetHold, htx] using hk
    have driven (l : List Bool) : (l.take start).getD k true = l.getD k true := by
      simp [List.getD, inFrame]
    simp only [resetLine, htx, none, driven, Option.any_none]
  | none =>
    have still : s.line.hold.any (fun h => decide (h.start ≤ k)) = false := by
      cases hh : s.line.hold with
      | none => rfl
      | some h =>
        have : k < h.start := by simpa [resetHold, htx, hh] using hk
        simpa using this
    simp only [resetLine, htx, still]

theorem resetLine_lde_held {s u : State} {start k : Nat} (hu : u.line = resetLine s start) (hp : u.powered = true)
    (hk : (resetHold s start).start ≤ k) : u.ldeAt k = true := by
  have held : u.line.hold.any (fun h => decide (h.start ≤ k)) = true := by
    rw [hu]
    simpa [resetLine] using hk
  rw [ldeAt_eq, hp, held]
  rfl

theorem claimOnLine_of_ownFrame {s t : State} (h : t.line.ownFrame = s.line.ownFrame) (n : Nat) :
    t.claimOnLine n = s.claimOnLine n := by
  unfold State.claimOnLine
  rw [h]

/-- The change of every hold that a warm reset waits for is the reset. -/
theorem resetHold_change (s : State) (start : Nat) : (resetHold s start).change = .warmReset := by
  unfold resetHold
  cases s.line.tx <;> cases s.line.hold <;> rfl

/-- The end of the hold, at which the reset of every block comes. -/
theorem holdEnd_of_reset {s : State} {h : Hold} (hh : s.line.hold = some h) (hc : h.change = .warmReset) :
    holdEnd s = warmResetNow (s.withLine { s.line with phase := .gap, recessive := 0, begun := [], hold := none }) := by
  unfold holdEnd
  simp only [hh, hc]

/-- Settles O6: the hold is the same from every cause, for the write of CONTROL changes nothing on the line. -/
theorem warmResetAbortsAFrameFirst : Obligations.WarmResetAbortsAFrameFirst := by
  intro s ins clks c hp long heldUp held cause
  have held_eq : held = resetHold s ins.start := by
    cases tx : s.line.tx <;> cases hold : s.line.hold <;> simp only [held, resetHold, tx, hold]
  have command : ∃ u, exec c s = .next (warmStart ins u) ∧ (u = s ∨ u = s.inWrite .control) := by
    rcases cause with rfl | ⟨rfl, ho⟩ | ⟨ho, d, reset, noCommit, same, rfl⟩
    · have start : assertReset clks ins s = warmStart ins s := if_pos long
      exact ⟨s, by rw [exec_rstnWarmReset, live_on hp]; exact congrArg _ start, .inl rfl⟩
    · exact ⟨s.inWrite .control, by rw [exec_warmReset, hostWrite_open ho], .inr rfl⟩
    · obtain ⟨e, u, _, he, hu, hx⟩ := exec_control_reset ins ho reset
      have kept : u = s.inWrite .control := by
        rw [hu noCommit, he, same]
        have := inWrite_events s .control
        rw [← this]
        rfl
      exact ⟨u, hx, .inr kept⟩
  obtain ⟨u, hx, hu⟩ := command
  have same : s.sameButTransaction u := by
    rcases hu with rfl | rfl
    · exact .refl _
    · exact inWrite_sameBut s .control
  obtain ⟨grade, station, config, line, table, member, snap, _, _, leases, req, slots, events, errors, pending⟩ :=
    same.records
  have live : u.powered = true := same.powered.trans hp
  have stillHeldUp : u.resetHeldUp ins := by
    unfold State.resetHeldUp State.takesPart
    rw [line, member]
    exact heldUp
  have sameLine : resetLine u ins.start = resetLine s ins.start := by
    unfold resetLine resetHold
    rw [line, station]
  have start := warmStart_of_heldUp stillHeldUp
  rw [sameLine] at start
  rw [start] at hx
  rw [held_eq]
  set t := (({ u with addrPins := ins.addr, trgPins := ins.trg } : State).withPort u.port.enterReset).withLine
    (resetLine s ins.start) with ht
  have tLine : t.line = resetLine s ins.start := rfl
  have ends : exec .abortHoldEnd t = .next (warmResetNow (t.withLine
      { t.line with phase := .gap, recessive := 0, begun := [], hold := none })) := by
    rw [exec_abortHoldEnd, live_on (by exact live), holdEnd_of_reset (s := t) rfl (resetHold_change s ins.start)]
  have done := warmResetNow_done (s := t.withLine
    { t.line with phase := .gap, recessive := 0, begun := [], hold := none }) (by simp [ht, Port.enterReset])
  refine ⟨t, hx, rfl, rfl, claimOnLine_of_ownFrame (resetLine_ownFrame s ins.start), fun k => ⟨fun hk => ?_,
    fun free hk => ?_⟩, ?_, ?_, rfl, rfl, config, member, table, snap, leases, req, slots, events, errors, _, ends, ?_⟩
  · exact resetLine_lde_held tLine live hk
  · exact resetLine_lde tLine same.powered free hk
  · simp [State.ldeAsserted, ht, live, resetLine]
  · simp [State.portAnswers, ht, Port.enterReset]
  · exact warmDone_of_same done grade pending (congrArg ConfigBlock.fields config) (congrArg ConfigBlock.digest config)
      member rfl (fun _ => config) errors table

end Sys2Proof.Machine
end

