-- ==== Sys2Proof/Proofs/PowerRules.lean ====
section
/-! PROOFS. The port's return after a warm reset (R184), the command byte of a transaction (R178), and the part without
supply (R19). -/

namespace Sys2Proof.Machine

/-! ## A part without supply -/

theorem passBy_of_unpowered {s : State} (h : s.powered = false) : passBy s = s := by simp [passBy, h]

theorem hostWrite_of_unpowered {r : Reg} {f : State → State} {s : State} (h : s.powered = false) :
    hostWrite r f s = .next s := by
  rw [hostWrite_shut (by simp [State.portOpen, State.portAnswers, h]), passBy_of_unpowered h]

theorem onPort_of_unpowered {f : State → State} {s : State} (h : s.powered = false) : onPort f s = .next s := by
  rw [onPort_shut (by simp [State.portOpen, State.portAnswers, h]), passBy_of_unpowered h]

/-- Nothing but a power-on reset acts on a part without supply (log 23). -/
theorem exec_of_unpowered {c : Instr} {s : State} (h : s.powered = false)
    (hc : ∀ addr trg, c ≠ .powerOnReset addr trg) : exec c s = .next s := by
  cases c with
  | powerOnReset addr trg => exact absurd rfl (hc addr trg)
  | registerWrite a b =>
    cases b with
    | command w => exact live_off h
    | data b ins => exact onPort_of_unpowered h
  | cmpData => exact onPort_of_unpowered h
  | warmReset | commit | configWrite | reqData | eventClear | irqEn | wakeEn | wakeAny | signalLatchClear
  | errStatusClear | errMask | errFirstClear | slotEnable | slotCtrl | fire | triggerFlagClear | missedClear =>
    exact hostWrite_of_unpowered h
  | rstnWarmReset | portReady | commitComplete | transactionEnd | trgEdge | acquire | release | renew | cancel
  | signal | query | detach | join | unknownRequest | heldWithdrawPlace | lineWaitDone | idleGap
  | transmitStart | yieldTimeout | abortHoldEnd | tick | leaseExpiry
  | presenceTimerExpiry | dropoutExpiry | listenIntervalEnd | snapshotTimerExpiry | digestTimerExpiry
  | powerFail => exact live_off h
  | slotIssue => rw [exec_slotIssue, live_off h]
  | frameAccepted f => rw [exec_frameAccepted, live_off h]
  | frameVoided f => rw [exec_frameVoided, live_off h]

/-! ## The port -/

theorem exec_command (w : Bool) (a : BitVec 7) (s : State) :
    exec (.registerWrite a (.command w)) s = live (beginTransaction w a) s := rfl

theorem beginTransaction_of_answers {w : Bool} {a : BitVec 7} {s : State} (h : s.portAnswers = true) :
    beginTransaction w a s = openTransaction (if w then .write else .read) a s := by
  simp [beginTransaction, h]

theorem beginTransaction_of_silent {w : Bool} {a : BitVec 7} {s : State} (h : s.portAnswers = false) :
    beginTransaction w a s = (s.withPort { s.port with
      txn := .ignored, wr := none, rd := none, cmp := none, sdo := none }).withReq { s.req with asm := [] } := by
  simp only [beginTransaction, h, Bool.false_eq_true, if_false]
  rfl

theorem portAnswers_eq_false {s : State} (h : s.port.state ≠ .answering) : s.portAnswers = false := by
  simp [State.portAnswers, h]

theorem portOpen_eq_false {s : State} (h : s.port.state ≠ .answering ∨ s.port.txn = .ignored) :
    s.portOpen = false := by
  rw [Bool.eq_false_iff, Ne, portOpen_iff]
  tauto

/-- The transaction that begins while the port does not answer is ignored. -/
theorem passBy_powered {s : State} (h : s.powered = true) : passBy s = s.withPort { s.port with
    txn := if s.port.txn = .closed then .ignored else s.port.txn } := by
  unfold passBy
  by_cases hc : s.port.txn = .closed
  · simp only [h, hc, and_self, if_true]
  · simp only [hc, and_false, if_false]
    rfl

theorem resetWaits_hold {s : State} (h : s.resetWaits = true) :
    ∃ held, s.line.hold = some held ∧ held.change = .warmReset := by
  unfold State.resetWaits at h
  split at h
  · rename_i own start hh
    exact ⟨_, hh, rfl⟩
  · exact absurd h (by simp)

/-- Settles O8: what the port does with a byte, by the state that it is in. -/
theorem portReadyAndPowerFail : Obligations.PortReadyAndPowerFail := by
  refine ⟨fun s hp hr free => ?_, fun s hp hr waits => ?_, fun s hr => ?_, fun s c hp hc => ?_, fun s b => ?_,
    fun s hp ignored answers => ?_, fun s hp => ?_⟩
  · rw [exec_portReady, live_on hp, portReady, hr]
    simp [free]
  · have ready : portReady s = s.withPort { s.port with state := .readyAtHoldEnd } := by
      rw [portReady, hr]
      simp [waits]
    obtain ⟨held, hh, change⟩ := resetWaits_hold waits
    refine ⟨portReady s, by rw [exec_portReady, live_on hp], by rw [ready]; exact portAnswers_eq_false (by simp), ?_⟩
    rw [ready]
    set t := s.withPort { s.port with state := .readyAtHoldEnd } with ht
    refine ⟨holdEnd t, by rw [exec_abortHoldEnd, live_on (by exact hp)], ?_⟩
    rw [holdEnd_of_reset (s := t) hh change]
    refine ⟨?_, ?_⟩
    · rw [warmResetNow_eq]
      simp [State.portAnswers, ht, hp]
    · rw [warmResetNow_eq]
      rfl
  · have stays : portReady s = s := by
      unfold portReady
      cases hs : s.port.state with
      | inReset => exact absurd hs hr
      | answering | readyAtHoldEnd => rfl
    rw [exec_portReady]
    simp [live, stays]
  · have passes (shut : s.portOpen = false) : exec c s = .next (passBy s) := by
      rcases hc with rfl | ⟨d, rfl⟩ | ⟨a, d, i, rfl⟩ | rfl | ⟨v, rfl⟩ | rfl
      · rw [exec_cmpData, onPort_shut shut]
      · rw [exec_reqData, hostWrite_shut shut]
      · rw [exec_data, onPort_shut shut]
      · rw [exec_commit, hostWrite_shut shut]
      · rw [exec_irqEn, hostWrite_shut shut]
      · rw [exec_fire, hostWrite_shut shut]
    refine ⟨fun ignored => ?_, fun silent => ?_⟩
    · rw [passes (portOpen_eq_false (.inr ignored)), passBy_powered hp, if_neg (by simp [ignored])]
      rfl
    · rw [passes (portOpen_eq_false (.inl silent)), passBy_powered hp]
  · intro opened
    have address : b.extractLsb' 0 7 = BitVec.ofNat 7 b.toNat := BitVec.eq_of_toNat_eq (by simp)
    refine ⟨fun answers => ?_, fun hp silent => ?_⟩
    · have hp : s.powered = true := by
        have := answers
        simp only [State.portAnswers, Bool.and_eq_true] at this
        exact this.1
      refine (live_on hp).trans ?_
      rw [address, beginTransaction_of_answers answers]
      rfl
    · refine (live_on hp).trans ?_
      rw [beginTransaction_of_silent (portAnswers_eq_false silent)]
  · refine ⟨endTransaction s, by rw [exec_transactionEnd, live_on hp], ?_, rfl⟩
    rw [portOpen_iff]
    exact ⟨hp, answers, by simp [endTransaction]⟩
  · refine ⟨powerFail s, by rw [exec_powerFail, live_on hp], rfl, rfl, rfl, rfl, rfl, rfl, fun x hx => ?_, fun c hc => ?_⟩
    · obtain ⟨y, _, rfl⟩ := List.mem_map.1 hx
      rfl
    · exact exec_of_unpowered rfl hc

end Sys2Proof.Machine
end

