-- ==== Sys2Proof/Proofs/HoldEnd.lean ====
section
/-! PROOFS. The end of a hold at which the station leaves the line (R19): the purge (R85) with its completions and its
slots, or the way out of a join (R86). -/

namespace Sys2Proof.Machine

/-! ## The purge (R85) -/

theorem purgeCompletion_eq (st : Status) (e : PendEntry) : purgeCompletion st e =
    ⟨st, e.tag, e.source, BitVec.ofNat 4 e.kind.code, if e.origin = none then 0x00 else 0x10,
      BitVec.ofNat 8 (e.origin.getD 0), 0, 0, 0⟩ := by
  unfold purgeCompletion
  cases e.origin <;> rfl

/-- The slots of which the purge aborts a claim (R164). -/
theorem Slot.inProgress_iff (x : Slot) : x.inProgress = true ↔
    x.state = .claiming ∨ x.state = .withdrawing ∨ x.state = .held ∨ x.state = .releasing := by
  unfold Slot.inProgress
  cases x.state <;> simp

theorem Slot.purged_of_busy {x : Slot} (h : x.inProgress = true) : x.purged =
    { x with state := .armed, stop := false, heldPlace := false, gnt := false, cause := .aborted } := by
  unfold Slot.inProgress at h
  unfold Slot.purged
  cases hx : x.state <;> simp [hx] at h ⊢

theorem Slot.purged_of_idle {x : Slot} (h : x.inProgress = false) : x.purged = { x with gnt := false } := by
  unfold Slot.inProgress at h
  unfold Slot.purged
  cases hx : x.state <;> simp [hx] at h ⊢

@[simp] theorem Slot.purged_gnt (x : Slot) : x.purged.gnt = false := by
  unfold Slot.purged
  cases x.state <;> rfl

/-- The four steps of the purge, before the new state is entered. -/
def purgeSteps (st : Status) (s : State) : State :=
  { s with
    req := { s.req with
      outgoing := [], cmp := s.req.cmp ++ purgeCompletions st s.req.pend, pend := List.replicate 16 none },
    member := { s.member with
      evictWants := [], presenceWant := false, presenceTimer := none, peers := List.replicate 16 Peer.cleared },
    digest := .initial, snap := { s.snap with service := [] }, leases := [], slots := s.slots.map Slot.purged,
    table := clearEntries s.table,
    events := { s.events with
      latched :=
        if s.member.peers.any (fun p => p.state != .absent)
        then (if s.slots.any Slot.inProgress then s.events.latched ||| Event.slot.mask else s.events.latched) |||
          Event.peer.mask
        else if s.slots.any Slot.inProgress then s.events.latched ||| Event.slot.mask else s.events.latched } }

theorem purge_eq (dest : MState) (st : Status) (s : State) : purge dest st s =
    if dest = .listening then enterListening false (purgeSteps st s) else enterDetached (purgeSteps st s) := by
  have steps : clearPeers ((purgeEntries st (purgeSlots (purgeCandidates s))).withTable
      (clearEntries (purgeEntries st (purgeSlots (purgeCandidates s))).table)) = purgeSteps st s := by
    simp only [clearPeers_eq, purgeEntries, purgeSlots, purgeCandidates, setEventIf_eq, State.withReq, State.withMember,
      State.withDigest, State.withSnap, State.withLeases, State.withSlots, State.withTable, State.withEvents, purgeSteps]
  simp only [purge, steps]

/-! ## The way out of a join (R86) -/

theorem detachJoiner_eq (s : State) : detachJoiner s = enterDetached
    { s with
      table := clearEntries s.table,
      member := { s.member with
        peers := List.replicate 16 Peer.cleared, presenceWant := false, presenceTimer := none, listenTimer := none },
      digest := .initial,
      snap := { s.snap with
        lapsed := if s.snapTimerOut then some s.snap.failures else none, cursor := 0, engine := .idle, donor := none,
        failures := 0, timer := none },
      events := { s.events with
        latched := if s.member.peers.any (fun p => p.state != .absent)
          then s.events.latched ||| Event.peer.mask else s.events.latched } } := by
  simp only [detachJoiner, clearPeers_eq, idleEngine_eq, State.withMember, State.withDigest, State.withSnap,
    State.withTable, State.withEvents]

/-! ## The bits of the events -/

theorem slot_mask : Event.slot.mask = 0x0040 := rfl
theorem peer_mask : Event.peer.mask = 0x0020 := rfl
theorem membership_mask : Event.membership.mask = 0x0010 := rfl

/-- A bit of a register in which an event is set under a condition. -/
theorem getElem_ite_or (c : Prop) [Decidable c] (x m : Half) {i : Nat} (hi : i < 16) :
    (if c then x ||| m else x)[i] = (x[i] || (decide c && m[i])) := by
  split
  · rename_i h; simp [h, BitVec.getElem_or]
  · rename_i h; simp [h]

/-! ## The end of the hold -/

/-- The line when the hold has ended and the idle gap begins (R19). -/
def holdOver (s : State) : State :=
  s.withLine { s.line with phase := .gap, recessive := 0, begun := [], hold := none }

theorem holdEnd_of_leave {s : State} {b : Option TxFrame} {dest : MState} {st : Status} {start : Nat}
    (h : s.line.hold = some ⟨b, .leave dest st, start⟩) : holdEnd s = leaveNow dest st (holdOver s) := by
  unfold holdEnd
  simp only [h]
  rfl

theorem leaveNow_of_hasTable {s : State} (dest : MState) (st : Status) (h : s.member.state.hasTable = true) :
    leaveNow dest st s = purge dest st s := by
  unfold leaveNow
  cases hs : s.member.state <;> simp [hs, MState.hasTable] at h ⊢

theorem leaveNow_of_joiner {s : State} (dest : MState) (st : Status) (hp : s.takesPart = true)
    (h : s.member.state.hasTable = false) : leaveNow dest st s = detachJoiner s := by
  unfold leaveNow
  unfold State.takesPart at hp
  cases hs : s.member.state <;> simp [hs, MState.hasTable, MState.takesPart] at h hp ⊢

/-- What the purge makes of each slot, and of the SLOT event (R164). -/
theorem purged_slots (s : State) :
    (∀ (i : Nat) (x : Slot), s.slots[i]? = some x →
      (x.inProgress = true → (s.slots.map Slot.purged)[i]? = some { x with
        state := .armed, stop := false, heldPlace := false, gnt := false, cause := .aborted }) ∧
      (¬ x.inProgress = true → (s.slots.map Slot.purged)[i]? = some { x with gnt := false })) ∧
    ((∃ x ∈ s.slots, x.inProgress = true) → (s.events.latched[6] || s.slots.any Slot.inProgress) = true) ∧
    (¬ (∃ x ∈ s.slots, x.inProgress = true) →
      (s.events.latched[6] || s.slots.any Slot.inProgress) = s.events.latched[6]) := by
  refine ⟨fun i x hx => ⟨fun busy => ?_, fun idle => ?_⟩, fun busy => ?_, fun idle => ?_⟩
  · rw [List.getElem?_map, hx, Option.map_some, Slot.purged_of_busy busy]
  · rw [List.getElem?_map, hx, Option.map_some, Slot.purged_of_idle (Bool.eq_false_iff.2 idle)]
  · rw [List.any_eq_true.2 busy, Bool.or_true]
  · rw [Bool.eq_false_iff.2 (fun any => idle (List.any_eq_true.1 any)), Bool.or_false]

/-- Settles O7: the way out is the purge where the station has a table, and the end of the join where it has none. -/
theorem holdEndTakesTheChangeThatWaits : Obligations.HoldEndTakesTheChangeThatWaits := by
  refine ⟨fun st pend => ?_, fun s b dest st start hp hh part => ?_⟩
  · have all : purgeCompletion st = fun e => ⟨st, e.tag, e.source, BitVec.ofNat 4 e.kind.code,
        if e.origin = none then 0x00 else 0x10, BitVec.ofNat 8 (e.origin.getD 0), 0, 0, 0⟩ :=
      funext (purgeCompletion_eq st)
    rw [purgeCompletions, all]
    rfl
  refine ⟨holdEnd s, by rw [exec_abortHoldEnd, live_on hp], ?_⟩
  rw [holdEnd_of_leave hh]
  cases ht : s.member.state.hasTable with
  | true =>
    rw [leaveNow_of_hasTable (s := holdOver s) dest st ht, purge_eq]
    by_cases hd : dest = .listening
    · simp only [hd, if_true, enterListening_eq, listeningActions_eq, setMState_eq]
      simpa [State.ldeAsserted, purgeSteps, Peer.cleared, getElem_ite_or, slot_mask, peer_mask, membership_mask,
        DigestUnit.initial, Slot.inProgress_iff, holdOver] using purged_slots s
    · simp only [hd, if_false, enterDetached_eq]
      simpa [State.ldeAsserted, purgeSteps, Peer.cleared, getElem_ite_or, slot_mask, peer_mask, membership_mask,
        DigestUnit.initial, Slot.inProgress_iff, holdOver] using purged_slots s
  | false =>
    rw [leaveNow_of_joiner (s := holdOver s) dest st part ht, detachJoiner_eq, enterDetached_eq]
    simp [State.ldeAsserted, getElem_ite_or, peer_mask, membership_mask, holdOver]

end Sys2Proof.Machine
end

