-- ==== Sys2Proof/Proofs/PendTable.lean ====
section
/-! PROOFS. The pending table (R135): the search for an entry, and the claims, the cancels and the ends of entries that
go through it. -/

namespace Sys2Proof.Machine

section
variable {s t : State} {p : PendEntry → Bool} {n : Nat}

/-! ## The entries -/

theorem pendAt_eq_some {e : PendEntry} : s.pendAt n = some e ↔ s.req.pend[n]? = some (some e) := by
  unfold State.pendAt
  rw [List.getD_eq_getElem?_getD]
  cases s.req.pend[n]? <;> simp

theorem pendAt_mem {e : PendEntry} (h : s.pendAt n = some e) : some e ∈ s.req.pend :=
  List.mem_of_getElem? (pendAt_eq_some.1 h)

theorem pendAt_lt {e : PendEntry} (h : s.pendAt n = some e) : n < s.req.pend.length :=
  (List.getElem?_eq_some_iff.1 (pendAt_eq_some.1 h)).1

/-- A search finds nothing where no entry has the property. -/
theorem findPend_eq_none : s.findPend p = none ↔ ∀ e, some e ∈ s.req.pend → p e = false := by
  unfold State.findPend
  simp only [ite_eq_right_iff, reduceCtorEq, imp_false, Nat.not_lt]
  constructor
  · intro h e he
    have := List.findIdx_eq_length.1 (Nat.le_antisymm List.findIdx_le_length h) _ he
    simpa using this
  · intro h
    refine Nat.le_of_eq (List.findIdx_eq_length.2 fun o ho => ?_).symm
    cases o with
    | none => rfl
    | some e => simpa using h e ho

/-- The entry that a search finds, the first one with the property. -/
theorem findPend_eq_some (h : s.findPend p = some n) : ∃ e, s.pendAt n = some e ∧ p e = true := by
  unfold State.findPend at h
  simp only [ite_eq_iff, Option.some.injEq, reduceCtorEq, and_false, or_false] at h
  obtain ⟨hn, rfl⟩ := h
  have found := List.findIdx_getElem (w := hn)
  obtain ⟨e, he, hp⟩ := Option.any_eq_true _ _ |>.1 found
  exact ⟨e, pendAt_eq_some.2 (List.getElem?_eq_some_iff.2 ⟨hn, he⟩), hp⟩

theorem findPend_congr (h : t.req.pend = s.req.pend) (p : PendEntry → Bool) : t.findPend p = s.findPend p := by
  unfold State.findPend
  rw [h]

theorem claimOf_congr (h : t.req.pend = s.req.pend) (o : Nat) : t.claimOf o = s.claimOf o := findPend_congr h _
theorem cancelOf_congr (h : t.req.pend = s.req.pend) (o : Nat) : t.cancelOf o = s.cancelOf o := findPend_congr h _

/-- With an entry gone, what no entry had no entry has. -/
theorem findPend_none_of_set {o : Option PendEntry} (h : s.findPend p = none) (ho : ∀ e, o = some e → p e = false)
    (ht : t.req.pend = s.req.pend.set n o) : t.findPend p = none := by
  rw [findPend_eq_none] at h ⊢
  intro e he
  rw [ht] at he
  rcases List.mem_or_eq_of_mem_set he with hm | hm
  · exact h e hm
  · exact ho e hm.symm

/-- The claim entry of an origin token. -/
theorem claimOf_eq_some {o : Nat} (h : s.claimOf o = some n) :
    ∃ e, s.pendAt n = some e ∧ e.kind = .acquire ∧ e.origin = some o := by
  obtain ⟨e, he, hp⟩ := findPend_eq_some h
  simp only [Bool.and_eq_true, beq_iff_eq] at hp
  exact ⟨e, he, hp⟩

theorem claimOfSlot_eq_some {k : BitVec 2} (h : s.claimOfSlot k = some n) :
    ∃ e, s.pendAt n = some e ∧ e.kind = .acquire ∧ e.source = .slot k := by
  obtain ⟨e, he, hp⟩ := findPend_eq_some h
  simp only [Bool.and_eq_true, beq_iff_eq] at hp
  exact ⟨e, he, hp⟩

theorem cancelOf_eq_some {o : Nat} (h : s.cancelOf o = some n) :
    ∃ e, s.pendAt n = some e ∧ e.kind = .cancel ∧ e.origin = some o := by
  obtain ⟨e, he, hp⟩ := findPend_eq_some h
  simp only [Bool.and_eq_true, beq_iff_eq] at hp
  exact ⟨e, he, hp⟩

/-- A change of an entry that stands leaves the free numbers as they are. -/
theorem freePend_of_filled {e x : PendEntry} (h : s.pendAt n = some e) (ht : t.req.pend = s.req.pend.set n (some x)) :
    t.freePend = s.freePend := by
  have here := pendAt_eq_some.1 h
  have stands : ∀ (l : List (Option PendEntry)) (k : Nat), l[k]? = some (some e) →
      (l.set k (some x)).findIdx (fun e => e.isNone) = l.findIdx (fun e => e.isNone) := by
    intro l
    induction l with
    | nil => simp
    | cons a l ih =>
      intro k hk
      cases k with
      | zero =>
        obtain rfl : a = some e := by simpa using hk
        simp [List.findIdx_cons]
      | succ k =>
        simp only [List.set_cons_succ, List.findIdx_cons]
        rw [ih k (by simpa using hk)]
  unfold State.freePend
  rw [ht]
  exact stands _ _ here

end

/-! ## The ends of a claim -/

theorem finishCancel_of_none {s : State} {o : Nat} (h : s.cancelOf o = none) (st : Status) :
    finishCancel o st s = s := by
  simp only [finishCancel, h]

theorem finishCancel_of_some {s : State} {o m : Nat} {c : PendEntry} (h : s.cancelOf o = some m)
    (hm : s.pendAt m = some c) (st : Status) :
    finishCancel o st s = finishEntry m (.one st c.tag c.source 4 (byteOf o)) s := by
  simp only [finishCancel, h, hm]
  rfl

theorem finishEntry_eq (n : Nat) (c : Completion) (s : State) :
    finishEntry n c s = s.withReq { s.req with pend := s.req.pend.set n none, cmp := s.req.cmp ++ [c] } := rfl

theorem removeOutgoing_eq (p : OutFrame → Bool) (s : State) :
    removeOutgoing p s = s.withReq { s.req with outgoing := s.req.outgoing.filter (fun f => !p f) } := rfl

theorem dropWithdraw_eq (n : Nat) (s : State) : dropWithdraw n s =
    s.withReq { s.req with outgoing := s.req.outgoing.filter (fun f => !(f.entry == n && f.isWithdraw)) } := rfl

/-- A claim that is withdrawn before its CLAIM has begun: both its frames leave the list, and its entry completes
WITHDRAWN with no tokens (R143). -/
theorem withdrawClaim_unbegun {s : State} {n : Nat} {e : PendEntry} (h : s.cancelOf (e.origin.getD 0) = none) :
    withdrawClaim n e [] (removeOutgoing (fun f => f.entry == n && f.isClaim) s) =
      tellWithdrawn e.source (s.withReq { s.req with
        pend := s.req.pend.set n none,
        cmp := s.req.cmp ++ [.withdrawn e.tag e.source e.units (e.origin.getD 0) []],
        outgoing := s.req.outgoing.filter (fun f => !(f.entry == n && (f.isClaim || f.isWithdraw))) }) := by
  have frames : (s.req.outgoing.filter (fun f => !(f.entry == n && f.isClaim))).filter
      (fun f => !(f.entry == n && f.isWithdraw)) =
      s.req.outgoing.filter (fun f => !(f.entry == n && (f.isClaim || f.isWithdraw))) := by
    rw [List.filter_filter]
    refine List.filter_congr fun f _ => ?_
    rw [Bool.and_or_distrib_left, Bool.not_or, Bool.and_comm]
  have ended : finishEntry n (.withdrawn e.tag e.source e.units (e.origin.getD 0) [])
      (dropWithdraw n (removeOutgoing (fun f => f.entry == n && f.isClaim) s)) = s.withReq { s.req with
        pend := s.req.pend.set n none,
        cmp := s.req.cmp ++ [.withdrawn e.tag e.source e.units (e.origin.getD 0) []],
        outgoing := s.req.outgoing.filter (fun f => !(f.entry == n && (f.isClaim || f.isWithdraw))) } := by
    rw [removeOutgoing_eq, dropWithdraw_eq, finishEntry_eq]
    simp only [State.withReq_req, withReq_withReq, frames]
  simp only [withdrawClaim, ended]
  rw [finishCancel_of_none]
  exact findPend_none_of_set (t := s.withReq _) (n := n) (o := none) h (by simp) rfl

end Sys2Proof.Machine
end

