-- ==== Sys2Proof/Proofs/Requests1.lean ====
section
/-! PROOFS. The requests of the host (chapter 8): the checks of ACQUIRE, SIGNAL and CANCEL in their order, and what a
request that passes them leaves. -/

namespace Sys2Proof.Machine

theorem exec_acquire (s : State) : exec .acquire s = live (takeHead (some .acquire) takeAcquire) s := rfl
theorem exec_release (s : State) : exec .release s = live (takeHead (some .release) takeRelease) s := rfl
theorem exec_renew (s : State) : exec .renew s = live (takeHead (some .renew) takeRenew) s := rfl
theorem exec_cancel (s : State) : exec .cancel s = live (takeHead (some .cancel) takeCancel) s := rfl
theorem exec_signal (s : State) : exec .signal s = live (takeHead (some .signal) takeSignal) s := rfl
theorem exec_detach (s : State) : exec .detach s = live (takeHead (some .detach) takeDetach) s := rfl
theorem exec_join (s : State) : exec .join s = live (takeHead (some .join) takeJoin) s := rfl
theorem exec_unknownRequest (s : State) : exec .unknownRequest s = live (takeHead none takeUnknown) s := rfl

/-- The request at the head, taken. -/
theorem request_taken {k : Option ReqKind} {f : Request → State → State} {s : State} {r : Request}
    (hp : s.powered = true) (hd : s.dispatchable = some r) (hk : kindOfCode r.code = k) :
    live (takeHead k f) s = .next (f r (popRequest s)) := by
  rw [live_on hp, takeHead_of_dispatchable hd hk]

/-! ## ACQUIRE (R138) -/

/-- Check 2 of R138. -/
theorem AcquireOps.sound_iff (t : List Entry) (n : Nat) (a : AcquireOps) : a.sound t n = true ↔
    1 ≤ a.len ∧ a.len ≤ 4 ∧ (∀ k ∈ a.tokens, k < n) ∧ a.tokens.Pairwise (· < ·) ∧ a.mode ≤ 1 ∧ a.cls ≤ 3 ∧
      1 ≤ a.units ∧
      (a.len ≠ 1 → a.mode = 0 ∧ a.units = 1 ∧ ∀ k ∈ a.tokens, (entryAt t k).kind = .exclusive) := by
  simp only [AcquireOps.sound, Bool.and_eq_true, Bool.or_eq_true, decide_eq_true_eq, List.all_eq_true, beq_iff_eq,
    ascending_iff, TokenKind.isExclusive_iff, and_assoc, or_iff_not_imp_left, ne_eq]

/-- Check 5 of R138 at one token: no lease record, progress or claim list has it. -/
theorem unclaimed_iff (s : State) (k : Nat) : (s.holdsToken k || s.claimsToken k) = false ↔
    (∀ x ∈ s.leases, k ∉ x.tokens) ∧
      ∀ e, some e ∈ s.req.pend → e.kind = .acquire → k ∉ e.progress ∧ k ∉ e.list := by
  have pending (p : PendEntry → Bool) : s.req.pend.any (fun e => e.any p) = false ↔
      ∀ e, some e ∈ s.req.pend → p e = false := by
    rw [List.any_eq_false]
    constructor
    · intro h e he
      simpa using h _ he
    · intro h o ho
      cases o with
      | none => simp
      | some e => simpa using h e ho
  simp only [State.holdsToken, State.claimsToken, Bool.or_eq_false_iff, pending, List.any_eq_false, Lease.names,
    Bool.and_eq_false_iff, List.contains_eq_mem, decide_eq_false_iff_not, decide_eq_true_eq, beq_eq_false_iff_ne, ne_eq]
  constructor
  · rintro ⟨⟨leases, progress⟩, lists⟩
    exact ⟨leases, fun e he hk => ⟨(progress e he).resolve_left (not_not_intro hk),
      (lists e he).resolve_left (not_not_intro hk)⟩⟩
  · rintro ⟨leases, entries⟩
    exact ⟨⟨leases, fun e he => or_iff_not_imp_left.2 fun hk => (entries e he (not_not.1 hk)).1⟩,
      fun e he => or_iff_not_imp_left.2 fun hk => (entries e he (not_not.1 hk)).2⟩

/-- The first token of a list that gives CONFLICT. -/
theorem conflict_eq_some {s : State} {pre post : List Nat} {k : Nat}
    (free : ∀ j ∈ pre, (s.holdsToken j || s.claimsToken j) = false)
    (claimed : (s.holdsToken k || s.claimsToken k) = true) : s.conflict (pre ++ k :: post) = some k := by
  rw [State.conflict, List.find?_eq_some_iff_append]
  exact ⟨claimed, pre, post, rfl, fun j hj => by simpa using free j hj⟩

theorem conflict_eq_none {s : State} {l : List Nat} (free : ∀ j ∈ l, (s.holdsToken j || s.claimsToken j) = false) :
    s.conflict l = none := by
  rw [State.conflict, List.find?_eq_none]
  exact fun j hj => by simpa using free j hj

section
variable {s : State} {r : Request}

/-- The refusals of R138, in their order. -/
theorem acquireRefusal_notActive (h : s.member.state ≠ .active) :
    acquireRefusal s r = some (.bare .notActive r.tag .host 1) := if_pos h

theorem acquireRefusal_form (ha : s.member.state = .active) (h : ¬ r.acquireOps.sound s.table s.n = true) :
    acquireRefusal s r = some (.bare .badRequest r.tag .host 1) := by
  simp only [acquireRefusal, ha, ne_eq, not_true_eq_false, if_false, Bool.eq_false_iff.2 h, Bool.not_false, if_true]
  rfl

theorem acquireRefusal_grade (ha : s.member.state = .active) (h : r.acquireOps.sound s.table s.n = true)
    (hg : s.grade = .vg418l ∧ r.acquireOps.len = 1 ∧ r.acquireOps.units ≠ 1) :
    acquireRefusal s r = some (.bare .unsupported r.tag .host 1) := by
  simp only [acquireRefusal, ha, ne_eq, not_true_eq_false, if_false, h, Bool.not_true, Bool.false_eq_true]
  rw [if_pos hg]
  rfl

theorem acquireRefusal_capacity (ha : s.member.state = .active) (h : r.acquireOps.sound s.table s.n = true)
    (hg : ¬ (s.grade = .vg418l ∧ r.acquireOps.len = 1 ∧ r.acquireOps.units ≠ 1))
    (hf : ¬ ∀ k ∈ r.acquireOps.tokens, r.acquireOps.units ≤ (entryAt s.table k).kind.capacity) :
    acquireRefusal s r = some (.bare .badRequest r.tag .host 1) := by
  have short : r.acquireOps.tokens.all (fun k => decide (r.acquireOps.units ≤ (entryAt s.table k).kind.capacity)) =
      false := Bool.eq_false_iff.2 (fun all => hf (by simpa using all))
  simp only [acquireRefusal, ha, ne_eq, not_true_eq_false, if_false, h, Bool.not_true, Bool.false_eq_true, short,
    Bool.not_false, if_true]
  rw [if_neg hg]
  rfl

theorem acquireRefusal_conflict (ha : s.member.state = .active) (h : r.acquireOps.sound s.table s.n = true)
    (hg : ¬ (s.grade = .vg418l ∧ r.acquireOps.len = 1 ∧ r.acquireOps.units ≠ 1))
    (hf : ∀ k ∈ r.acquireOps.tokens, r.acquireOps.units ≤ (entryAt s.table k).kind.capacity) :
    acquireRefusal s r = (s.conflict r.acquireOps.tokens).map (fun k => .one .conflict r.tag .host 1 (byteOf k)) := by
  have fits : r.acquireOps.tokens.all (fun k => decide (r.acquireOps.units ≤ (entryAt s.table k).kind.capacity)) =
      true := by simpa using hf
  simp only [acquireRefusal, ha, ne_eq, not_true_eq_false, if_false, h, Bool.not_true, Bool.false_eq_true, fits]
  rw [if_neg hg]
  rfl

theorem takeAcquire_of_refused {c : Completion} (h : acquireRefusal s r = some c) :
    takeAcquire r s = pushCompletion c s := by
  simp only [takeAcquire, h]

theorem takeAcquire_of_passes (h : acquireRefusal s r = none) :
    takeAcquire r s = s.withReq { s.req with
      pend := s.req.pend.set s.freePend (some
        { tag := r.tag, source := .host, kind := .acquire, origin := r.acquireOps.tokens.head?,
          list := r.acquireOps.tokens, units := r.acquireOps.units, cls := r.acquireOps.cls, phase := .outgoing,
          progress := [], heldWithdraw := false }),
      outgoing := s.req.outgoing ++
        [⟨s.freePend, .claim (claimMode r.acquireOps.mode) r.acquireOps.units r.acquireOps.tokens⟩] } := by
  simp only [takeAcquire, h]
  rfl

end

/-- Settles O27: the pop before the checks leaves all that they look at. -/
theorem acquireCheckedAndTaken : Obligations.AcquireCheckedAndTaken := by
  intro s r hp hd hc p mode len units cls l bare answers form supported fits unclaimed
  have taken : exec .acquire s = .next (takeAcquire r p) := request_taken hp hd (by rw [hc]; rfl)
  have popped : acquireRefusal p r = acquireRefusal s r := rfl
  have refused {c : Completion} (h : acquireRefusal s r = some c) : answers c :=
    taken.trans (congrArg _ (takeAcquire_of_refused (popped.trans h)))
  have sound : r.acquireOps.sound s.table s.n = true ↔ form := AcquireOps.sound_iff _ _ _
  have grade (h : supported) : ¬ (s.grade = .vg418l ∧ r.acquireOps.len = 1 ∧ r.acquireOps.units ≠ 1) :=
    fun ⟨hg, hl, hu⟩ => hu (h hg hl)
  have unclaimed_iff (k : Nat) : (s.holdsToken k || s.claimsToken k) = false ↔ unclaimed k := unclaimed_iff s k
  refine ⟨fun inactive => refused (acquireRefusal_notActive inactive),
    fun active bad => refused (acquireRefusal_form active (mt sound.1 bad)),
    fun active ok unfit => refused (acquireRefusal_grade active (sound.2 ok) ?_),
    fun active ok fit large => refused (acquireRefusal_capacity active (sound.2 ok) (grade fit) large),
    fun pre k post active ok fit under split free claimed => refused ?_,
    fun active ok fit under free => taken.trans ?_⟩
  · obtain ⟨hg, hl, hu⟩ : s.grade = .vg418l ∧ len = 1 ∧ units ≠ 1 := by simpa [supported] using unfit
    exact ⟨hg, hl, hu⟩
  · have tokens : r.acquireOps.tokens = pre ++ k :: post := split
    have conflict : s.conflict r.acquireOps.tokens = some k := by
      rw [tokens]
      exact conflict_eq_some (fun j hj => (unclaimed_iff j).2 (free j hj))
        (eq_true_of_ne_false (mt (unclaimed_iff k).1 claimed))
    rw [acquireRefusal_conflict active (sound.2 ok) (grade fit) under, conflict]
    rfl
  · have passes : acquireRefusal s r = none := by
      rw [acquireRefusal_conflict active (sound.2 ok) (grade fit) under,
        conflict_eq_none (l := r.acquireOps.tokens) (fun j hj => (unclaimed_iff j).2 (free j hj)), Option.map_none]
    rw [takeAcquire_of_passes (popped.trans passes)]
    rfl

/-! ## SIGNAL (R146) -/

/-- Settles O31. -/
theorem signalCheckedAndTaken : Obligations.SignalCheckedAndTaken := by
  intro s r hp hd hc p bare
  have taken : exec .signal s = .next (takeSignal r p) := request_taken hp hd (by rw [hc]; rfl)
  have refused {c : Completion} (h : signalRefusal p r = some c) : exec .signal s = .next (pushCompletion c p) := by
    rw [taken, takeSignal, h]
  refine ⟨fun inactive => refused (if_pos inactive), fun active high => refused ?_, fun active low => ?_⟩
  · have here : ¬ p.member.state ≠ .active := not_not_intro active
    exact (if_neg here).trans (if_pos high)
  · have here : ¬ p.member.state ≠ .active := not_not_intro active
    have passes : signalRefusal p r = none := (if_neg here).trans (if_neg (Nat.not_lt.2 low))
    have code : BitVec.ofNat 3 r.b4.toNat = r.b4.setWidth 3 := BitVec.ofNat_toNat 3 r.b4
    rw [taken, takeSignal, passes, code]
    rfl

/-! ## CANCEL (R142 to R144) -/

section
variable {s : State} {r : Request} {m : Nat} {e : PendEntry}

theorem cancelRefusal_notFound (h : s.claimOf r.b2.toNat = none) :
    cancelRefusal s r = some (.one .notFound r.tag .host 4 r.b2) := by
  simp only [cancelRefusal, h, Option.bind_none]
  rfl

theorem cancelRefusal_slot (h : s.claimOf r.b2.toNat = some m) (he : s.pendAt m = some e) (hs : e.source ≠ .host) :
    cancelRefusal s r = some (.one .slotOwned r.tag .host 4 r.b2) := by
  simp only [cancelRefusal, h, Option.bind_some, he, if_pos hs]
  rfl

theorem cancelRefusal_ending (h : s.claimOf r.b2.toNat = some m) (he : s.pendAt m = some e) (hs : e.source = .host)
    (hp : e.phase = .withdrawing) : cancelRefusal s r = some (.one .conflict r.tag .host 4 r.b2) := by
  simp only [cancelRefusal, h, Option.bind_some, he, if_neg (not_not_intro hs), if_pos hp]
  rfl

theorem cancelRefusal_none (h : s.claimOf r.b2.toNat = some m) (he : s.pendAt m = some e) (hs : e.source = .host)
    (hp : e.phase ≠ .withdrawing) : cancelRefusal s r = none := by
  simp only [cancelRefusal, h, Option.bind_some, he, if_neg (not_not_intro hs), if_neg hp]

theorem takeCancel_of_refused {c : Completion} (h : cancelRefusal s r = some c) :
    takeCancel r s = pushCompletion c s := by
  simp only [takeCancel, h]

theorem takeCancel_of_passes (h : s.claimOf r.b2.toNat = some m) (he : s.pendAt m = some e) (hs : e.source = .host)
    (hp : e.phase ≠ .withdrawing) : takeCancel r s = cancelClaim r m e s := by
  simp only [takeCancel, cancelRefusal_none h he hs hp, h, he]

/-- The claim and its CANCEL, both WITHDRAWING. -/
theorem cancelWait_eq (h : s.pendAt m = some e) :
    addPend (cancelEntry r) (setPend m (some { e with phase := .withdrawing }) s) = s.withReq { s.req with
      pend := (s.req.pend.set m (some { e with phase := .withdrawing })).set s.freePend (some (cancelEntry r)) } := by
  have same : (setPend m (some { e with phase := .withdrawing }) s).freePend = s.freePend := by
    exact freePend_of_filled h rfl
  rw [addPend, same]
  rfl

end

/-- Settles O30: where the claim stands decides between the three outcomes. -/
theorem cancelByWhereTheClaimStands : Obligations.CancelByWhereTheClaimStands := by
  intro s r hp hd hc p o one answers entry
  have taken : exec .cancel s = .next (takeCancel r p) := request_taken hp hd (by rw [hc]; rfl)
  have refused {st : Status} (h : cancelRefusal p r = some (.one st r.tag .host 4 r.b2)) : answers st :=
    taken.trans (congrArg _ (takeCancel_of_refused h))
  refine ⟨fun none => refused (cancelRefusal_notFound none), fun m e hm he => ⟨fun slot => ?_, fun host ending => ?_,
    fun host outgoing off alone => ?_, fun host outgoing on => ?_, fun host waiting => ?_⟩⟩
  · exact refused (cancelRefusal_slot (s := p) hm he slot)
  · exact refused (cancelRefusal_ending (s := p) hm he host ending)
  · have origin : e.origin.getD 0 = o := by
      obtain ⟨x, hx, _, hox⟩ := claimOf_eq_some hm
      obtain rfl : e = x := Option.some.inj (he.symm.trans hx)
      rw [hox]
      rfl
    have notOnLine : p.claimOnLine m = false := off
    rw [taken, takeCancel_of_passes (s := p) hm he host (by simp [outgoing]), cancelClaim]
    simp only [outgoing, notOnLine, Bool.false_eq_true, if_false]
    rw [withdrawClaim_unbegun (s := p) (by rw [origin]; exact alone), host, origin]
    simp only [tellWithdrawn, pushCompletion, State.withReq_req, withReq_withReq, List.append_assoc,
      List.singleton_append]
    rfl
  · have onLine : p.claimOnLine m = true := on
    rw [taken, takeCancel_of_passes (s := p) hm he host (by simp [outgoing]), cancelClaim, cancelWait_eq (s := p) he]
    simp only [outgoing, onLine, if_true]
    rfl
  · rw [taken, takeCancel_of_passes (s := p) hm he host (by simp [waiting]), cancelClaim, cancelWait_eq (s := p) he]
    simp only [waiting]
    rfl

end Sys2Proof.Machine
end

