-- ==== Sys2Proof/Proofs/Requests2.lean ====
section
/-! PROOFS. RELEASE and RENEW (R123 to R126, R140, R141, R159): the record that a request names, the checks in their
order, and what the Lease Unit answers from the record. -/

namespace Sys2Proof.Machine

/-- With no expiry still to be acted on, there is nothing to settle. -/
theorem settleLeases_of_none_overdue {s : State} (h : ∀ x ∈ s.leases, x.overdue = false) : settleLeases s = s := by
  have nothing : s.leases.filter Lease.overdue = [] := by
    rw [List.filter_eq_nil_iff]
    intro x hx
    simp [h x hx]
  rw [settleLeases, nothing]
  rfl

theorem modifyLeases_eq (p : Lease → Bool) (f : Lease → Lease) (s : State) :
    modifyLeases p f s = s.withLeases (s.leases.map (fun l => if p l then f l else l)) := rfl

theorem expireLease_of_some {s : State} {k : Nat} {l : Lease} (h : s.leaseOf k = some l) :
    expireLease k s = tellExpiry l.source ((s.withLeases (s.leases.map
      (fun x => if x.names k then { x with state := .expiredPending, counter := 0 } else x))).withEvents
        { s.events with latched := s.events.latched ||| 0x0004 }) := by
  simp only [expireLease, h]
  rfl

/-! ## The record that a request names (R140) -/

theorem releaseTarget_of_token {r : Request} {n : Nat} (h : r.b2 = 0) :
    r.releaseTarget n = some (.token r.b3.toNat) := if_pos h

theorem releaseTarget_of_slot {r : Request} {n : Nat} (h : r.b2 = 1 ∧ r.b3.toNat < n) :
    r.releaseTarget n = some (.slot (BitVec.ofNat 2 r.b3.toNat)) := by
  have notToken : r.b2 ≠ 0 := by rw [h.1]; decide
  have slot : r.b3.setWidth 2 = BitVec.ofNat 2 r.b3.toNat := (BitVec.ofNat_toNat 2 r.b3).symm
  rw [Request.releaseTarget, if_neg notToken, if_pos h, slot]

theorem releaseTarget_of_neither {r : Request} {n : Nat} (hk : r.b2 ≠ 0) (hs : ¬ (r.b2 = 1 ∧ r.b3.toNat < n)) :
    r.releaseTarget n = none := by
  rw [Request.releaseTarget, if_neg hk, if_neg hs]

section
variable {s : State} {r : Request} {k : ReqKind}

theorem releaseCheck_notActive (h : s.member.state.hasTable = false) :
    releaseCheck s r k = .error (.bare .notActive r.tag .host k.code) := if_pos h

theorem releaseCheck_of_form (h : s.member.state.hasTable = true) (ht : r.releaseTarget s.grade.slots = none) :
    releaseCheck s r k = .error (.bare .badRequest r.tag .host k.code) := by
  simp only [releaseCheck, h, ht]
  rfl

/-- The record of the token that the request names. -/
theorem releaseCheck_of_token (h : s.member.state.hasTable = true) (hb : r.b2 = 0) :
    releaseCheck s r k = match s.leaseOf r.b3.toNat with
      | some l => if l.source = .host then .ok l else .error (.one .slotOwned r.tag .host k.code r.b3)
      | none => .error (.one .notHeld r.tag .host k.code r.b3) := by
  simp only [releaseCheck, h, releaseTarget_of_token (n := s.grade.slots) hb]
  cases s.leaseOf r.b3.toNat <;> rfl

/-- The record of the slot that the request names. -/
theorem releaseCheck_of_slot (h : s.member.state.hasTable = true) (hb : r.b2 = 1 ∧ r.b3.toNat < s.grade.slots) :
    releaseCheck s r k = match s.leaseOfSlot (BitVec.ofNat 2 r.b3.toNat) with
      | some l => .ok l
      | none => .error (.one .notHeld r.tag .host k.code r.b3) := by
  simp only [releaseCheck, h, releaseTarget_of_slot hb]
  cases s.leaseOfSlot (BitVec.ofNat 2 r.b3.toNat) <;> rfl

/-- Every outcome of the checks of R140, by what the request names. -/
theorem releaseCheck_outcomes (h : s.member.state = .active ∨ s.member.state = .leaving) :
    let slotForm : Prop := r.b2 = 1 ∧ r.b3.toNat < s.grade.slots
    let slot : BitVec 2 := BitVec.ofNat 2 r.b3.toNat
    let named (st : Status) : Completion := .one st r.tag .host k.code r.b3
    (r.b2 ≠ 0 → ¬ slotForm → releaseCheck s r k = .error (.bare .badRequest r.tag .host k.code)) ∧
    (r.b2 = 0 → s.leaseOf r.b3.toNat = none → releaseCheck s r k = .error (named .notHeld)) ∧
    (slotForm → s.leaseOfSlot slot = none → releaseCheck s r k = .error (named .notHeld)) ∧
    (∀ l n, r.b2 = 0 → s.leaseOf r.b3.toNat = some l → l.source = .slot n →
      releaseCheck s r k = .error (named .slotOwned)) ∧
    (∀ l, (r.b2 = 0 ∧ s.leaseOf r.b3.toNat = some l ∧ l.source = .host) ∨
      (slotForm ∧ s.leaseOfSlot slot = some l) → releaseCheck s r k = .ok l) := by
  have table := (MState.hasTable_iff _).2 h
  refine ⟨fun hk hs => releaseCheck_of_form table (releaseTarget_of_neither hk hs), fun hb hl => ?_,
    fun hb hl => ?_, fun l n hb hl hn => ?_, fun l hl => ?_⟩
  · rw [releaseCheck_of_token table hb, hl]
  · rw [releaseCheck_of_slot table hb, hl]
  · have : l.source ≠ .host := by simp [hn]
    simp only [releaseCheck_of_token table hb, hl, if_neg this]
  · rcases hl with ⟨hb, hl, hh⟩ | ⟨hb, hl⟩
    · simp only [releaseCheck_of_token table hb, hl, if_pos hh]
    · rw [releaseCheck_of_slot table hb, hl]

/-! ## RELEASE (R125, R126, R159) -/

variable (settled : ∀ x ∈ s.leases, x.overdue = false)
include settled

theorem takeRelease_of_refused {c : Completion} (h : releaseCheck s r .release = .error c) :
    takeRelease r s = pushCompletion c s := by
  simp only [takeRelease, settleLeases_of_none_overdue settled, h]

theorem takeRelease_tooLate {l : Lease} (h : releaseCheck s r .release = .ok l) (hp : l.pending = true) :
    takeRelease r s = pushCompletion (.listed .tooLate r.tag .host 2 l.tokens l.units) s := by
  simp only [takeRelease, settleLeases_of_none_overdue settled, h, hp, if_true]
  rfl

theorem takeRelease_taken {l : Lease} (h : releaseCheck s r .release = .ok l) (hp : l.pending = false) :
    takeRelease r s = tellHostRelease l.source ((s.withLeases (s.leases.map
      (fun x => if x.names l.first then { x with state := .releasePending } else x))).withReq
        { s.req with pend := s.req.pend.set s.freePend (some
          { tag := r.tag, source := .host, kind := .release, origin := some l.first, list := l.tokens, units := 0,
            cls := 0, phase := .releasing, progress := [], heldWithdraw := false }) }) := by
  simp only [takeRelease, settleLeases_of_none_overdue settled, h, hp, Bool.false_eq_true, if_false]
  rfl

/-! ## RENEW (R123, R124) -/

theorem takeRenew_of_refused {c : Completion} (h : releaseCheck s r .renew = .error c) :
    takeRenew r s = pushCompletion c s := by
  simp only [takeRenew, settleLeases_of_none_overdue settled, h]

end

section
variable {p : ClassParams} {l : Lease}

theorem renewAnswer_tooLate (h : l.pending = true) : renewAnswer p l = .tooLate := if_pos h

theorem renewAnswer_noLease (h : l.pending = false) (hc : l.cls = 0) : renewAnswer p l = .noLease := by
  simp [renewAnswer, h, hc]

theorem renewAnswer_renewed (h : l.pending = false) (hc : l.cls ≠ 0) (hw : l.counter ≤ p.w.toNat) :
    renewAnswer p l = .renewed := by
  simp [renewAnswer, h, hc, hw]

theorem renewAnswer_tooEarly (h : l.pending = false) (hc : l.cls ≠ 0) (hw : p.w.toNat < l.counter)
    (hs : p.strict = false) : renewAnswer p l = .tooEarly := by
  simp [renewAnswer, h, hc, Nat.not_le.2 hw, hs]

theorem renewAnswer_forfeited (h : l.pending = false) (hc : l.cls ≠ 0) (hw : p.w.toNat < l.counter)
    (hs : p.strict = true) : renewAnswer p l = .forfeited := by
  simp [renewAnswer, h, hc, Nat.not_le.2 hw, hs]

end

section
variable {s : State} {r : Request} {l : Lease} (settled : ∀ x ∈ s.leases, x.overdue = false)
  (h : releaseCheck s r .renew = .ok l)
include settled h

theorem takeRenew_tooLate (ha : renewAnswer (s.classParams l.cls) l = .tooLate) :
    takeRenew r s = pushCompletion (.listed .tooLate r.tag .host 3 l.tokens l.units) s := by
  simp only [takeRenew, settleLeases_of_none_overdue settled, h, ha]
  rfl

theorem takeRenew_noLease (ha : renewAnswer (s.classParams l.cls) l = .noLease) :
    takeRenew r s = pushCompletion (.listed .noLease r.tag .host 3 l.tokens l.units) s := by
  simp only [takeRenew, settleLeases_of_none_overdue settled, h, ha]
  rfl

theorem takeRenew_renewed (ha : renewAnswer (s.classParams l.cls) l = .renewed) :
    takeRenew r s = pushCompletion (.listed .renewed r.tag .host 3 l.tokens l.cls)
      (setEventIf (startState (s.classParams l.cls) == .warned) .leaseWarn (s.withLeases (s.leases.map
        (fun x => if x.names l.first then { x with
          counter := (s.classParams l.cls).len.toNat, state := startState (s.classParams l.cls) } else x)))) := by
  simp only [takeRenew, settleLeases_of_none_overdue settled, h, ha]
  rfl

theorem takeRenew_tooEarly (ha : renewAnswer (s.classParams l.cls) l = .tooEarly) :
    takeRenew r s = pushCompletion (.listed .tooEarly r.tag .host 3 l.tokens l.units)
      (logError .earlyRenew .noFrame s) := by
  simp only [takeRenew, settleLeases_of_none_overdue settled, h, ha]
  rfl

theorem takeRenew_forfeited (ha : renewAnswer (s.classParams l.cls) l = .forfeited) :
    takeRenew r s = pushCompletion (.listed .forfeited r.tag .host 3 l.tokens l.units)
      (logError .earlyRenew .noFrame (expireLease l.first s)) := by
  simp only [takeRenew, settleLeases_of_none_overdue settled, h, ha]
  rfl

end

/-- Settles O28. -/
theorem releaseCheckedAndTaken : Obligations.ReleaseCheckedAndTaken := by
  intro s r hp hd hc settled p answers named slotForm slot taken
  have popped : exec .release s = .next (takeRelease r p) := request_taken hp hd (by rw [hc]; rfl)
  have settled : ∀ x ∈ p.leases, x.overdue = false := settled
  have refused {c : Completion} (h : releaseCheck p r .release = .error c) : answers c :=
    popped.trans (congrArg _ (takeRelease_of_refused settled h))
  refine ⟨fun ha hl => refused (releaseCheck_notActive (MState.hasTable_eq_false ha hl)), fun table => ?_⟩
  obtain ⟨form, noToken, noSlot, owned, found⟩ := releaseCheck_outcomes (s := p) (r := r) (k := .release) table
  refine ⟨fun hk hs => refused (form hk hs), fun hb hl => refused (noToken hb hl),
    fun hb hl => refused (noSlot hb hl), fun l n hb hl hn => refused (owned l n hb hl hn), fun l hl => ⟨fun pending => ?_, fun live => ?_⟩⟩
  · exact popped.trans (congrArg _ (takeRelease_tooLate settled (found l hl) pending))
  · rw [popped, takeRelease_taken settled (found l hl) live]
    cases l.source <;> rfl

/-- Settles O29. -/
theorem renewAnswersFromTheRecord : Obligations.RenewAnswersFromTheRecord := by
  intro s r hp hd hc settled p answers named slotForm slot noFrame
  have popped : exec .renew s = .next (takeRenew r p) := request_taken hp hd (by rw [hc]; rfl)
  have settled : ∀ x ∈ p.leases, x.overdue = false := settled
  have refused {c : Completion} (h : releaseCheck p r .renew = .error c) : answers c :=
    popped.trans (congrArg _ (takeRenew_of_refused settled h))
  refine ⟨fun ha hl => refused (releaseCheck_notActive (MState.hasTable_eq_false ha hl)), fun table => ?_⟩
  obtain ⟨form, noToken, noSlot, owned, found⟩ := releaseCheck_outcomes (s := p) (r := r) (k := .renew) table
  refine ⟨fun hk hs => refused (form hk hs), fun hb hl => refused (noToken hb hl),
    fun hb hl => refused (noSlot hb hl), fun l n hb hl hn => refused (owned l n hb hl hn), fun l hl => ?_⟩
  intro c ends renewed expired lowered
  have found := found l hl
  refine ⟨fun pending => ?_, fun live class0 => ?_, fun live counts inWindow hv => ?_,
    fun live counts inWindow hv => ?_, fun live counts early lax => ?_, fun live counts early strict own => ?_⟩
  · exact popped.trans (congrArg _ (takeRenew_tooLate settled found (renewAnswer_tooLate pending)))
  · exact popped.trans (congrArg _ (takeRenew_noLease settled found (renewAnswer_noLease live class0)))
  · have start : startState (p.classParams l.cls) = .running := if_neg hv
    rw [popped, takeRenew_renewed settled found (renewAnswer_renewed live counts inWindow), start]
    rfl
  · have start : startState (p.classParams l.cls) = .warned := if_pos hv
    rw [popped, takeRenew_renewed settled found (renewAnswer_renewed live counts inWindow), start]
    rfl
  · exact popped.trans (congrArg _ (takeRenew_tooEarly settled found (renewAnswer_tooEarly live counts early lax)))
  · have own : p.leaseOf l.first = some l := own
    rw [popped, takeRenew_forfeited settled found (renewAnswer_forfeited live counts early strict),
      expireLease_of_some own]
    cases hs : l.source <;> simp only [lowered, hs] <;> rfl

end Sys2Proof.Machine
end

