-- ==== Sys2Proof/Proofs/Requests3.lean ====
section
/-! PROOFS. When the dispatcher takes the head (R132 to R134), DETACH and JOIN (R73, R79, R84, R148), the records of
no kind (R149), and the two commands that the Request Unit takes for a slot (R145, R156). -/

namespace Sys2Proof.Machine

/-! ## Kinds -/

theorem kindOfCode_eq_some {c : Byte} {k : ReqKind} : kindOfCode c = some k ↔ c.toNat = k.code := by
  unfold kindOfCode
  by_cases h : c.toNat < 9
  · generalize c.toNat = n at h
    interval_cases n <;> cases k <;> simp [ReqKind.code]
  · rw [List.getD_eq_default _ _ (by simpa using h)]
    have : k.code < 9 := by cases k <;> decide
    simp only [reduceCtorEq, false_iff]
    omega

theorem kindOfCode_eq_none {c : Byte} : kindOfCode c = none ↔ c = 0 ∨ 8 < c.toNat := by
  have zero : c = 0 ↔ c.toNat = 0 := ⟨fun h => by rw [h]; rfl, fun h => BitVec.eq_of_toNat_eq h⟩
  rw [zero]
  unfold kindOfCode
  by_cases h : c.toNat < 9
  · generalize c.toNat = n at h
    interval_cases n <;> simp
  · rw [List.getD_eq_default _ _ (by simpa using h)]
    simp only [true_iff]
    omega

/-! ## When the head is taken (R133, R134) -/

theorem mem_slotNumbers (n : BitVec 2) : n ∈ slotNumbers := by
  revert n
  decide

/-- A slot that issues (R134, R156). -/
theorem issuableSlot_eq_none (s : State) : s.issuableSlot = none ↔
    ¬ (s.member.state = .active ∧ s.reserved ≤ 14 ∧ 0 < s.outgoingFree ∧
      ∃ n, s.slotExists n = true ∧ (s.slotAt n).state = .triggered) := by
  have room : s.reserved + 2 ≤ Config.places ↔ s.reserved ≤ 14 := by unfold Config.places; omega
  unfold State.issuableSlot State.slotList
  simp only [room, ite_eq_right_iff, List.find?_eq_none, List.mem_filter, mem_slotNumbers, true_and, decide_eq_true_eq]
  constructor
  · rintro h ⟨active, places, outgoing, n, exists_n, triggered⟩
    exact h ⟨active, places, outgoing⟩ n exists_n triggered
  · rintro h ⟨active, places, outgoing⟩ n exists_n triggered
    exact h ⟨active, places, outgoing, n, exists_n, triggered⟩

theorem cancelWaits_iff (s : State) (r : Request) : cancelWaits s r = true ↔
    ∃ n e, s.claimOf r.b2.toNat = some n ∧ s.pendAt n = some e ∧ e.phase = .waiting := by
  simp only [cancelWaits, Option.any_eq_true, Option.bind_eq_some_iff, beq_iff_eq]
  grind

/-- The head that needs an outgoing place (R133). -/
theorem needsOutgoing_iff (s : State) (r : Request) : needsOutgoing s r = true ↔
    (r.code = 1 ∧ acquireRefusal s r = none) ∨ (r.code = 5 ∧ signalRefusal s r = none) ∨
      (r.code = 4 ∧ cancelRefusal s r = none ∧
        ∃ n e, s.claimOf r.b2.toNat = some n ∧ s.pendAt n = some e ∧ e.phase = .waiting) := by
  have code (k : ReqKind) : kindOfCode r.code = some k ↔ r.code = BitVec.ofNat 8 k.code := by
    rw [kindOfCode_eq_some]
    have : k.code < 256 := by cases k <;> decide
    constructor
    · intro h
      rw [← h, BitVec.ofNat_toNat, BitVec.setWidth_eq]
    · intro h
      rw [h, BitVec.toNat_ofNat, Nat.mod_eq_of_lt this]
  rw [← cancelWaits_iff]
  have acquire : r.code = 1 ↔ kindOfCode r.code = some .acquire := (code .acquire).symm
  have signal : r.code = 5 ↔ kindOfCode r.code = some .signal := (code .signal).symm
  have cancel : r.code = 4 ↔ kindOfCode r.code = some .cancel := (code .cancel).symm
  rw [acquire, signal, cancel]
  unfold needsOutgoing
  cases kindOfCode r.code with
  | none => simp
  | some k => cases k <;> simp

theorem dispatchable_eq_some (s : State) (r : Request) : s.dispatchable = some r ↔
    s.req.fifo.head? = some r ∧ s.reserved < 16 ∧ (needsOutgoing s r = true → 0 < s.outgoingFree) ∧
      s.issuableSlot = none := by
  unfold State.dispatchable
  cases s.req.fifo with
  | nil => simp
  | cons x rest =>
    simp only [Config.places, List.head?_cons, Option.some.injEq]
    grind

/-- A command of a kind that the head is not of (log 3). -/
theorem takeHead_of_other {k : Option ReqKind} {f : Request → State → State} {s : State}
    (h : ∀ r, s.dispatchable = some r → kindOfCode r.code ≠ k) : takeHead k f s = s := by
  unfold takeHead
  cases hd : s.dispatchable with
  | none => rfl
  | some r => exact if_neg (h r hd)

theorem live_of_same {f : State → State} {s : State} (h : f s = s) : live f s = .next s := by
  simp [live, h]

/-- The commands of the request kinds do nothing where the head is not of their kind. -/
theorem request_of_other {c : Instr} {code : Byte} {s : State}
    (hc : (c, code) ∈ [(Instr.acquire, (1 : Byte)), (.release, 2), (.renew, 3), (.cancel, 4), (.signal, 5),
      (.query, 6), (.detach, 7), (.join, 8)])
    (h : ∀ r, s.dispatchable = some r → r.code ≠ code) : exec c s = .next s := by
  have skips {k : ReqKind} {f : Request → State → State} (hk : code = BitVec.ofNat 8 k.code) :
      live (takeHead (some k) f) s = .next s := by
    refine live_of_same (takeHead_of_other fun r hr hkind => h r hr ?_)
    rw [hk, ← kindOfCode_eq_some.1 hkind, BitVec.ofNat_toNat, BitVec.setWidth_eq]
  simp only [List.mem_cons, Prod.mk.injEq, List.mem_nil_iff, or_false] at hc
  rcases hc with ⟨rfl, hk⟩ | ⟨rfl, hk⟩ | ⟨rfl, hk⟩ | ⟨rfl, hk⟩ | ⟨rfl, hk⟩ | ⟨rfl, hk⟩ | ⟨rfl, hk⟩ | ⟨rfl, hk⟩
  · exact skips (k := .acquire) hk
  · exact skips (k := .release) hk
  · exact skips (k := .renew) hk
  · exact skips (k := .cancel) hk
  · exact skips (k := .signal) hk
  · exact skips (k := .query) hk
  · exact skips (k := .detach) hk
  · exact skips (k := .join) hk

/-! ## DETACH and JOIN -/

theorem takeDetach_of_active {r : Request} {s : State} (h : s.member.state = .active) :
    takeDetach r s = enterLeaving (addPend
      { tag := r.tag, source := .host, kind := .detach, origin := none, list := [], units := 0, cls := 0,
        phase := .releasing, progress := [], heldWithdraw := false } s) := if_pos h

theorem takeDetach_of_other {r : Request} {s : State} (h : s.member.state ≠ .active) :
    takeDetach r s = pushCompletion (.bare .wrongState r.tag .host 7) s := if_neg h

theorem takeJoin_of_detached {r : Request} {s : State} (h : s.member.state = .detached) :
    takeJoin r s = pushCompletion (.bare .done r.tag .host 8) (enterListening true s) := if_pos h

theorem takeJoin_of_other {r : Request} {s : State} (h : s.member.state ≠ .detached) :
    takeJoin r s = pushCompletion (.bare .wrongState r.tag .host 8) s := if_neg h

/-- Settles O33. -/
theorem detachEntersLeaving : Obligations.DetachEntersLeaving := by
  intro s r hp hd hc p
  have taken : exec .detach s = .next (takeDetach r p) := request_taken hp hd (by rw [hc]; rfl)
  refine ⟨fun other => taken.trans (congrArg _ (takeDetach_of_other (s := p) other)),
    fun active => ⟨_, taken.trans (congrArg _ (takeDetach_of_active (s := p) active)), ?_⟩⟩
  simp [enterLeaving_eq, addPend, setPend, p, popRequest, State.freePend, DigestUnit.initial, membership_mask]

/-- Settles O34. -/
theorem joinAndUnknownRequest : Obligations.JoinAndUnknownRequest := by
  refine ⟨fun s r => ?_, fun s c code hc h => request_of_other hc h, fun s h => ?_, fun s r hp hd => ?_⟩
  · intro claimWaits needsPlace slotIssues
    rw [dispatchable_eq_some, needsOutgoing_iff, issuableSlot_eq_none]
  · refine live_of_same (takeHead_of_other fun r hr hk => ?_)
    obtain ⟨low, high⟩ := h r hr
    rcases kindOfCode_eq_none.1 hk with zero | large
    · rw [zero] at low
      exact absurd low (by decide)
    · omega
  · intro p
    have taken (hc : r.code = 0x08) : exec .join s = .next (takeJoin r p) := request_taken hp hd (by rw [hc]; rfl)
    refine ⟨fun hc other => (taken hc).trans (congrArg _ (takeJoin_of_other (s := p) other)),
      fun hc detached => ⟨_, (taken hc).trans (congrArg _ (takeJoin_of_detached (s := p) detached)), ?_⟩,
      fun hc => request_taken hp hd (kindOfCode_eq_none.2 hc)⟩
    rw [enterListening_eq, listeningActions_eq, setMState_eq]
    simp [p, popRequest, pushCompletion, Completion.bare, getElem_ite_or, membership_mask, peer_mask]

end Sys2Proof.Machine
end

