-- ==== Sys2Proof/Proofs/SlotClaims.lean ====
section
/-! PROOFS. The two commands that the Request Unit takes for a slot: the claim that a TRIGGERED slot issues (R134, R151,
R156) and the placing of a held WITHDRAW (R145). -/

namespace Sys2Proof.Machine

theorem exec_heldWithdrawPlace (s : State) : exec .heldWithdrawPlace s = live placeHeld s := rfl

/-! ## The lowest-numbered slot -/

/-- The slot numbers below and above one of them. -/
theorem slotNumbers_split (n : BitVec 2) :
    slotNumbers = slotNumbers.take n.toNat ++ n :: slotNumbers.drop (n.toNat + 1) := by
  revert n
  decide

theorem toNat_lt_of_mem_take {n m : BitVec 2} (h : m ∈ slotNumbers.take n.toNat) : m.toNat < n.toNat := by
  revert n m
  decide

theorem slotNumbers_find? {p : BitVec 2 → Bool} {n : BitVec 2} (h : p n = true)
    (low : ∀ m : BitVec 2, m.toNat < n.toNat → p m = false) : slotNumbers.find? p = some n := by
  rw [List.find?_eq_some_iff_append]
  exact ⟨h, _, _, slotNumbers_split n, fun m hm => by simp [low m (toNat_lt_of_mem_take hm)]⟩

theorem slotNumbers_findSome? {α : Type} {f : BitVec 2 → Option α} {n : BitVec 2} {a : α} (h : f n = some a)
    (low : ∀ m : BitVec 2, m.toNat < n.toNat → f m = none) : slotNumbers.findSome? f = some a := by
  rw [List.findSome?_eq_some_iff]
  exact ⟨_, n, _, slotNumbers_split n, h, fun m hm => low m (toNat_lt_of_mem_take hm)⟩

/-! ## SLOT_ISSUE (R134, R156) -/

section
variable {s : State} {n : BitVec 2}

theorem issuableSlot_eq_some (active : s.member.state = .active) (places : s.reserved ≤ 14)
    (outgoing : 0 < s.outgoingFree) (here : s.slotExists n = true) (triggered : (s.slotAt n).state = .triggered)
    (low : ∀ m : BitVec 2, m.toNat < n.toNat → (s.slotAt m).state ≠ .triggered) : s.issuableSlot = some n := by
  have room : s.reserved + 2 ≤ Config.places := by unfold Config.places; omega
  rw [State.issuableSlot, if_pos ⟨active, room, outgoing⟩, State.slotList, List.find?_filter]
  refine slotNumbers_find? (by simp [here, triggered]) (fun m hm => ?_)
  simp [low m hm]

theorem slotIssue_of_none (h : s.issuableSlot = none) : slotIssue s = s := by simp only [slotIssue, h]

theorem slotIssue_of_some (h : s.issuableSlot = some n) : slotIssue s = issueSlot n s := by
  simp only [slotIssue, h]

/-- A slot whose list has a token that the station holds or claims (R151). -/
theorem issueSlot_of_conflict {k : Nat} (h : s.conflict (s.slotAt n).spec.tokens = some k) :
    issueSlot n s = (modifySlot n (fun y => { y with
        cause := .conflict, heldPlace := false, gnt := false, stop := false,
        state := if y.mode = .follow ∧ y.stop = false then .armed else .disabled })
      (s.withReq { s.req with cmp := s.req.cmp ++
        [.one .conflict (s.slotAt n).spec.tag (.slot n) 1 (byteOf k)] })).withEvents
      { s.events with latched := s.events.latched ||| 0x0040 } := by
  have returned (t : State) (ev : Events) : modifySlot n Slot.returned
      ((modifySlot n (fun x => { x with cause := .conflict }) t).withEvents ev) =
      (modifySlot n (fun y => { y with
        cause := .conflict, heldPlace := false, gnt := false, stop := false,
        state := if y.mode = .follow ∧ y.stop = false then .armed else .disabled }) t).withEvents ev :=
    congrArg (fun u : State => u.withEvents ev) (modifySlot_modifySlot n _ _ t)
  simp only [issueSlot, h, slotReturn, slotEvent_eq, Bool.false_eq_true, if_false, returned]
  rfl

theorem issueSlot_of_free (h : s.conflict (s.slotAt n).spec.tokens = none) :
    issueSlot n s = modifySlot n (fun y => { y with state := .claiming, heldPlace := true })
      (s.withReq { s.req with
        pend := s.req.pend.set s.freePend (some
          { tag := (s.slotAt n).spec.tag, source := .slot n, kind := .acquire,
            origin := (s.slotAt n).spec.tokens.head?, list := (s.slotAt n).spec.tokens,
            units := (s.slotAt n).spec.units.toNat, cls := (s.slotAt n).spec.cls.toNat, phase := .outgoing,
            progress := [], heldWithdraw := false }),
        outgoing := s.req.outgoing ++
          [⟨s.freePend, .claim .wait (s.slotAt n).spec.units.toNat (s.slotAt n).spec.tokens⟩] }) := by
  simp only [issueSlot, h]
  rfl

end

/-- Settles O35. -/
theorem slotIssueClaimsOrConflicts : Obligations.SlotIssueClaimsOrConflicts := by
  intro s n hp x l ready unclaimed
  have issues : exec .slotIssue s = .next (slotIssue s) := by rw [exec_slotIssue, live_on hp]
  have unclaimed_iff (k : Nat) : (s.holdsToken k || s.claimsToken k) = false ↔ unclaimed k := unclaimed_iff s k
  refine ⟨fun no => ?_, fun active places outgoing ⟨here, triggered, low⟩ => ?_⟩
  · rw [issues, slotIssue_of_none]
    rw [issuableSlot_eq_none]
    rintro ⟨active, places, outgoing, m, here, triggered⟩
    rcases no with other | full | noFrame | noSlot
    · exact other active
    · omega
    · omega
    · exact noSlot m here triggered
  · rw [issues, slotIssue_of_some (issuableSlot_eq_some active places outgoing here triggered low)]
    refine ⟨fun free => congrArg _ (issueSlot_of_free (conflict_eq_none fun k hk => (unclaimed_iff k).2 (free k hk))),
      fun pre k post split free claimed => ?_⟩
    have tokens : (s.slotAt n).spec.tokens = pre ++ k :: post := split
    have conflict : s.conflict (s.slotAt n).spec.tokens = some k := by
      rw [tokens]
      exact conflict_eq_some (fun j hj => (unclaimed_iff j).2 (free j hj))
        (eq_true_of_ne_false (mt (unclaimed_iff k).1 claimed))
    rw [issueSlot_of_conflict conflict]
    rfl

/-! ## HELD_WITHDRAW_PLACE (R145) -/

section
variable {s : State}

theorem nextHeldWithdraw_eq_none (h : ∀ e, some e ∈ s.req.pend → e.heldWithdraw = false) :
    s.nextHeldWithdraw = none := by
  rw [State.nextHeldWithdraw, List.findSome?_eq_none_iff]
  intro k _
  rw [findPend_eq_none.2 fun e he => by simp [h e he]]
  rfl

/-- The held WITHDRAW of the lowest-numbered slot. -/
theorem nextHeldWithdraw_eq_some {m : Nat} {e : PendEntry} {n : BitVec 2} (he : s.pendAt m = some e)
    (hs : e.source = .slot n) (hw : e.heldWithdraw = true)
    (low : ∀ m' e' n', s.pendAt m' = some e' → e'.source = .slot n' → e'.heldWithdraw = true →
      n.toNat < n'.toNat ∨ m' = m) : s.nextHeldWithdraw = some (m, e) := by
  have found (k : BitVec 2) (m' : Nat) (h : s.findPend (fun e => e.source == .slot k && e.heldWithdraw) = some m') :
      ∃ e', s.pendAt m' = some e' ∧ e'.source = .slot k ∧ e'.heldWithdraw = true := by
    obtain ⟨e', he', hp⟩ := findPend_eq_some h
    simp only [Bool.and_eq_true, beq_iff_eq] at hp
    exact ⟨e', he', hp⟩
  refine slotNumbers_findSome? (n := n) ?_ (fun k hk => ?_)
  · cases h : s.findPend (fun e => e.source == .slot n && e.heldWithdraw) with
    | none => simpa [hs, hw] using findPend_eq_none.1 h e (pendAt_mem he)
    | some m' =>
      obtain ⟨e', he', hs', hw'⟩ := found n m' h
      obtain rfl : m' = m := (low m' e' n he' hs' hw').resolve_left (Nat.lt_irrefl _)
      simp [he]
  · cases h : s.findPend (fun e => e.source == .slot k && e.heldWithdraw) with
    | none => rfl
    | some m' =>
      obtain ⟨e', he', hs', hw'⟩ := found k m' h
      rcases low m' e' k he' hs' hw' with above | rfl
      · omega
      · obtain rfl : e = e' := Option.some.inj (he.symm.trans he')
        obtain rfl : k = n := by simpa [hs] using hs'.symm
        exact absurd hk (Nat.lt_irrefl _)

theorem placeHeld_of_full (h : 8 ≤ s.req.outgoing.length) : placeHeld s = s := by
  have full : ¬ s.req.outgoing.length < Config.outgoingDepth := Nat.not_lt.2 h
  rw [placeHeld, if_neg full]

theorem placeHeld_of_none (h : s.nextHeldWithdraw = none) : placeHeld s = s := by
  simp only [placeHeld, h, ite_self]

theorem placeHeld_of_some {m : Nat} {e : PendEntry} (hl : s.req.outgoing.length < 8)
    (h : s.nextHeldWithdraw = some (m, e)) : placeHeld s = s.withReq { s.req with
      pend := s.req.pend.set m (some { e with heldWithdraw := false }),
      outgoing := s.req.outgoing ++ [⟨m, .withdraw (e.origin.getD 0)⟩] } := by
  have room : s.req.outgoing.length < Config.outgoingDepth := hl
  simp only [placeHeld, room, if_true, h]
  rfl

end

/-- Settles O36. -/
theorem heldWithdrawIsPlaced : Obligations.HeldWithdrawIsPlaced := by
  intro s hp
  have places : exec .heldWithdrawPlace s = .next (placeHeld s) := by rw [exec_heldWithdrawPlace, live_on hp]
  refine ⟨fun no => ?_, fun m e n room he hs hw low => ?_⟩
  · rcases no with full | none
    · rw [places, placeHeld_of_full full]
    · rw [places, placeHeld_of_none (nextHeldWithdraw_eq_none none)]
  · rw [places, placeHeld_of_some room (nextHeldWithdraw_eq_some he hs hw low)]

end Sys2Proof.Machine
end

