-- ==== Sys2Proof/Proofs/SlotEnds.lean ====
section
/-! PROOFS. The opposite edge and the clearing of ENABLE at a slot whose claim is under way: the release of a HELD slot
(R126, R158, R159) and the withdrawal of a CLAIMING one (R145, R160, R162). -/

namespace Sys2Proof.Machine

/-- A command has reached slot n: the level of its pin and its stop are set, with whatever the command does to the pins,
the port and the partial request record. -/
def reachedSlot (n : BitVec 2) (pins : BitVec 4) (port : Port) (asm : List Byte) (pin stop : Bool) (s : State) : State :=
  modifySlot n (fun x => { x with pin := pin, stop := stop })
    (((s.withTrgPins pins).withPort port).withReq { s.req with asm := asm })

/-- The edge that ends a FOLLOW slot's claim, or the clearing of ENABLE (R153, R154). -/
def EndsClaim (s : State) (n : BitVec 2) (c : Instr) (level : Bool) : Prop :=
  (c = .trgEdge n level ∧ (s.slotAt n).pin ≠ level ∧ (s.slotAt n).mode = .follow ∧
      (((s.slotAt n).source = 1 ∧ level = true) ∨ ((s.slotAt n).source = 2 ∧ level = false))) ∨
    (c = .slotEnable false ∧ s.portOpen = true ∧ s.port.slotSel = n)

section
variable (n : BitVec 2) (pins : BitVec 4) (port : Port) (asm : List Byte) (pin stop : Bool) {s : State}

theorem reachedSlot_length (hs : s.slots.length = 4) :
    (reachedSlot n pins port asm pin stop s).slots.length = 4 := by
  simpa [reachedSlot, modifySlot] using hs

theorem reachedSlot_here (hs : s.slots.length = 4) : (reachedSlot n pins port asm pin stop s).slotAt n =
    { s.slotAt n with pin := pin, stop := stop } := by
  rw [reachedSlot, slotAt_modifySlot _ _ _ (by exact hs), if_pos rfl]
  rfl

/-- A change of slot n then leaves the others as they were before the command. -/
theorem reachedSlot_others (s : State) (f : Slot → Slot) (m : BitVec 2) (hm : m ≠ n) :
    (modifySlot n f (reachedSlot n pins port asm pin stop s)).slotAt m = s.slotAt m :=
  (slotAt_modifySlot_ne hm).trans (slotAt_modifySlot_ne hm)

end

section
variable {s : State} {n : BitVec 2} {c : Instr} {level : Bool}

/-- Such a command acts on the slot as it has reached it: it lets a HELD slot go, and withdraws a CLAIMING one. -/
theorem exec_of_endsClaim (hp : s.powered = true) (he : s.slotExists n = true) (hc : EndsClaim s n c level) :
    ∃ pins port asm pin,
      let u := reachedSlot n pins port asm pin (if c = .slotEnable false then true else (s.slotAt n).stop) s
      ((s.slotAt n).state = .held → exec c s = .next (slotLetGo n u)) ∧
      ((s.slotAt n).state = .claiming → exec c s = .next (slotWithdraw n u)) := by
  rcases hc with ⟨rfl, moved, follow, edge⟩ | ⟨rfl, portOpen, rfl⟩
  · have opposite : (s.slotAt n).oppositeTo level = true := (Slot.oppositeTo_iff _ _).2 ⟨follow, edge⟩
    have notLeading : ¬ (s.slotAt n).triggeredBy level = true := by
      rw [Slot.triggeredBy_iff]
      rcases edge with ⟨hs, hl⟩ | ⟨hs, hl⟩ <;> simp [hs, hl]
    have state : ((pinTaken n level s).slotAt n).state = (s.slotAt n).state :=
      pinTaken_keeps Slot.state (fun _ _ => rfl) n n level s
    have reached : pinTaken n level s =
        reachedSlot n (setTrgPin n level s).trgPins s.port s.req.asm level (s.slotAt n).stop s :=
      modifySlot_congr (s := setTrgPin n level s) rfl
    have acts : exec (.trgEdge n level) s = .next (oppositeEdge n (pinTaken n level s)) := by
      rw [exec_trgEdge, live_on hp, pinEdge_of_edge he moved, if_neg notLeading, if_pos opposite]
    refine ⟨(setTrgPin n level s).trgPins, s.port, s.req.asm, level, ?_⟩
    simp only [reduceCtorEq, if_false, ← reached]
    refine ⟨fun held => ?_, fun claiming => ?_⟩
    · simp only [acts, oppositeEdge, state.trans held]
    · simp only [acts, oppositeEdge, state.trans claiming]
  · have reached : modifySlot s.port.slotSel Slot.stopped (s.inWrite .slotCtrl) = reachedSlot s.port.slotSel s.trgPins
        (s.inWrite .slotCtrl).port (s.inWrite .slotCtrl).req.asm (s.slotAt s.port.slotSel).pin true s := by
      have stopped := modifySlot_congr (s := s.inWrite .slotCtrl) (n := s.port.slotSel) (f := Slot.stopped)
        (g := fun x => { x with pin := (s.slotAt s.port.slotSel).pin, stop := true }) (by simp [Slot.stopped])
      rw [stopped, inWrite_eq]
      rfl
    have acts : exec (.slotEnable false) s = .next (disableSlot s.port.slotSel (s.inWrite .slotCtrl)) := by
      rw [exec_slotEnable, hostWrite_slotWrite portOpen he, writeEnable_false]
    refine ⟨s.trgPins, (s.inWrite .slotCtrl).port, (s.inWrite .slotCtrl).req.asm, (s.slotAt s.port.slotSel).pin, ?_⟩
    simp only [if_true, ← reached]
    refine ⟨fun held => ?_, fun claiming => ?_⟩
    · simp only [acts, disableSlot, slotAt_inWrite, held]
    · simp only [acts, disableSlot, slotAt_inWrite, claiming]

end

/-! ## The release of a HELD slot (R126, R159) -/

theorem slotRelease_pending {n : BitVec 2} {s : State} {l : Lease} (hl : s.leaseOfSlot n = some l)
    (hp : l.pending = true) :
    slotRelease n s = modifySlot n (fun x => { x with state := .releasing, gnt := false }) s := by
  simp only [slotRelease, hl, hp, if_true]

theorem slotRelease_taken {n : BitVec 2} {s : State} {l : Lease} (hl : s.leaseOfSlot n = some l)
    (hp : l.pending = false) :
    slotRelease n s = modifySlot n (fun x => { x with state := .releasing, gnt := false, heldPlace := false })
      ((s.withLeases (s.leases.map
        (fun x => if x.names l.first then { x with state := .releasePending } else x))).withReq
        { s.req with pend := s.req.pend.set s.freePend (some
          { tag := (s.slotAt n).spec.tag, source := .slot n, kind := .release, origin := some l.first,
            list := l.tokens, units := 0, cls := 0, phase := .releasing, progress := [],
            heldWithdraw := false }) }) := by
  simp only [slotRelease, hl, hp, Bool.false_eq_true, if_false, modifySlot_modifySlot]
  rfl

/-- Settles O22. -/
theorem heldSlotReleases : Obligations.HeldSlotReleases := by
  intro s n c level l hp sized _ he held none hl hc
  have hs : s.slots.length = 4 := sized.2.2.2.2.2.1
  obtain ⟨pins, port, asm, pin, lets, _⟩ := exec_of_endsClaim hp he hc
  generalize (if c = .slotEnable false then true else (s.slotAt n).stop) = stop at lets ⊢
  set u := reachedSlot n pins port asm pin stop s with hu
  have go : slotLetGo n u = slotRelease n u := by
    rw [slotLetGo, settleLeases_of_none_overdue (s := u) none]
  have others := reachedSlot_others n pins port asm pin stop s
  have length : u.slots.length = 4 := reachedSlot_length n pins port asm pin stop hs
  have here : u.slotAt n = { s.slotAt n with pin := pin, stop := stop } :=
    reachedSlot_here n pins port asm pin stop hs
  refine ⟨_, (lets held).trans (congrArg _ go), ?_⟩
  cases pending : l.pending with
  | true =>
    rw [slotRelease_pending (s := u) hl pending]
    have slot := slotAt_modifySlot n n (fun x => { x with state := .releasing, gnt := false }) length
    rw [if_pos rfl, here] at slot
    exact ⟨congrArg Slot.state slot, congrArg Slot.gnt slot, congrArg Slot.stop slot, others _, rfl, rfl, rfl, rfl, rfl,
      rfl, rfl, rfl, rfl, rfl, rfl, nofun, fun _ => ⟨(congrArg Slot.heldPlace slot).trans rfl, rfl, rfl⟩⟩
  | false =>
    rw [slotRelease_taken (s := u) hl pending]
    have slot := slotAt_modifySlot n n (fun x => { x with state := .releasing, gnt := false, heldPlace := false }) length
    rw [if_pos rfl, here] at slot
    refine ⟨congrArg Slot.state slot, congrArg Slot.gnt slot, congrArg Slot.stop slot, others _, rfl, rfl, rfl, rfl, rfl,
      rfl, rfl, rfl, rfl, rfl, rfl, fun _ => ⟨congrArg Slot.heldPlace slot, rfl, ?_⟩, nofun⟩
    rw [here]
    rfl

/-! ## The withdrawal of a CLAIMING slot's claim (R145, R160) -/

theorem claimOnLine_iff (s : State) (m : Nat) : s.claimOnLine m = true ↔ ∃ mode u l,
    s.line.tx = some ⟨.claim mode u l, some m⟩ ∨
      (s.line.tx = none ∧ ∃ h, s.line.hold = some h ∧ h.own = some ⟨.claim mode u l, some m⟩) := by
  have own : s.claimOnLine m = true ↔ ∃ mode u l, s.line.ownFrame = some ⟨.claim mode u l, some m⟩ := by
    unfold State.claimOnLine
    constructor
    · intro h
      split at h
      · rename_i mode u l k hl
        obtain rfl : k = m := by simpa using h
        exact ⟨mode, u, l, hl⟩
      · cases h
    · rintro ⟨mode, u, l, hl⟩
      simp [hl]
  rw [own]
  unfold Line.ownFrame
  cases s.line.tx with
  | some x => simp
  | none => simp [Option.bind_eq_some_iff]

section
variable {s : State} {n : BitVec 2} {m : Nat} {e : PendEntry} (hm : s.claimOfSlot n = some m) (he : s.pendAt m = some e)
include hm he

theorem slotWithdraw_unbegun (hp : e.phase = .outgoing) (hl : s.claimOnLine m = false)
    (hc : s.cancelOf (e.origin.getD 0) = none) :
    slotWithdraw n s = modifySlot n Slot.returned (s.withReq { s.req with
      pend := s.req.pend.set m none,
      cmp := s.req.cmp ++ [.withdrawn e.tag (.slot n) e.units (e.origin.getD 0) []],
      outgoing := s.req.outgoing.filter (fun f => !(f.entry == m && (f.isClaim || f.isWithdraw))) }) := by
  obtain ⟨x, hx, _, source⟩ := claimOfSlot_eq_some hm
  obtain rfl : e = x := Option.some.inj (he.symm.trans hx)
  simp only [slotWithdraw, hm, he, hp, hl, Bool.false_eq_true, if_false]
  rw [withdrawClaim_unbegun hc, source]
  rfl

theorem slotWithdraw_onLine (hp : e.phase = .outgoing) (hl : s.claimOnLine m = true) :
    slotWithdraw n s = modifySlot n (fun x => { x with state := .withdrawing })
      (s.withReq { s.req with pend := s.req.pend.set m (some { e with phase := .withdrawing }) }) := by
  simp only [slotWithdraw, hm, he, hp, hl, if_true]
  rfl

theorem slotWithdraw_waiting (hp : e.phase = .waiting) (ho : 0 < s.outgoingFree) :
    slotWithdraw n s = modifySlot n (fun x => { x with state := .withdrawing })
      (s.withReq { s.req with
        pend := s.req.pend.set m (some { e with phase := .withdrawing }),
        outgoing := s.req.outgoing ++ [⟨m, .withdraw (e.origin.getD 0)⟩] }) := by
  simp only [slotWithdraw, hm, he, hp, ho, if_true]
  rfl

theorem slotWithdraw_held (hp : e.phase = .waiting) (ho : s.outgoingFree = 0) :
    slotWithdraw n s = modifySlot n (fun x => { x with state := .withdrawing })
      (s.withReq { s.req with
        pend := s.req.pend.set m (some { e with phase := .withdrawing, heldWithdraw := true }) }) := by
  simp only [slotWithdraw, hm, he, hp, ho, Nat.lt_irrefl, if_false]
  rfl

theorem slotWithdraw_ended (ho : e.phase ≠ .outgoing) (hw : e.phase ≠ .waiting) : slotWithdraw n s = s := by
  simp only [slotWithdraw, hm, he]
  cases hp : e.phase with
  | outgoing => exact absurd hp ho
  | waiting => exact absurd hp hw
  | withdrawing | releasing | signalling => rfl

end

/-- Settles O23. -/
theorem claimingSlotWithdraws : Obligations.ClaimingSlotWithdraws := by
  refine ⟨claimOnLine_iff, fun s n c level m e hp sized he claiming hm hme noCancel hc => ?_⟩
  have hs : s.slots.length = 4 := sized.2.2.2.2.2.1
  obtain ⟨pins, port, asm, pin, _, withdraws⟩ := exec_of_endsClaim hp he hc
  intro stop
  replace withdraws : exec c s = .next (slotWithdraw n (reachedSlot n pins port asm pin stop s)) := withdraws claiming
  clear_value stop
  have others := reachedSlot_others n pins port asm pin stop s
  have slot (f : Slot → Slot) := slotAt_modifySlot n n f (reachedSlot_length n pins port asm pin stop hs)
  simp only [if_true, reachedSlot_here n pins port asm pin stop hs] at slot
  have asked := slot (fun x => { x with state := .withdrawing })
  have returned := slot Slot.returned
  set u := reachedSlot n pins port asm pin stop s
  cases hp : e.phase with
  | outgoing =>
    cases hl : s.claimOnLine m with
    | false =>
      refine ⟨_, withdraws.trans (congrArg _ (slotWithdraw_unbegun (s := u) hm hme hp hl noCancel)), rfl, rfl, rfl, rfl,
        rfl, rfl, rfl, others _, fun _ _ => ⟨rfl, rfl, rfl, ?_⟩, nofun, nofun, nofun⟩
      exact ⟨congrArg Slot.heldPlace returned, congrArg Slot.gnt returned, congrArg Slot.stop returned,
        congrArg Slot.state returned⟩
    | true =>
      exact ⟨_, withdraws.trans (congrArg _ (slotWithdraw_onLine (s := u) hm hme hp hl)), rfl, rfl, rfl, rfl,
        rfl, rfl, rfl, others _, nofun, fun _ _ => ⟨rfl, congrArg Slot.state asked, congrArg Slot.stop asked⟩, nofun,
        nofun⟩
  | waiting =>
    rcases Nat.eq_zero_or_pos s.outgoingFree with full | room
    · exact ⟨_, withdraws.trans (congrArg _ (slotWithdraw_held (s := u) hm hme hp full)), rfl, rfl, rfl, rfl, rfl, rfl,
        rfl, others _, nofun, nofun, fun _ room => absurd room (Nat.not_lt.2 full.le),
        fun _ _ => ⟨rfl, congrArg Slot.state asked, congrArg Slot.stop asked⟩⟩
    · exact ⟨_, withdraws.trans (congrArg _ (slotWithdraw_waiting (s := u) hm hme hp room)), rfl, rfl, rfl, rfl, rfl,
        rfl, rfl, others _, nofun, nofun, fun _ _ => ⟨rfl, congrArg Slot.state asked, congrArg Slot.stop asked⟩,
        fun _ full => absurd full room.ne'⟩
  | withdrawing | releasing | signalling =>
    have ended := slotWithdraw_ended (s := u) hm hme (by simp [hp]) (by simp [hp])
    exact ⟨_, withdraws.trans (congrArg _ ended), rfl, rfl, rfl, rfl, rfl, rfl, rfl,
      fun k hk => slotAt_modifySlot_ne hk, nofun, nofun, nofun, nofun⟩

end Sys2Proof.Machine
end

