-- ==== Sys2Proof/Proofs/Timers.lean ====
section
/-! PROOFS. Time: the waits of the line (R2, R15), the tick (R115, R120) and the timers whose end has come (R72, R108,
R121, R163). -/

namespace Sys2Proof.Machine

theorem exec_tick (s : State) : exec .tick s = live tick s := rfl
theorem exec_leaseExpiry (k : BitVec 6) (s : State) : exec (.leaseExpiry k) s = live (leaseExpiry k.toNat) s := rfl
theorem exec_presenceTimerExpiry (s : State) : exec .presenceTimerExpiry s = live presenceExpiry s := rfl
theorem exec_digestTimerExpiry (s : State) : exec .digestTimerExpiry s = live digestExpiry s := rfl

/-! ## The waits of the line -/

/-- Settles O37. -/
theorem recessiveCountsEndWaits : Obligations.RecessiveCountsEndWaits := by
  intro s hp part
  rw [exec_lineWaitDone, exec_idleGap, exec_yieldTimeout, live_on hp, live_on hp, live_on hp]
  refine ⟨fun h => ?_, fun h => ?_, fun h hh => ?_, fun h => ?_, fun h hl => ?_, fun h => ?_⟩
  · simp [lineWaitDone, part, h, Config.lineWaitBits, Config.longestFrame, Config.frameOverhead, Config.maxPayload,
      Config.idleGapBits]
  · simp [lineWaitDone, h]
  · simp [idleGap, part, h, hh, Config.idleGapBits]
  · simp [idleGap, h]
  · simp [yieldTimeout, part, h, hl, Config.yieldBits]
  · simp [yieldTimeout, h]

/-! ## The tick -/

theorem Lease.pending_eq_false {l : Lease} : l.pending = false ↔ l.state = .running ∨ l.state = .warned := by
  unfold Lease.pending
  cases l.state <;> simp

theorem Lease.counts_iff (l : Lease) :
    l.counts = true ↔ l.cls ≠ 0 ∧ (l.state = .running ∨ l.state = .warned) := by
  rw [← Lease.pending_eq_false]
  simp [Lease.counts]

theorem Lease.tick_eq (p : ClassParams) (l : Lease) : l.tick p =
    if l.cls ≠ 0 ∧ (l.state = .running ∨ l.state = .warned) ∧ 0 < l.counter then
      { l with
        counter := l.counter - 1,
        state := if l.state = .running ∧ l.counter - 1 = p.v.toNat ∧ 0 < p.v.toNat then .warned else l.state }
    else l := by
  have counting : (l.counts && decide (0 < l.counter)) = true ↔
      l.cls ≠ 0 ∧ (l.state = .running ∨ l.state = .warned) ∧ 0 < l.counter := by
    rw [Bool.and_eq_true, Lease.counts_iff, decide_eq_true_iff, and_assoc]
  simp only [Lease.tick, counting]

/-- A record warns at the tick that brings its counter to V (R120). -/
theorem Lease.warns_iff (p : ClassParams) (l : Lease) : l.warns p = true ↔
    l.cls ≠ 0 ∧ l.state = .running ∧ l.counter = p.v.toNat + 1 ∧ 0 < p.v.toNat := by
  rw [Lease.warns, Lease.tick_eq, Bool.and_eq_true, beq_iff_eq, beq_iff_eq]
  constructor
  · rintro ⟨running, warned⟩
    rw [running] at warned
    split at warned
    · rename_i h
      obtain ⟨cls, _, counter⟩ := h
      have : l.counter - 1 = p.v.toNat ∧ 0 < p.v.toNat := by simpa [Nat.pos_iff_ne_zero] using warned
      exact ⟨cls, running, by omega, this.2⟩
    · rw [running] at warned
      cases warned
  · rintro ⟨cls, running, counter, positive⟩
    have counting : l.cls ≠ 0 ∧ (l.state = .running ∨ l.state = .warned) ∧ 0 < l.counter :=
      ⟨cls, .inl running, by omega⟩
    rw [if_pos counting]
    exact ⟨running, if_pos ⟨running, by omega, positive⟩⟩

theorem tick_of_stopped {s : State} (h : s.time.running = false) : tick s = s := by
  simp [tick, h]

/-- What a tick changes at every station, whether it takes part in the line or not. -/
theorem tick_of_running {s : State} (h : s.time.running = true) :
    tick s = if s.takesPart then tickStation (tickLeases (s.withTime ⟨true, 0⟩))
      else tickLeases (s.withTime ⟨true, 0⟩) := by
  have part : (tickLeases (s.withTime ⟨true, 0⟩)).takesPart = s.takesPart := by
    simp [tickLeases, setEventIf_eq, State.takesPart]
  simp only [tick, h, if_true, part]

theorem tickStation_eq (s : State) : tickStation s =
    { s with
      member := { s.member with
        presenceTimer := s.member.presenceTimer.map (· - 1), listenTimer := s.member.listenTimer.map (· - 1),
        peers := s.member.peers.map (fun p =>
          if p.state = .absent then p else { p with dropout := p.dropout - 1 }) },
      snap := { s.snap with timer := s.snap.timer.map (· - 1) },
      digest := { s.digest with timer := s.digest.timer.map (· - 1) } } := rfl

theorem tickLeases_eq (s : State) : tickLeases s =
    (s.withLeases (s.leases.map (fun l => l.tick (s.classParams l.cls)))).withEvents
      { s.events with
        latched := if s.leases.any (fun l => l.warns (s.classParams l.cls)) then s.events.latched ||| 0x0002
          else s.events.latched } := by
  simp only [tickLeases, setEventIf_eq]
  rfl

/-- LEASE_WARN at a tick, once for all the records that become WARNED (R120). -/
theorem tickLeases_events (s : State) :
    let warns : Prop := ∃ l ∈ s.leases, l.cls ≠ 0 ∧ l.state = .running ∧
      l.counter = (s.classParams l.cls).v.toNat + 1 ∧ 0 < (s.classParams l.cls).v.toNat
    (warns → (tickLeases s).events = { s.events with latched := s.events.latched ||| 0x0002 }) ∧
      (¬ warns → (tickLeases s).events = s.events) := by
  have any : s.leases.any (fun l => l.warns (s.classParams l.cls)) = true ↔
      ∃ l ∈ s.leases, l.cls ≠ 0 ∧ l.state = .running ∧ l.counter = (s.classParams l.cls).v.toNat + 1 ∧
        0 < (s.classParams l.cls).v.toNat := by
    simp only [List.any_eq_true, Lease.warns_iff]
  refine ⟨fun warns => ?_, fun quiet => ?_⟩
  · rw [tickLeases_eq, any.2 warns]
    rfl
  · rw [tickLeases_eq, Bool.eq_false_iff.2 (mt any.1 quiet)]
    rfl

/-- Settles O52. -/
theorem tickCountsEveryTimer : Obligations.TickCountsEveryTimer := by
  intro s hp
  have ticks : exec .tick s = .next (tick s) := by rw [exec_tick, live_on hp]
  refine ⟨fun stopped => by rw [ticks, tick_of_stopped stopped], fun running => ⟨_, ticks, ?_⟩⟩
  obtain ⟨ev, counted⟩ : ∃ ev, tickLeases (s.withTime ⟨true, 0⟩) = ((s.withTime ⟨true, 0⟩).withLeases
      (s.leases.map (fun l => l.tick (s.classParams l.cls)))).withEvents ev := ⟨_, tickLeases_eq _⟩
  have events := tickLeases_events (s.withTime ⟨true, 0⟩)
  rw [counted] at events
  rw [tick_of_running running, counted]
  simp only [Lease.tick_eq] at events ⊢
  cases part : s.takesPart with
  | true =>
    rw [if_pos rfl, tickStation_eq]
    exact ⟨rfl, rfl, events, fun _ => ⟨rfl, rfl, rfl⟩, nofun, rfl, rfl, rfl, rfl, rfl, rfl, rfl⟩
  | false =>
    exact ⟨rfl, rfl, events, nofun, fun _ => ⟨rfl, rfl, rfl⟩, rfl, rfl, rfl, rfl, rfl, rfl, rfl⟩

/-! ## Timers whose end has come -/

theorem Lease.overdue_iff (l : Lease) :
    l.overdue = true ↔ l.cls ≠ 0 ∧ l.pending = false ∧ l.counter = 0 := by
  simp [Lease.overdue, Lease.counts, and_assoc]

section
variable {s : State} {k : Nat}

theorem leaseExpiry_of_none (h : s.leaseOf k = none) : leaseExpiry k s = s := by
  simp only [leaseExpiry, h]

theorem leaseExpiry_of_overdue {l : Lease} (h : s.leaseOf k = some l) (ho : l.overdue = true) :
    leaseExpiry k s = tellExpiry l.source ((s.withLeases (s.leases.map
      (fun x => if x.names k then { x with state := .expiredPending, counter := 0 } else x))).withEvents
        { s.events with latched := s.events.latched ||| 0x0004 }) := by
  simp only [leaseExpiry, h, ho, if_true]
  exact expireLease_of_some h

theorem leaseExpiry_of_counting {l : Lease} (h : s.leaseOf k = some l) (ho : l.overdue = false) :
    leaseExpiry k s = s := by
  simp only [leaseExpiry, h, ho, Bool.false_eq_true, if_false]

end

/-- Settles O53. -/
theorem timersActAtZero : Obligations.TimersActAtZero := by
  intro s hp
  rw [exec_presenceTimerExpiry, exec_digestTimerExpiry, live_on hp, live_on hp]
  have expiry (k : BitVec 6) : exec (.leaseExpiry k) s = .next (leaseExpiry k.toNat s) := by
    rw [exec_leaseExpiry, live_on hp]
  refine ⟨fun k l hl => ?_, fun k hl => by rw [expiry, leaseExpiry_of_none hl], fun part h => ?_, fun h => ?_,
    fun h => ?_, fun h => ?_⟩
  · intro expired
    refine ⟨fun cls live zero => ?_, fun no => ?_⟩
    · have overdue : l.overdue = true := (Lease.overdue_iff l).2 ⟨cls, live, zero⟩
      rw [expiry, leaseExpiry_of_overdue hl overdue]
      exact ⟨fun host => by rw [host]; rfl, fun n slot => by rw [slot]; rfl⟩
    · have counting : l.overdue = false := by
        rw [Bool.eq_false_iff, ne_eq, Lease.overdue_iff]
        rintro ⟨cls, live, zero⟩
        rcases no with class0 | pending | counts
        · exact cls class0
        · rw [live] at pending
          cases pending
        · exact counts zero
      rw [expiry, leaseExpiry_of_counting hl counting]
  · rw [presenceExpiry, if_pos ⟨part, h⟩]
  · rw [presenceExpiry, if_neg (fun hc => h hc.2)]
  · rw [digestExpiry, if_pos h]
  · rw [digestExpiry, if_neg h]

end Sys2Proof.Machine
end

