-- ==== Sys2Proof/Proofs/Triggers.lean ====
section
/-! PROOFS. A trigger event at several slots (R77, R154, R166), and the end of the listen interval (R47, R48, R76). -/

namespace Sys2Proof.Machine

/-! ## A trigger event at the slots of a source -/

/-- A slot after a trigger event (R155). -/
def Slot.afterTrigger (x : Slot) : Slot :=
  match x.state with
  | .disabled => x
  | .armed => { x with state := .triggered }
  | .triggered | .claiming | .withdrawing | .held | .releasing => { x with missed := true, cause := .missed }

theorem Slot.afterTrigger_of_armed {x : Slot} (h : x.state = .armed) :
    x.afterTrigger = { x with state := .triggered } := by
  simp only [Slot.afterTrigger, h]

theorem Slot.afterTrigger_of_busy {x : Slot} (hd : x.state ≠ .disabled) (ha : x.state ≠ .armed) :
    x.afterTrigger = { x with missed := true, cause := .missed } := by
  unfold Slot.afterTrigger
  cases h : x.state with
  | disabled => exact absurd h hd
  | armed => exact absurd h ha
  | triggered | claiming | withdrawing | held | releasing => rfl

section
variable {s : State}

theorem slotTrigger_length (n : BitVec 2) (s : State) : (slotTrigger n s).slots.length = s.slots.length := by
  unfold slotTrigger
  cases (s.slotAt n).state <;> simp [slotEvent_eq, modifySlot]

theorem slotAt_slotTrigger (hs : s.slots.length = 4) (n m : BitVec 2) :
    (slotTrigger n s).slotAt m = if m = n then (s.slotAt m).afterTrigger else s.slotAt m := by
  by_cases hd : (s.slotAt n).state = .disabled
  · rw [slotTrigger_of_disabled hd]
    split
    · rename_i h
      simp only [h, Slot.afterTrigger, hd]
    · rfl
  by_cases ha : (s.slotAt n).state = .armed
  · rw [slotTrigger_of_armed ha, slotAt_modifySlot _ _ _ hs]
    split
    · rename_i h
      rw [h, Slot.afterTrigger_of_armed ha]
    · rfl
  · have busy : (slotTrigger n s).slotAt m =
        (modifySlot n (fun x => { x with missed := true, cause := .missed }) s).slotAt m := by
      rw [slotTrigger_of_busy hd ha]
      rfl
    rw [busy, slotAt_modifySlot _ _ _ hs]
    split
    · rename_i h
      rw [h, Slot.afterTrigger_of_busy hd ha]
    · rfl

/-- The slots of the list that meet a condition take a trigger event. -/
def triggerWhere (c : Slot → Bool) (l : List (BitVec 2)) (s : State) : State :=
  l.foldl (fun t n => if c (t.slotAt n) then slotTrigger n t else t) s

theorem triggerSignal_eq (code : BitVec 3) (s : State) :
    triggerSignal code s = triggerWhere (fun x => decide (x.source = 3 ∧ x.code = code)) s.slotList s := by
  simp only [triggerSignal, triggerWhere, decide_eq_true_eq]

theorem triggerActivation_eq (s : State) :
    triggerActivation s = triggerWhere (fun x => decide (x.source = 4)) s.slotList s := by
  simp only [triggerActivation, triggerWhere, decide_eq_true_eq]

/-- Each slot of the list is asked once, as it stood before. -/
theorem slotAt_triggerWhere (c : Slot → Bool) {l : List (BitVec 2)} (hl : l.Nodup) (hs : s.slots.length = 4)
    (m : BitVec 2) : (triggerWhere c l s).slotAt m =
      if m ∈ l ∧ c (s.slotAt m) = true then (s.slotAt m).afterTrigger else s.slotAt m := by
  induction l generalizing s with
  | nil => simp [triggerWhere]
  | cons n l ih =>
    obtain ⟨hn, hl⟩ := List.nodup_cons.1 hl
    have step : triggerWhere c (n :: l) s = triggerWhere c l (if c (s.slotAt n) then slotTrigger n s else s) := rfl
    have length : (if c (s.slotAt n) then slotTrigger n s else s).slots.length = 4 := by
      split
      · rw [slotTrigger_length, hs]
      · exact hs
    rw [step, ih hl length]
    by_cases hm : m = n
    · subst hm
      cases hc : c (s.slotAt m) <;> simp [hn, hc, slotAt_slotTrigger hs]
    · cases hc : c (s.slotAt n) <;> simp [hm, slotAt_slotTrigger hs]

/-- t is s with other slots, and at most the SLOT event more (R155). -/
def TriggeredFrom (s t : State) : Prop := ∃ sl m, (m = 0 ∨ m = 0x0040) ∧
  t = (s.withSlots sl).withEvents { s.events with latched := s.events.latched ||| m }

/-- A change of the slots alone. -/
theorem TriggeredFrom.slots (s : State) (sl : List Slot) : TriggeredFrom s (s.withSlots sl) := by
  have same : s.events.latched ||| 0 = s.events.latched := BitVec.or_zero
  exact ⟨sl, 0, .inl rfl, by rw [same]; rfl⟩

theorem TriggeredFrom.refl (s : State) : TriggeredFrom s s := TriggeredFrom.slots s s.slots

theorem TriggeredFrom.trans {s t u : State} (h : TriggeredFrom s t) (g : TriggeredFrom t u) : TriggeredFrom s u := by
  obtain ⟨_, m, hm, rfl⟩ := h
  obtain ⟨sl, m', hm', rfl⟩ := g
  refine ⟨sl, m ||| m', ?_, by rw [← BitVec.or_assoc]; rfl⟩
  rcases hm with rfl | rfl <;> rcases hm' with rfl | rfl <;> decide

theorem slotTrigger_from (n : BitVec 2) (s : State) : TriggeredFrom s (slotTrigger n s) := by
  by_cases hd : (s.slotAt n).state = .disabled
  · rw [slotTrigger_of_disabled hd]
    exact .refl s
  by_cases ha : (s.slotAt n).state = .armed
  · rw [slotTrigger_of_armed ha]
    exact .slots s _
  · rw [slotTrigger_of_busy hd ha]
    exact ⟨_, 0x0040, .inr rfl, rfl⟩

theorem triggerWhere_from (c : Slot → Bool) (l : List (BitVec 2)) (s : State) :
    TriggeredFrom s (triggerWhere c l s) := by
  induction l generalizing s with
  | nil => exact .refl s
  | cons n l ih =>
    have first : TriggeredFrom s (if c (s.slotAt n) then slotTrigger n s else s) := by
      split
      · exact slotTrigger_from n s
      · exact .refl s
    exact first.trans (ih _)

theorem slotBit_ne : ∀ i : Fin 16, i.val ≠ 6 → (0x0040 : Half)[i.val] = false := by decide

/-- Every event but SLOT stays as it was. -/
theorem TriggeredFrom.latched {s t : State} (h : TriggeredFrom s t) {i : Nat} (hi : i < 16) (hn : i ≠ 6) :
    t.events.latched[i] = s.events.latched[i] := by
  obtain ⟨_, m, rfl | rfl, rfl⟩ := h
  · simp
  · have other : (0x0040 : Half)[i] = false := slotBit_ne ⟨i, hi⟩ hn
    change (s.events.latched ||| 0x0040)[i] = _
    rw [BitVec.getElem_or, other, Bool.or_false]

theorem slotList_nodup (s : State) : s.slotList.Nodup := by
  have : slotNumbers.Nodup := by decide
  exact this.filter _

theorem mem_slotList (n : BitVec 2) : n ∈ s.slotList ↔ s.slotExists n = true := by
  simp [State.slotList, mem_slotNumbers]

end

/-! ## The end of the listen interval -/

theorem exec_listenIntervalEnd (s : State) : exec .listenIntervalEnd s = live listenEnd s := rfl

/-- The station as it becomes ACTIVE, before the slots of source ACTIVATION are triggered (R77). -/
def enteredActive (s : State) : State :=
  { s with
    member := { s.member with state := .active, presenceWant := true, listenTimer := none },
    line := { s.line with yielding := false },
    events := { s.events with latched := s.events.latched ||| 0x0010 },
    digest := { s.digest with timer := if s.digestInterval = 0 then none else some s.digestInterval } }

theorem becomeActive_eq (s : State) : becomeActive s = triggerActivation (enteredActive s) := by
  simp only [becomeActive, setMState_eq, State.withMember, State.withLine, State.withEvents, State.withDigest,
    State.digestInterval, membership_mask, enteredActive]
  rfl

/-- The station as it enters JOINING, before a donor is chosen (R76). -/
def enteredJoining (s : State) : State :=
  { s with
    table := clearEntries s.table,
    member := { s.member with state := .joining, presenceWant := true, listenTimer := none },
    line := { s.line with yielding := false },
    events := { s.events with latched := s.events.latched ||| 0x0010 },
    snap := { s.snap with cursor := 0, donor := none, failures := 0, cause := .none, lapsed := none } }

theorem enterJoining_eq (s : State) : enterJoining s = chooseDonor 15 (enteredJoining s) := by
  simp only [enterJoining, setMState_eq, State.withTable, State.withMember, State.withLine, State.withEvents,
    State.withSnap, membership_mask, enteredJoining]

theorem chooseDonor_of_some {s : State} {ref d : Addr} (h : s.findDonor ref = some d) :
    chooseDonor ref s = s.withSnap { s.snap with engine := .requesting, donor := some d, timer := none } := by
  simp only [chooseDonor, h]
  rfl

theorem chooseDonor_of_none {s : State} {ref : Addr} (h : s.findDonor ref = none) :
    chooseDonor ref s = s.withSnap { s.snap with engine := .seeking, timer := some (2 * s.presencePeriod) } := by
  simp only [chooseDonor, h]
  rfl

/-- Settles O55. -/
theorem listenIntervalFoundsOrJoins : Obligations.ListenIntervalFoundsOrJoins := by
  intro s hp
  have ends : exec .listenIntervalEnd s = .next (listenEnd s) := by rw [exec_listenIntervalEnd, live_on hp]
  refine ⟨fun no => ?_, fun listening zero => ⟨_, ends, ?_⟩⟩
  · have not : ¬ (s.member.state = .listening ∧ s.member.listenTimer = some 0) :=
      fun ⟨listening, zero⟩ => no.elim (fun h => h listening) (fun h => h zero)
    rw [ends, listenEnd, if_neg not]
  rw [listenEnd, if_pos ⟨listening, zero⟩]
  cases seen : s.member.activeSeen with
  | false =>
    set u := enteredActive (s.withTable (clearEntries s.table))
    have founds : found s = triggerWhere (fun x => decide (x.source = 4)) s.slotList u := triggerActivation_eq u
    have slots := fun hs => slotAt_triggerWhere (s := u) (fun x => decide (x.source = 4)) (slotList_nodup s) hs
    have bits := (triggerWhere_from (fun x => decide (x.source = 4)) s.slotList u).latched (i := 4) (by omega) (by omega)
    obtain ⟨sl, m, -, only⟩ := triggerWhere_from (fun x => decide (x.source = 4)) s.slotList u
    rw [if_neg Bool.false_ne_true, founds]
    rw [only] at bits slots ⊢
    refine ⟨rfl, rfl, rfl, rfl, ?_, rfl, rfl, rfl, rfl, rfl, fun _ => ⟨rfl, rfl, fun n hn hsrc harmed hs => ?_⟩, nofun⟩
    · rw [BitVec.getLsbD_eq_getElem (by omega), bits]
      simp [u, enteredActive]
    · have met : n ∈ s.slotList ∧ decide ((s.slotAt n).source = 4) = true :=
        ⟨(mem_slotList n).2 hn, decide_eq_true hsrc⟩
      have triggered := (slots hs n).trans (if_pos met)
      rw [triggered]
      exact congrArg Slot.state (Slot.afterTrigger_of_armed harmed)
  | true =>
    rw [if_pos rfl, enterJoining_eq]
    cases hd : s.findDonor 15 with
    | none =>
      rw [chooseDonor_of_none (by exact hd)]
      simp [enteredJoining, State.presencePeriod]
    | some d =>
      rw [chooseDonor_of_some (by exact hd)]
      simp [enteredJoining]

end Sys2Proof.Machine
end

