-- ==== Sys2Proof/Proofs/Reports.lean ====
section
/-! PROOFS. The reports of the Token Table at the Request, Lease and Slot Units (R57, R119, R128, R139, R144, R157, R161,
R162): how a claim ends, and how a record does. -/

namespace Sys2Proof.Machine

/-! ## The pending table when a claim's entry has ended -/

/-- A search is not changed at an entry that fails it before and after. -/
theorem findIdx_set_of_fails {α : Type} {p : α → Bool} {a x : α} (ha : p a = false) (hx : p x = false) :
    ∀ {l : List α} {n : Nat}, l[n]? = some a → (l.set n x).findIdx p = l.findIdx p
  | b :: l, 0, h => by
    obtain rfl : b = a := by simpa using h
    simp [List.findIdx_cons, ha, hx]
  | b :: l, n + 1, h => by
    rw [List.set_cons_succ, List.findIdx_cons, List.findIdx_cons, findIdx_set_of_fails ha hx (by simpa using h)]

section
variable {s t : State} {n q o : Nat} {e : PendEntry}

theorem findPend_of_ended {p : PendEntry → Bool} (he : s.pendAt n = some e) (hp : p e = false)
    (ht : t.req.pend = s.req.pend.set n none) : t.findPend p = s.findPend p := by
  have same := findIdx_set_of_fails (p := fun e => e.any p) (x := none) hp rfl (pendAt_eq_some.1 he)
  unfold State.findPend
  simp only [ht, same, List.length_set]

theorem cancelOf_of_ended (he : s.pendAt n = some e) (hk : e.kind = .acquire)
    (ht : t.req.pend = s.req.pend.set n none) (o : Nat) : t.cancelOf o = s.cancelOf o :=
  findPend_of_ended he (by simp [hk]) ht

theorem pendAt_of_ended (hq : q ≠ n) (ht : t.req.pend = s.req.pend.set n none) : t.pendAt q = s.pendAt q := by
  unfold State.pendAt
  rw [ht, List.getD_eq_getElem?_getD, List.getD_eq_getElem?_getD, List.getElem?_set_ne hq.symm]

/-- A free number is found where there is one. -/
theorem freePend_lt_of_free {k : Nat} (h : s.req.pend[k]? = some none) : s.freePend < s.req.pend.length :=
  List.findIdx_lt_length_of_exists ⟨none, List.mem_of_getElem? h, rfl⟩

/-- The CANCEL of a claim that has ended completes, and no other entry (R143, R144). -/
theorem finishCancel_of_ended {c : PendEntry} (he : s.pendAt n = some e) (hk : e.kind = .acquire)
    (hq : s.cancelOf o = some q) (hc : s.pendAt q = some c) (ht : t.req.pend = s.req.pend.set n none) (st : Status) :
    finishCancel o st t = t.withReq { t.req with
      pend := (s.req.pend.set n none).set q none, cmp := t.req.cmp ++ [.one st c.tag c.source 4 (byteOf o)] } := by
  obtain ⟨x, hx, kind, _⟩ := cancelOf_eq_some hq
  obtain rfl : c = x := Option.some.inj (hc.symm.trans hx)
  have other : q ≠ n := by
    rintro rfl
    obtain rfl : c = e := Option.some.inj (hc.symm.trans he)
    rw [hk] at kind
    cases kind
  rw [finishCancel_of_some ((cancelOf_of_ended he hk ht o).trans hq) ((pendAt_of_ended other ht).trans hc), finishEntry_eq,
    ht]

/-- A claim whose CANCEL is not there. -/
theorem finishCancel_of_ended_alone (he : s.pendAt n = some e) (hk : e.kind = .acquire) (hq : s.cancelOf o = none)
    (ht : t.req.pend = s.req.pend.set n none) (st : Status) : finishCancel o st t = t :=
  finishCancel_of_none ((cancelOf_of_ended he hk ht o).trans hq) st

/-- The entry of a claim, as the reports name it by its origin. -/
theorem claim_of (hn : s.claimOf o = some n) (he : s.pendAt n = some e) : e.kind = .acquire ∧ e.origin.getD 0 = o := by
  obtain ⟨x, hx, kind, origin⟩ := claimOf_eq_some hn
  obtain rfl : e = x := Option.some.inj (he.symm.trans hx)
  exact ⟨kind, by rw [origin]; rfl⟩

/-! ## The ends of a claim, before its CANCEL and its slot are told -/

/-- The claim's entry ends with a completion, and its WITHDRAW leaves the list (R136, R144). -/
def claimEnded (n : Nat) (c : Completion) (s : State) : State :=
  s.withReq { s.req with
    pend := s.req.pend.set n none,
    outgoing := s.req.outgoing.filter (fun f => !(f.entry == n && f.isWithdraw)),
    cmp := s.req.cmp ++ [c] }

theorem finishEntry_dropWithdraw (n : Nat) (c : Completion) (s : State) :
    finishEntry n c (dropWithdraw n s) = claimEnded n c s := rfl

theorem withdrawClaim_eq (n : Nat) (e : PendEntry) (l : List Nat) (s : State) : withdrawClaim n e l s =
    tellWithdrawn e.source (finishCancel (e.origin.getD 0) .done
      (claimEnded n (.withdrawn e.tag e.source e.units (e.origin.getD 0) l) s)) := rfl

theorem grantClaim_eq (n : Nat) (e : PendEntry) (l : List Nat) (u : Nat) (s : State) : grantClaim n e l u s =
    tellGranted e.source (finishCancel (e.origin.getD 0) .tooLate
      (claimEnded n (.listed .granted e.tag e.source 1 l u) (createLease l u e.cls e.source e.tag s))) := rfl

theorem refuseClaim_eq (n : Nat) (e : PendEntry) (s : State) : refuseClaim n e s =
    finishCancel (e.origin.getD 0) .tooLate
      (finishEntry n (.one .unavailable e.tag e.source 1 (byteOf (e.origin.getD 0))) s) := rfl

/-- The record of a claim that completes (R119). -/
def startedLease (l : List Nat) (u : Nat) (e : PendEntry) (s : State) : Lease :=
  ⟨l, u, e.cls, if e.cls = 0 then 0 else (s.classParams e.cls).len.toNat,
    if e.cls ≠ 0 ∧ (s.classParams e.cls).v = (s.classParams e.cls).len then .warned else .running, e.source, e.tag⟩

theorem startedLease_pending (l : List Nat) (u : Nat) (e : PendEntry) (s : State) :
    (startedLease l u e s).pending = false := by
  rw [Lease.pending_eq_false]
  unfold startedLease
  dsimp only
  split
  · exact .inr rfl
  · exact .inl rfl

theorem createLease_eq (l : List Nat) (u : Nat) (e : PendEntry) (s : State) :
    createLease l u e.cls e.source e.tag s = (s.withLeases (insertLease (startedLease l u e s) s.leases)).withEvents
      { s.events with
        latched := if e.cls ≠ 0 ∧ (s.classParams e.cls).v = (s.classParams e.cls).len
          then s.events.latched ||| 0x0002 else s.events.latched } := by
  unfold createLease startedLease
  by_cases class0 : e.cls = 0
  · simp [class0]
    rfl
  by_cases full : (s.classParams e.cls).v = (s.classParams e.cls).len
  · simp [class0, full, setEventIf_eq, startState]
    rfl
  · simp [class0, full, setEventIf_eq, startState]

/-! ## The reports (R139) -/

section
variable (hn : s.claimOf o = some n) (he : s.pendAt n = some e)
include hn he

theorem takeReport_refused : takeReport (.refused o) s = refuseClaim n e s := by
  simp only [takeReport, hn, he]

theorem takeReport_withdrawn (l : List Nat) : takeReport (.withdrawn o l) s = withdrawClaim n e l s := by
  simp only [takeReport, hn, he]

theorem takeReport_granted (k u : Nat) (l : List Nat) :
    takeReport (.grant o k u (some l)) s = grantClaim n e l u s := by
  simp only [takeReport, hn, he]

theorem takeReport_progress (k u : Nat) : takeReport (.grant o k u none) s = s.withReq { s.req with
    pend := s.req.pend.set n (some { e with progress := e.progress ++ [k] }) } := by
  simp only [takeReport, hn, he]
  rfl

theorem takeReport_parked (k p : Nat) (hp : e.phase = .outgoing) : takeReport (.parked o k p) s =
    s.withReq { s.req with pend := s.req.pend.set n (some { e with phase := .waiting }) } := by
  simp only [takeReport, hn, he, hp, if_true]
  rfl

theorem takeReport_parked_again (k p : Nat) (hp : e.phase ≠ .outgoing) : takeReport (.parked o k p) s = s := by
  simp only [takeReport, hn, he, if_neg hp]

end

end

/-! ## The applied RELEASE (R128) -/

section
variable {s : State} {tokens : List Nat} {l : Lease} (h : s.leases.find? (fun x => x.tokens == tokens) = some l)
include h

theorem removeLease_expired (hp : l.state = .expiredPending) : removeLease tokens s = match l.source with
    | .host => s.withLeases (s.leases.filter (fun x => x.tokens != tokens))
    | .slot n => slotReturn n true (s.withLeases (s.leases.filter (fun x => x.tokens != tokens))) := by
  simp only [removeLease, h, hp, reduceCtorEq, if_false]
  cases l.source <;> rfl

theorem removeLease_released (hp : l.state = .releasePending) {m : Nat} {e : PendEntry}
    (hm : s.findPend (fun x => x.kind == .release && x.list == tokens) = some m) (he : s.pendAt m = some e) :
    removeLease tokens s =
      let ended := (s.withLeases (s.leases.filter (fun x => x.tokens != tokens))).withReq { s.req with
        pend := s.req.pend.set m none,
        cmp := s.req.cmp ++ [.listed .released e.tag e.source 2 tokens l.units] }
      match l.source with
      | .host => ended
      | .slot n => slotReturn n false ended := by
  have found : (s.withLeases (s.leases.filter (fun x => x.tokens != tokens))).findPend
      (fun x => x.kind == .release && x.list == tokens) = some m := hm
  have entry : (s.withLeases (s.leases.filter (fun x => x.tokens != tokens))).pendAt m = some e := he
  simp only [removeLease, h, hp, if_true, found, entry]
  cases l.source <;> rfl

end

/-! ## A grant at a slot (R157, R161) -/

theorem mem_insertLease (x : Lease) : ∀ {l : Lease} {xs : List Lease}, x ∈ insertLease l xs ↔ x = l ∨ x ∈ xs
  | l, [] => by simp [insertLease]
  | l, y :: ys => by
    unfold insertLease
    split
    · simp
    · rw [List.mem_cons, mem_insertLease x, List.mem_cons]
      exact or_left_comm

theorem length_insertLease (l : Lease) : ∀ xs : List Lease, (insertLease l xs).length = xs.length + 1
  | [] => rfl
  | y :: ys => by
    unfold insertLease
    split
    · rfl
    · rw [List.length_cons, length_insertLease l ys, List.length_cons]

/-- The record that is put in is the one that a search finds which no other satisfies. -/
theorem find?_insertLease {p : Lease → Bool} {l : Lease} (hl : p l = true) :
    ∀ {xs : List Lease}, xs.find? p = none → (insertLease l xs).find? p = some l
  | [], _ => by simp [insertLease, hl]
  | y :: ys, h => by
    have hy : p y = false := by simpa using List.find?_eq_none.1 h y (by simp)
    have rest : ys.find? p = none := by simpa [hy] using h
    unfold insertLease
    split
    · simp [hl]
    · rw [List.find?_cons, hy]
      exact find?_insertLease hl rest

section
variable {s : State} {m : BitVec 2}

theorem slotGranted_of_claiming (h : (s.slotAt m).state = .claiming) :
    slotGranted m s = modifySlot m (fun x => { x with state := .held, gnt := true }) s := by
  simp only [slotGranted, h]

theorem slotGranted_of_withdrawing (h : (s.slotAt m).state = .withdrawing) : slotGranted m s = slotRelease m s := by
  simp only [slotGranted, h]

theorem slotGranted_of_other (hc : (s.slotAt m).state ≠ .claiming) (hw : (s.slotAt m).state ≠ .withdrawing) :
    slotGranted m s = s := by
  unfold slotGranted
  cases h : (s.slotAt m).state with
  | claiming => exact absurd h hc
  | withdrawing => exact absurd h hw
  | disabled | armed | triggered | held | releasing => rfl

end

theorem slotRelease_events (m : BitVec 2) (s : State) : (slotRelease m s).events = s.events := by
  unfold slotRelease
  cases s.leaseOfSlot m with
  | none => rfl
  | some l => cases hp : l.pending <;> simp [hp, modifySlot, addPend, setPend, modifyLeases]

theorem slotGranted_events (m : BitVec 2) (s : State) : (slotGranted m s).events = s.events := by
  unfold slotGranted
  cases (s.slotAt m).state with
  | withdrawing => exact slotRelease_events m s
  | disabled | armed | triggered | claiming | held | releasing => rfl

theorem tellGranted_events (src : Source) (s : State) : (tellGranted src s).events = s.events := by
  cases src with
  | host => rfl
  | slot m => exact slotGranted_events m s

/-- Only the slot that withdraws touches its record when it is told of the grant (R161). -/
theorem tellGranted_leases {src : Source} {s : State}
    (h : ∀ m, src = .slot m → (s.slotAt m).state ≠ .withdrawing) : (tellGranted src s).leases = s.leases := by
  cases src with
  | host => rfl
  | slot m =>
    by_cases hc : (s.slotAt m).state = .claiming
    · rw [tellGranted, slotGranted_of_claiming hc]
      rfl
    · rw [tellGranted, slotGranted_of_other hc (h m rfl)]

/-- Settles O51. -/
theorem reportsReachTheirUnits : Obligations.ReportsReachTheirUnits := by
  intro s
  refine ⟨fun _ => rfl, fun o n q e c hn he hq hc => ?_, fun o k units n e l hn he hq => ?_, fun o k p n e hn he => ?_,
    fun o k units n q e c l hn he hq hc host => ?_, fun o k units n m e l hn he hq slot withdrawing noLease hs hl apart => ?_,
    fun o n e l hn he => ?_, fun tokens lost cause l hl host => ?_, fun tokens lost cause l n hl slot => ?_⟩
  · obtain ⟨kind, origin⟩ := claim_of hn he
    rw [takeReport_refused hn he, refuseClaim_eq, origin, finishCancel_of_ended he kind hq hc rfl, finishEntry_eq]
    simp [List.append_assoc, byteOf]
  · obtain ⟨kind, origin⟩ := claim_of hn he
    intro p warned
    refine ⟨⟨_, takeReport_granted hn he k units l, ?_⟩, takeReport_progress hn he k units, ?_⟩
    · rw [grantClaim_eq, origin, createLease_eq, finishCancel_of_ended_alone he kind hq rfl, tellGranted_events]
      refine ⟨fun still => ?_, fun full => if_pos full, fun notFull => ?_, fun host => ?_,
        fun m slot claiming => ?_⟩
      · rw [tellGranted_leases]
        · rfl
        · exact still
      · exact congrArg (fun w => ({ s.events with latched := w } : Events)) (if_neg notFull)
      · rw [host]
        exact ⟨rfl, rfl⟩
      · rw [slot, tellGranted, slotGranted_of_claiming]
        · rfl
        · exact claiming
    · rw [takeReport_refused hn he, refuseClaim_eq, origin, finishCancel_of_ended_alone he kind hq rfl, finishEntry_eq]
      rfl
  · exact ⟨takeReport_parked hn he k p, takeReport_parked_again hn he k p⟩
  · obtain ⟨kind, origin⟩ := claim_of hn he
    rw [takeReport_granted hn he, grantClaim_eq, origin, createLease_eq, finishCancel_of_ended he kind hq hc rfl, host]
    simp [claimEnded, tellGranted, List.append_assoc, byteOf]
  · obtain ⟨kind, origin⟩ := claim_of hn he
    refine ⟨_, takeReport_granted hn he k units l, ?_⟩
    rw [grantClaim_eq, origin, createLease_eq, finishCancel_of_ended_alone he kind hq rfl, slot]
    generalize hg : claimEnded n (.listed .granted e.tag (.slot m) 1 l units) _ = g
    have leases : g.leases = insertLease (startedLease l units e s) s.leases := by rw [← hg]; rfl
    have slots : g.slots = s.slots := by rw [← hg]; rfl
    have pend : g.req.pend = s.req.pend.set n none := by rw [← hg]; rfl
    have cmp : g.req.cmp = s.req.cmp ++ [.listed .granted e.tag (.slot m) 1 l units] := by rw [← hg]; rfl
    have state : (g.slotAt m).state = .withdrawing := by rw [State.slotAt, slots]; exact withdrawing
    have found : g.leaseOfSlot m = some (startedLease l units e s) := by
      rw [State.leaseOfSlot, leases]
      exact find?_insertLease (by simp [startedLease, slot]) noLease
    rw [tellGranted, slotGranted_of_withdrawing state, slotRelease_taken found (startedLease_pending l units e s)]
    have here := slotAt_modifySlot (s := g) m m (fun x => { x with state := .releasing, gnt := false, heldPlace := false })
      (by rw [slots]; exact hs)
    rw [if_pos rfl] at here
    have own : (startedLease l units e s).names (startedLease l units e s).first = true := by
      obtain ⟨a, rest, rfl⟩ := List.exists_cons_of_ne_nil hl
      simp [Lease.names, Lease.first, startedLease]
    have room : g.freePend < g.req.pend.length := by
      refine freePend_lt_of_free (k := n) ?_
      rw [pend, List.getElem?_set_self (pendAt_lt he)]
    refine ⟨congrArg Slot.state here, congrArg Slot.gnt here, congrArg Slot.heldPlace here, fun x hx => ?_, ?_, ?_, cmp,
      g.freePend, ?_⟩
    · exact List.mem_map.2 ⟨x, leases ▸ (mem_insertLease x).2 (.inr hx), if_neg (ne_true_of_eq_false (apart x hx))⟩
    · exact (List.length_map ..).trans (leases ▸ length_insertLease _ _)
    · exact ⟨_, List.mem_map_of_mem (leases ▸ (mem_insertLease _).2 (.inl rfl)), by
        rw [if_pos own]
        exact ⟨rfl, slot, rfl⟩⟩
    · exact ⟨_, pendAt_eq_some.2 (List.getElem?_set_self room), rfl, rfl, rfl, rfl⟩
  · obtain ⟨kind, origin⟩ := claim_of hn he
    rw [takeReport_withdrawn hn he, withdrawClaim_eq, origin]
    refine ⟨fun host alone => ?_, fun q c host hq hc => ?_, fun m slot alone => ?_⟩
    · rw [finishCancel_of_ended_alone he kind alone rfl, host]
      rfl
    · rw [finishCancel_of_ended he kind hq hc rfl, host]
      simp [claimEnded, tellWithdrawn, List.append_assoc, byteOf]
    · rw [finishCancel_of_ended_alone he kind alone rfl, slot]
      rfl
  · refine ⟨fun hp => ?_, fun m e hp hm he => ?_⟩
    · exact (removeLease_expired hl hp).trans (by rw [host])
    · exact (removeLease_released hl hp hm he).trans (by rw [host])
  · refine ⟨fun hp => ?_, fun m e hp hm he => ?_⟩
    · refine (removeLease_expired hl hp).trans ?_
      rw [slot]
      simp only [slotReturn, slotEvent_eq, if_true, modifySlot_modifySlot]
      rfl
    · refine (removeLease_released hl hp hm he).trans ?_
      rw [slot]
      rfl

end Sys2Proof.Machine
end

