-- ==== Sys2Proof/Proofs/TableOps.lean ====
section
/-! PROOFS. What the operations of the token table do to the entries and to the reports: the set step (R32, R41), the
cascades (R39, R40), the removal of a holder (R33); with the WAIT claim of one token (R29, R31) and the RELEASE of a
POOL token (R40). -/

namespace Sys2Proof.Machine

namespace Applying

variable {a : Applying} {k j : Nat} {st : Addr}

/-! ## A stage of an application by its table and its reports -/

/-- A later stage: another table, and more reports. -/
def becomes (a : Applying) (t : List Entry) (r : List Report) : Applying :=
  { a with table := t, reports := a.reports ++ r }

/-- The reports that reach the station for which they are made (R43). -/
def told (a : Applying) (st : Addr) (r : List Report) : List Report := if st = a.self then r else []

@[simp] theorem becomes_table (t : List Entry) (r : List Report) : (a.becomes t r).table = t := rfl
@[simp] theorem becomes_reports (t : List Entry) (r : List Report) : (a.becomes t r).reports = a.reports ++ r := rfl
@[simp] theorem becomes_limit (t : List Entry) (r : List Report) : (a.becomes t r).limit = a.limit := rfl
@[simp] theorem becomes_change (t : List Entry) (r : List Report) : (a.becomes t r).change = a.change := rfl
@[simp] theorem becomes_self (t : List Entry) (r : List Report) : (a.becomes t r).self = a.self := rfl
@[simp] theorem becomes_entry (t : List Entry) (r : List Report) (k : Nat) :
    (a.becomes t r).entry k = entryAt t k := rfl
@[simp] theorem becomes_told (t : List Entry) (r r' : List Report) (st : Addr) :
    (a.becomes t r).told st r' = a.told st r' := rfl
@[simp] theorem becomes_becomes (t t' : List Entry) (r r' : List Report) :
    (a.becomes t r).becomes t' r' = a.becomes t' (r ++ r') := by
  simp [becomes]
theorem becomes_self_eq (a : Applying) : a.becomes a.table [] = a := by
  simp [becomes]

theorem told_append (a : Applying) (st : Addr) (r r' : List Report) :
    a.told st (r ++ r') = a.told st r ++ a.told st r' := by
  unfold told
  split <;> simp

theorem report_eq (a : Applying) (st : Addr) (r : Report) : a.report st r = a.becomes a.table (a.told st [r]) := by
  unfold report becomes told
  split <;> simp

theorem update_eq (a : Applying) (f : Entry → Entry) (hk : k < a.table.length) :
    a.update k f = a.becomes (a.table.set k { f (a.entry k) with change := a.change }) [] := by
  have same : (a.update k f).table = _ := update_table a k f hk
  rw [← same]
  simp [becomes, update]

/-- The entry of a token that is given a record, and the others. -/
theorem entryAt_set_self (t : List Entry) (e : Entry) (h : k < t.length) : entryAt (t.set k e) k = e := by
  rw [entryAt_set t k k e h, if_pos rfl]

theorem entryAt_set_ne (t : List Entry) (e : Entry) (h : k < t.length) (hj : j ≠ k) :
    entryAt (t.set k e) j = entryAt t j := by
  rw [entryAt_set t k j e h, if_neg hj]

/-! ## The set step (R32, R41, R55) -/

/-- What a set step reports: a grant for each token taken, the last one complete where nothing is left, and the
parking at the token that is not free. -/
def stepReports (list pre rest : List Nat) (pos : Nat) : List Report :=
  pre.map (fun k => .grant (list.headD 0) k 1 (if rest = [] ∧ pre.getLast? = some k then some list else none)) ++
    rest.head?.toList.map (fun k => .parked (list.headD 0) k (pos + pre.length))

theorem stepReports_cons (list rest : List Nat) (pos : Nat) {k : Nat} {pre : List Nat} (hk : k ∉ pre) :
    stepReports list (k :: pre) rest pos =
      .grant (list.headD 0) k 1 (if (pre ++ rest).isEmpty then some list else none) ::
        stepReports list pre rest (pos + 1) := by
  have tail : pre.map (fun i => Report.grant (list.headD 0) i 1
        (if rest = [] ∧ (k :: pre).getLast? = some i then some list else none)) =
      pre.map (fun i => Report.grant (list.headD 0) i 1
        (if rest = [] ∧ pre.getLast? = some i then some list else none)) := by
    refine List.map_congr_left fun i hi => ?_
    cases pre with
    | nil => cases hi
    | cons b pre => rw [List.getLast?_cons_cons]
  have head : (if rest = [] ∧ (k :: pre).getLast? = some k then some list else none) =
      if (pre ++ rest).isEmpty then some list else none := by
    cases pre with
    | nil => simp
    | cons b pre =>
      have other : (b :: pre).getLast? ≠ some k := fun h => hk (List.mem_of_getLast? h)
      rw [List.getLast?_cons_cons]
      simp [other]
  have position : pos + (k :: pre).length = pos + 1 + pre.length := by rw [List.length_cons]; omega
  simp only [stepReports, List.map_cons, List.cons_append, head, tail, position]

/-- A free token is taken, and the step goes on. -/
theorem setStep_takes (a : Applying) (st : Addr) (list : List Nat) (pos : Nat) {k : Nat} (rest : List Nat)
    (hk : k < a.limit) (hl : k < a.table.length) (free : (a.entry k).holders = []) :
    a.setStep st list pos (k :: rest) =
      (a.becomes (a.table.set k { a.entry k with holders := [⟨st, 1⟩], change := a.change })
        (a.told st [.grant (list.headD 0) k 1 (if rest.isEmpty then some list else none)])).setStep
        st list (pos + 1) rest := by
  rw [setStep, if_neg (Nat.not_le.2 hk), if_pos (by simp [free]), addHolder, update_eq _ _ hl, report_eq, becomes_becomes,
    free]
  rfl

/-- The step parks at a token that is not free. -/
theorem setStep_parks (a : Applying) (st : Addr) (list : List Nat) (pos : Nat) {k : Nat} (rest : List Nat)
    (hk : k < a.limit) (hl : k < a.table.length) (busy : (a.entry k).holders ≠ []) :
    a.setStep st list pos (k :: rest) =
      a.becomes (a.table.set k { a.entry k with
        waiters := (a.entry k).waiters ++ [⟨st, 1, list, pos⟩], change := a.change })
        (a.told st [.parked (list.headD 0) k pos]) := by
  rw [setStep, if_neg (Nat.not_le.2 hk), if_neg (by simpa using busy), park, update_eq _ _ hl, report_eq, becomes_becomes]
  rfl

/-- The entries after a set step that takes the tokens `pre` and parks at the first one of `rest`. -/
structure Stepped (a : Applying) (st : Addr) (list : List Nat) (pos : Nat) (pre rest : List Nat) (t : List Entry) :
    Prop where
  length : t.length = a.table.length
  taken : ∀ k ∈ pre, entryAt t k = { a.entry k with holders := [⟨st, 1⟩], change := a.change }
  parked : ∀ k, rest.head? = some k → entryAt t k = { a.entry k with
    waiters := (a.entry k).waiters ++ [⟨st, 1, list, pos + pre.length⟩], change := a.change }
  kept : ∀ k, k ∉ pre → rest.head? ≠ some k → entryAt t k = a.entry k

/-- The set step at tokens of which the first ones are free and the next one, if there is one, is not. -/
theorem setStep_result (st : Addr) (list rest : List Nat) : ∀ (pre : List Nat) (pos : Nat) (a : Applying),
    (pre ++ rest).Nodup → (∀ k ∈ pre ++ rest, k < a.limit) → a.limit ≤ a.table.length →
    (∀ k ∈ pre, (a.entry k).holders = []) → (∀ k, rest.head? = some k → (a.entry k).holders ≠ []) →
    ∃ t, a.setStep st list pos (pre ++ rest) = a.becomes t (a.told st (stepReports list pre rest pos)) ∧
      Stepped a st list pos pre rest t
  | [], pos, a, _, limit, len, _, held => by
    cases rest with
    | nil =>
      refine ⟨a.table, ?_, rfl, by simp, by simp, fun _ _ _ => rfl⟩
      simp [setStep, stepReports, told, becomes_self_eq]
    | cons k rest =>
      have hk : k < a.limit := limit k (by simp)
      have hl : k < a.table.length := Nat.lt_of_lt_of_le hk len
      refine ⟨_, setStep_parks a st list pos rest hk hl (held k rfl), by simp, by simp, fun j hj => ?_, fun j _ hj => ?_⟩
      · obtain rfl : k = j := by simpa using hj
        exact entryAt_set_self _ _ hl
      · exact entryAt_set_ne _ _ hl (fun h => hj (by simp [h]))
  | k :: pre, pos, a, nodup, limit, len, free, held => by
    have hk : k < a.limit := limit k (by simp)
    have hl : k < a.table.length := Nat.lt_of_lt_of_le hk len
    obtain ⟨fresh, nodup⟩ := List.nodup_cons.1 nodup
    rw [List.cons_append, setStep_takes a st list pos (pre ++ rest) hk hl (free k (by simp))]
    generalize hE : ({ a.entry k with holders := [⟨st, 1⟩], change := a.change } : Entry) = E
    generalize hR : a.told st [.grant (list.headD 0) k 1 (if (pre ++ rest).isEmpty then some list else none)] = R
    have others (j : Nat) (hj : j ≠ k) : (a.becomes (a.table.set k E) R).entry j = a.entry j := entryAt_set_ne _ _ hl hj
    have apart (j : Nat) (hj : j ∈ pre ++ rest) : j ≠ k := fun h => fresh (h ▸ hj)
    have inPre (j : Nat) (hj : j ∈ pre) : j ≠ k := apart j (List.mem_append_left _ hj)
    have inRest (j : Nat) (hj : rest.head? = some j) : j ≠ k := apart j (List.mem_append_right _ (List.mem_of_head? hj))
    obtain ⟨t, result, length, taken, parked, kept⟩ :=
      setStep_result st list rest pre (pos + 1) (a.becomes (a.table.set k E) R) nodup
        (fun j hj => limit j (List.mem_cons_of_mem _ hj)) (by simpa using len)
        (fun j hj => by rw [others j (inPre j hj)]; exact free j (List.mem_cons_of_mem _ hj))
        (fun j hj => by rw [others j (inRest j hj)]; exact held j hj)
    have position : pos + (k :: pre).length = pos + 1 + pre.length := by rw [List.length_cons]; omega
    refine ⟨t, ?_, by simpa using length, fun j hj => ?_, fun j hj => ?_, fun j hj hr => ?_⟩
    · rw [result, becomes_becomes, becomes_told, ← hR, ← told_append,
        stepReports_cons list rest pos (fun h => fresh (List.mem_append_left _ h))]
      rfl
    · by_cases here : j = k
      · subst here
        rw [kept j (fun h => inPre j h rfl) (fun h => inRest j h rfl), becomes_entry, entryAt_set_self _ _ hl, hE]
      · rw [taken j ((List.mem_cons.1 hj).resolve_left here), others j here]
        rfl
    · rw [parked j hj, others j (inRest j hj), position]
      rfl
    · obtain ⟨here, notPre⟩ := not_or.1 (mt List.mem_cons.2 hj)
      rw [kept j notPre hr, others j here]

/-! ## The cascades (R39, R40) -/

theorem exclusiveCascade_of_empty (h : (a.entry k).waiters = []) : a.exclusiveCascade k = a := by
  simp only [exclusiveCascade, h]

/-- The head waiter takes the entry, and its claim goes on. -/
theorem exclusiveCascade_of_cons {w : Waiter} {ws : List Waiter} (hk : k < a.table.length)
    (h : (a.entry k).waiters = w :: ws) :
    a.exclusiveCascade k = (a.becomes (a.table.set k { a.entry k with
        holders := (a.entry k).holders ++ [⟨w.station, 1⟩], waiters := ws, change := a.change })
      (a.told w.station [.grant (w.list.headD 0) k 1
        (if (w.list.drop (w.position + 1)).isEmpty then some w.list else none)])).setStep
      w.station w.list (w.position + 1) (w.list.drop (w.position + 1)) := by
  simp only [exclusiveCascade, h]
  rw [update_eq _ _ hk, report_eq, becomes_becomes]
  rfl

/-- A claim that is complete with the entry ends there. -/
theorem exclusiveCascade_of_last {w : Waiter} {ws : List Waiter} (hk : k < a.table.length)
    (h : (a.entry k).waiters = w :: ws) (last : w.position + 1 = w.list.length) :
    a.exclusiveCascade k = a.becomes (a.table.set k { a.entry k with
        holders := (a.entry k).holders ++ [⟨w.station, 1⟩], waiters := ws, change := a.change })
      (a.told w.station [.grant (w.list.headD 0) k 1 (some w.list)]) := by
  have none : w.list.drop (w.position + 1) = [] := List.drop_eq_nil_of_le last.ge
  rw [exclusiveCascade_of_cons hk h, none, setStep]
  rfl

theorem foldl_report (g : Waiter → Report) (ws : List Waiter) (a : Applying) :
    ws.foldl (fun b w => b.report w.station (g w)) a =
      a.becomes a.table ((ws.filter (fun w => w.station == a.self)).map g) := by
  induction ws generalizing a with
  | nil => exact (becomes_self_eq a).symm
  | cons w ws ih =>
    rw [List.foldl_cons, report_eq, ih, becomes_becomes, becomes_table, becomes_self, List.filter_cons]
    by_cases h : w.station = a.self <;> simp [told, h]

end Applying

/-- The waiters at the front of the queue that a pool cascade grants, and those that stay. -/
theorem poolGrants_split (c : Nat) : ∀ (hs : List Holder) (ws : List Waiter), ∃ pre post, ws = pre ++ post ∧
    poolGrants c hs ws = (hs ++ pre.map (fun w => ⟨w.station, w.units⟩), post, pre)
  | hs, [] => ⟨[], [], rfl, by simp [poolGrants]⟩
  | hs, w :: ws => by
    by_cases fit : w.units + heldUnits hs ≤ c
    · obtain ⟨pre, post, split, grants⟩ := poolGrants_split c (hs ++ [⟨w.station, w.units⟩]) ws
      refine ⟨w :: pre, post, by rw [split, List.cons_append], ?_⟩
      rw [poolGrants_fits ws fit, grants]
      simp
    · exact ⟨[], w :: ws, rfl, by rw [poolGrants_stops ws fit]; simp⟩

namespace Applying

variable {a : Applying} {k j : Nat} {st : Addr}

/-- The pool cascade: the waiters at the front are granted while their units fit. -/
theorem poolCascade_result {c : Nat} (hk : k < a.table.length) (kind : (a.entry k).kind = .pool c) :
    ∃ pre post : List Waiter, (a.entry k).waiters = pre ++ post ∧
      let hs : List Holder := (a.entry k).holders ++ pre.map (fun v => ⟨v.station, v.units⟩)
      a.poolCascade k = a.becomes (a.table.set k { a.entry k with holders := hs, waiters := post, change := a.change })
        ((pre.filter (fun v => v.station == a.self)).map
          (fun v => .grant (v.list.headD 0) k v.units (some v.list))) ∧
      (heldUnits (a.entry k).holders ≤ c → heldUnits hs ≤ c) ∧
      ∀ v, post.head? = some v → c < v.units + heldUnits hs := by
  obtain ⟨pre, post, split, grants⟩ := poolGrants_split c (a.entry k).holders (a.entry k).waiters
  have capacity : (a.entry k).kind.capacity = c := by rw [kind]; rfl
  have within (h : heldUnits (a.entry k).holders ≤ c) := poolGrants_le (ws := (a.entry k).waiters) h
  have blocked := poolGrants_blocked c (a.entry k).holders (a.entry k).waiters
  rw [grants] at within blocked
  refine ⟨pre, post, split, ?_, within, blocked⟩
  simp only [poolCascade, capacity, grants]
  rw [foldl_report, update_eq _ _ hk, becomes_becomes]
  rfl

/-! ## The removal of a holder (R33) -/

theorem removeHolder_of_not (h : (a.entry k).heldBy st = false) : a.removeHolder st k = a := by
  simp only [removeHolder, h, Bool.false_eq_true, if_false]

/-- The entry without the station, before its cascade. -/
theorem removeHolder_of_held (h : (a.entry k).heldBy st = true) :
    a.removeHolder st k = (a.becomes (a.table.set k { a.entry k with
      holders := (a.entry k).holders.filter (fun x => x.station != st), change := a.change }) []).cascade k := by
  rw [removeHolder, if_pos h, update_eq _ _ (heldBy_in_range h)]

theorem cascade_exclusive (h : (a.entry k).kind = .exclusive) : a.cascade k = a.exclusiveCascade k := by
  rw [cascade, h]
  rfl

theorem cascade_pool {c : Nat} (h : (a.entry k).kind = .pool c) : a.cascade k = a.poolCascade k := by
  rw [cascade, h]
  rfl

/-- An EXCLUSIVE entry given up by its holder, before the cascade. -/
theorem removeHolder_exclusive {u : Nat} (hk : k < a.table.length) (kind : (a.entry k).kind = .exclusive)
    (held : (a.entry k).holders = [⟨st, u⟩]) :
    a.removeHolder st k =
      (a.becomes (a.table.set k { a.entry k with holders := [], change := a.change }) []).exclusiveCascade k := by
  have mine : (a.entry k).heldBy st = true := by simp [Entry.heldBy, held]
  have none : (a.entry k).holders.filter (fun x => x.station != st) = [] := by simp [held]
  rw [removeHolder_of_held mine, none, cascade_exclusive]
  rw [becomes_entry, entryAt_set_self _ _ hk]
  exact kind

/-- A POOL entry given up by a holder, before the cascade. -/
theorem removeHolder_pool {c : Nat} (hk : k < a.table.length) (kind : (a.entry k).kind = .pool c)
    (held : (a.entry k).heldBy st = true) :
    a.removeHolder st k = (a.becomes (a.table.set k { a.entry k with
      holders := (a.entry k).holders.filter (fun x => x.station != st), change := a.change }) []).poolCascade k := by
  rw [removeHolder_of_held held, cascade_pool (c := c)]
  rw [becomes_entry, entryAt_set_self _ _ hk]
  exact kind

end Applying

/-! ## Statements on one token -/

/-- The application of a RELEASE, before its first token. -/
def releaseStart (t : List Entry) (limit : Nat) (self : Addr) (cause : ReleaseCause) : Applying :=
  ⟨t, limit, if cause = .host then .released else .forfeited, self, []⟩

theorem applyFrame_release (t : List Entry) (limit : Nat) (self st : Addr) (cause : ReleaseCause) (l : List Nat) :
    applyFrame t limit self st (.release cause l) = (releaseStart t limit self cause).release st cause l := by
  cases cause <;> rfl

/-- A RELEASE of one token that the sender holds. -/
theorem applyFrame_release_held {t : List Entry} {limit k : Nat} {st : Addr} (self : Addr) (cause : ReleaseCause)
    (hk : k < limit) (held : (entryAt t k).heldBy st = true) :
    applyFrame t limit self st (.release cause [k]) =
      ((releaseStart t limit self cause).removeHolder st k).report st (.released [k] cause [k]) := by
  have taken : (decide (k < limit) && (entryAt t k).heldBy st) = true := by simp [hk, held]
  rw [applyFrame_release]
  simp only [Applying.release, List.foldl_cons, List.foldl_nil, Applying.entry, releaseStart, taken, if_true]
  rfl

/-- A RELEASE of one token that the sender does not hold. -/
theorem applyFrame_release_unheld {t : List Entry} {limit k : Nat} {st : Addr} (self : Addr) (cause : ReleaseCause)
    (free : (entryAt t k).heldBy st = false) :
    applyFrame t limit self st (.release cause [k]) =
      (releaseStart t limit self cause).report st (.released [k] cause []) := by
  rw [applyFrame_release]
  simp only [Applying.release, List.foldl_cons, List.foldl_nil, Applying.entry, releaseStart, free, Bool.and_false,
    Bool.false_eq_true, if_false]

/-- Settles O46. -/
theorem waitClaimParksAtTheTail : Obligations.WaitClaimParksAtTheTail := by
  intro t limit self st k u hk hl e a
  refine ⟨fun free => applyFrame_claim_of_freeTo self st .wait hk hl free, fun busy => ?_⟩
  have parks : a = (⟨t, limit, .claimed, self, []⟩ : Applying).park k ⟨st, u, [k], 0⟩ := by
    have busy : (entryAt t k).freeTo u = false := busy
    simp [a, applyFrame, Applying.apply, Applying.claim, Nat.not_le.2 hk, Applying.entry, busy, Frame.lastChange]
  rw [parks, Applying.park, Applying.update_eq _ _ (Nat.lt_of_lt_of_le hk hl), Applying.report_eq, Applying.becomes_becomes]
  exact ⟨rfl, rfl⟩

/-- Settles O49. -/
theorem releasedPoolServesTheQueueInOrder : Obligations.ReleasedPoolServesTheQueueInOrder := by
  intro t limit self st cause k c hk hl kind sound held e a
  have inTable : k < t.length := Nat.lt_of_lt_of_le hk hl
  have released : a = _ := applyFrame_release_held self cause hk held
  set start := releaseStart t limit self cause
  set freed : Entry := { e with holders := e.holders.filter (fun h => h.station != st), change := start.change }
  have here : (start.becomes (t.set k freed) []).entry k = freed := Applying.entryAt_set_self t freed inTable
  obtain ⟨pre, post, split, cascade, within, blocked⟩ :=
    Applying.poolCascade_result (a := start.becomes (t.set k freed) []) (c := c) (k := k) (by simpa using inTable)
      (by rw [here]; exact kind)
  rw [here] at split cascade within blocked
  have units : heldUnits (e.holders.filter (fun h => h.station != st)) ≤ c := by
    have := sound
    unfold Entry.sound at this
    rw [kind] at this
    exact Nat.le_trans (heldUnits_filter_le _ _) this.2
  have removed : start.removeHolder st k = _ := (Applying.removeHolder_pool (a := start) inTable kind held).trans cascade
  rw [removed, Applying.becomes_becomes, Applying.report_eq, Applying.becomes_becomes] at released
  refine ⟨pre, post, split, ?_, within units, blocked, ?_⟩
  · rw [released, Applying.becomes_table, Applying.becomes_table, Applying.becomes_table, List.set_set]
    rfl
  · rw [released]
    rfl

end Sys2Proof.Machine
end

