-- ==== Sys2Proof/Proofs/TableWithdraw.lean ====
section
/-! PROOFS. A claim of several tokens (R32, R41, R52, R55) and its withdrawal (R34, R35, R60, R61). -/

namespace Sys2Proof.Machine

/-! ## The claim -/

/-- A claim of several tokens is the set step from its first token on. -/
theorem applyFrame_set_claim (t : List Entry) (limit : Nat) (self st : Addr) (u : Nat) {l : List Nat}
    (hl : 2 ≤ l.length) : applyFrame t limit self st (.claim .wait u l) =
      (⟨t, limit, .claimed, self, []⟩ : Applying).setStep st l 0 l := by
  match l, hl with
  | _ :: _ :: _, _ => rfl

/-! ## The record that a WITHDRAW names (R34) -/

theorem Waiter.isOf_iff {w : Waiter} {st : Addr} {o : Nat} :
    w.isOf st o = true ↔ w.station = st ∧ w.list.head? = some o := by
  simp [Waiter.isOf]

theorem Waiter.isOf_eq_false {w : Waiter} {st : Addr} {o : Nat} (h : ¬ (w.station = st ∧ w.list.head? = some o)) :
    w.isOf st o = false := Bool.eq_false_iff.2 (mt Waiter.isOf_iff.1 h)

/-- The entry before the record that a search names. -/
theorem range_find? {p : Nat → Bool} {n k : Nat} (hk : k < n) (hp : p k = true) (low : ∀ j, j < k → p j = false) :
    (List.range n).find? p = some k := by
  rw [List.find?_eq_some_iff_append]
  refine ⟨hp, List.range k, (List.range (n - k - 1)).map (k + 1 + ·), ?_, fun j hj => by
    simp [low j (List.mem_range.1 hj)]⟩
  have : n = k + (1 + (n - k - 1)) := by omega
  rw [this, List.range_add, List.range_add]
  simp

namespace Applying

variable {a : Applying} {st : Addr} {o k : Nat}

theorem recordAt_eq_none (h : ∀ j, j < a.limit → ∀ w ∈ (a.entry j).waiters, ¬ (w.station = st ∧ w.list.head? = some o)) :
    a.recordAt st o = none := by
  rw [recordAt, List.find?_eq_none]
  intro j hj
  rw [List.any_eq_true]
  rintro ⟨w, hw, hm⟩
  exact h j (List.mem_range.1 hj) w hw (Waiter.isOf_iff.1 hm)

theorem withdraw_of_none (h : a.recordAt st o = none) : a.withdraw st o = a := by
  simp only [withdraw, h]

/-- The tokens of a withdrawn claim that its station gives up, in order. -/
def givenUp (a : Applying) (st : Addr) (w : Waiter) : List Nat :=
  (w.list.take w.position).filter (fun t => decide (t < a.limit) && (a.entry t).heldBy st)

/-- What follows the removal of the record of a withdrawn claim from the queue of k, of which it was the head where
nothing stood before it (R35). -/
def afterErased (b : Applying) (st : Addr) (o k : Nat) (w : Waiter) (xs : List Waiter) : Applying :=
  let c := (b.givenUp st w).foldl (fun b t => b.removeHolder st t) b
  (if xs = [] ∧ (c.entry k).kind.isExclusive = false then c.poolCascade k else c).report st
    (.withdrawn o (b.givenUp st w))

/-- A WITHDRAW whose record is found: the record leaves its queue, the tokens held are given up, and the pool of a head
serves its queue. -/
theorem withdraw_of_record {w : Waiter} {xs ys : List Waiter} (hk : k < a.limit) (hl : k < a.table.length)
    (split : (a.entry k).waiters = xs ++ w :: ys) (mine : w.station = st ∧ w.list.head? = some o)
    (first : ∀ v ∈ xs, ¬ (v.station = st ∧ v.list.head? = some o))
    (low : ∀ j, j < k → ∀ v ∈ (a.entry j).waiters, ¬ (v.station = st ∧ v.list.head? = some o)) :
    a.withdraw st o = afterErased
      (a.becomes (a.table.set k { a.entry k with waiters := xs ++ ys, change := a.change }) []) st o k w xs := by
  have isMine : w.isOf st o = true := Waiter.isOf_iff.2 mine
  have notMine (v : Waiter) (hv : v ∈ xs) : v.isOf st o = false := Waiter.isOf_eq_false (first v hv)
  have at_k : a.recordAt st o = some k := by
    refine range_find? hk ?_ (fun j hj => ?_)
    · rw [split]
      simp [isMine]
    · rw [List.any_eq_false]
      exact fun v hv => by simp [Waiter.isOf_eq_false (low j hj v hv)]
  have found : (a.entry k).waiters.find? (fun w => w.isOf st o) = some w := by
    rw [split, List.find?_eq_some_iff_append]
    exact ⟨isMine, xs, ys, rfl, fun v hv => by simp [notMine v hv]⟩
  have erased : (a.entry k).waiters.eraseP (fun w => w.isOf st o) = xs ++ ys := by
    rw [split, List.eraseP_append_right _ (fun v hv => by simp [notMine v hv]), List.eraseP_cons_of_pos (by exact isMine)]
  have head : ((a.entry k).waiters.head? == some w) = decide (xs = []) := by
    rw [split]
    cases xs with
    | nil => simp
    | cons x xs =>
      have other : x ≠ w := by
        rintro rfl
        have := notMine x (by simp)
        rw [isMine] at this
        cases this
      simp [other]
  simp only [withdraw, at_k, found, head]
  rw [update_eq _ _ hl]
  simp only [erased, Bool.and_eq_true, decide_eq_true_eq, Bool.not_eq_true']
  rfl

/-! ## Tokens given up and passed on (R35, R39, R41) -/

/-- An EXCLUSIVE entry given up by its holder: free, or passed to the head of its queue. -/
def handedOn (e : Entry) (c : LastChange) : Entry :=
  { e with
    holders := (e.waiters.head?.map (fun v => ⟨v.station, 1⟩)).toList, waiters := e.waiters.tail, change := c }

/-- The grant of an entry to a head waiter that it completes, at the station itself. -/
def handedReports (self : Addr) (e : Entry) (k : Nat) : List Report :=
  (e.waiters.head?.toList.filter (fun v => v.station == self)).map
    (fun v => .grant (v.list.headD 0) k 1 (some v.list))

theorem removeHolder_handsOn {u : Nat} (hk : k < a.table.length) (kind : (a.entry k).kind = .exclusive)
    (held : (a.entry k).holders = [⟨st, u⟩])
    (last : ∀ v, (a.entry k).waiters.head? = some v → v.position + 1 = v.list.length) :
    a.removeHolder st k = a.becomes (a.table.set k (handedOn (a.entry k) a.change))
      (handedReports a.self (a.entry k) k) := by
  set freed : Entry := { a.entry k with holders := [], change := a.change } with hf
  have here : (a.becomes (a.table.set k freed) []).entry k = freed := entryAt_set_self _ _ hk
  have inTable : k < (a.becomes (a.table.set k freed) []).table.length := by simpa using hk
  rw [removeHolder_exclusive hk kind held]
  cases hw : (a.entry k).waiters with
  | nil =>
    rw [exclusiveCascade_of_empty (by rw [here]; exact hw)]
    simp [handedOn, handedReports, hw]
  | cons w ws =>
    rw [exclusiveCascade_of_last (w := w) (ws := ws) inTable (by rw [here]; exact hw) (last w (by rw [hw]; rfl)), here,
      becomes_becomes, becomes_table, List.set_set]
    by_cases own : w.station = a.self <;> simp [handedOn, handedReports, hw, hf, told, own]

/-- Several tokens given up in order, each free or passed to a head waiter that it completes. -/
theorem removeHolders_handOn : ∀ (l : List Nat) (a : Applying), l.Nodup →
    (∀ j ∈ l, j < a.table.length ∧ (a.entry j).kind = .exclusive ∧ (a.entry j).holders = [⟨st, 1⟩] ∧
      ∀ v, (a.entry j).waiters.head? = some v → v.position + 1 = v.list.length) →
    ∃ t, l.foldl (fun b j => b.removeHolder st j) a =
        a.becomes t (l.flatMap (fun j => handedReports a.self (a.entry j) j)) ∧
      t.length = a.table.length ∧ (∀ j ∈ l, entryAt t j = handedOn (a.entry j) a.change) ∧
      ∀ j, j ∉ l → entryAt t j = a.entry j
  | [], a, _, _ => ⟨a.table, (becomes_self_eq a).symm, rfl, by simp, fun _ _ => rfl⟩
  | k :: l, a, nodup, all => by
    obtain ⟨fresh, nodup⟩ := List.nodup_cons.1 nodup
    obtain ⟨hk, kind, held, last⟩ := all k (by simp)
    rw [List.foldl_cons, removeHolder_handsOn hk kind held last]
    generalize hb : a.becomes (a.table.set k (handedOn (a.entry k) a.change)) (handedReports a.self (a.entry k) k) = b
    have others (j : Nat) (hj : j ≠ k) : b.entry j = a.entry j := by rw [← hb]; exact entryAt_set_ne _ _ hk hj
    have apart (j : Nat) (hj : j ∈ l) : j ≠ k := fun h => fresh (h ▸ hj)
    have length : b.table.length = a.table.length := by simp [← hb]
    have self : b.self = a.self := by rw [← hb]; rfl
    have change : b.change = a.change := by rw [← hb]; rfl
    obtain ⟨t, result, len, given, kept⟩ := removeHolders_handOn l b nodup (fun j hj => by
      rw [others j (apart j hj), length]
      exact all j (List.mem_cons_of_mem _ hj))
    refine ⟨t, ?_, len.trans length, fun j hj => ?_, fun j hj => ?_⟩
    · have reports : l.flatMap (fun j => handedReports b.self (b.entry j) j) =
          l.flatMap (fun j => handedReports a.self (a.entry j) j) := by
        rw [self]
        refine List.flatMap_congr fun j hj => ?_
        rw [others j (apart j hj)]
      rw [result, reports, ← hb, becomes_becomes, List.flatMap_cons]
    · by_cases here : j = k
      · subst here
        rw [kept j fresh, ← hb]
        exact entryAt_set_self _ _ hk
      · rw [given j ((List.mem_cons.1 hj).resolve_left here), others j here, change]
    · obtain ⟨here, notIn⟩ := not_or.1 (mt List.mem_cons.2 hj)
      rw [kept j notIn, others j here]

end Applying

/-! ## The statement -/

/-- The first half of O47: a set claim. -/
theorem setClaim_takes_then_parks (t : List Entry) (limit : Nat) (self st : Addr) (l pre rest : List Nat)
    (two : 2 ≤ l.length) (nodup : l.Nodup) (split : l = pre ++ rest) (below : ∀ k ∈ l, k < limit)
    (len : limit ≤ t.length) (free : ∀ k ∈ pre, (entryAt t k).holders = [])
    (busy : ∀ k, rest.head? = some k → (entryAt t k).holders ≠ []) :
    let start : Applying := ⟨t, limit, .claimed, self, []⟩
    ∃ u, applyFrame t limit self st (.claim .wait 1 l) =
        start.becomes u (start.told st (Applying.stepReports l pre rest 0)) ∧
      Applying.Stepped start st l 0 pre rest u := by
  intro start
  rw [applyFrame_set_claim t limit self st 1 two]
  have stepped := Applying.setStep_result st l rest pre 0 start (split ▸ nodup) (split ▸ below) len free busy
  rwa [← split] at stepped

/-- Settles O47. -/
theorem setClaimTakesThenParks : Obligations.SetClaimTakesThenParks := by
  refine ⟨fun t limit self st l pre rest two nodup split below len free busy => ?_, fun t limit self st o len => ?_⟩
  · obtain ⟨u, result, stepped⟩ :=
      setClaim_takes_then_parks t limit self st l pre rest two nodup split below len free busy
    intro a
    have result : a = _ := result
    rw [result]
    refine ⟨stepped.length, stepped.taken, fun k hk => ?_, stepped.kept, ?_⟩
    · have := stepped.parked k hk
      rwa [Nat.zero_add] at this
    · simp [Applying.told, Applying.stepReports]
  · intro a mine own
    set start : Applying := ⟨t, limit, .withdrawn, self, []⟩
    refine ⟨fun none => ?_, fun k w xs ys hk split isMine first low => ?_⟩
    · have nothing : a = start := Applying.withdraw_of_none (a := start) (Applying.recordAt_eq_none (a := start) none)
      rw [nothing]
      exact ⟨rfl, rfl⟩
    have hl : k < t.length := Nat.lt_of_lt_of_le hk len
    intro e freed
    set E : Entry := { e with waiters := xs ++ ys, change := .withdrawn }
    set b : Applying := start.becomes (t.set k E) []
    have withdrawn : a = b.afterErased st o k w xs :=
      Applying.withdraw_of_record (a := start) hk hl split isMine first low
    have here : b.entry k = E := Applying.entryAt_set_self t E hl
    have others (j : Nat) (hj : j ≠ k) : b.entry j = entryAt t j := Applying.entryAt_set_ne t E hl hj
    refine ⟨fun front kind => ?_, fun c front kind alone => ?_, fun kind nodup notHere all => ?_⟩
    · have none : b.givenUp st w = [] := by simp [Applying.givenUp, front]
      have still : ¬ (xs = [] ∧ (b.entry k).kind.isExclusive = false) := by
        rw [here]
        rintro ⟨alone, pool⟩
        exact kind.elim (fun h => by simp [E, h, TokenKind.isExclusive] at pool) (fun h => h alone)
      rw [Applying.afterErased, none, List.foldl_nil, if_neg still, Applying.report_eq] at withdrawn
      rw [withdrawn]
      exact ⟨rfl, rfl⟩
    · have none : b.givenUp st w = [] := by simp [Applying.givenUp, front]
      have serves : xs = [] ∧ (b.entry k).kind.isExclusive = false := by
        rw [here]
        exact ⟨alone, by simp [E, kind, TokenKind.isExclusive]⟩
      obtain ⟨pre, post, queue, cascade, within, blocked⟩ :=
        Applying.poolCascade_result (a := b) (c := c) (k := k) (by simpa [b] using hl) (by rw [here]; exact kind)
      rw [here] at queue cascade within blocked
      rw [Applying.afterErased, none, List.foldl_nil, if_pos serves, Applying.report_eq, cascade, Applying.becomes_becomes,
        Applying.becomes_becomes] at withdrawn
      have served : ys = pre ++ post := by
        rw [← queue]
        simp [E, alone]
      refine ⟨pre, post, served, ?_, within, blocked, ?_⟩
      · rw [withdrawn, Applying.becomes_table, Applying.becomes_table, Applying.becomes_table, List.set_set]
        rfl
      · rw [withdrawn]
        rfl
    · have given : b.givenUp st w = freed := by
        refine List.filter_eq_self.2 fun j hj => ?_
        obtain ⟨below, _, holders, _⟩ := all j hj
        rw [others j (fun h => notHere (h ▸ hj))]
        simp [b, start, below, Entry.heldBy, holders]
      obtain ⟨u, result, length, passed, kept⟩ := Applying.removeHolders_handOn (st := st) freed b nodup (fun j hj => by
        obtain ⟨below, kind, holders, last⟩ := all j hj
        rw [others j (fun h => notHere (h ▸ hj))]
        exact ⟨by simpa [b] using Nat.lt_of_lt_of_le below len, kind, holders, last⟩)
      have exclusive : (entryAt u k).kind.isExclusive = true := by
        rw [kept k notHere, here]
        simp [E, kind, TokenKind.isExclusive]
      have still : ¬ (xs = [] ∧ ((b.becomes u (freed.flatMap
          (fun j => Applying.handedReports b.self (b.entry j) j))).entry k).kind.isExclusive = false) := by
        rw [Applying.becomes_entry, exclusive]
        exact fun h => Bool.noConfusion h.2
      rw [Applying.afterErased, given, result, if_neg still, Applying.report_eq, Applying.becomes_becomes] at withdrawn
      rw [withdrawn]
      refine ⟨by simpa [b] using length, (kept k notHere).trans here, fun j hj => ?_,
        fun j hj hf => (kept j hf).trans (others j hj), ?_⟩
      · refine (passed j hj).trans ?_
        rw [others j (fun h => notHere (h ▸ hj))]
        rfl
      · have reports : freed.flatMap (fun j => Applying.handedReports b.self (b.entry j) j) =
            freed.flatMap (fun j => Applying.handedReports self (entryAt t j) j) := by
          refine List.flatMap_congr fun j hj => ?_
          rw [others j (fun h => notHere (h ▸ hj))]
          rfl
        rw [reports]
        rfl

end Sys2Proof.Machine
end

