-- ==== Sys2Proof/Proofs/TableRelease.lean ====
section
/-! PROOFS. A RELEASE of EXCLUSIVE tokens (R33, R39, R41, R54, R56, R59): each removal with its whole cascade before the
next token. -/

namespace Sys2Proof.Machine

namespace Applying

variable {a : Applying} {k j : Nat} {st : Addr}

/-! ## The reports so far have no part in what follows -/

/-- The same application, with reports made before it. -/
def after (a : Applying) (r : List Report) : Applying := { a with reports := r ++ a.reports }

variable (a) (r : List Report)

theorem after_entry (k : Nat) : (a.after r).entry k = a.entry k := rfl

theorem after_update (k : Nat) (f : Entry → Entry) : (a.after r).update k f = (a.update k f).after r := rfl

theorem after_report (st : Addr) (x : Report) : (a.after r).report st x = (a.report st x).after r := by
  by_cases h : st = a.self <;> simp [report, after, h]

theorem after_setStep (st : Addr) (list : List Nat) : ∀ (rest : List Nat) (pos : Nat) (a : Applying),
    (a.after r).setStep st list pos rest = (a.setStep st list pos rest).after r
  | [], _, _ => rfl
  | k :: rest, pos, a => by
    have limit : (a.after r).limit = a.limit := rfl
    simp only [setStep, addHolder, park, after_update, after_report, after_entry, limit, after_setStep st list rest]
    split
    · rfl
    · split <;> rfl

theorem after_exclusiveCascade (k : Nat) : (a.after r).exclusiveCascade k = (a.exclusiveCascade k).after r := by
  unfold exclusiveCascade
  rw [after_entry]
  cases (a.entry k).waiters with
  | nil => rfl
  | cons w ws => simp only [after_update, after_report, after_setStep]

theorem after_foldl_report (g : Waiter → Report) (ws : List Waiter) (a : Applying) :
    ws.foldl (fun b w => b.report w.station (g w)) (a.after r) =
      (ws.foldl (fun b w => b.report w.station (g w)) a).after r := by
  induction ws generalizing a with
  | nil => rfl
  | cons w ws ih => rw [List.foldl_cons, List.foldl_cons, after_report, ih]

theorem after_poolCascade (k : Nat) : (a.after r).poolCascade k = (a.poolCascade k).after r := by
  simp only [poolCascade, after_entry, after_update, after_foldl_report]

theorem after_removeHolder (st : Addr) (k : Nat) : (a.after r).removeHolder st k = (a.removeHolder st k).after r := by
  simp only [removeHolder, cascade, after_entry, after_update, after_exclusiveCascade, after_poolCascade]
  split
  · split <;> rfl
  · rfl

/-! ## The tokens of a RELEASE, one after another -/

/-- One token of a RELEASE, with the tokens that the sender has lost so far (R33). -/
def releaseToken (st : Addr) (x : Applying × List Nat) (k : Nat) : Applying × List Nat :=
  if k < x.1.limit && (x.1.entry k).heldBy st then (x.1.removeHolder st k, x.2 ++ [k]) else x

theorem release_eq (st : Addr) (cause : ReleaseCause) (l : List Nat) : a.release st cause l =
    (l.foldl (releaseToken st) (a, [])).1.report st (.released l cause (l.foldl (releaseToken st) (a, [])).2) := rfl

theorem releaseToken_after (st : Addr) (lost others : List Nat) (k : Nat) :
    releaseToken st (a.after r, lost ++ others) k =
      ((releaseToken st (a, others) k).1.after r, lost ++ (releaseToken st (a, others) k).2) := by
  have limit : (a.after r).limit = a.limit := rfl
  simp only [releaseToken, after_entry, after_removeHolder, limit]
  split
  · simp
  · rfl

theorem foldl_releaseToken_after (st : Addr) (lost l : List Nat) (x : Applying × List Nat) :
    l.foldl (releaseToken st) (x.1.after r, lost ++ x.2) =
      ((l.foldl (releaseToken st) x).1.after r, lost ++ (l.foldl (releaseToken st) x).2) := by
  induction l generalizing x with
  | nil => rfl
  | cons k l ih => rw [List.foldl_cons, List.foldl_cons, releaseToken_after, ih]

/-- A token's removal keeps the frame's limit, last change and station. -/
theorem releaseToken_keeps (st : Addr) (x : Applying × List Nat) (k : Nat) :
    Keeps True x.1 (releaseToken st x k).1 := by
  unfold releaseToken
  split
  · exact removeHolder_keeps x.1 st k
  · exact keeps_refl x.1

theorem foldl_releaseToken_keeps (st : Addr) (l : List Nat) (x : Applying × List Nat) :
    Keeps True x.1 (l.foldl (releaseToken st) x).1 := by
  induction l generalizing x with
  | nil => exact keeps_refl x.1
  | cons k l ih => exact (releaseToken_keeps st x k).next (ih _)

theorem releaseToken_of_held {st : Addr} {x : Applying × List Nat} {k : Nat} (hk : k < x.1.limit)
    (held : (x.1.entry k).heldBy st = true) :
    releaseToken st x k = (x.1.removeHolder st k, x.2 ++ [k]) := by
  rw [releaseToken, if_pos (by simp [hk, held])]

/-! ## An EXCLUSIVE token that passes to a claim -/

theorem handedOn_of_empty {e : Entry} (h : e.waiters = []) (c : LastChange) :
    handedOn e c = { e with holders := [], change := c } := by
  simp [handedOn, h]

theorem handedOn_of_cons {e : Entry} {w : Waiter} {ws : List Waiter} (h : e.waiters = w :: ws) (c : LastChange) :
    handedOn e c = { e with holders := [⟨w.station, 1⟩], waiters := ws, change := c } := by
  simp [handedOn, h]

theorem handedReports_of_empty {e : Entry} (h : e.waiters = []) (self : Addr) (k : Nat) :
    handedReports self e k = [] := by
  simp [handedReports, h]

theorem handedReports_of_cons {e : Entry} {w : Waiter} {ws : List Waiter} (h : e.waiters = w :: ws) (self : Addr)
    (k : Nat) : handedReports self e k =
      if w.station = self then [.grant (w.list.headD 0) k 1 (some w.list)] else [] := by
  by_cases own : w.station = self <;> simp [handedReports, h, own]

/-- The entry passes to the head of its queue, whose claim goes on at the tokens that follow in its list. -/
theorem removeHolder_goesOn {u : Nat} {w : Waiter} {ws : List Waiter} (hk : k < a.table.length)
    (kind : (a.entry k).kind = .exclusive) (held : (a.entry k).holders = [⟨st, u⟩])
    (queue : (a.entry k).waiters = w :: ws) :
    a.removeHolder st k = (a.becomes (a.table.set k
        { a.entry k with holders := [⟨w.station, 1⟩], waiters := ws, change := a.change })
      (a.told w.station [.grant (w.list.headD 0) k 1
        (if (w.list.drop (w.position + 1)).isEmpty then some w.list else none)])).setStep
      w.station w.list (w.position + 1) (w.list.drop (w.position + 1)) := by
  set freed : Entry := { a.entry k with holders := [], change := a.change }
  have here : (a.becomes (a.table.set k freed) []).entry k = freed := entryAt_set_self _ _ hk
  rw [removeHolder_exclusive hk kind held,
    exclusiveCascade_of_cons (w := w) (ws := ws) (by simpa using hk) (by rw [here]; exact queue), here, becomes_becomes,
    becomes_table, List.set_set]
  rfl

end Applying

/-- The first part of O48: a RELEASE of several tokens does what its first token alone does, and then the rest. -/
theorem release_token_by_token (t : List Entry) (limit : Nat) (self st : Addr) (cause : ReleaseCause) (k : Nat)
    (rest : List Nat) :
    let whole := applyFrame t limit self st (.release cause (k :: rest))
    let first := applyFrame t limit self st (.release cause [k])
    let later := applyFrame first.table limit self st (.release cause rest)
    let own (l lost : List Nat) : List Report := if st = self then [.released l cause lost] else []
    whole.table = later.table ∧ ∃ grants more lost others, first.reports = grants ++ own [k] lost ∧
      later.reports = more ++ own rest others ∧
      whole.reports = grants ++ more ++ own (k :: rest) (lost ++ others) := by
  intro whole first later own
  set start := releaseStart t limit self cause
  obtain ⟨⟨b, lost⟩, hb⟩ : ∃ x, Applying.releaseToken st (start, []) k = x := ⟨_, rfl⟩
  have keeps : Applying.Keeps True start b := by
    have := Applying.releaseToken_keeps st (start, []) k
    rwa [hb] at this
  have one : first = b.report st (.released [k] cause lost) := by
    rw [show first = _ from applyFrame_release t limit self st cause [k], Applying.release_eq, List.foldl_cons,
      List.foldl_nil, hb]
  have self_b : b.self = self := keeps.self
  have table : first.table = b.table := by rw [one, Applying.report_table]
  have going : b = (releaseStart b.table limit self cause).after b.reports := by
    cases b
    simp only [Applying.after, releaseStart, Applying.mk.injEq, List.append_nil, true_and, and_true]
    exact ⟨keeps.limit, keeps.change, keeps.self⟩
  set x := rest.foldl (Applying.releaseToken st) (releaseStart b.table limit self cause, [])
  have lateral : later = x.1.report st (.released rest cause x.2) := by
    rw [show later = _ from applyFrame_release first.table limit self st cause rest, Applying.release_eq, table]
  have all : (k :: rest).foldl (Applying.releaseToken st) (start, []) = (x.1.after b.reports, lost ++ x.2) := by
    rw [List.foldl_cons, hb]
    have := Applying.foldl_releaseToken_after b.reports st lost rest (releaseStart b.table limit self cause, [])
    rwa [← going, List.append_nil] at this
  have total : whole = (x.1.after b.reports).report st (.released (k :: rest) cause (lost ++ x.2)) := by
    rw [show whole = _ from applyFrame_release t limit self st cause (k :: rest), Applying.release_eq, all]
  have self_x : x.1.self = self :=
    (Applying.foldl_releaseToken_keeps st rest (releaseStart b.table limit self cause, [])).self
  refine ⟨?_, b.reports, x.1.reports, lost, x.2, ?_, ?_, ?_⟩
  · rw [total, lateral, Applying.report_table, Applying.report_table]
    rfl
  · rw [one, Applying.report_reports, self_b]
  · rw [lateral, Applying.report_reports, self_x]
  · rw [total, Applying.report_reports]
    simp only [Applying.after, self_x]
    rfl

/-- The second part of O48: a claim that goes on from one listed token parks at a later one that the sender still holds,
and is served there when that is removed. -/
theorem release_serves_a_later_token (t : List Entry) (limit : Nat) (self st : Addr) (cause : ReleaseCause)
    (k j u v : Nat) (w : Waiter) (ws : List Waiter) (order : k < j) (hj : j < limit) (len : limit ≤ t.length)
    (kind_k : (entryAt t k).kind = .exclusive) (kind_j : (entryAt t j).kind = .exclusive)
    (held_k : (entryAt t k).holders = [⟨st, u⟩]) (held_j : (entryAt t j).holders = [⟨st, v⟩])
    (queue_k : (entryAt t k).waiters = w :: ws) (queue_j : (entryAt t j).waiters = [])
    (next : w.list.drop (w.position + 1) = [j]) :
    let start := releaseStart t limit self cause
    let E : Entry := { entryAt t k with holders := [⟨w.station, 1⟩], waiters := ws, change := start.change }
    let F : Entry := { entryAt t j with holders := [⟨w.station, 1⟩], change := start.change }
    applyFrame t limit self st (.release cause [k, j]) =
      (start.becomes ((t.set k E).set j F) (start.told w.station [.grant (w.list.headD 0) k 1 none,
        .parked (w.list.headD 0) j (w.position + 1), .grant (w.list.headD 0) j 1 (some w.list)])).report st
        (.released [k, j] cause [k, j]) := by
  intro start E F
  have inK : k < t.length := by omega
  have inJ : j < t.length := by omega
  have apart : j ≠ k := by omega
  set P : Entry := { entryAt t j with waiters := [⟨w.station, 1, w.list, w.position + 1⟩], change := start.change }
  have atJ : entryAt (t.set k E) j = entryAt t j := Applying.entryAt_set_ne t E inK apart
  have first : start.removeHolder st k = start.becomes ((t.set k E).set j P) (start.told w.station
      [.grant (w.list.headD 0) k 1 none, .parked (w.list.headD 0) j (w.position + 1)]) := by
    rw [Applying.removeHolder_goesOn (a := start) inK kind_k held_k queue_k, next]
    change (start.becomes (t.set k E) (start.told w.station [.grant (w.list.headD 0) k 1 none])).setStep
      w.station w.list (w.position + 1) [j] = _
    rw [Applying.setStep_parks _ _ _ _ _ hj (by simpa using inJ) (by rw [Applying.becomes_entry, atJ, held_j]; simp),
      Applying.becomes_entry, atJ, queue_j, Applying.becomes_becomes, Applying.becomes_told, ← Applying.told_append]
    rfl
  set b := start.becomes ((t.set k E).set j P) (start.told w.station
    [.grant (w.list.headD 0) k 1 none, .parked (w.list.headD 0) j (w.position + 1)])
  have atP : b.entry j = P := Applying.entryAt_set_self _ _ (by simpa using inJ)
  have last : w.position + 1 + 1 = w.list.length := by
    have := congrArg List.length next
    rw [List.length_drop, List.length_singleton] at this
    omega
  have second : b.removeHolder st j = start.becomes ((t.set k E).set j F) (start.told w.station
      [.grant (w.list.headD 0) k 1 none, .parked (w.list.headD 0) j (w.position + 1),
        .grant (w.list.headD 0) j 1 (some w.list)]) := by
    have reports : Applying.handedReports b.self P j =
        start.told w.station [.grant (w.list.headD 0) j 1 (some w.list)] :=
      Applying.handedReports_of_cons (e := P) rfl _ _
    have entry : Applying.handedOn P b.change = F := by simp [Applying.handedOn, P, F, b, queue_j]
    rw [Applying.removeHolder_handsOn (u := v) (by simpa [b] using inJ) (by rw [atP]; exact kind_j)
      (by rw [atP]; exact held_j) (by rw [atP]; rintro _ ⟨⟩; exact last), atP, entry, reports, Applying.becomes_becomes,
      ← Applying.told_append, Applying.becomes_table, List.set_set]
    rfl
  have mineK : (start.entry k).heldBy st = true := by
    rw [Entry.heldBy, show (start.entry k).holders = _ from held_k]
    simp
  have mineJ : (b.entry j).heldBy st = true := by
    rw [atP, Entry.heldBy, show P.holders = _ from held_j]
    simp
  rw [applyFrame_release, Applying.release_eq, List.foldl_cons, List.foldl_cons, List.foldl_nil,
    Applying.releaseToken_of_held (x := (start, [])) (Nat.lt_trans order hj) mineK, first,
    Applying.releaseToken_of_held (x := (b, [] ++ [k])) hj mineJ, second]
  rfl

/-- Settles O48. -/
theorem releasedExclusivePassesToTheHead : Obligations.ReleasedExclusivePassesToTheHead := by
  refine ⟨release_token_by_token, fun t limit self st cause k j u v w ws order hj len kind_k kind_j held_k held_j queue_k
    queue_j next => ?_, fun t limit self st cause k hk len kind => ?_⟩
  · intro a change o
    have inK : k < t.length := by omega
    have inJ : j < t.length := by omega
    have apart : j ≠ k := by omega
    have result : a = _ := release_serves_a_later_token t limit self st cause k j u v w ws order hj len kind_k kind_j
      held_k held_j queue_k queue_j next
    rw [Applying.report_eq, Applying.becomes_becomes] at result
    rw [result]
    refine ⟨by simp, ?_, ?_, fun i hik hij => ?_, rfl⟩
    · exact (Applying.entryAt_set_ne _ _ (by simpa using inJ) apart.symm).trans (Applying.entryAt_set_self _ _ inK)
    · exact Applying.entryAt_set_self _ _ (by simpa using inJ)
    · exact (Applying.entryAt_set_ne _ _ (by simpa using inJ) hij).trans (Applying.entryAt_set_ne _ _ inK hik)
  · intro e a change own
    set start := releaseStart t limit self cause
    have inK : k < t.length := Nat.lt_of_lt_of_le hk len
    have released {u : Nat} (held : e.holders = [⟨st, u⟩]) :
        a = (start.removeHolder st k).report st (.released [k] cause [k]) := by
      have mine : (entryAt t k).heldBy st = true := by
        rw [Entry.heldBy, show (entryAt t k).holders = _ from held]
        simp
      exact applyFrame_release_held self cause hk mine
    refine ⟨fun unheld => ?_, fun u held empty => ?_, fun u w ws held queue last => ?_,
      fun u w ws pre rest held queue next more nodup below free busy => ?_⟩
    · have same : a = _ := applyFrame_release_unheld self cause unheld
      rw [same, Applying.report_eq]
      exact ⟨rfl, rfl⟩
    · have empty : (start.entry k).waiters = [] := empty
      rw [released held, Applying.removeHolder_handsOn (a := start) inK kind held (by simp [empty]), Applying.report_eq,
        Applying.becomes_becomes, Applying.handedOn_of_empty empty, Applying.handedReports_of_empty empty]
      exact ⟨rfl, rfl⟩
    · have queue : (start.entry k).waiters = w :: ws := queue
      rw [released held, Applying.removeHolder_handsOn (a := start) inK kind held (by rw [queue]; rintro _ ⟨⟩; exact last),
        Applying.report_eq, Applying.becomes_becomes, Applying.handedOn_of_cons queue,
        Applying.handedReports_of_cons queue]
      exact ⟨rfl, rfl⟩
    · set E : Entry := { e with holders := [⟨w.station, 1⟩], waiters := ws, change := change }
      have goesOn : (pre ++ rest).isEmpty = false := by simpa using more
      have moved := Applying.removeHolder_goesOn (a := start) inK kind held queue
      rw [next, goesOn] at moved
      set b : Applying := start.becomes (t.set k E) (start.told w.station [.grant (w.list.headD 0) k 1 none])
      have moved : start.removeHolder st k = b.setStep w.station w.list (w.position + 1) (pre ++ rest) := moved
      obtain ⟨fresh, nodup⟩ := List.nodup_cons.1 nodup
      have others (j : Nat) (hj : j ≠ k) : b.entry j = entryAt t j := Applying.entryAt_set_ne t E inK hj
      have inPre (j : Nat) (hj : j ∈ pre) : j ≠ k := fun h => fresh (h ▸ List.mem_append_left _ hj)
      have inRest (j : Nat) (hj : rest.head? = some j) : j ≠ k :=
        fun h => fresh (h ▸ List.mem_append_right _ (List.mem_of_head? hj))
      obtain ⟨u, result, stepped⟩ := Applying.setStep_result w.station w.list rest pre (w.position + 1) b nodup below
        (by simpa [b, start, releaseStart] using len) (fun j hj => by rw [others j (inPre j hj)]; exact free j hj)
        (fun j hj => by rw [others j (inRest j hj)]; exact busy j hj)
      rw [released held, moved, result, Applying.report_eq, Applying.becomes_becomes]
      refine ⟨by simpa [b] using stepped.length, ?_, fun j hj => ?_, fun j hj => ?_, fun j hk hp hr => ?_, ?_⟩
      · refine (stepped.kept k (fun h => inPre k h rfl) (fun h => inRest k h rfl)).trans ?_
        exact Applying.entryAt_set_self t E inK
      · refine (stepped.taken j hj).trans ?_
        rw [others j (inPre j hj)]
        rfl
      · refine (stepped.parked j hj).trans ?_
        rw [others j (inRest j hj)]
        rfl
      · exact (stepped.kept j hp hr).trans (others j hk)
      · change start.told w.station [.grant (w.list.headD 0) k 1 none] ++
          (start.told w.station (Applying.stepReports w.list pre rest (w.position + 1)) ++ own [k]) = _
        rw [← List.append_assoc, ← Applying.told_append]
        rfl

end Sys2Proof.Machine
end

