-- ==== Sys2Proof/Proofs/TableEvict.lean ====
section
/-! PROOFS. The eviction pass (R36 to R38): what it leaves of its target, which is nothing, and of the entries it does not
touch. -/

namespace Sys2Proof.Machine

/-- The records of a station in a queue. -/
def waitsOf (st : Addr) (e : Entry) : Nat := e.waiters.countP (fun w => w.station == st)

theorem waitedBy_eq_false {e : Entry} {st : Addr} : e.waitedBy st = false ↔ waitsOf st e = 0 := by
  simp [Entry.waitedBy, waitsOf, List.countP_eq_zero]

namespace Applying

/-- A later stage that gives the target no holding and no record it has not had, that reports nothing to it, and that
gives the frame's last change to every entry it changes. -/
structure Spares (target : Addr) (a b : Applying) : Prop where
  length : b.table.length = a.table.length
  limit : b.limit = a.limit
  change : b.change = a.change
  self : b.self = a.self
  told : a.self = target → b.reports = a.reports
  held : ∀ k, (a.entry k).heldBy target = false → (b.entry k).heldBy target = false
  waits : ∀ k, waitsOf target (b.entry k) ≤ waitsOf target (a.entry k)
  marked : ∀ k, b.entry k = a.entry k ∨ (b.entry k).change = a.change

variable {a b c : Applying} {target st : Addr} {k : Nat}

theorem Spares.refl (a : Applying) : Spares target a a :=
  ⟨rfl, rfl, rfl, rfl, fun _ => rfl, fun _ h => h, fun _ => Nat.le_refl _, fun _ => .inl rfl⟩

theorem Spares.trans (h : Spares target a b) (g : Spares target b c) : Spares target a c where
  length := g.length.trans h.length
  limit := g.limit.trans h.limit
  change := g.change.trans h.change
  self := g.self.trans h.self
  told same := (g.told (h.self.trans same)).trans (h.told same)
  held k hk := g.held k (h.held k hk)
  waits k := Nat.le_trans (g.waits k) (h.waits k)
  marked k := by
    rcases g.marked k with same | marked
    · rw [same]
      exact h.marked k
    · exact .inr (marked.trans h.change)

/-- What is not the target's stays clear of it. -/
theorem Spares.clear (h : Spares target a b) (hw : (a.entry k).waitedBy target = false) :
    (b.entry k).waitedBy target = false := by
  rw [waitedBy_eq_false] at hw ⊢
  exact Nat.le_zero.1 (hw ▸ h.waits k)

theorem report_spares (a : Applying) (hst : st ≠ target) (r : Report) : Spares target a (a.report st r) := by
  have entry (k : Nat) : (a.report st r).entry k = a.entry k := by rw [Applying.entry, report_table]; rfl
  have keeps : Keeps True a (a.report st r) := report_keeps a st r
  have told (same : a.self = target) : (a.report st r).reports = a.reports := by
    rw [report, if_neg (fun h => hst (h.trans same))]
  exact ⟨keeps.length, keeps.limit, keeps.change, keeps.self, told, fun k h => by rwa [entry], fun k => by rw [entry],
    fun k => .inl (entry k)⟩

theorem update_spares (a : Applying) (k : Nat) (f : Entry → Entry)
    (held : (a.entry k).heldBy target = false → (f (a.entry k)).heldBy target = false)
    (waits : waitsOf target (f (a.entry k)) ≤ waitsOf target (a.entry k)) : Spares target a (a.update k f) := by
  by_cases hk : k < a.table.length
  · have here := entry_update a k f hk
    have others (j : Nat) (hj : j ≠ k) : (a.update k f).entry j = a.entry j := by
      rw [update_eq a f hk]
      exact entryAt_set_ne _ _ hk hj
    refine ⟨by simp [update], rfl, rfl, rfl, fun _ => rfl, fun j h => ?_, fun j => ?_, fun j => ?_⟩
    · by_cases hj : j = k
      · subst hj
        rw [here]
        exact held h
      · rwa [others j hj]
    · by_cases hj : j = k
      · subst hj
        rw [here]
        exact waits
      · rw [others j hj]
    · by_cases hj : j = k
      · subst hj
        rw [here]
        exact .inr rfl
      · exact .inl (others j hj)
  · rw [update_beyond a k f (Nat.le_of_not_lt hk)]
    exact .refl a

/-! ## The operations for another station -/

theorem addHolder_spares (a : Applying) (k u : Nat) (hst : st ≠ target) : Spares target a (a.addHolder k st u) :=
  update_spares a k _ (fun h => by simpa [Entry.heldBy, hst] using h) (Nat.le_refl _)

theorem park_spares (a : Applying) (k : Nat) (w : Waiter) (hw : w.station ≠ target) :
    Spares target a (a.park k w) :=
  (update_spares a k _ (fun h => h) (by simp [waitsOf, hw])).trans (report_spares _ hw _)

theorem setStep_spares (list : List Nat) (hst : st ≠ target) : ∀ (rest : List Nat) (pos : Nat) (a : Applying),
    Spares target a (a.setStep st list pos rest)
  | [], _, a => .refl a
  | k :: rest, pos, a => by
    unfold setStep
    split
    · exact .refl a
    · split
      · exact ((addHolder_spares a k 1 hst).trans (report_spares _ hst _)).trans (setStep_spares list hst rest _ _)
      · exact park_spares a k _ hst

/-- A cascade serves the others where the target does not wait. -/
theorem exclusiveCascade_spares (a : Applying) (hw : (a.entry k).waitedBy target = false) :
    Spares target a (a.exclusiveCascade k) := by
  cases queue : (a.entry k).waiters with
  | nil =>
    rw [exclusiveCascade_of_empty queue]
    exact .refl a
  | cons w ws =>
    obtain ⟨other, rest⟩ : w.station ≠ target ∧ ∀ v ∈ ws, v.station ≠ target := by
      simpa [Entry.waitedBy, queue] using hw
    have granted : Spares target a
        (a.update k (fun e => { e with holders := e.holders ++ [⟨w.station, 1⟩], waiters := ws })) :=
      update_spares a k _ (fun h => by simpa [Entry.heldBy, other] using h) (by simp [waitsOf, queue, List.countP_cons])
    simp only [exclusiveCascade, queue]
    exact (granted.trans (report_spares _ other _)).trans (setStep_spares _ other _ _ _)

theorem foldl_report_spares (g : Waiter → Report) {ws : List Waiter} (others : ∀ v ∈ ws, v.station ≠ target)
    (a : Applying) : Spares target a (ws.foldl (fun b w => b.report w.station (g w)) a) := by
  induction ws generalizing a with
  | nil => exact .refl a
  | cons w ws ih =>
    obtain ⟨other, others⟩ := List.forall_mem_cons.1 others
    exact (report_spares a other _).trans (ih others _)

theorem poolCascade_spares (a : Applying) (hw : (a.entry k).waitedBy target = false) :
    Spares target a (a.poolCascade k) := by
  obtain ⟨pre, post, split, grants⟩ :=
    poolGrants_split (a.entry k).kind.capacity (a.entry k).holders (a.entry k).waiters
  have others : ∀ v ∈ pre, v.station ≠ target := by
    have : ∀ v ∈ (a.entry k).waiters, v.station ≠ target := by simpa [Entry.waitedBy] using hw
    exact fun v hv => this v (split ▸ List.mem_append_left _ hv)
  unfold poolCascade
  simp only [grants]
  refine (update_spares a k _ (fun h => ?_) ?_).trans (foldl_report_spares _ others _)
  · simpa [Entry.heldBy] using ⟨by simpa [Entry.heldBy] using h, others⟩
  · simp [waitsOf, split]

theorem cascade_spares (a : Applying) (hw : (a.entry k).waitedBy target = false) : Spares target a (a.cascade k) := by
  unfold cascade
  split
  · exact exclusiveCascade_spares a hw
  · exact poolCascade_spares a hw

/-! ## The pass -/

theorem waitedBy_in_range (h : (a.entry k).waitedBy target = true) : k < a.table.length := by
  refine Decidable.byContradiction (fun hk => ?_)
  have none : a.entry k = Entry.free .exclusive := entryAt_beyond (Nat.le_of_not_lt hk)
  simp [none, Entry.free, Entry.waitedBy] at h

theorem countP_eraseP_of_one {α : Type} {p : α → Bool} : ∀ {l : List α}, l.countP p ≤ 1 → (l.eraseP p).countP p = 0
  | [], _ => rfl
  | x :: l, h => by
    by_cases hx : p x = true
    · rw [List.countP_cons_of_pos hx] at h
      rw [List.eraseP_cons_of_pos hx]
      omega
    · rw [List.countP_cons_of_neg hx] at h
      rw [List.eraseP_cons_of_neg hx, List.countP_cons_of_neg hx, countP_eraseP_of_one h]

/-- The target's holding leaves the entry whole. -/
theorem removeHolder_spares (a : Applying) (hw : (a.entry k).waitedBy target = false) :
    Spares target a (a.removeHolder target k) ∧ ((a.removeHolder target k).entry k).heldBy target = false := by
  cases held : (a.entry k).heldBy target with
  | false =>
    rw [removeHolder_of_not held]
    exact ⟨.refl a, held⟩
  | true =>
    have hk := heldBy_in_range held
    set removed := a.update k (fun e => { e with holders := e.holders.filter (fun h => h.station != target) })
    have unheld : (removed.entry k).heldBy target = false := by
      rw [entry_update a k _ hk]
      simp [Entry.heldBy]
    have first : Spares target a removed :=
      update_spares a k _ (fun _ => by simp [Entry.heldBy]) (Nat.le_refl _)
    have second : Spares target removed (removed.cascade k) := cascade_spares removed (first.clear hw)
    rw [removeHolder, if_pos held]
    exact ⟨first.trans second, second.held k unheld⟩

theorem evictEntry_spares (a : Applying) (k : Nat) (one : waitsOf target (a.entry k) ≤ 1) :
    Spares target a (a.evictEntry target k) ∧ ((a.evictEntry target k).entry k).heldBy target = false ∧
      ((a.evictEntry target k).entry k).waitedBy target = false := by
  obtain ⟨b, hb, spares, clear⟩ : ∃ b, a.evictEntry target k = b.removeHolder target k ∧ Spares target a b ∧
      (b.entry k).waitedBy target = false := by
    cases hw : (a.entry k).waitedBy target with
    | false => exact ⟨a, by simp only [evictEntry, hw, Bool.false_eq_true, if_false], .refl a, hw⟩
    | true =>
      set erased := a.update k (fun x => { x with waiters := x.waiters.eraseP (fun w => w.station == target) })
      have first : Spares target a erased :=
        update_spares a k _ (fun h => h) (List.Sublist.countP_le (List.eraseP_sublist))
      have clear : (erased.entry k).waitedBy target = false := by
        rw [waitedBy_eq_false, entry_update a k _ (waitedBy_in_range hw)]
        exact countP_eraseP_of_one one
      by_cases head : (!(a.entry k).kind.isExclusive &&
          (a.entry k).waiters.head?.any (fun w => w.station == target)) = true
      · have pool : Spares target erased (erased.poolCascade k) := poolCascade_spares erased clear
        exact ⟨erased.poolCascade k, by simp only [evictEntry, hw, if_true, head]; rfl, first.trans pool,
          pool.clear clear⟩
      · exact ⟨erased, by simp only [evictEntry, hw, if_true, if_neg head]; rfl, first, clear⟩
  obtain ⟨removal, unheld⟩ := removeHolder_spares b clear
  rw [hb]
  exact ⟨spares.trans removal, unheld, removal.clear clear⟩

theorem evict_spares (l : List Nat) (a : Applying) (one : ∀ k, waitsOf target (a.entry k) ≤ 1) :
    Spares target a (l.foldl (fun b k => b.evictEntry target k) a) ∧
      ∀ k ∈ l, ((l.foldl (fun b k => b.evictEntry target k) a).entry k).heldBy target = false ∧
        ((l.foldl (fun b k => b.evictEntry target k) a).entry k).waitedBy target = false := by
  induction l generalizing a with
  | nil => exact ⟨.refl a, by simp⟩
  | cons j l ih =>
    obtain ⟨first, unheld, clear⟩ := evictEntry_spares a j (one j)
    obtain ⟨rest, all⟩ := ih (a.evictEntry target j) (fun k => Nat.le_trans (first.waits k) (one k))
    refine ⟨first.trans rest, fun k hk => ?_⟩
    rcases List.mem_cons.1 hk with rfl | hk
    · exact ⟨rest.held k unheld, rest.clear clear⟩
    · exact all k hk

/-- An entry without the target is left as it stands. -/
theorem evictEntry_of_clear (held : (a.entry k).heldBy target = false) (waits : (a.entry k).waitedBy target = false) :
    a.evictEntry target k = a := by
  simp only [evictEntry, waits, Bool.false_eq_true, if_false]
  exact removeHolder_of_not held

theorem evict_of_clear (h : ∀ k, (a.entry k).heldBy target = false ∧ (a.entry k).waitedBy target = false) :
    a.evict target = a := by
  unfold evict
  generalize List.range a.limit = l
  induction l with
  | nil => rfl
  | cons k l ih => rw [List.foldl_cons, evictEntry_of_clear (h k).1 (h k).2, ih]

end Applying

/-- A queue that no station stands in twice. -/
theorem waitsOf_le_one {e : Entry} (h : (e.waiters.map Waiter.station).Nodup) (st : Addr) : waitsOf st e ≤ 1 := by
  have counted : waitsOf st e = (e.waiters.map Waiter.station).count st := by
    simp [waitsOf, List.count, List.countP_map, Function.comp_def]
  rw [counted]
  exact List.nodup_iff_count_le_one.1 h st

/-- The application of an eviction: the pass over all entries. -/
theorem applyFrame_eviction {t : List Entry} {self sender target : Addr} {f : Frame}
    (h : (∃ c, f = .evict target c) ∨ (∃ d, f = .presence .listening d ∧ sender = target)) :
    (applyFrame t t.length self sender f).table =
      ((⟨t, t.length, .evicted, self, []⟩ : Applying).evict target).table := by
  rcases h with ⟨c, rfl⟩ | ⟨d, rfl, rfl⟩
  · exact Applying.report_table _ _ _
  · rfl

/-- Settles O50. -/
theorem evictionLeavesNothingOfTheTarget : Obligations.EvictionLeavesNothingOfTheTarget := by
  intro t self sender target f hf nodup a
  set start : Applying := ⟨t, t.length, .evicted, self, []⟩
  have table : a.table = (start.evict target).table := applyFrame_eviction hf
  have one (k : Nat) : waitsOf target (start.entry k) ≤ 1 := by
    rcases Orderly.entry_cases t k with ⟨_, inside⟩ | ⟨_, beyond⟩
    · exact waitsOf_le_one (nodup _ (List.mem_of_getElem? inside)) target
    · rw [show start.entry k = _ from beyond]
      exact Nat.zero_le 1
  obtain ⟨spares, clear⟩ := Applying.evict_spares (List.range t.length) start one
  have length : a.table.length = t.length := by rw [table]; exact spares.length
  have entry (k : Nat) : entryAt a.table k = (start.evict target).entry k := by rw [table]; rfl
  refine ⟨length, fun e he => ?_, fun k => ?_, fun free => ?_⟩
  · obtain ⟨k, hk⟩ := List.mem_iff_getElem?.1 he
    have inside : k < t.length := length ▸ (List.getElem?_eq_some_iff.1 hk).1
    rw [← entryAt_of_getElem? hk, entry]
    exact clear k (List.mem_range.2 inside)
  · rw [entry]
    exact spares.marked k
  · rw [table, Applying.evict_of_clear fun k => ?_]
    rcases Orderly.entry_cases t k with ⟨_, inside⟩ | ⟨_, beyond⟩
    · exact free _ (List.mem_of_getElem? inside)
    · rw [show start.entry k = _ from beyond]
      exact ⟨rfl, rfl⟩

end Sys2Proof.Machine
end

