-- ==== Sys2Proof/Proofs/FrameCheck.lean ====
section
/-! PROOFS. The receive check passes the frames as their senders build them (R3 to R5, R8, R186, section 12.6). -/

namespace Sys2Proof.Machine

/-! ## Fields -/

theorem nibbles_toNat (a b : Nat) : (nibbles a b).toNat = a % 16 * 16 + b % 16 := by
  unfold nibbles
  rw [BitVec.toNat_ofNat]
  omega

theorem hiNibble_nibbles {a b : Nat} (ha : a < 16) : hiNibble (nibbles a b) = a := by
  rw [hiNibble, nibbles_toNat]
  omega

theorem loNibble_nibbles {a b : Nat} (hb : b < 16) : loNibble (nibbles a b) = b := by
  rw [loNibble, nibbles_toNat]
  omega

theorem byteOf_toNat {n : Nat} (h : n < 256) : (byteOf n).toNat = n := by
  unfold byteOf
  rw [BitVec.toNat_ofNat]
  exact Nat.mod_eq_of_lt h

theorem byteOf_setWidth (a : Addr) : (byteOf a.toNat).setWidth 4 = a := by
  refine BitVec.eq_of_toNat_eq ?_
  rw [BitVec.toNat_setWidth, byteOf_toNat (by omega)]
  omega

theorem hiNibble_byteOf {n : Nat} (h : n < 16) : hiNibble (byteOf n) = 0 := by
  rw [hiNibble, byteOf_toNat (by omega)]
  omega

/-- The two bytes of a value, put together again. -/
theorem half_bytes16 (m : Half) : half (m.extractLsb' 8 8) (m.extractLsb' 0 8) = m := by
  refine BitVec.eq_of_getElem_eq fun i hi => ?_
  grind [half]

theorem word_bytes32 (d : Word) :
    word (d.extractLsb' 24 8) (d.extractLsb' 16 8) (d.extractLsb' 8 8) (d.extractLsb' 0 8) = d := by
  refine BitVec.eq_of_getElem_eq fun i hi => ?_
  grind [word]

/-! ## Header -/

theorem classCode_le (f : Frame) : f.classCode ≤ 7 := by
  cases f <;> exact of_decide_eq_true rfl

theorem senderOf_toRaw (a : Addr) (f : Frame) : senderOf (f.toRaw a) = a := by
  refine BitVec.eq_of_toNat_eq ?_
  have := classCode_le f
  simp only [senderOf, Frame.toRaw, contentionOf, BitVec.toNat_setWidth, BitVec.toNat_ofNat]
  omega

theorem kind_toRaw (a : Addr) (f : Frame) : (f.toRaw a).kind.toNat = f.kindCode := by
  cases f <;> rfl

theorem classFieldOf_toRaw (a : Addr) (f : Frame) : classFieldOf (f.toRaw a) = f.classCode := by
  have := classCode_le f
  simp only [classFieldOf, Frame.toRaw, contentionOf, BitVec.toNat_ofNat]
  omega

theorem classOfKind_kindCode (f : Frame) : classOfKind f.kindCode = some f.classCode := by
  cases f <;> rfl

/-- The payload is as long as the length field says. -/
theorem payloadOf_toRaw (a : Addr) {f : Frame} (h : f.payload.length < 256) :
    payloadOf (f.toRaw a) = f.payload := by
  have length : (f.toRaw a).length.toNat = f.payload.length := byteOf_toNat h
  have payload : (f.toRaw a).payload = f.payload := rfl
  rw [payloadOf, length, payload, List.take_left]

/-! ## Token lists -/

theorem ok_bind {ε α β : Type} (a : α) (f : α → Except ε β) : (Except.ok a >>= f) = f a := rfl
theorem need_true (k : Nat) : need true k = .ok () := rfl
theorem needLength_true (k : Nat) : needLength true k = .ok () := rfl

/-- A list of tokens as a frame carries it is read back. -/
theorem checkTokens_pass {t : List Entry} (ht : t.length ≤ 256) {multi : Bool} {u : Nat} :
    ∀ {l : List Nat} (last : Option Nat) (bits : Nat), l.Pairwise (· < ·) →
      (∀ p, last = some p → ∀ k ∈ l, p < k) →
      (∀ k ∈ l, k < t.length ∧ u ≤ (entryAt t k).kind.capacity ∧
        (multi = true → (entryAt t k).kind.isExclusive = true)) →
      checkTokens t multi u (l.map byteOf) last bits = .ok l
  | [], _, _, _, _, _ => rfl
  | k :: l, last, bits, ascends, above, sound => by
    obtain ⟨low, ascends⟩ := List.pairwise_cons.1 ascends
    obtain ⟨inTable, capacity, exclusive⟩ := sound k (by simp)
    have byte : (byteOf k).toNat = k := byteOf_toNat (by omega)
    have rest := checkTokens_pass ht (some k) (bits + 8) ascends (by rintro _ ⟨⟩; exact low)
      (fun j hj => sound j (List.mem_cons_of_mem _ hj))
    have kind : (!multi || (entryAt t k).kind.isExclusive) = true := by
      cases multi with
      | false => rfl
      | true => simp [exclusive rfl]
    cases last with
    | none =>
      simp only [List.map_cons, checkTokens, byte, kind, decide_eq_true inTable, decide_eq_true capacity, rest,
        Bool.and_true, need_true]
      rfl
    | some p =>
      simp only [List.map_cons, checkTokens, byte, kind, decide_eq_true inTable, decide_eq_true capacity, rest,
        decide_eq_true (above p rfl k (by simp)), Bool.and_true, need_true]
      rfl

theorem checkTokens_of_sound {t : List Entry} (ht : t.length ≤ 256) {u : Nat} {l : List Nat} (h : listSound t u l)
    (bits : Nat) : checkTokens t (decide (1 < l.length)) u (l.map byteOf) none bits = .ok l := by
  obtain ⟨_, _, ascends, sound⟩ := h
  refine checkTokens_pass ht none bits ((ascending_iff l).1 ascends) (by simp) fun k hk => ?_
  obtain ⟨inTable, capacity, exclusive⟩ := sound k hk
  exact ⟨inTable, capacity, fun several => exclusive (of_decide_eq_true several)⟩

/-! ## The records of a SNAP -/

theorem station_of_nibbles (a : Addr) (b : Nat) : BitVec.ofNat 4 (hiNibble (nibbles a.toNat b)) = a := by
  rw [hiNibble_nibbles a.isLt, BitVec.ofNat_toNat, BitVec.setWidth_eq]

/-- The holder records of an entry are read back, with the rest of the payload behind them. -/
theorem scanHolders_pass {kind : TokenKind} (rest : List Byte) : ∀ {hs : List Holder} (bits : Nat) (seen : List Addr)
    (held : Nat), (hs.map Holder.station).Nodup → (∀ h ∈ hs, h.station ∉ seen) → (∀ h ∈ hs, h.units < 16) →
    (kind.isExclusive = false → held + heldUnits hs ≤ kind.capacity) →
    scanHolders kind hs.length (hs.flatMap holderBytes ++ rest) bits seen held =
      .ok (hs, rest, bits + 8 * hs.length, (hs.map Holder.station).reverse ++ seen)
  | [], bits, seen, held, _, _, _, _ => by simp [scanHolders]
  | h :: hs, bits, seen, held, nodup, fresh, units, capacity => by
    obtain ⟨apart, nodup⟩ := List.nodup_cons.1 (List.map_cons ▸ nodup)
    have units_h : h.units < 16 := units h (by simp)
    have notSeen : (!seen.contains h.station) = true := by simpa using fresh h (by simp)
    have sum : heldUnits (h :: hs) = h.units + heldUnits hs := by simp [heldUnits]
    have within : (kind.isExclusive || decide (held + h.units ≤ kind.capacity)) = true := by
      cases hk : kind.isExclusive with
      | true => rfl
      | false =>
        have := capacity hk
        exact decide_eq_true (by omega)
    have tail := scanHolders_pass (kind := kind) rest (hs := hs) (bits + 8) (h.station :: seen) (held + h.units) nodup
      (fun x hx => by
        rw [List.mem_cons, not_or]
        exact ⟨fun same => apart (same ▸ List.mem_map_of_mem hx), fresh x (List.mem_cons_of_mem _ hx)⟩)
      (fun x hx => units x (List.mem_cons_of_mem _ hx))
      (fun hk => by
        have := capacity hk
        omega)
    simp only [List.length_cons, List.flatMap_cons, holderBytes, List.cons_append, List.nil_append, scanHolders,
      station_of_nibbles, loNibble_nibbles units_h, notSeen, within, tail, need_true]
    simp only [List.map_cons, List.reverse_cons, List.append_assoc, List.cons_append, List.nil_append]
    have position : bits + 8 + 8 * hs.length = bits + 8 * (hs.length + 1) := by omega
    rw [position]
    rfl

/-- The waiter records of an entry are read back. -/
theorem scanWaiters_pass {t : List Entry} (ht : t.length ≤ 256) : ∀ {ws : List Waiter} (bits : Nat) (seen : List Addr),
    (ws.map Waiter.station).Nodup → (∀ w ∈ ws, w.station ∉ seen) →
    (∀ w ∈ ws, w.units < 16 ∧ listSound t 0 w.list ∧ w.position < w.list.length) →
    scanWaiters t ws.length (ws.flatMap waiterBytes) bits seen = .ok ws
  | [], _, _, _, _, _ => rfl
  | w :: ws, bits, seen, nodup, fresh, sound => by
    obtain ⟨apart, nodup⟩ := List.nodup_cons.1 (List.map_cons ▸ nodup)
    obtain ⟨units, list, position⟩ := sound w (by simp)
    have some_w : 1 ≤ w.list.length := list.1
    have few : w.list.length ≤ 4 := list.2.1
    have notSeen : (!seen.contains w.station) = true := by simpa using fresh w (by simp)
    have count : hiNibble (nibbles w.list.length w.position) = w.list.length := hiNibble_nibbles (by omega)
    have place : loNibble (nibbles w.list.length w.position) = w.position := loNibble_nibbles (by omega)
    have bytes : (w.list.map byteOf).length = w.list.length := List.length_map _
    have tail := scanWaiters_pass ht (ws := ws) (bits + 16 + 8 * w.list.length) (w.station :: seen) nodup
      (fun x hx => by
        rw [List.mem_cons, not_or]
        exact ⟨fun same => apart (same ▸ List.mem_map_of_mem hx), fresh x (List.mem_cons_of_mem _ hx)⟩)
      (fun x hx => sound x (List.mem_cons_of_mem _ hx))
    have take : (w.list.map byteOf ++ ws.flatMap waiterBytes).take w.list.length = w.list.map byteOf := by
      rw [← bytes, List.take_left]
    have drop : (w.list.map byteOf ++ ws.flatMap waiterBytes).drop w.list.length = ws.flatMap waiterBytes := by
      rw [← bytes, List.drop_left]
    have length : (if ws.length = 0 then (w.list.map byteOf ++ ws.flatMap waiterBytes).length == w.list.length
        else decide (w.list.length ≤ (w.list.map byteOf ++ ws.flatMap waiterBytes).length)) = true := by
      cases ws with
      | nil => simp
      | cons v ws => simp
    simp only [List.length_cons, List.flatMap_cons, waiterBytes, List.cons_append, List.nil_append, scanWaiters,
      station_of_nibbles, loNibble_nibbles units, count, place, notSeen, length, take, drop, tail,
      decide_eq_true some_w, decide_eq_true few, decide_eq_true position, checkTokens_of_sound ht list, Bool.and_self,
      need_true, needLength_true]
    rfl

/-! ## The payloads -/

theorem checkRelease_pass {t : List Entry} (ht : t.length ≤ 256) {c : ReleaseCause} {l : List Nat}
    (h : listSound t 0 l) : checkRelease t (Frame.release c l).payload = .ok (.release c l) := by
  obtain ⟨some_l, few, _⟩ := id h
  have code : c.code < 16 := by cases c <;> decide
  have high : hiNibble (nibbles c.code l.length) = c.code := hiNibble_nibbles code
  have low : loNibble (nibbles c.code l.length) = l.length := loNibble_nibbles (by omega)
  have cause : c.code ≤ 1 := by cases c <;> decide
  have length : ((Frame.release c l).payload.length == 1 + l.length) = true := by simp [Frame.payload]; omega
  have drop : (Frame.release c l).payload.drop 1 = l.map byteOf := rfl
  have head : (Frame.release c l).payload.getD 0 0 = nibbles c.code l.length := rfl
  have full : (!(Frame.release c l).payload.isEmpty) = true := rfl
  simp only [checkRelease, full, head, high, low, length, drop, decide_eq_true cause, decide_eq_true some_l,
    decide_eq_true few, checkTokens_of_sound ht h, Bool.and_self, need_true, needLength_true]
  cases c <;> rfl

theorem checkClaim_pass {t : List Entry} (ht : t.length ≤ 256) {m : ClaimMode} {u : Nat} {l : List Nat}
    (h : (Frame.claim m u l).formed t) : checkClaim t (Frame.claim m u l).payload = .ok (.claim m u l) := by
  obtain ⟨sound, one, byte, try_one⟩ := h
  obtain ⟨some_l, few, _⟩ := id sound
  have code : m.code < 16 := by cases m <;> decide
  have high : hiNibble (nibbles m.code l.length) = m.code := hiNibble_nibbles code
  have low : loNibble (nibbles m.code l.length) = l.length := loNibble_nibbles (by omega)
  have mode : m.code ≤ 1 := by cases m <;> decide
  have single : (m.code == 0 || l.length == 1) = true := by
    cases m with
    | wait => rfl
    | tryNow => simp [try_one rfl]
  have length : ((Frame.claim m u l).payload.length == 2 + l.length) = true := by simp [Frame.payload]; omega
  have drop : (Frame.claim m u l).payload.drop 2 = l.map byteOf := rfl
  have head : (Frame.claim m u l).payload.getD 0 0 = nibbles m.code l.length := rfl
  have units : ((Frame.claim m u l).payload.getD 1 0).toNat = u := byteOf_toNat byte
  have full : (!(Frame.claim m u l).payload.isEmpty) = true := rfl
  simp only [checkClaim, full, head, units, high, low, length, drop, single, decide_eq_true mode, decide_eq_true some_l,
    decide_eq_true few, decide_eq_true one, checkTokens_of_sound ht sound, Bool.and_self, need_true, needLength_true]
  cases m <;> rfl

theorem checkSnap_pass {t : List Entry} (ht : t.length ≤ 256) {j : Addr} {i : Nat} {k : TokenKind} {hs : List Holder}
    {ws : List Waiter} (h : (Frame.snap j i k hs ws).formed t) :
    checkSnap t (Frame.snap j i k hs ws).payload = .ok (.snap j i k hs ws) := by
  obtain ⟨inTable, kind, ⟨fewHolders, fewWaiters, nodup, units, capacity, waiters⟩, _⟩ := h
  obtain ⟨holderStations, waiterStations, apart⟩ := List.nodup_append.1 nodup
  have eight : hs.length ≤ 8 := by
    split at fewHolders
    · omega
    · exact fewHolders
  set p := (Frame.snap j i k hs ws).payload with hp
  have four : 4 ≤ p.length := by simp [hp, Frame.payload, encodeEntry]
  have joiner : hiNibble (byteOf j.toNat) = 0 := hiNibble_byteOf j.isLt
  have index : (byteOf i).toNat = i := byteOf_toNat (by omega)
  have high : hiNibble (nibbles hs.length ws.length) = hs.length := hiNibble_nibbles (by omega)
  have low : loNibble (nibbles hs.length ws.length) = ws.length := loNibble_nibbles (by omega)
  have b0 : p.getD 0 0 = byteOf j.toNat := rfl
  have b1 : p.getD 1 0 = byteOf i := rfl
  have b2 : p.getD 2 0 = k.byte := rfl
  have b3 : p.getD 3 0 = nibbles hs.length ws.length := rfl
  have rest : p.drop 4 = hs.flatMap holderBytes ++ ws.flatMap waiterBytes := rfl
  have bytes : (hs.flatMap holderBytes).length = hs.length := by
    induction hs with
    | nil => rfl
    | cons h hs ih => simp [List.flatMap_cons, holderBytes]
  have length : (ws.length != 0 || p.length == 4 + hs.length) = true := by
    cases ws with
    | nil => simp [hp, Frame.payload, encodeEntry, bytes]; omega
    | cons w ws => rfl
  have holders := scanHolders_pass (kind := k) (ws.flatMap waiterBytes) (hs := hs) (payloadBit 32) [] 0 holderStations
    (by simp) units (fun hk => by simpa using capacity hk)
  have queue := scanWaiters_pass ht (ws := ws) (payloadBit 32 + 8 * hs.length)
    ((hs.map Holder.station).reverse ++ []) waiterStations
    (fun w hw => by simpa using fun x hx same => apart _ (List.mem_map_of_mem hx) _ (List.mem_map_of_mem hw) same) waiters
  simp only [checkSnap, b0, b1, b2, b3, rest, high, low, index, ← kind, holders, queue, length, joiner,
    decide_eq_true four, decide_eq_true inTable, decide_eq_true fewHolders, beq_self_eq_true, need_true, needLength_true,
    ok_bind]
  exact congrArg (fun x => Except.ok (Frame.snap x i k hs ws)) (byteOf_setWidth j)

/-- The check of a payload reads back what the sender encoded. -/
theorem checkPayload_pass {t : List Entry} (ht : t.length ≤ 256) : ∀ {f : Frame}, f.formed t →
    checkPayload t f.kindCode f.payload = .ok f
  | .evict a c, _ => by
    have high : hiNibble (byteOf a.toNat) = 0 := hiNibble_byteOf a.isLt
    simp only [checkPayload, Frame.kindCode, Frame.payload, List.getD_cons_zero, high]
    cases c <;> exact congrArg (fun x => Except.ok (Frame.evict x _)) (byteOf_setWidth a)
  | .release _ _, h => checkRelease_pass ht h
  | .withdraw o, h => by
    have inTable : o < t.length := h
    have byte : (byteOf o).toNat = o := byteOf_toNat (by omega)
    simp only [checkPayload, Frame.kindCode, Frame.payload, List.getD_cons_zero, byte, decide_eq_true inTable]
    rfl
  | .claim _ _ _, h => checkClaim_pass ht h
  | .signal mask code, _ => by
    have low : (byteOf code.toNat).toNat = code.toNat := byteOf_toNat (by omega)
    have few : code.toNat ≤ 7 := by omega
    have back : (byteOf code.toNat).setWidth 3 = code := by
      refine BitVec.eq_of_toNat_eq ?_
      rw [BitVec.toNat_setWidth, low]
      omega
    have third : (Frame.signal mask code).payload.getD 2 0 = byteOf code.toNat := rfl
    have mask_back : half ((Frame.signal mask code).payload.getD 0 0) ((Frame.signal mask code).payload.getD 1 0) = mask :=
      half_bytes16 mask
    simp only [checkPayload, Frame.kindCode, third, mask_back, low, back, decide_eq_true few]
    rfl
  | .snapreq d i, h => by
    have inTable : i < t.length := h
    have byte : (byteOf i).toNat = i := byteOf_toNat (by omega)
    have high : hiNibble (byteOf d.toNat) = 0 := hiNibble_byteOf d.isLt
    simp only [checkPayload, Frame.kindCode, Frame.payload, List.getD_cons_zero, List.getD_cons_succ, byte, high,
      decide_eq_true inTable]
    exact congrArg (fun x => Except.ok (Frame.snapreq x i)) (byteOf_setWidth d)
  | .snap _ _ _ _ _, h => checkSnap_pass ht h
  | .digest d, _ => congrArg (fun x => Except.ok (Frame.digest x)) (word_bytes32 d)
  | .presence st d, _ => by
    cases st <;> exact congrArg (fun x => Except.ok (Frame.presence _ x)) (word_bytes32 d)

/-- No frame that a station builds is longer than the longest one (R4). -/
theorem payload_le_of_formed {t : List Entry} {f : Frame} (h : f.formed t) : f.payload.length ≤ Config.maxPayload := by
  cases f with
  | release c l =>
    obtain ⟨_, few, _⟩ := h
    simp only [Frame.payload, List.length_cons, List.length_map, Config.maxPayload]
    omega
  | claim m u l =>
    obtain ⟨⟨_, few, _⟩, _⟩ := h
    simp only [Frame.payload, List.length_cons, List.length_map, Config.maxPayload]
    omega
  | snap j i k hs ws => exact h.2.2.2
  | _ => exact of_decide_eq_true rfl

theorem length_toRaw (a : Addr) {f : Frame} (h : f.payload.length < 256) :
    (f.toRaw a).length.toNat = f.payload.length := byteOf_toNat h

/-- Settles O43: header, payload and check value pass in that order. -/
theorem builtFramesPassTheReceiveCheck : Obligations.BuiltFramesPassTheReceiveCheck := by
  intro t self sender f ht other formed
  have fits := payload_le_of_formed formed
  have short : f.payload.length < 256 := Nat.lt_of_le_of_lt fits (by decide)
  have notOwn : (senderOf (f.toRaw sender) != self) = true := by
    rw [senderOf_toRaw]
    exact bne_iff_ne.2 other
  have ofKind : (classOfKind f.kindCode == some (classFieldOf (f.toRaw sender))) = true := by
    rw [classFieldOf_toRaw, classOfKind_kindCode, beq_self_eq_true]
  have value : ((f.toRaw sender).check == frameCheck (f.toRaw sender).contention (f.toRaw sender).kind
      (f.toRaw sender).length f.payload) = true := beq_self_eq_true _
  simp only [receiveCheck, notOwn, ofKind, length_toRaw sender short, decide_eq_true fits, kind_toRaw,
    payloadOf_toRaw sender short, checkPayload_pass (Nat.le_trans ht (by decide)) formed, value, need_true,
    needLength_true, ok_bind]
  rfl

end Sys2Proof.Machine
end

