-- ==== Sys2Proof/Proofs/Candidates.lean ====
section
/-! PROOFS. The candidates of a station and the one that goes (R12, R14, R18). -/

namespace Sys2Proof.Machine

/-! ## Members of the groups -/

/-- The EVICT candidate for a target, if the station wants one. -/
def State.evictOf (s : State) (a : Addr) : List TxFrame :=
  match s.member.evictWants.find? (fun w => w.1 == a) with
  | some w => [⟨.evict a w.2, none⟩]
  | none => []

theorem State.mem_evictOf {s : State} {a : Addr} {x : TxFrame} : x ∈ s.evictOf a ↔
    ∃ c, s.member.evictWants.find? (fun w => w.1 == a) = some (a, c) ∧ x = ⟨.evict a c, none⟩ := by
  unfold State.evictOf
  cases found : s.member.evictWants.find? (fun w => w.1 == a) with
  | none => simp
  | some w =>
    obtain ⟨b, c⟩ := w
    have target : b = a := by simpa using List.find?_some found
    subst target
    simp

theorem State.evictCandidates_eq (s : State) : s.evictCandidates = s.evictOf s.station ++
    ((List.range 16).map (BitVec.ofNat 4)).flatMap (fun a => if a = s.station then [] else s.evictOf a) := rfl

/-- Every address stands on the list that the lowest target is sought along. -/
theorem mem_addresses (a : Addr) : a ∈ (List.range 16).map (BitVec.ofNat 4) := by
  refine List.mem_map.2 ⟨a.toNat, List.mem_range.2 (by omega), ?_⟩
  rw [BitVec.ofNat_toNat, BitVec.setWidth_eq]

theorem addresses_ascend : ((List.range 16).map (BitVec.ofNat 4)).Pairwise (fun a b => a.toNat < b.toNat) := by
  decide

theorem State.mem_evictCandidates {s : State} {x : TxFrame} : x ∈ s.evictCandidates ↔
    ∃ a c, s.member.evictWants.find? (fun w => w.1 == a) = some (a, c) ∧ x = ⟨.evict a c, none⟩ := by
  have member : x ∈ s.evictCandidates ↔ ∃ a, x ∈ s.evictOf a := by
    rw [State.evictCandidates_eq, List.mem_append, List.mem_flatMap]
    constructor
    · rintro (own | ⟨a, _, other⟩)
      · exact ⟨_, own⟩
      · split at other
        · cases other
        · exact ⟨a, other⟩
    · rintro ⟨a, here⟩
      by_cases own : a = s.station
      · exact .inl (own ▸ here)
      · exact .inr ⟨a, mem_addresses a, by rwa [if_neg own]⟩
  simp only [member, State.mem_evictOf]

theorem State.mem_releaseCandidates {s : State} {x : TxFrame} : x ∈ s.releaseCandidates ↔
    ∃ l ∈ s.leases, (l.state = .releasePending ∧ x = ⟨.release .host l.tokens, none⟩) ∨
      (l.state = .expiredPending ∧ x = ⟨.release .expired l.tokens, none⟩) := by
  simp only [State.releaseCandidates, List.mem_map, List.mem_filter, Lease.pending, Bool.or_eq_true, beq_iff_eq]
  constructor
  · rintro ⟨l, ⟨mem, state | state⟩, rfl⟩ <;> exact ⟨l, mem, by simp [state]⟩
  · rintro ⟨l, mem, ⟨state, rfl⟩ | ⟨state, rfl⟩⟩ <;> exact ⟨l, ⟨mem, by simp [state]⟩, by simp [state]⟩

theorem State.mem_outgoingOf {s : State} {p : OutFrame → Bool} {x : TxFrame} :
    x ∈ s.outgoingOf p ↔ ∃ f ∈ s.req.outgoing, p f = true ∧ x = ⟨f.frame, some f.entry⟩ := by
  simp only [State.outgoingOf, List.mem_map, List.mem_filter, and_assoc, eq_comm]

theorem OutFrame.isWithdraw_iff {f : OutFrame} : f.isWithdraw = true ↔ ∃ o, f.frame = .withdraw o := by
  unfold OutFrame.isWithdraw
  cases f.frame <;> simp

theorem OutFrame.isClaim_iff {f : OutFrame} : f.isClaim = true ↔ ∃ m u l, f.frame = .claim m u l := by
  unfold OutFrame.isClaim
  cases f.frame <;> simp

theorem OutFrame.isSignal_iff {f : OutFrame} : f.isSignal = true ↔ ∃ m c, f.frame = .signal m c := by
  unfold OutFrame.isSignal
  cases f.frame <;> simp

theorem State.mem_snapreqCandidate {s : State} {x : TxFrame} : x ∈ s.snapreqCandidate ↔
    s.snap.engine = .requesting ∧ x = ⟨.snapreq (s.snap.donor.getD 15) s.snap.cursor, none⟩ := by
  unfold State.snapreqCandidate State.donorRef
  split <;> simp [*]

theorem State.mem_snapCandidate {s : State} {x : TxFrame} : x ∈ s.snapCandidate ↔
    ∃ j i rest, s.snap.service = (j, i) :: rest ∧
      x = ⟨.snap j i (entryAt s.table i).kind (entryAt s.table i).holders (entryAt s.table i).waiters, none⟩ := by
  unfold State.snapCandidate
  rcases s.snap.service with _ | ⟨⟨j, i⟩, rest⟩
  · simp
  · simp only [List.mem_singleton, List.cons.injEq, Prod.mk.injEq]
    exact ⟨fun h => ⟨j, i, rest, ⟨⟨rfl, rfl⟩, rfl⟩, h⟩, by rintro ⟨_, _, _, ⟨⟨rfl, rfl⟩, rfl⟩, h⟩; exact h⟩

/-- The DIGEST candidate. -/
def State.digestCandidate (s : State) : List TxFrame :=
  if s.digest.want then [⟨.digest s.tableDigest, none⟩] else []

/-- The PRESENCE candidate. -/
def State.presenceCandidate (s : State) : List TxFrame :=
  if s.member.presenceWant then [⟨.presence (presenceStateOf s.member.state) s.config.digest, none⟩] else []

theorem State.mem_digestCandidate {s : State} {x : TxFrame} : x ∈ s.digestCandidate ↔
    s.digest.want = true ∧ x = ⟨.digest s.tableDigest, none⟩ := by
  unfold State.digestCandidate
  split <;> simp [*]

theorem State.mem_presenceCandidate {s : State} {x : TxFrame} : x ∈ s.presenceCandidate ↔
    s.member.presenceWant = true ∧ x = ⟨.presence (presenceStateOf s.member.state) s.config.digest, none⟩ := by
  unfold State.presenceCandidate
  split <;> simp [*]

theorem State.candidates_eq (s : State) : s.candidates =
    s.evictCandidates ++ s.releaseCandidates ++ s.outgoingOf OutFrame.isWithdraw ++ s.outgoingOf OutFrame.isClaim ++
      s.outgoingOf OutFrame.isSignal ++ s.snapreqCandidate ++ s.snapCandidate ++ s.digestCandidate ++
      s.presenceCandidate := rfl

/-! ## A group holds one kind -/

theorem kind_of_mem_evictCandidates {s : State} {x : TxFrame} (h : x ∈ s.evictCandidates) : x.frame.kindCode = 1 := by
  obtain ⟨a, c, _, rfl⟩ := State.mem_evictCandidates.1 h
  rfl

theorem kind_of_mem_releaseCandidates {s : State} {x : TxFrame} (h : x ∈ s.releaseCandidates) :
    x.frame.kindCode = 2 := by
  obtain ⟨l, _, ⟨_, rfl⟩ | ⟨_, rfl⟩⟩ := State.mem_releaseCandidates.1 h <;> rfl

theorem kind_of_mem_withdraws {s : State} {x : TxFrame} (h : x ∈ s.outgoingOf OutFrame.isWithdraw) :
    x.frame.kindCode = 3 := by
  obtain ⟨f, _, kind, rfl⟩ := State.mem_outgoingOf.1 h
  obtain ⟨o, frame⟩ := OutFrame.isWithdraw_iff.1 kind
  exact congrArg Frame.kindCode frame

theorem kind_of_mem_claims {s : State} {x : TxFrame} (h : x ∈ s.outgoingOf OutFrame.isClaim) :
    x.frame.kindCode = 4 := by
  obtain ⟨f, _, kind, rfl⟩ := State.mem_outgoingOf.1 h
  obtain ⟨m, u, l, frame⟩ := OutFrame.isClaim_iff.1 kind
  exact congrArg Frame.kindCode frame

theorem kind_of_mem_signals {s : State} {x : TxFrame} (h : x ∈ s.outgoingOf OutFrame.isSignal) :
    x.frame.kindCode = 5 := by
  obtain ⟨f, _, kind, rfl⟩ := State.mem_outgoingOf.1 h
  obtain ⟨m, c, frame⟩ := OutFrame.isSignal_iff.1 kind
  exact congrArg Frame.kindCode frame

theorem kind_of_mem_snapreqCandidate {s : State} {x : TxFrame} (h : x ∈ s.snapreqCandidate) :
    x.frame.kindCode = 6 := by
  obtain ⟨_, rfl⟩ := State.mem_snapreqCandidate.1 h
  rfl

theorem kind_of_mem_snapCandidate {s : State} {x : TxFrame} (h : x ∈ s.snapCandidate) : x.frame.kindCode = 7 := by
  obtain ⟨_, _, _, _, rfl⟩ := State.mem_snapCandidate.1 h
  rfl

theorem kind_of_mem_digestCandidate {s : State} {x : TxFrame} (h : x ∈ s.digestCandidate) : x.frame.kindCode = 8 := by
  obtain ⟨_, rfl⟩ := State.mem_digestCandidate.1 h
  rfl

theorem kind_of_mem_presenceCandidate {s : State} {x : TxFrame} (h : x ∈ s.presenceCandidate) :
    x.frame.kindCode = 9 := by
  obtain ⟨_, rfl⟩ := State.mem_presenceCandidate.1 h
  rfl

/-! ## Groups in order -/

/-- The elements of a group of one kind code, in a list of elements of this code or others. -/
theorem filter_kind {l : List TxFrame} {j : Nat} (h : ∀ x ∈ l, x.frame.kindCode = j) (k : Nat) :
    l.filter (fun x => x.frame.kindCode == k) = if j = k then l else [] := by
  split
  next same => exact List.filter_eq_self.2 fun x hx => by simp [h x hx, same]
  next differ => exact List.filter_eq_nil_iff.2 fun x hx => by simp [h x hx, differ]

/-- The candidates of one kind. -/
theorem State.candidates_filter_kind (s : State) (k : Nat) : s.candidates.filter (fun x => x.frame.kindCode == k) =
    (if 1 = k then s.evictCandidates else []) ++ (if 2 = k then s.releaseCandidates else []) ++
      (if 3 = k then s.outgoingOf OutFrame.isWithdraw else []) ++ (if 4 = k then s.outgoingOf OutFrame.isClaim else []) ++
      (if 5 = k then s.outgoingOf OutFrame.isSignal else []) ++ (if 6 = k then s.snapreqCandidate else []) ++
      (if 7 = k then s.snapCandidate else []) ++ (if 8 = k then s.digestCandidate else []) ++
      (if 9 = k then s.presenceCandidate else []) := by
  simp only [State.candidates_eq, List.filter_append, filter_kind (fun _ => kind_of_mem_evictCandidates),
    filter_kind (fun _ => kind_of_mem_releaseCandidates), filter_kind (fun _ => kind_of_mem_withdraws),
    filter_kind (fun _ => kind_of_mem_claims), filter_kind (fun _ => kind_of_mem_signals),
    filter_kind (fun _ => kind_of_mem_snapreqCandidate), filter_kind (fun _ => kind_of_mem_snapCandidate),
    filter_kind (fun _ => kind_of_mem_digestCandidate), filter_kind (fun _ => kind_of_mem_presenceCandidate)]

/-- A list of one kind behind a list of lower ones. -/
theorem pairwise_kind_append {l m : List TxFrame} {k : Nat}
    (hl : l.Pairwise (fun c d => c.frame.kindCode ≤ d.frame.kindCode) ∧ ∀ x ∈ l, x.frame.kindCode < k)
    (hm : ∀ x ∈ m, x.frame.kindCode = k) :
    (l ++ m).Pairwise (fun c d => c.frame.kindCode ≤ d.frame.kindCode) ∧ ∀ x ∈ l ++ m, x.frame.kindCode < k + 1 := by
  obtain ⟨order, low⟩ := hl
  refine ⟨List.pairwise_append.2 ⟨order, ?_, fun c hc d hd => by rw [hm d hd]; exact (low c hc).le⟩, fun x hx => ?_⟩
  · exact List.pairwise_iff_forall_sublist.2 fun {c d} sub => by
      rw [hm c (sub.subset (by simp)), hm d (sub.subset (by simp))]
  · rcases List.mem_append.1 hx with left | right
    · exact Nat.lt_succ_of_lt (low x left)
    · rw [hm x right]
      exact Nat.lt_succ_self k

/-- The candidates stand in the order of their kinds. -/
theorem State.candidates_ascend (s : State) :
    s.candidates.Pairwise (fun c d => c.frame.kindCode ≤ d.frame.kindCode) := by
  have evicts : ([] : List TxFrame).Pairwise (fun c d => c.frame.kindCode ≤ d.frame.kindCode) ∧
      ∀ x ∈ ([] : List TxFrame), x.frame.kindCode < 1 := ⟨.nil, by simp⟩
  have releases := pairwise_kind_append evicts (fun _ => kind_of_mem_evictCandidates (s := s))
  have withdraws := pairwise_kind_append releases (fun _ => kind_of_mem_releaseCandidates (s := s))
  have claims := pairwise_kind_append withdraws (fun _ => kind_of_mem_withdraws (s := s))
  have signals := pairwise_kind_append claims (fun _ => kind_of_mem_claims (s := s))
  have snapreqs := pairwise_kind_append signals (fun _ => kind_of_mem_signals (s := s))
  have snaps := pairwise_kind_append snapreqs (fun _ => kind_of_mem_snapreqCandidate (s := s))
  have digests := pairwise_kind_append snaps (fun _ => kind_of_mem_snapCandidate (s := s))
  have presences := pairwise_kind_append digests (fun _ => kind_of_mem_digestCandidate (s := s))
  exact (pairwise_kind_append presences (fun _ => kind_of_mem_presenceCandidate (s := s))).1

/-- A higher class is a higher kind. -/
theorem classCode_mono {f g : Frame} (h : f.kindCode ≤ g.kindCode) : f.classCode ≤ g.classCode := by
  have table : ∀ m < 10, ∀ k < 10, k ≤ m → (classOfKind k).getD 0 ≤ (classOfKind m).getD 0 := by decide
  have below : ∀ x : Frame, x.kindCode < 10 := fun x => by cases x <;> exact of_decide_eq_true rfl
  exact table _ (below g) _ (below f) h

/-! ## The first permitted one -/

/-- Of the elements of a kind that may be found, the one found is the first. -/
theorem first_of_find? {α : Type} {l : List α} {p q : α → Bool} {R : α → α → Prop} {c d : α}
    (ordered : (l.filter q).Pairwise R) (found : l.find? p = some c) (hc : q c = true) (hd : d ∈ l)
    (qd : q d = true) (pd : p d = true) : d = c ∨ R c d := by
  obtain ⟨_, pre, post, rfl, before⟩ := List.find?_eq_some_iff_append.1 found
  rcases List.mem_append.1 hd with early | late
  · exact absurd pd (by simpa using before d early)
  · rcases List.mem_cons.1 late with same | after
    · exact .inl same
    · rw [List.filter_append, List.filter_cons_of_pos hc, List.pairwise_append, List.pairwise_cons] at ordered
      obtain ⟨_, ⟨least, _⟩, _⟩ := ordered
      exact .inr (least d (List.mem_filter.2 ⟨after, qd⟩))

/-- A find restricted to a kind that holds the element found. -/
theorem find?_filter_of_find? {α : Type} {l : List α} {p q : α → Bool} {c : α} (found : l.find? p = some c)
    (hc : q c = true) : (l.filter q).find? p = some c := by
  obtain ⟨pc, pre, post, rfl, before⟩ := List.find?_eq_some_iff_append.1 found
  rw [List.filter_append, List.filter_cons_of_pos hc]
  exact List.find?_eq_some_iff_append.2 ⟨pc, _, _, rfl, fun a ha => before a (List.mem_filter.1 ha).1⟩

theorem State.chosen_eq (s : State) :
    s.chosen = s.candidates.find? (fun c => permitted s.member.state s.station c.frame) := rfl

theorem State.chosen_mem {s : State} {c : TxFrame} (h : s.chosen = some c) :
    c ∈ s.candidates ∧ permitted s.member.state s.station c.frame = true :=
  ⟨List.mem_of_find?_eq_some h,
    List.find?_some (p := fun c : TxFrame => permitted s.member.state s.station c.frame) h⟩

theorem State.chosen_lowest_class {s : State} {c d : TxFrame} (h : s.chosen = some c) (hd : d ∈ s.candidates)
    (may : permitted s.member.state s.station d.frame = true) : c.frame.classCode ≤ d.frame.classCode := by
  have ordered : (s.candidates.filter (fun _ => true)).Pairwise (fun c d => c.frame.kindCode ≤ d.frame.kindCode) := by
    rw [List.filter_true]
    exact s.candidates_ascend
  rcases first_of_find? ordered h rfl hd rfl may with same | order
  · rw [same]
  · exact classCode_mono order

/-! ## EVICT: the own address, then the lowest target -/

/-- The order of two EVICT candidates. -/
def evictBefore (own : Addr) (x y : TxFrame) : Prop :=
  ∀ a c b d, x = ⟨.evict a c, none⟩ → y = ⟨.evict b d, none⟩ → a = own ∨ b ≠ own ∧ a.toNat ≤ b.toNat

theorem State.evictCandidates_ordered (s : State) : s.evictCandidates.Pairwise (evictBefore s.station) := by
  rw [State.evictCandidates_eq, List.pairwise_append]
  have one : ∀ a, (s.evictOf a).Pairwise (evictBefore s.station) := by
    intro a
    unfold State.evictOf
    split <;> simp
  have target : ∀ {a b : Addr} {c : EvictCause}, (⟨.evict b c, none⟩ : TxFrame) ∈ s.evictOf a → b = a := by
    intro a b c h
    obtain ⟨_, _, same⟩ := State.mem_evictOf.1 h
    cases same
    rfl
  refine ⟨one _, List.pairwise_flatMap.2 ⟨fun a _ => ?_, ?_⟩, ?_⟩
  · split
    · exact .nil
    · exact one a
  · refine addresses_ascend.imp fun {a b} below x hx y hy => ?_
    split at hx
    · cases hx
    · split at hy
      · cases hy
      · rintro a' c b' d rfl rfl
        obtain rfl := target hx
        obtain rfl := target hy
        exact .inr ⟨‹_›, below.le⟩
  · rintro x hx y _ a c b d rfl rfl
    exact .inl (target hx)

/-! ## What the states permit -/

theorem permitted_active_iff {own : Addr} {f : Frame} : permitted .active own f = true ↔
    (∀ t, f ≠ .evict t .self) ∧ (∀ d i, f ≠ .snapreq d i) ∧ ∀ p d, f = .presence p d → p = .active := by
  cases f with
  | evict t c => cases c <;> simp [permitted]
  | presence p d => cases p <;> simp [permitted]
  | _ => simp [permitted]

theorem permitted_leaving_iff {own : Addr} {f : Frame} : permitted .leaving own f = true ↔
    f = .evict own .self ∨ (∃ c l, f = .release c l) ∨ (∃ d, f = .presence .active d) ∨
      ∃ j i k hs ws, f = .snap j i k hs ws := by
  cases f with
  | evict t c => cases c <;> simp [permitted]
  | presence p d => cases p <;> simp [permitted]
  | _ => simp [permitted]

theorem permitted_joining_iff {own : Addr} {f : Frame} : permitted .joining own f = true ↔
    (∃ d, f = .presence .joining d) ∨ ∃ d i, f = .snapreq d i := by
  cases f with
  | presence p d => cases p <;> simp [permitted]
  | _ => simp [permitted]

theorem permitted_listening_iff {own : Addr} {f : Frame} : permitted .listening own f = true ↔
    ∃ d, f = .presence .listening d := by
  cases f with
  | presence p d => cases p <;> simp [permitted]
  | _ => simp [permitted]

/-- WITHDRAW, CLAIM and SIGNAL go in ACTIVE alone. -/
theorem permitted_outgoing {st : MState} {own : Addr} {f : Frame} (low : 3 ≤ f.kindCode) (high : f.kindCode ≤ 5) :
    permitted st own f = decide (st = .active) := by
  cases f with
  | withdraw _ | claim _ _ _ | signal _ _ => cases st <;> rfl
  | evict _ _ | release _ _ => exact absurd low (by simp [Frame.kindCode])
  | _ => exact absurd high (by simp [Frame.kindCode])

/-! ## The outgoing list goes by age -/

theorem OutFrame.isWithdraw_funext : OutFrame.isWithdraw = fun f => f.frame.kindCode == 3 := by
  funext f
  unfold OutFrame.isWithdraw
  cases f.frame <;> rfl

theorem OutFrame.isClaim_funext : OutFrame.isClaim = fun f => f.frame.kindCode == 4 := by
  funext f
  unfold OutFrame.isClaim
  cases f.frame <;> rfl

theorem OutFrame.isSignal_funext : OutFrame.isSignal = fun f => f.frame.kindCode == 5 := by
  funext f
  unfold OutFrame.isSignal
  cases f.frame <;> rfl

/-- The candidates of a kind that the outgoing list gives. -/
theorem State.candidates_filter_outgoing {s : State} {k : Nat} (low : 3 ≤ k) (high : k ≤ 5) :
    s.candidates.filter (fun x => x.frame.kindCode == k) = s.outgoingOf (fun f => f.frame.kindCode == k) := by
  rw [State.candidates_filter_kind]
  obtain rfl | rfl | rfl : k = 3 ∨ k = 4 ∨ k = 5 := by omega
  · simp [← OutFrame.isWithdraw_funext]
  · simp [← OutFrame.isClaim_funext]
  · simp [← OutFrame.isSignal_funext]

/-- A candidate with an entry number comes from the outgoing list. -/
theorem State.kind_of_outgoing {s : State} {g : Frame} {n : Nat} (h : (⟨g, some n⟩ : TxFrame) ∈ s.candidates) :
    3 ≤ g.kindCode ∧ g.kindCode ≤ 5 := by
  simp only [State.candidates_eq, List.mem_append, or_assoc] at h
  rcases h with h | h | h | h | h | h | h | h | h
  · simp [State.mem_evictCandidates] at h
  · simp [State.mem_releaseCandidates] at h
  · have kind : g.kindCode = 3 := kind_of_mem_withdraws h
    omega
  · have kind : g.kindCode = 4 := kind_of_mem_claims h
    omega
  · have kind : g.kindCode = 5 := kind_of_mem_signals h
    omega
  · simp [State.mem_snapreqCandidate] at h
  · simp [State.mem_snapCandidate] at h
  · simp [State.mem_digestCandidate] at h
  · simp [State.mem_presenceCandidate] at h

/-- Kinds 3 to 5 have a class of their own. -/
theorem kindCode_of_classCode {f g : Frame} (low : 3 ≤ g.kindCode) (high : g.kindCode ≤ 5)
    (same : f.classCode = g.classCode) : f.kindCode = g.kindCode := by
  have table : ∀ k < 10, ∀ j < 10,
      3 ≤ k ∧ k ≤ 5 ∧ 1 ≤ j ∧ (classOfKind j).getD 0 = (classOfKind k).getD 0 → j = k := by
    decide
  have above : 1 ≤ f.kindCode ∧ f.kindCode < 10 := by cases f <;> exact of_decide_eq_true rfl
  exact table _ (by omega) _ above.2 ⟨low, high, above.1, same⟩

/-- Of a kind, the oldest frame of the outgoing list goes. -/
theorem State.chosen_oldest {s : State} {g : Frame} {n : Nat} (h : s.chosen = some ⟨g, some n⟩) :
    ∃ pre f post, s.req.outgoing = pre ++ f :: post ∧ f.frame = g ∧ f.entry = n ∧
      ∀ h ∈ pre, h.frame.classCode ≠ g.classCode := by
  obtain ⟨mem, may⟩ := State.chosen_mem h
  obtain ⟨low, high⟩ := State.kind_of_outgoing mem
  have found := find?_filter_of_find? (q := fun x => x.frame.kindCode == g.kindCode) h (by simp)
  rw [State.candidates_filter_outgoing low high, State.outgoingOf, List.find?_map, List.find?_filter,
    Option.map_eq_some_iff] at found
  obtain ⟨f, found, same⟩ := found
  cases same
  obtain ⟨_, pre, post, list, before⟩ := List.find?_eq_some_iff_append.1 found
  refine ⟨pre, f, post, list, rfl, rfl, fun e he same => ?_⟩
  have kind := kindCode_of_classCode low high same
  have permits : permitted s.member.state s.station e.frame = true := by
    rw [permitted_outgoing (by omega) (by omega), ← permitted_outgoing low high (own := s.station)]
    exact may
  have skipped := before e he
  simp [kind, permits] at skipped

/-! ## The obligation -/

theorem State.mem_candidates {s : State} {x : TxFrame} : x ∈ s.candidates ↔
    (∃ a c, s.member.evictWants.find? (fun w => w.1 == a) = some (a, c) ∧ x = ⟨.evict a c, none⟩) ∨
    (∃ l ∈ s.leases, (l.state = .releasePending ∧ x = ⟨.release .host l.tokens, none⟩) ∨
      (l.state = .expiredPending ∧ x = ⟨.release .expired l.tokens, none⟩)) ∨
    (∃ f ∈ s.req.outgoing, x = ⟨f.frame, some f.entry⟩ ∧
      ((∃ o, f.frame = .withdraw o) ∨ (∃ m u l, f.frame = .claim m u l) ∨ ∃ m c, f.frame = .signal m c)) ∨
    (s.snap.engine = .requesting ∧ x = ⟨.snapreq (s.snap.donor.getD 15) s.snap.cursor, none⟩) ∨
    (∃ j i rest, s.snap.service = (j, i) :: rest ∧
      x = ⟨.snap j i (entryAt s.table i).kind (entryAt s.table i).holders (entryAt s.table i).waiters, none⟩) ∨
    (s.digest.want = true ∧ x = ⟨.digest s.tableDigest, none⟩) ∨
    (s.member.presenceWant = true ∧ x = ⟨.presence (presenceStateOf s.member.state) s.config.digest, none⟩) := by
  have outgoing : (∃ f ∈ s.req.outgoing, x = ⟨f.frame, some f.entry⟩ ∧
      ((∃ o, f.frame = .withdraw o) ∨ (∃ m u l, f.frame = .claim m u l) ∨ ∃ m c, f.frame = .signal m c)) ↔
      x ∈ s.outgoingOf OutFrame.isWithdraw ∨ x ∈ s.outgoingOf OutFrame.isClaim ∨
        x ∈ s.outgoingOf OutFrame.isSignal := by
    simp only [State.mem_outgoingOf, OutFrame.isWithdraw_iff, OutFrame.isClaim_iff, OutFrame.isSignal_iff,
      ← exists_or, ← and_or_left]
    refine exists_congr fun f => and_congr_right fun _ => ?_
    rw [and_or_left, and_or_left]
    simp only [and_comm]
  rw [outgoing]
  simp only [State.candidates_eq, List.mem_append, State.mem_evictCandidates, State.mem_releaseCandidates,
    State.mem_snapreqCandidate, State.mem_snapCandidate, State.mem_digestCandidate, State.mem_presenceCandidate,
    or_assoc]

theorem State.chosen_evict {s : State} {a : Addr} {c : EvictCause} (h : s.chosen = some ⟨.evict a c, none⟩) :
    a = s.station ∨ ∀ b d, (⟨.evict b d, none⟩ : TxFrame) ∈ s.candidates →
      permitted s.member.state s.station (.evict b d) = true → b ≠ s.station ∧ a.toNat ≤ b.toNat := by
  rw [or_iff_not_imp_left]
  intro other b d hd may
  have ordered : (s.candidates.filter (fun x => x.frame.kindCode == 1)).Pairwise (evictBefore s.station) := by
    rw [State.candidates_filter_kind]
    simpa using s.evictCandidates_ordered
  rcases first_of_find? ordered h rfl hd rfl may with same | before
  · cases same
    exact ⟨other, Nat.le_refl _⟩
  · exact (before a c b d rfl rfl).resolve_left other

theorem State.chosen_release {s : State} (sorted : (s.leases.map Lease.first).Pairwise (· ≤ ·)) {c : ReleaseCause}
    {l : List Nat} (h : s.chosen = some ⟨.release c l, none⟩) {d : ReleaseCause} {m : List Nat}
    (hd : (⟨.release d m, none⟩ : TxFrame) ∈ s.candidates)
    (may : permitted s.member.state s.station (.release d m) = true) : l.headD 0 ≤ m.headD 0 := by
  have ordered : (s.candidates.filter (fun x => x.frame.kindCode == 2)).Pairwise
      (fun x y => ∀ c l d m, x = ⟨.release c l, none⟩ → y = ⟨.release d m, none⟩ → l.headD 0 ≤ m.headD 0) := by
    have releases : s.releaseCandidates.Pairwise
        (fun x y => ∀ c l d m, x = ⟨.release c l, none⟩ → y = ⟨.release d m, none⟩ → l.headD 0 ≤ m.headD 0) := by
      refine List.pairwise_map.2 (((List.pairwise_map.1 sorted).filter _).imp fun {x y} order => ?_)
      rintro _ _ _ _ hx hy
      cases hx
      cases hy
      exact order
    rw [State.candidates_filter_kind]
    simpa using releases
  rcases first_of_find? ordered h rfl hd rfl may with same | before
  · cases same
    exact Nat.le_refl _
  · exact before c l d m rfl rfl

theorem State.chosen_snap {s : State} {j : Addr} {i : Nat} {k : TokenKind} {hs : List Holder} {ws : List Waiter}
    {e : Option Nat} (h : s.chosen = some ⟨.snap j i k hs ws, e⟩) {d : Addr} {m : Nat} :
    permitted s.member.state s.station (.snapreq d m) = false := by
  obtain ⟨_, may⟩ := State.chosen_mem h
  cases state : s.member.state <;> simp [state, permitted] at may ⊢

/-- Settles O39: the candidates stand group by group in the order of R14. -/
theorem lowestClassCandidateGoes : Obligations.LowestClassCandidateGoes := by
  refine ⟨fun s x => State.mem_candidates.trans ?_, fun own f => ⟨rfl, rfl, permitted_listening_iff,
    permitted_joining_iff, permitted_active_iff, permitted_leaving_iff⟩, fun s => ?_⟩
  · cases s.member.state <;> rfl
  · refine ⟨fun c h => ⟨State.chosen_mem h, fun d ⟨hd, may⟩ => State.chosen_lowest_class h hd may⟩,
      fun none d ⟨hd, may⟩ => ?_, fun a c h => ?_, fun sorted c l h d m ⟨hd, may⟩ => State.chosen_release sorted h hd may,
      fun g n h => State.chosen_oldest h, fun j i k hs ws e h d m o ⟨_, may⟩ => ?_⟩
    · exact List.find?_eq_none.1 none d hd may
    · exact (State.chosen_evict h).imp_right fun first b d ⟨hd, may⟩ => first b d hd may
    · rw [State.chosen_snap h] at may
      cases may

end Sys2Proof.Machine
end

