-- ==== Sys2Proof/Proofs/LineStart.lean ====
section
/-! PROOFS. Contention and the start of a frame (R6, R7, R15), and the levels a station drives (R1). -/

namespace Sys2Proof.Machine

/-! ## The value of a field sent most significant bit first -/

/-- The number that a list of bits writes, most significant first. -/
def bitsValue : List Bool → Nat
  | [] => 0
  | b :: l => b.toNat * 2 ^ l.length + bitsValue l

theorem bitsValue_lt (l : List Bool) : bitsValue l < 2 ^ l.length := by
  induction l with
  | nil => exact Nat.one_pos
  | cons b l ih =>
    simp only [bitsValue, List.length_cons, Nat.pow_succ]
    cases b <;> simp only [Bool.toNat_false, Bool.toNat_true] <;> omega

theorem bitsValue_fieldBits : ∀ x : BitVec 7, bitsValue (fieldBits x) = x.toNat := by decide

theorem length_fieldBits {w : Nat} (x : BitVec w) : (fieldBits x).length = w := by simp [fieldBits]

/-- Of two lists of one length, the leading bits decide unless they are equal. -/
theorem bitsValue_cons_le {b c : Bool} {l m : List Bool} (same : m.length = l.length) :
    bitsValue (b :: l) ≤ bitsValue (c :: m) ↔ b.toNat < c.toNat ∨ b = c ∧ bitsValue l ≤ bitsValue m := by
  have hl := bitsValue_lt l
  have hm := bitsValue_lt m
  rw [same] at hm
  simp only [bitsValue, same]
  cases b <;> cases c <;> simp <;> omega

/-! ## Contention bit by bit -/

/-- The rivals still sending after a bit in which the line was at this level, their next bits first. -/
def stillSending (line : Bool) (rivals : List (List Bool)) : List (List Bool) :=
  (rivals.filter (fun r => r.headD true == line)).map List.tail

theorem mem_stillSending {line : Bool} {rivals : List (List Bool)} {n : Nat} (long : ∀ r ∈ rivals, r.length = n + 1)
    {r : List Bool} : r ∈ stillSending line rivals ↔ line :: r ∈ rivals := by
  simp only [stillSending, List.mem_map, List.mem_filter, beq_iff_eq]
  constructor
  · rintro ⟨q, ⟨mem, head⟩, rfl⟩
    cases q with
    | nil => exact absurd (long _ mem) (by simp)
    | cons c q =>
      rw [List.headD_cons] at head
      exact head ▸ mem
  · intro mem
    exact ⟨line :: r, ⟨mem, rfl⟩, rfl⟩

theorem length_of_mem_stillSending {line : Bool} {rivals : List (List Bool)} {n : Nat}
    (long : ∀ r ∈ rivals, r.length = n + 1) : ∀ r ∈ stillSending line rivals, r.length = n := fun _ hr =>
  Nat.succ_injective (long _ ((mem_stillSending long).1 hr))

theorem contend_cons (b : Bool) (own : List Bool) (rivals : List (List Bool)) : contend (b :: own) rivals =
    if b = true ∧ ∃ r ∈ rivals, r.headD true = false then false else contend own (stillSending b rivals) := by
  cases b with
  | false => simp [contend, stillSending]
  | true =>
    cases all : rivals.all (fun r => r.headD true) with
    | true =>
      have alone : ¬ ∃ r ∈ rivals, r.headD true = false := by
        rintro ⟨r, hr, low⟩
        rw [List.all_eq_true.1 all r hr] at low
        cases low
      rw [if_neg (by simpa using alone)]
      simp only [contend, stillSending, all, Bool.and_self, Bool.not_true, Bool.and_false, Bool.false_eq_true, if_false]
    | false =>
      have lower : ∃ r ∈ rivals, r.headD true = false := by simpa using List.all_eq_false.1 all
      rw [if_pos ⟨rfl, lower⟩]
      simp only [contend, all, Bool.and_false, Bool.not_false, Bool.and_true, if_true]

theorem contentionLevels_cons (b : Bool) (own : List Bool) (rivals : List (List Bool)) :
    contentionLevels (b :: own) rivals =
      if b = true ∧ ∃ r ∈ rivals, r.headD true = false then [b]
      else b :: contentionLevels own (stillSending b rivals) := by
  cases b with
  | false => simp [contentionLevels, stillSending]
  | true =>
    cases all : rivals.all (fun r => r.headD true) with
    | true =>
      have alone : ¬ ∃ r ∈ rivals, r.headD true = false := by
        rintro ⟨r, hr, low⟩
        rw [List.all_eq_true.1 all r hr] at low
        cases low
      rw [if_neg (by simpa using alone)]
      simp only [contentionLevels, stillSending, all, Bool.and_self, Bool.not_true, Bool.and_false, Bool.false_eq_true,
        if_false]
    | false =>
      have lower : ∃ r ∈ rivals, r.headD true = false := by simpa using List.all_eq_false.1 all
      rw [if_pos ⟨rfl, lower⟩]
      simp only [contentionLevels, all, Bool.and_false, Bool.not_false, Bool.and_true, if_true]

/-- Still sending at the end are those of the lowest value. -/
theorem contend_iff : ∀ {own : List Bool} {rivals : List (List Bool)}, (∀ r ∈ rivals, r.length = own.length) →
    (contend own rivals = true ↔ ∀ r ∈ rivals, bitsValue own ≤ bitsValue r)
  | [], _, _ => by simp [contend, bitsValue]
  | b :: own, rivals, long => by
    have rest := contend_iff (own := own) (length_of_mem_stillSending (line := b) long)
    have shape : ∀ r ∈ rivals, ∃ c q, r = c :: q ∧ q.length = own.length := fun r hr => by
      cases r with
      | nil => exact absurd (long _ hr) (by simp)
      | cons c q => exact ⟨c, q, rfl, Nat.succ_injective (long _ hr)⟩
    rw [contend_cons]
    split
    next lost =>
      obtain ⟨rfl, r, hr, low⟩ := lost
      obtain ⟨c, q, rfl, same⟩ := shape r hr
      rw [List.headD_cons] at low
      subst low
      refine iff_of_false (by simp) fun least => ?_
      have := (bitsValue_cons_le same).1 (least _ hr)
      simp at this
    next goes =>
      rw [rest]
      constructor
      · intro least r hr
        obtain ⟨c, q, rfl, same⟩ := shape r hr
        refine (bitsValue_cons_le same).2 ?_
        by_cases head : b = c
        · subst head
          exact .inr ⟨rfl, least q ((mem_stillSending long).2 hr)⟩
        · refine .inl ?_
          cases b with
          | false => simp [Bool.eq_true_of_not_eq_false (Ne.symm head)]
          | true => exact absurd ⟨rfl, _, hr, Bool.eq_false_of_not_eq_true (Ne.symm head)⟩ goes
      · intro least q hq
        have hr := (mem_stillSending long).1 hq
        rcases (bitsValue_cons_le (length_of_mem_stillSending long q hq)).1 (least _ hr) with less | ⟨_, le⟩
        · exact absurd less (Nat.lt_irrefl _)
        · exact le

/-- A station that loses to the lowest rival drives its bits up to the first in which the two differ. -/
theorem contentionLevels_lost : ∀ {own m : List Bool} {rivals : List (List Bool)} {i : Nat},
    (∀ r ∈ rivals, r.length = own.length) → m ∈ rivals → (∀ r ∈ rivals, bitsValue m ≤ bitsValue r) →
    bitsValue m < bitsValue own → i < own.length → own.getD i true ≠ m.getD i true →
    (∀ j < i, own.getD j true = m.getD j true) →
    contentionLevels own rivals = own.take (i + 1) ∧ own.getD i true = true
  | [], _, _, _, _, _, _, _, inside, _, _ => absurd inside (by simp)
  | b :: own, m, rivals, i, long, hm, least, less, inside, differ, agree => by
    obtain ⟨c, q, rfl, same⟩ : ∃ c q, m = c :: q ∧ q.length = own.length := by
      cases m with
      | nil => exact absurd (long _ hm) (by simp)
      | cons c q => exact ⟨c, q, rfl, Nat.succ_injective (long _ hm)⟩
    have above : ¬ (b.toNat < c.toNat ∨ b = c ∧ bitsValue own ≤ bitsValue q) := by
      rw [← bitsValue_cons_le same]
      exact Nat.not_le.2 less
    rw [contentionLevels_cons]
    cases i with
    | zero =>
      simp only [List.getD_cons_zero] at differ
      obtain ⟨rfl, rfl⟩ : b = true ∧ c = false := by
        cases b <;> cases c <;> simp_all
      rw [if_pos ⟨rfl, _, hm, rfl⟩]
      simp
    | succ i =>
      obtain rfl : b = c := by simpa using agree 0 (Nat.succ_pos i)
      have goes : ¬ (b = true ∧ ∃ r ∈ rivals, r.headD true = false) := by
        rintro ⟨rfl, r, hr, low⟩
        cases r with
        | nil => exact absurd (long _ hr) (by simp)
        | cons c p =>
          rw [List.headD_cons] at low
          subst low
          have length : p.length = q.length := by rw [same]; exact Nat.succ_injective (long _ hr)
          have := (bitsValue_cons_le length).1 (least _ hr)
          simp at this
      have rest := contentionLevels_lost (own := own) (m := q) (rivals := stillSending b rivals) (i := i)
        (length_of_mem_stillSending long) ((mem_stillSending long).2 hm)
        (fun r hr => by
          have length : r.length = q.length := by rw [same]; exact length_of_mem_stillSending long r hr
          rcases (bitsValue_cons_le length).1 (least _ ((mem_stillSending long).1 hr)) with less | ⟨_, le⟩
          · exact absurd less (Nat.lt_irrefl _)
          · exact le)
        (Nat.not_le.1 fun le => above (.inr ⟨rfl, le⟩)) (Nat.lt_of_succ_lt_succ inside) differ
        (fun j hj => agree (j + 1) (Nat.succ_lt_succ hj))
      rw [if_neg goes, rest.1, List.take_succ_cons]
      exact ⟨rfl, rest.2⟩

/-- The bits of a field are the bits of its number. -/
theorem getD_fieldBits {w i : Nat} (h : i < w) (x : BitVec w) : (fieldBits x).getD i true = x.toNat.testBit (w - 1 - i) := by
  rw [fieldBits, List.getD_eq_getElem _ _ (by simpa using h)]
  simp [BitVec.getMsbD, h, BitVec.testBit_toNat]

theorem wins_iff {own : BitVec 7} {rivals : List (BitVec 7)} :
    wins own rivals = true ↔ ∀ r ∈ rivals, own.toNat ≤ r.toNat := by
  rw [wins, contend_iff (by simp [length_fieldBits])]
  simp [bitsValue_fieldBits]

/-- The levels of a start that loses to the lowest rival, whose field first differs at bit `i`. -/
theorem levelsBegun_lost {own m : BitVec 7} {rivals : List (BitVec 7)} {i : Nat} (hm : m ∈ rivals)
    (least : ∀ r ∈ rivals, m.toNat ≤ r.toNat) (less : m.toNat < own.toNat) (hi : i < 7)
    (differ : own.toNat.testBit (6 - i) ≠ m.toNat.testBit (6 - i))
    (agree : ∀ j < i, own.toNat.testBit (6 - j) = m.toNat.testBit (6 - j)) :
    levelsBegun own rivals = false :: (fieldBits own).take (i + 1) ∧ own.toNat.testBit (6 - i) = true := by
  have lost := contentionLevels_lost (own := fieldBits own) (m := fieldBits m) (rivals := rivals.map fieldBits) (i := i)
    (by simp [length_fieldBits]) (List.mem_map_of_mem hm) (by simpa [bitsValue_fieldBits] using least)
    (by simpa [bitsValue_fieldBits] using less) (by simpa [length_fieldBits] using hi)
    (by rwa [getD_fieldBits hi, getD_fieldBits hi])
    (fun j hj => by rw [getD_fieldBits (Nat.lt_trans hj hi), getD_fieldBits (Nat.lt_trans hj hi)]; exact agree j hj)
  rw [getD_fieldBits hi] at lost
  exact ⟨congrArg (false :: ·) lost.1, lost.2⟩

/-! ## The levels of a frame -/

/-- The bits of a field within a list of levels. -/
theorem getD_field {w : Nat} {levels pre post : List Bool} {v : BitVec w} (split : levels = pre ++ (fieldBits v ++ post))
    {k i : Nat} (hi : i < w) (hk : k = pre.length + i) : levels.getD k true = v.toNat.testBit (w - 1 - i) := by
  rw [split, hk, List.getD_append_right _ _ _ _ (by omega), Nat.add_sub_cancel_left,
    List.getD_append _ _ _ _ (by rwa [length_fieldBits]), getD_fieldBits hi]

theorem length_bytes (l : List Byte) : (l.flatMap fieldBits).length = 8 * l.length := by
  induction l with
  | nil => rfl
  | cons b l ih =>
    rw [List.flatMap_cons, List.length_append, length_fieldBits, ih, List.length_cons]
    omega

section
variable (f : RawFrame)

theorem levelsOf_start : (levelsOf f).getD 0 true = false := rfl

theorem levelsOf_contention {k i : Nat} (hi : i < 7) (hk : k = 1 + i) :
    (levelsOf f).getD k true = f.contention.toNat.testBit (7 - 1 - i) :=
  getD_field (pre := [false]) (by simp [levelsOf]; rfl) hi hk

theorem levelsOf_kind {k i : Nat} (hi : i < 4) (hk : k = 8 + i) :
    (levelsOf f).getD k true = f.kind.toNat.testBit (4 - 1 - i) :=
  getD_field (pre := [false] ++ fieldBits f.contention) (by simp [levelsOf]; rfl) hi (by simpa [length_fieldBits] using hk)

theorem levelsOf_length {k i : Nat} (hi : i < 8) (hk : k = 12 + i) :
    (levelsOf f).getD k true = f.length.toNat.testBit (8 - 1 - i) :=
  getD_field (pre := [false] ++ fieldBits f.contention ++ fieldBits f.kind) (by simp [levelsOf]; rfl) hi
    (by simpa [length_fieldBits] using hk)

theorem levelsOf_payload {k i j : Nat} {b : Byte} (hb : f.payload[j]? = some b) (hi : i < 8) (hk : k = 20 + 8 * j + i) :
    (levelsOf f).getD k true = b.toNat.testBit (8 - 1 - i) := by
  obtain ⟨inside, rfl⟩ := List.getElem?_eq_some_iff.1 hb
  have bytes : f.payload = f.payload.take j ++ f.payload[j] :: f.payload.drop (j + 1) := by simp
  refine getD_field (pre := [false] ++ fieldBits f.contention ++ fieldBits f.kind ++ fieldBits f.length ++
    (f.payload.take j).flatMap fieldBits)
    (post := (f.payload.drop (j + 1)).flatMap fieldBits ++ fieldBits f.check ++ [true, true]) ?_ hi ?_
  · conv_lhs => rw [levelsOf, bytes]
    simp only [List.flatMap_append, List.flatMap_cons, List.append_assoc]
  · simp only [List.length_append, length_fieldBits, length_bytes, List.length_take, List.length_singleton]
    omega

theorem levelsOf_check {k i : Nat} (hi : i < 32) (hk : k = 20 + 8 * f.payload.length + i) :
    (levelsOf f).getD k true = f.check.toNat.testBit (32 - 1 - i) :=
  getD_field (pre := [false] ++ fieldBits f.contention ++ fieldBits f.kind ++ fieldBits f.length ++
    f.payload.flatMap fieldBits) (post := [true, true]) (by simp [levelsOf]) hi
    (by
      simp only [List.length_append, length_fieldBits, length_bytes, List.length_singleton]
      omega)

theorem levelsOf_window {k : Nat} (hk : 52 + 8 * f.payload.length ≤ k) : (levelsOf f).getD k true = true := by
  have before : ([false] ++ fieldBits f.contention ++ fieldBits f.kind ++ fieldBits f.length ++
      f.payload.flatMap fieldBits ++ fieldBits f.check).length = 52 + 8 * f.payload.length := by
    simp only [List.length_append, length_fieldBits, length_bytes, List.length_singleton]
    omega
  rw [levelsOf, List.getD_append_right _ _ _ _ (by rwa [before]), before]
  obtain h | h | h : k - (52 + 8 * f.payload.length) = 0 ∨ k - (52 + 8 * f.payload.length) = 1 ∨
      2 ≤ k - (52 + 8 * f.payload.length) := by omega
  · rw [h]; rfl
  · rw [h]; rfl
  · exact List.getD_eq_default _ _ h

end

/-! ## What a station drives (R1) -/

theorem State.ldeAt_of_no_hold {s : State} (hold : s.line.hold = none) (k : Nat) :
    s.ldeAt k = (s.powered && !s.ownLevels.getD k true) := by
  simp only [State.ldeAt, hold, Option.any_none, Bool.false_or]

theorem State.ldeAt_of_hold {s : State} {h : Hold} (hold : s.line.hold = some h) (k : Nat) :
    s.ldeAt k = (s.powered && (decide (h.start ≤ k) || !s.ownLevels.getD k true)) := by
  simp only [State.ldeAt, hold, Option.any_some]

/-- An own frame on the line is driven level by level. -/
theorem State.ldeAt_of_sending {s : State} {x : TxFrame} (powered : s.powered = true) (hold : s.line.hold = none)
    (tx : s.line.tx = some x) (k : Nat) : s.ldeAt k = !(levelsOf (x.frame.toRaw s.station)).getD k true := by
  rw [State.ldeAt_of_no_hold hold, powered, Bool.true_and, State.ownLevels, tx]

/-! ## A start boundary -/

theorem exec_transmitStart (rivals : List (BitVec 7)) (s : State) :
    exec (.transmitStart rivals) s = live (startBoundary rivals) s := rfl

theorem transmitStart_on {rivals : List (BitVec 7)} {s : State} (hp : s.powered = true) :
    exec (.transmitStart rivals) s = .next (startBoundary rivals s) := by
  rw [exec_transmitStart, live_on hp]

theorem startBoundary_of_idle {rivals : List (BitVec 7)} {s : State} (part : s.takesPart = true)
    (idle : s.line.phase = .idle) (hold : s.line.hold = none) :
    startBoundary rivals s = driveStart rivals (watchDonor s) := by
  simp [startBoundary, part, idle, hold]

/-- A donor that is not to be chosen again. -/
theorem watchDonor_of_other {s : State} (h : ¬ (s.member.state = .joining ∧ s.snap.engine = .requesting ∧
    s.snapreqOnLine = false ∧ s.eligible s.donorRef = false)) : watchDonor s = s := if_neg h

/-- A donor is chosen again at most once at a boundary. -/
theorem watchDonor_chooseDonor {s : State} (joining : s.member.state = .joining) (free : s.line.hold = none)
    (quiet : s.line.tx = none) (engine : s.snap.engine = .requesting) (lost : s.eligible s.donorRef = false) :
    watchDonor s = chooseDonor s.donorRef s ∧ watchDonor (chooseDonor s.donorRef s) = chooseDonor s.donorRef s := by
  have off : s.snapreqOnLine = false := by simp [State.snapreqOnLine, Line.ownFrame, quiet, free]
  refine ⟨if_pos ⟨joining, engine, off, lost⟩, watchDonor_of_other ?_⟩
  rintro ⟨_, requesting, _, ineligible⟩
  cases found : s.findDonor s.donorRef with
  | none =>
    rw [chooseDonor_of_none found] at requesting
    cases requesting
  | some d =>
    have eligible : s.eligible d = true := by simpa [State.findDonor] using List.find?_some found
    rw [chooseDonor_of_some found] at ineligible
    exact absurd (eligible.symm.trans ineligible) (by simp)

/-- The start bits of the rivals alone. -/
def startReceived (rivals : List (BitVec 7)) (s : State) : State :=
  if rivals = [] then s else s.withLine { s.line with phase := .inFrame, recessive := 0, tx := none, begun := [] }

theorem driveStart_of_silent {rivals : List (BitVec 7)} {s : State} (h : s.chosen = none ∨ s.line.yielding = true) :
    driveStart rivals s = startReceived rivals s := by
  have receive : (if rivals.isEmpty then s
      else s.withLine { s.line with phase := .inFrame, recessive := 0, tx := none, begun := [] }) =
      startReceived rivals s := by
    cases rivals <;> rfl
  cases chosen : s.chosen with
  | none => simp only [driveStart, chosen, receive]
  | some c =>
    have yielding : s.line.yielding = true := h.resolve_left (by simp [chosen])
    simp only [driveStart, chosen]
    rw [if_pos yielding]
    exact receive

theorem driveStart_of_contending {rivals : List (BitVec 7)} {s : State} {c : TxFrame} (chosen : s.chosen = some c)
    (free : s.line.yielding = false) : driveStart rivals s = s.withLine { s.line with
      phase := .inFrame, recessive := 0
      tx := if wins (contentionOf c.frame.classCode s.station) rivals then some c else none
      begun := if wins (contentionOf c.frame.classCode s.station) rivals then []
        else levelsBegun (contentionOf c.frame.classCode s.station) rivals } := by
  simp only [driveStart, chosen, free, Bool.false_eq_true, if_false]

theorem contentionOf_toNat (f : Frame) (a : Addr) : (contentionOf f.classCode a).toNat = f.classCode * 16 + a.toNat := by
  have := classCode_le f
  rw [contentionOf, BitVec.toNat_ofNat]
  omega

/-! ## The obligation -/

/-- The bits driven of a start that is lost at bit `i`. -/
theorem ldeAt_lost {t : State} {own : BitVec 7} {i : Nat} (powered : t.powered = true) (hold : t.line.hold = none)
    (tx : t.line.tx = none) (begun : t.line.begun = false :: (fieldBits own).take (i + 1)) (hi : i < 7)
    (high : own.toNat.testBit (6 - i) = true) :
    t.ldeAt 0 = true ∧ (∀ j, j < i → t.ldeAt (1 + j) = !own.toNat.testBit (6 - j)) ∧
      ∀ k, 1 + i ≤ k → t.ldeAt k = false := by
  have driven : ∀ k, t.ldeAt k = !(false :: (fieldBits own).take (i + 1)).getD k true := fun k => by
    rw [State.ldeAt_of_no_hold hold, powered, Bool.true_and, State.ownLevels, tx, begun]
  have within : ∀ j ≤ i, ((fieldBits own).take (i + 1)).getD j true = own.toNat.testBit (6 - j) := fun j hj => by
    rw [← getD_fieldBits (by omega), List.getD_eq_getElem?_getD, List.getD_eq_getElem?_getD,
      List.getElem?_take_of_lt (by omega)]
  refine ⟨driven 0, fun j hj => ?_, fun k hk => ?_⟩
  · rw [driven, Nat.add_comm 1 j, List.getD_cons_succ, within j hj.le]
  · obtain ⟨j, rfl⟩ : ∃ j, k = j + 1 := ⟨k - 1, by omega⟩
    rw [driven, List.getD_cons_succ]
    rcases Nat.lt_or_ge i j with beyond | upto
    · rw [List.getD_eq_default _ _ (by simp [length_fieldBits]; omega)]
      rfl
    · obtain rfl : j = i := by omega
      rw [within j (Nat.le_refl _), high]
      rfl

/-- A start with no donor to choose again, of a station that contends. -/
theorem transmitStart_contends {s : State} {rivals : List (BitVec 7)} {c : TxFrame} (powered : s.powered = true)
    (part : s.takesPart = true) (idle : s.line.phase = .idle) (hold : s.line.hold = none)
    (donor : s.member.state = .joining → s.snap.engine = .requesting → s.eligible s.donorRef = true)
    (chosen : s.chosen = some c) (free : s.line.yielding = false) :
    exec (.transmitStart rivals) s = .next (s.withLine { s.line with
      phase := .inFrame, recessive := 0
      tx := if wins (contentionOf c.frame.classCode s.station) rivals then some c else none
      begun := if wins (contentionOf c.frame.classCode s.station) rivals then []
        else levelsBegun (contentionOf c.frame.classCode s.station) rivals }) := by
  rw [transmitStart_on powered, startBoundary_of_eligible _ _ donor, if_pos (by simp [part, idle, hold]),
    driveStart_of_contending chosen free]

theorem transmitStart_silent {s : State} {rivals : List (BitVec 7)} (powered : s.powered = true)
    (part : s.takesPart = true) (idle : s.line.phase = .idle) (hold : s.line.hold = none)
    (donor : s.member.state = .joining → s.snap.engine = .requesting → s.eligible s.donorRef = true)
    (silent : s.chosen = none ∨ s.line.yielding = true) :
    exec (.transmitStart rivals) s = .next (startReceived rivals s) := by
  rw [transmitStart_on powered, startBoundary_of_eligible _ _ donor, if_pos (by simp [part, idle, hold]),
    driveStart_of_silent silent]

/-- Settles O38: the levels of a frame field by field, and contention by the lowest value. -/
theorem lowestContentionValueSends : Obligations.LowestContentionValueSends := by
  refine ⟨fun s k => ⟨fun h powered hold => ⟨?_, fun hk => ?_, fun hk => ?_⟩, fun hold => ?_, fun hold tx begun => ?_,
    fun x powered hold tx => ?_, rfl, rfl⟩,
    fun s rivals powered joining idle hold tx engine lost => ?_, fun s rivals powered => ?_⟩
  · simp [State.ldeAsserted, powered, hold]
  · rw [State.ldeAt_of_hold hold, powered, decide_eq_true hk]
    rfl
  · rw [State.ldeAt_of_hold hold, State.ldeAt_of_no_hold rfl, decide_eq_false (by omega), Bool.false_or]
    rfl
  · simp [State.ldeAsserted, hold]
  · simp [State.ldeAt_of_no_hold hold, State.ownLevels, tx, begun]
  · simp only [State.ldeAt_of_sending powered hold tx]
    refine ⟨?_, fun i hi hk => ?_, fun i hi hk => ?_, fun i hi hk => ?_, fun j i b hb hi hk => ?_, fun i hi hk => ?_,
      fun hk => ?_⟩
    · rintro rfl
      rfl
    · rw [levelsOf_contention _ hi hk]
    · rw [levelsOf_kind _ hi hk]
    · rw [levelsOf_length _ hi hk]
    · rw [levelsOf_payload _ hb hi hk]
    · rw [levelsOf_check _ hi hk]
    · rw [levelsOf_window _ hk]
      rfl
  · have part : s.takesPart = true := by simp [State.takesPart, joining, MState.takesPart]
    obtain ⟨chooses, once⟩ := watchDonor_chooseDonor joining hold tx engine lost
    have again : ∀ t, chooseDonor s.donorRef s = t → t.powered = true → t.takesPart = true → t.line.phase = .idle →
        t.line.hold = none → exec (.transmitStart rivals) s = exec (.transmitStart rivals) t := by
      rintro _ rfl powered' part' idle' hold'
      rw [transmitStart_on powered, transmitStart_on powered', startBoundary_of_idle part idle hold,
        startBoundary_of_idle part' idle' hold', chooses, once]
    exact ⟨fun d found => again _ (chooseDonor_of_some found) powered part idle hold,
      fun none => again _ (chooseDonor_of_none none) powered part idle hold⟩
  · refine ⟨fun out => ?_, fun part idle hold donor => ⟨fun c chosen free => ⟨fun least => ?_, fun m hm less least => ?_⟩,
      fun silent => ⟨?_, fun some_rival => ?_⟩⟩⟩
    · rw [transmitStart_on powered]
      rcases out with away | busy
      · simp [startBoundary, away]
      · simp [startBoundary, busy]
    · have wins : wins (contentionOf c.frame.classCode s.station) rivals = true := by
        rw [wins_iff, contentionOf_toNat]
        exact least
      rw [transmitStart_contends powered part idle hold donor chosen free, wins]
      rfl
    · have loses : wins (contentionOf c.frame.classCode s.station) rivals = false := by
        refine Bool.eq_false_iff.2 fun wins => ?_
        have := wins_iff.1 wins m hm
        rw [contentionOf_toNat] at this
        exact absurd less (Nat.not_lt.2 this)
      refine ⟨_, (transmitStart_contends powered part idle hold donor chosen free).trans (by rw [loses]), rfl, rfl,
        fun i hi differ agree => ?_⟩
      obtain ⟨begun, high⟩ := levelsBegun_lost (own := contentionOf c.frame.classCode s.station) hm least
        (by rwa [contentionOf_toNat]) hi (by rwa [contentionOf_toNat]) (fun j hj => by
          rw [contentionOf_toNat]
          exact agree j hj)
      have levels := ldeAt_lost (own := contentionOf c.frame.classCode s.station) (t := s.withLine { s.line with
        phase := .inFrame, recessive := 0, tx := none
        begun := levelsBegun (contentionOf c.frame.classCode s.station) rivals }) powered hold rfl begun hi high
      rw [contentionOf_toNat] at levels
      exact levels
    · rintro rfl
      rw [transmitStart_silent powered part idle hold donor silent]
      rfl
    · rw [transmitStart_silent powered part idle hold donor silent, startReceived, if_neg some_rival]

end Sys2Proof.Machine
end

