-- ==== Sys2Proof/Proofs/Accepting.lean ====
section
/-! PROOFS. An accepted frame at the Membership Controller, and at a station that keeps the table (R10, R68 to R72). -/

namespace Sys2Proof.Machine

/-! ## The presence table -/

/-- The station that an EVICT names. -/
def Frame.target : Frame → Option Addr
  | .evict g _ => some g
  | .release _ _ | .withdraw _ | .claim _ _ _ | .signal _ _ | .snapreq _ _ | .snap _ _ _ _ _ | .digest _
  | .presence _ _ => none

/-- An evicted station as it is shown. -/
def Peer.evicted (p : Peer) : Peer := { p with state := .absent, dropout := 0, digest := .none }

/-- The presence table with the sender's entry. -/
def State.peersShowing (s : State) (sender : Addr) (f : Frame) : List Peer :=
  if sender = s.station then s.member.peers
  else s.member.peers.set sender.toNat (shownPeer s.dropoutTime s.config.digest sender (s.peerAt sender) f)

/-- The presence table after a frame, the target of an EVICT last (R68). -/
def State.peersAfter (s : State) (sender : Addr) (f : Frame) : List Peer :=
  match f.target with
  | none => s.peersShowing sender f
  | some g =>
    if g = s.station then s.peersShowing sender f
    else (s.peersShowing sender f).set g.toNat
      ((s.peersShowing sender f).getD g.toNat Peer.cleared).evicted

/-- The EVICT wants that a frame leaves (R70). -/
def State.wantsAfter (s : State) (sender : Addr) (f : Frame) : List (Addr × EvictCause) :=
  s.member.evictWants.filter (fun w => w.1 == s.station || (w.1 != sender && f.target != some w.1))

theorem setPeer_eq (a : Addr) (p : Peer) (s : State) :
    setPeer a p s = (s.withMember { s.member with peers := s.member.peers.set a.toNat p }).withEvents
      { s.events with latched := if (s.peerAt a).state != p.state then s.events.latched ||| Event.peer.mask
        else s.events.latched } := by
  rw [setPeer, setEventIf_eq]
  rfl

/-- The sender and the target are shown in the presence table alone. -/
theorem shown_eq (sender : Addr) (f : Frame) (s : State) : showTarget f (showSender sender f s) =
    (s.withMember { s.member with peers := s.peersAfter sender f }).withEvents
      (showTarget f (showSender sender f s)).events := by
  have senderShown : showSender sender f s = (s.withMember { s.member with peers := s.peersShowing sender f }).withEvents
      (showSender sender f s).events := by
    unfold showSender State.peersShowing
    split
    · rfl
    · simp only [setPeer_eq]
      rfl
  cases f with
  | evict g c =>
    simp only [showTarget, State.peersAfter, Frame.target]
    have station : (showSender sender (.evict g c) s).station = s.station := by rw [senderShown]; rfl
    rw [station]
    split
    · exact senderShown
    · rw [setPeer_eq, senderShown]
      rfl
  | _ => exact senderShown

theorem endWants_eq (sender : Addr) (f : Frame) (s : State) :
    endWants sender f s = s.withMember { s.member with evictWants := s.wantsAfter sender f } := by
  cases f with
  | evict g c =>
    have other (a : Addr) : (some g != some a) = (a != g) := by
      rw [Bool.eq_iff_iff]
      simp only [bne_iff_ne, ne_eq, Option.some.injEq]
      exact not_congr eq_comm
    simp only [endWants, State.wantsAfter, Frame.target, other]
  | _ => rfl

/-- The Membership Controller's records after a frame. -/
def State.memberAfter (s : State) (sender : Addr) (own : Bool) (f : Frame) : Member :=
  { s.member with
    peers := s.peersAfter sender f
    evictWants := s.wantsAfter sender f
    presenceTimer := if own then some s.presencePeriod else s.member.presenceTimer
    presenceWant := match f with
      | .presence st _ =>
        if own then false else s.member.presenceWant || (decide (st = .listening) && s.member.state.hasTable)
      | _ => s.member.presenceWant
    listenTimer := match f with
      | .presence st _ =>
        if own ∧ s.member.state = .listening ∧ st = .listening ∧ s.member.listenTimer = none
          then some (3 * s.presencePeriod) else s.member.listenTimer
      | _ => s.member.listenTimer
    activeSeen := s.member.activeSeen ||
      (!own && (s.member.state == .listening && s.member.listenTimer.isSome && f.showsRunning)) }

theorem memberFrame_eq (sender : Addr) (own : Bool) (f : Frame) (s : State) : memberFrame sender own f s =
    (s.withMember (s.memberAfter sender own f)).withEvents (showTarget f (showSender sender f s)).events := by
  unfold memberFrame
  rw [endWants_eq, shown_eq]
  generalize (showTarget f (showSender sender f s)).events = ev
  cases own with
  | true => cases f <;> simp [ownFrameMember, State.memberAfter] <;> rfl
  | false =>
    cases f with
    | presence st d => cases st <;> simp [peerFrameMember, State.memberAfter] <;> rfl
    | _ =>
      simp [peerFrameMember, State.memberAfter]
      rfl

/-! ## Entries of the presence table -/

theorem peer_getD_set {ps : List Peer} (length : ps.length = 16) (a b : Addr) (p : Peer) :
    (ps.set a.toNat p).getD b.toNat Peer.cleared = if b = a then p else ps.getD b.toNat Peer.cleared := by
  have inside : a.toNat < ps.length := by omega
  by_cases same : b = a
  · subst same
    simp [inside]
  · have apart : a.toNat ≠ b.toNat := fun h => same (BitVec.eq_of_toNat_eq h.symm)
    simp [same, apart]

section
variable {s : State} (length : s.member.peers.length = 16)
include length

theorem State.length_peersShowing (sender : Addr) (f : Frame) : (s.peersShowing sender f).length = 16 := by
  unfold State.peersShowing
  split <;> simp [length]

theorem State.peersShowing_getD (sender p : Addr) (f : Frame) :
    (s.peersShowing sender f).getD p.toNat Peer.cleared =
      if p = sender ∧ sender ≠ s.station then
        shownPeer s.dropoutTime s.config.digest sender (s.peerAt sender) f
      else s.peerAt p := by
  unfold State.peersShowing
  by_cases own : sender = s.station
  · simp [own, State.peerAt]
  · rw [if_neg own, peer_getD_set length]
    simp [own, State.peerAt]

/-- The target of an EVICT is shown evicted, the sender as its frame says, the others as before. -/
theorem State.peersAfter_getD (sender p : Addr) (f : Frame) : (s.peersAfter sender f).getD p.toNat Peer.cleared =
    if f.target = some p ∧ p ≠ s.station then ((s.peersShowing sender f).getD p.toNat Peer.cleared).evicted
    else (s.peersShowing sender f).getD p.toNat Peer.cleared := by
  unfold State.peersAfter
  cases target : f.target with
  | none => simp
  | some g =>
    by_cases own : g = s.station
    · have none : ¬ (some g = some p ∧ p ≠ s.station) := by
        rintro ⟨⟨⟩, other⟩
        exact other own
      rw [if_neg none]
      simp [own]
    · simp only [if_neg own]
      rw [peer_getD_set (State.length_peersShowing length sender f)]
      by_cases same : p = g
      · subst same
        simp [own]
      · simp [same, Ne.symm same]

end

/-! ## A station that keeps the table -/

/-- The service list after a frame (R99, R101, R102). -/
def State.serviceAfter (s : State) (sender : Addr) (own : Bool) (f : Frame) : List (Addr × Nat) :=
  (serviceFrame s.member.state sender own f s).snap.service

/-- The joiners served are all that a frame changes of the Snapshot Engine of a station that keeps the table, and
they follow from those served before. -/
theorem serviceFrame_eq (st : MState) (sender : Addr) (own : Bool) (f : Frame) {s t : State} (snap : t.snap = s.snap)
    (station : t.station = s.station) (n : t.n = s.n) : serviceFrame st sender own f t =
      t.withSnap { s.snap with service := (serviceFrame st sender own f s).snap.service } := by
  have same : t = t.withSnap { s.snap with service := s.snap.service } := by rw [← snap]; rfl
  cases f with
  | snap j i k hs ws =>
    cases own
    · exact same
    · simp only [serviceFrame, if_true, ownSnapAccepted, n, serviceRemove, snap]
      split <;> rfl
  | snapreq d i =>
    cases own
    · simp only [serviceFrame, Bool.false_eq_true, if_false, station, serviceAdd, serviceRemove, snap]
      split
      · split
        · rfl
        · exact same
      · rfl
    · exact same
  | presence p d =>
    cases p with
    | joining => exact same
    | listening | active =>
      cases own
      · simp only [serviceFrame, Bool.false_eq_true, if_false, serviceRemove, snap]
        rfl
      · exact same
  | evict g c =>
    simp only [serviceFrame, serviceRemove, snap]
    rfl
  | _ => exact same

/-- What every accepted frame does at the Line Interface, the Membership Controller and the table of a station that
keeps one, the units told last. -/
def tableTaken (sender : Addr) (tx : Option TxFrame) (f : Frame) (s : State) : State :=
  serviceFrame s.member.state sender tx.isSome f (ownFrameOwner tx (tableFrame sender f
    (memberFrame sender tx.isSome f (s.withLine (s.line.accepted tx.isSome)))))

/-- The state that an accepted frame leaves but for the units that it is told to. -/
def tableBase (sender : Addr) (own : Bool) (f : Frame) (s : State) : State :=
  (((s.withLine (s.line.accepted own)).withMember (s.memberAfter sender own f)).withTable
    (applyFrame s.table s.n s.station sender f).table).withSnap
      { s.snap with service := s.serviceAfter sender own f }

theorem ownFrameOwner_only (tx : Option TxFrame) (s : State) : OnlyUnits s (ownFrameOwner tx s) := by
  unfold ownFrameOwner
  split
  · exact outgoingAccepted_only _ _ _
  · exact .refl _

/-- The units alone change behind the Membership Controller and the table. -/
theorem tableTaken_only (sender : Addr) (tx : Option TxFrame) (f : Frame) (s : State) :
    OnlyUnits (tableBase sender tx.isSome f s) (tableTaken sender tx f s) := by
  unfold tableTaken
  have told : OnlyUnits (((s.withLine (s.line.accepted tx.isSome)).withMember (s.memberAfter sender tx.isSome f)).withTable
      (applyFrame s.table s.n s.station sender f).table) (ownFrameOwner tx (tableFrame sender f
        (memberFrame sender tx.isSome f (s.withLine (s.line.accepted tx.isSome))))) := by
    rw [memberFrame_eq]
    exact ((OnlyUnits.withEvents _ _).trans (takeReports_only _ _)).trans (ownFrameOwner_only _ _)
  rw [serviceFrame_eq _ _ _ _ (s := s) told.snap told.station (congrArg Grade.tokens told.grade)]
  obtain ⟨le, rq, sl, ev, told⟩ := told
  exact ⟨le, rq, sl, ev, by rw [told]; rfl⟩

/-- The units take the reports of the table, and the owner of an own frame its end. -/
theorem tableTaken_units (sender : Addr) (tx : Option TxFrame) (f : Frame) (s : State) :
    ∃ u : State, u.leases = s.leases ∧ u.req = s.req ∧ u.slots = s.slots ∧ u.config = s.config ∧
      (tableTaken sender tx f s).leases =
        (ownFrameOwner tx (takeReports (applyFrame s.table s.n s.station sender f).reports u)).leases ∧
      (tableTaken sender tx f s).req =
        (ownFrameOwner tx (takeReports (applyFrame s.table s.n s.station sender f).reports u)).req ∧
      (tableTaken sender tx f s).slots =
        (ownFrameOwner tx (takeReports (applyFrame s.table s.n s.station sender f).reports u)).slots := by
  refine ⟨(memberFrame sender tx.isSome f (s.withLine (s.line.accepted tx.isSome))).withTable
    (applyFrame s.table s.n s.station sender f).table, ?_, ?_, ?_, ?_, ?_⟩
  · rw [memberFrame_eq]; rfl
  · rw [memberFrame_eq]; rfl
  · rw [memberFrame_eq]; rfl
  · rw [memberFrame_eq]; rfl
  · have same : tableFrame sender f (memberFrame sender tx.isSome f (s.withLine (s.line.accepted tx.isSome))) =
        takeReports (applyFrame s.table s.n s.station sender f).reports
          ((memberFrame sender tx.isSome f (s.withLine (s.line.accepted tx.isSome))).withTable
            (applyFrame s.table s.n s.station sender f).table) := by
      rw [memberFrame_eq]
      rfl
    unfold tableTaken
    rw [same]
    generalize ownFrameOwner tx _ = t
    have kept := serviceFrame_eq s.member.state sender tx.isSome f (s := t) (t := t) rfl rfl rfl
    rw [kept]
    exact ⟨rfl, rfl, rfl⟩

/-- Behind the units come the Digest Unit, the slots and the decisions on membership. -/
theorem acceptFrame_of_hasTable {s : State} (keeps : s.member.state.hasTable = true) (sender : Addr)
    (tx : Option TxFrame) (f : Frame) (h : Header) : acceptFrame sender tx f h s =
      decideEvict f h (decideMismatch sender tx.isSome f h
        (signalFrame f (digestFrame sender tx.isSome f h (tableTaken sender tx f s)))) := by
  have taken : acceptTable s.member.state sender f (memberFrame sender tx.isSome f (s.withLine (s.line.accepted tx.isSome))) =
      tableFrame sender f (memberFrame sender tx.isSome f (s.withLine (s.line.accepted tx.isSome))) := by
    cases state : s.member.state with
    | active | leaving => rfl
    | _ =>
      rw [state] at keeps
      cases keeps
  have state : (tableTaken sender tx f s).member.state = s.member.state := by
    rw [(tableTaken_only sender tx f s).member]
    rfl
  have settled : acceptSnap tx.isSome f (tableTaken sender tx f s) = tableTaken sender tx f s := by
    refine if_neg (fun joining => ?_)
    rw [state] at joining
    rw [joining] at keeps
    cases keeps
  rw [acceptFrame_eq, taken]
  change decideEvict f h (decideMismatch sender tx.isSome f h
    (acceptEvents s.member.state sender tx.isSome f h (acceptSnap tx.isSome f (tableTaken sender tx f s)))) = _
  rw [settled, acceptEvents, if_pos keeps]

end Sys2Proof.Machine
end

