-- ==== Sys2Proof/Proofs/Departs.lean ====
section
/-! PROOFS. Errors that end membership, and the state behind the purge (R82, R85). -/

namespace Sys2Proof.Machine

theorem fatalMove_congr {s t : State} (state : t.member.state = s.member.state) (config : t.config = s.config)
    (k : ErrKind) : t.fatalMove k = s.fatalMove k := by
  unfold State.fatalMove State.takesPart State.autojoinDest
  rw [state, config]

theorem fatalMove_logError (k j : ErrKind) (h : Header) (s : State) : (logError j h s).fatalMove k = s.fatalMove k :=
  fatalMove_congr (by rw [logError_eq]; rfl) (by rw [logError_eq]; rfl) k

theorem raise_of_not_fatal {s : State} {k : ErrKind} (stays : s.fatalMove k = none) (h : Header) (place : HoldPlace) :
    raise k h place s = logError k h s := by
  have same := (fatalMove_logError k k h s).trans stays
  simp only [raise, same]

theorem raise_of_fatal {s : State} {k : ErrKind} {dest : MState} {st : Status} (moves : s.fatalMove k = some (dest, st))
    (h : Header) (place : HoldPlace) : raise k h place s = leave dest st place (logError k h s) := by
  have same := (fatalMove_logError k k h s).trans moves
  simp only [raise, same]

/-- t is s behind the purge, in the state that follows (R85). -/
structure Purged (dest : MState) (st : Status) (s t : State) : Prop where
  state : t.member.state = dest
  peers : t.member.peers = List.replicate 16 Peer.cleared
  wants : t.member.evictWants = []
  leases : t.leases = []
  slots : t.slots = s.slots.map Slot.purged
  table : t.table = clearEntries s.table
  req : t.req = { s.req with
    outgoing := [], pend := List.replicate 16 none, cmp := s.req.cmp ++ purgeCompletions st s.req.pend }
  snap : t.snap = { s.snap with service := [] }
  digest : t.digest = .initial
  config : t.config = s.config
  errors : t.errors = s.errors
  offLine : dest = .detached → t.line =
    { s.line with yielding := false, phase := .off, recessive := 0, tx := none, begun := [] }

theorem enterListening_purged (st : Status) (s u : State) (steps : u = purgeSteps st s) :
    Purged .listening st s (enterListening false u) := by
  have entered : enterListening false u = listeningActions false (setMState .listening u) := rfl
  rw [entered, setMState_eq, listeningActions_eq]
  simp only [State.withMember, State.withLine, State.withEvents]
  constructor
  case offLine => exact nofun
  all_goals simp only [steps, purgeSteps]

theorem enterDetached_purged (st : Status) (s u : State) (steps : u = purgeSteps st s) :
    Purged .detached st s (enterDetached u) := by
  rw [enterDetached_eq]
  simp only [State.withMember, State.withLine, State.withEvents]
  constructor
  case offLine => exact fun _ => by simp only [steps, purgeSteps]
  all_goals simp only [steps, purgeSteps]

theorem purge_purged {dest : MState} (away : dest = .listening ∨ dest = .detached) (st : Status) (s : State) :
    Purged dest st s (purge dest st s) := by
  rw [purge_eq]
  rcases away with rfl | rfl
  · rw [if_pos rfl]
    exact enterListening_purged st s _ rfl
  · rw [if_neg (by simp)]
    exact enterDetached_purged st s _ rfl

/-- A station that keeps the table, with no frame of its own on the line, leaves at once. -/
theorem leave_purged {s : State} (keeps : s.member.state.hasTable = true) (hold : s.line.hold = none)
    (tx : s.line.tx = none) {dest : MState} (away : dest = .listening ∨ dest = .detached) (st : Status) :
    Purged dest st s (leave dest st .none s) := by
  have atOnce : leave dest st .none s = purge dest st s := by
    rw [leave, if_neg (by simp [hold]), heldLine_none tx]
    exact leaveNow_of_hasTable dest st keeps
  rw [atOnce]
  exact purge_purged away st s

/-- An error that moves such a station is logged and purges it. -/
theorem raise_purged {s : State} (keeps : s.member.state.hasTable = true) (hold : s.line.hold = none)
    (tx : s.line.tx = none) {k : ErrKind} {dest : MState} {st : Status} (moves : s.fatalMove k = some (dest, st))
    (away : dest = .listening ∨ dest = .detached) (h : Header) :
    Purged dest st (logError k h s) (raise k h .none s) := by
  rw [raise_of_fatal moves]
  have same := logError_eq k h s
  exact leave_purged (by rw [same]; exact keeps) (by rw [same]; exact hold) (by rw [same]; exact tx) away st

theorem autojoinDest_away (s : State) : s.autojoinDest = .listening ∨ s.autojoinDest = .detached := by
  unfold State.autojoinDest
  split
  · exact .inl rfl
  · exact .inr rfl

theorem logError_status (k : ErrKind) (h : Header) (s : State) :
    (logError k h s).errors.status = s.errors.status ||| k.mask := by
  rw [logError_eq]
  rfl

/-- Only what a table's kinds say is left of it when it is cleared. -/
theorem clearEntries_of_kinds {t u : List Entry} (h : t.map Entry.kind = u.map Entry.kind) :
    clearEntries t = clearEntries u := by
  have kinds (l : List Entry) : clearEntries l = (l.map Entry.kind).map Entry.free := by simp [clearEntries]
  rw [kinds, kinds, h]

end Sys2Proof.Machine
end

