-- ==== Sys2Proof/Proofs/UnitsTold.lean ====
section
/-! PROOFS. What the units keep when they take the reports of a frame: the request FIFO, and the events that are set
(R137, R168). -/

namespace Sys2Proof.Machine

/-- t has the requests of s still queued, and every event of s still set. -/
structure Told (s t : State) : Prop where
  fifo : t.req.fifo = s.req.fifo
  events : ∃ m, t.events = { s.events with latched := s.events.latched ||| m }

namespace Told

/-- The events alone are as before. -/
theorem of_same {s t : State} (fifo : t.req.fifo = s.req.fifo) (events : t.events = s.events) : Told s t := by
  have same : s.events.latched ||| 0 = s.events.latched := BitVec.or_zero
  exact ⟨fifo, 0, by rw [events, same]⟩

theorem refl (s : State) : Told s s := of_same rfl rfl

theorem trans {s t u : State} (h : Told s t) (g : Told t u) : Told s u := by
  obtain ⟨m, events⟩ := h.events
  obtain ⟨k, later⟩ := g.events
  exact ⟨g.fifo.trans h.fifo, m ||| k, by rw [later, events, BitVec.or_assoc]⟩

theorem ite {c : Prop} [Decidable c] {s t u : State} (ht : Told s t) (hu : Told s u) : Told s (if c then t else u) := by
  split <;> assumption

theorem foldl {α : Type} {f : State → α → State} (h : ∀ s a, Told s (f s a)) (l : List α) (s : State) :
    Told s (l.foldl f s) := by
  induction l generalizing s with
  | nil => exact refl s
  | cons a l ih => exact (h s a).trans (ih (f s a))

theorem latched {s t : State} (h : Told s t) {i : Nat} (hi : i < 16) (before : s.events.latched[i] = true) :
    t.events.latched[i] = true := by
  obtain ⟨m, events⟩ := h.events
  simp [events, before]

theorem latch {s t : State} (h : Told s t) : t.events.latch = s.events.latch := by
  obtain ⟨m, events⟩ := h.events
  rw [events]

end Told

open Told

theorem setEvent_told (e : Event) (s : State) : Told s (setEvent e s) := ⟨rfl, e.mask, rfl⟩

theorem setEventIf_told (c : Bool) (e : Event) (s : State) : Told s (setEventIf c e s) := by
  cases c
  · exact refl s
  · exact setEvent_told e s

theorem modifySlot_told (n : BitVec 2) (f : Slot → Slot) (s : State) : Told s (modifySlot n f s) := of_same rfl rfl

theorem finishEntry_told (n : Nat) (c : Completion) (s : State) : Told s (finishEntry n c s) := of_same rfl rfl

theorem finishCancel_told (o : Nat) (st : Status) (s : State) : Told s (finishCancel o st s) := by
  unfold finishCancel
  split
  · exact refl s
  · split
    · exact refl s
    · exact finishEntry_told _ _ _

theorem slotReturn_told (n : BitVec 2) (expired : Bool) (s : State) : Told s (slotReturn n expired s) := by
  cases expired
  · exact modifySlot_told _ _ _
  · exact ((modifySlot_told _ _ _).trans (modifySlot_told _ _ _)).trans (setEvent_told _ _)

theorem slotRelease_told (n : BitVec 2) (s : State) : Told s (slotRelease n s) := by
  unfold slotRelease
  dsimp only
  split
  · exact modifySlot_told _ _ _
  · exact .ite (modifySlot_told _ _ _) (of_same rfl rfl)

theorem tellGranted_told (src : Source) (s : State) : Told s (tellGranted src s) := by
  cases src with
  | host => exact refl s
  | slot n =>
    unfold tellGranted slotGranted
    dsimp only
    split
    · exact modifySlot_told _ _ _
    · exact slotRelease_told _ _
    all_goals exact refl s

theorem tellWithdrawn_told (src : Source) (s : State) : Told s (tellWithdrawn src s) := by
  cases src with
  | host => exact refl s
  | slot n => exact slotReturn_told n false s

theorem createLease_told (l : List Nat) (u c : Nat) (src : Source) (tag : Byte) (s : State) :
    Told s (createLease l u c src tag s) := by
  unfold createLease
  split
  · exact of_same rfl rfl
  · refine Told.trans ?_ (setEventIf_told _ _ _)
    exact of_same rfl rfl

theorem dropWithdraw_told (n : Nat) (s : State) : Told s (dropWithdraw n s) := of_same rfl rfl

theorem grantClaim_told (n : Nat) (e : PendEntry) (l : List Nat) (u : Nat) (s : State) :
    Told s (grantClaim n e l u s) :=
  ((((createLease_told _ _ _ _ _ _).trans (dropWithdraw_told _ _)).trans (finishEntry_told _ _ _)).trans
    (finishCancel_told _ _ _)).trans (tellGranted_told _ _)

theorem refuseClaim_told (n : Nat) (e : PendEntry) (s : State) : Told s (refuseClaim n e s) :=
  (finishEntry_told _ _ _).trans (finishCancel_told _ _ _)

theorem withdrawClaim_told (n : Nat) (e : PendEntry) (l : List Nat) (s : State) : Told s (withdrawClaim n e l s) :=
  (((dropWithdraw_told _ _).trans (finishEntry_told _ _ _)).trans (finishCancel_told _ _ _)).trans
    (tellWithdrawn_told _ _)

theorem removeLease_told (l : List Nat) (s : State) : Told s (removeLease l s) := by
  unfold removeLease
  split
  · exact refl s
  · rename_i x _
    dsimp only
    generalize removed : s.withLeases (s.leases.filter (fun y => y.tokens != l)) = u
    have start : Told s u := removed ▸ of_same rfl rfl
    generalize finished : (if x.state = .releasePending then _ else u) = v
    have entry : Told u v := by
      rw [← finished]
      split
      · split
        · exact refl u
        · split
          · exact refl u
          · exact finishEntry_told _ _ _
      · exact refl u
    split
    · exact start.trans entry
    · exact (start.trans entry).trans (slotReturn_told _ _ _)

theorem takeReport_told (r : Report) (s : State) : Told s (takeReport r s) := by
  unfold takeReport
  cases r with
  | grant o k u c =>
    dsimp only
    split
    · exact refl s
    · split
      · exact refl s
      · exact of_same rfl rfl
      · exact grantClaim_told _ _ _ _ _
  | parked o k p =>
    dsimp only
    split
    · exact refl s
    · split
      · exact refl s
      · exact .ite (of_same rfl rfl) (refl s)
  | refused o =>
    dsimp only
    split
    · exact refl s
    · split
      · exact refl s
      · exact refuseClaim_told _ _ _
  | withdrawn o l =>
    dsimp only
    split
    · exact refl s
    · split
      · exact refl s
      · exact withdrawClaim_told _ _ _ _
  | released l c x => exact removeLease_told _ _
  | evicted c => exact refl s

theorem takeReports_told (rs : List Report) (s : State) : Told s (takeReports rs s) :=
  foldl (fun _ _ => takeReport_told _ _) rs s

theorem outgoingAccepted_told (n : Nat) (f : Frame) (s : State) : Told s (outgoingAccepted n f s) := by
  unfold outgoingAccepted
  split
  · split
    · exact .ite (of_same rfl rfl) (of_same rfl rfl)
    · exact of_same rfl rfl
  · exact of_same rfl rfl
  · dsimp only
    split
    · exact .ite (of_same rfl rfl) (of_same rfl rfl)
    · exact of_same rfl rfl
  all_goals exact refl s

theorem ownFrameOwner_told (tx : Option TxFrame) (s : State) : Told s (ownFrameOwner tx s) := by
  unfold ownFrameOwner
  split
  · exact outgoingAccepted_told _ _ _
  · exact refl s

/-- A frame keeps the requests in the FIFO and the events set by the presence table. -/
theorem tableTaken_told (sender : Addr) (tx : Option TxFrame) (f : Frame) (s : State) :
    Told (s.withEvents (showTarget f (showSender sender f (s.withLine (s.line.accepted tx.isSome)))).events)
      (tableTaken sender tx f s) := by
  unfold tableTaken
  rw [memberFrame_eq]
  generalize shown : ((s.withLine (s.line.accepted tx.isSome)).withMember _).withEvents _ = u
  have start : Told (s.withEvents (showTarget f (showSender sender f (s.withLine (s.line.accepted tx.isSome)))).events) u :=
    shown ▸ of_same rfl rfl
  have table : Told u (tableFrame sender f u) := by
    unfold tableFrame
    refine Told.trans ?_ (takeReports_told _ _)
    exact of_same rfl rfl
  have owner := ownFrameOwner_told tx (tableFrame sender f u)
  refine Told.trans (start.trans (table.trans owner)) ?_
  generalize ownFrameOwner tx _ = t
  rw [serviceFrame_eq s.member.state sender tx.isSome f (s := t) (t := t) rfl rfl rfl]
  exact of_same rfl rfl

end Sys2Proof.Machine
end

