-- ==== Sys2Proof/Proofs/AcceptedTable.lean ====
section
/-! PROOFS. An accepted frame of a peer at a station that keeps the table (R10, R16, R27, R68 to R72, R81, R85). -/

namespace Sys2Proof.Machine

/-! ## A frame of a peer is taken -/

theorem takesPart_of_hasTable {s : State} (keeps : s.member.state.hasTable = true) : s.takesPart = true := by
  unfold State.takesPart
  cases state : s.member.state with
  | active | leaving => rfl
  | _ =>
    rw [state] at keeps
    cases keeps

theorem hasTable_iff {st : MState} : st.hasTable = true ↔ st = .active ∨ st = .leaving := by
  cases st <;> simp [MState.hasTable]

/-- The receive check refuses a frame with the own address (R8). -/
theorem senderOf_ne_of_receiveCheck {t : List Entry} {self : Addr} {r : RawFrame} {f : Frame}
    (h : receiveCheck t self r = .ok f) : senderOf r ≠ self := by
  simp only [receiveCheck, except_bind_ok, need_ok] at h
  obtain ⟨_, other, _⟩ := h
  exact bne_iff_ne.1 other

/-- A frame that this station receives and finds sound is accepted. -/
theorem frameAccepted_received {s : State} {r : RawFrame} {f : Frame} (powered : s.powered = true)
    (part : s.takesPart = true) (tx : s.line.tx = none) (hold : s.line.hold = none) (wait : s.line.phase ≠ .waiting)
    (sound : receiveCheck s.table s.station r = .ok f) :
    exec (.frameAccepted (.received r)) s = .next (acceptFrame (senderOf r) none f (headerWhole r) s) := by
  have receives : (s.receives && s.line.hold.isNone) = true := by
    simp [State.receives, State.listens, State.aborting, part, tx, hold, wait]
  rw [exec_frameAccepted, live_on powered, frameAccepted, if_neg (by simp [part])]
  rw [if_pos receives, receiveFrame, sound]

/-- Frames that are no SIGNAL and no DIGEST, and that decide nothing about this station. -/
theorem acceptFrame_plain {s : State} (keeps : s.member.state.hasTable = true) (sender : Addr) (tx : Option TxFrame)
    {f : Frame} (h : Header) (signal : ∀ m c, f ≠ .signal m c) (digest : ∀ v, f ≠ .digest v)
    (presence : ∀ p d, f = .presence p d → tx.isSome = true ∨ d = s.config.digest)
    (evict : ∀ g c, f = .evict g c → g ≠ s.station) :
    acceptFrame sender tx f h s = tableTaken sender tx f s := by
  have base := tableTaken_only sender tx f s
  have config : (tableTaken sender tx f s).config = s.config := base.config
  have station : (tableTaken sender tx f s).station = s.station := base.station
  rw [acceptFrame_of_hasTable keeps]
  cases f with
  | signal m c => exact absurd rfl (signal m c)
  | digest v => exact absurd rfl (digest v)
  | presence p d =>
    have settled : (tx.isSome || d == (tableTaken sender tx (.presence p d) s).config.digest) = true := by
      rw [config, Bool.or_eq_true, beq_iff_eq]
      exact presence p d rfl
    simp only [digestFrame, signalFrame, decideMismatch, decideEvict, settled, if_true]
  | evict g c =>
    have other : ¬ (g = (tableTaken sender tx (.evict g c) s).station ∧
        (tableTaken sender tx (.evict g c) s).member.state.hasTable = true) := by
      rw [station]
      exact fun same => evict g c rfl same.1
    cases c <;> exact if_neg other
  | _ => rfl

/-! ## What it leaves -/

section
variable {s : State} (sender : Addr) (f : Frame)

theorem tableTaken_peerAt (own : Option TxFrame) (length : s.member.peers.length = 16) (p : Addr) :
    (tableTaken sender own f s).peerAt p = if f.target = some p ∧ p ≠ s.station
      then ((s.peersShowing sender f).getD p.toNat Peer.cleared).evicted
      else (s.peersShowing sender f).getD p.toNat Peer.cleared := by
  have peers : (tableTaken sender own f s).member.peers = s.peersAfter sender f := by
    rw [(tableTaken_only sender own f s).member]
    rfl
  rw [State.peerAt, peers, State.peersAfter_getD length]

/-- The fields of the state behind a peer's frame. -/
structure PeerTaken (t : State) : Prop where
  table : t.table = (applyFrame s.table s.n s.station sender f).table
  line : t.line = { s.line with phase := .gap, recessive := 0, tx := none, begun := [], yielding := false,
                                rfc := s.line.rfc - 1 }
  wants : t.member.evictWants = s.wantsAfter sender f
  state : t.member.state = s.member.state
  timer : t.member.presenceTimer = s.member.presenceTimer
  want : t.member.presenceWant = (s.memberAfter sender false f).presenceWant
  snap : t.snap = { s.snap with service := s.serviceAfter sender false f }
  fifo : t.req.fifo = s.req.fifo
  config : t.config = s.config
  errors : t.errors = s.errors
  digest : t.digest = s.digest
  time : t.time = s.time
  port : t.port = s.port

theorem tableTaken_peer : PeerTaken (s := s) sender f (tableTaken sender none f s) := by
  have only := tableTaken_only sender none f s
  exact ⟨only.table, only.line, by rw [only.member]; rfl, by rw [only.member]; rfl, by rw [only.member]; rfl,
    by rw [only.member]; rfl, only.snap, (tableTaken_told sender none f s).fifo, only.config, only.errors, only.digest,
    only.time, only.port⟩

end

/-! ## The frames of this obligation -/

/-- A frame that shows its sender ACTIVE. -/
theorem shownPeer_active {d : Nat} {w : Word} {sender : Addr} {p : Peer} {f : Frame}
    (shown : shownState sender p.state f = .active) (config : shownMatch w p.config f = p.config) :
    shownPeer d w sender p f = { p with
      state := .active, dropout := d, digest := if p.state = .active then p.digest else .none } := by
  unfold shownPeer
  rw [shown, config]
  by_cases active : p.state = .active <;> simp [active]

/-- A PRESENCE carrying LISTENING with the digest in force. -/
theorem shownPeer_restart {d : Nat} {w : Word} {sender : Addr} {p : Peer} :
    shownPeer d w sender p (.presence .listening w) = { p with
      state := .listening, dropout := d, config := .matching } := by
  simp [shownPeer, shownState, shownMatch]

/-- The evicted station's entry keeps what its own frame cannot change of it. -/
theorem shownPeer_config_of_target {f : Frame} {sender : Addr} (same : f.target = some sender) (d : Nat) (w : Word) (p : Peer) :
    (shownPeer d w sender p f).config = p.config := by
  cases f with
  | evict g c => rfl
  | _ => cases same

/-- The own eviction at a peer's word, with no record twice: the units are told nothing but the eviction. -/
theorem applyFrame_evict_self {t : List Entry} (n : Nat) (self sender : Addr) (c : EvictCause)
    (nodup : ∀ w ∈ t, (w.waiters.map Waiter.station).Nodup) :
    (applyFrame t n self sender (.evict self c)).reports = [.evicted c] := by
  set start : Applying := ⟨t, n, .evicted, self, []⟩
  have one (k : Nat) : waitsOf self (start.entry k) ≤ 1 := by
    rcases Orderly.entry_cases t k with ⟨_, inside⟩ | ⟨_, beyond⟩
    · exact waitsOf_le_one (nodup _ (List.mem_of_getElem? inside)) self
    · rw [show start.entry k = _ from beyond]
      exact Nat.zero_le 1
  obtain ⟨spares, _⟩ := Applying.evict_spares (List.range n) start one
  have told : (start.evict self).reports = [] := spares.told rfl
  have same : (start.evict self).self = self := spares.self
  have applied : applyFrame t n self sender (.evict self c) = (start.evict self).report self (.evicted c) := rfl
  rw [applied, Applying.report, if_pos same.symm, told]
  rfl

/-- An EVICT that names this station reaches the decision on it. -/
theorem acceptFrame_evict {s : State} (keeps : s.member.state.hasTable = true) (sender g : Addr) (c : EvictCause)
    (tx : Option TxFrame) (h : Header) : acceptFrame sender tx (.evict g c) h s =
      decideEvict (.evict g c) h (tableTaken sender tx (.evict g c) s) := by
  rw [acceptFrame_of_hasTable keeps]
  rfl

/-- The kinds of frame this obligation speaks of. -/
inductive TableFrame (s : State) (f : Frame) : Prop where
  | table (h : (∃ m u l, f = .claim m u l) ∨ (∃ c l, f = .release c l) ∨ ∃ o, f = .withdraw o)
  | restart (h : f = .presence .listening s.config.digest)
  | evict {g : Addr} (target : f.target = some g) (other : g ≠ s.station)

section
variable {s : State} {f : Frame} (h : TableFrame s f)
include h

theorem TableFrame.plain (keeps : s.member.state.hasTable = true) (sender : Addr) (hd : Header) :
    acceptFrame sender none f hd s = tableTaken sender none f s := by
  refine acceptFrame_plain keeps sender none hd ?_ ?_ ?_ ?_
  · rintro m c rfl
    rcases h with ⟨⟨_, _, _, h⟩ | ⟨_, _, h⟩ | ⟨_, h⟩⟩ | h | h <;> cases h
  · rintro v rfl
    rcases h with ⟨⟨_, _, _, h⟩ | ⟨_, _, h⟩ | ⟨_, h⟩⟩ | h | h <;> cases h
  · rintro p d rfl
    rcases h with ⟨⟨_, _, _, h⟩ | ⟨_, _, h⟩ | ⟨_, h⟩⟩ | h | h <;> cases h
    exact .inr rfl
  · rintro g c rfl
    rcases h with ⟨⟨_, _, _, h⟩ | ⟨_, _, h⟩ | ⟨_, h⟩⟩ | h | ⟨h, other⟩ <;> cases h
    exact other

theorem TableFrame.shown {sender : Addr} (apart : f.target ≠ some sender) (d : Nat) (p : Peer) :
    shownPeer d s.config.digest sender p f = { p with
      state := if f = .presence .listening s.config.digest then .listening else .active
      dropout := d
      config := if f = .presence .listening s.config.digest then .matching else p.config
      digest := if f = .presence .listening s.config.digest ∨ p.state = .active then p.digest else .none } := by
  rcases h with ⟨⟨m, u, l, rfl⟩ | ⟨c, l, rfl⟩ | ⟨o, rfl⟩⟩ | rfl | ⟨target, _⟩
  · simp [shownPeer_active (f := .claim m u l) rfl rfl]
  · simp [shownPeer_active (f := .release c l) rfl rfl]
  · simp [shownPeer_active (f := .withdraw o) rfl rfl]
  · simp [shownPeer_restart]
  · cases f with
    | evict g c =>
      have active : shownState sender p.state (.evict g c) = .active := if_neg fun same : g = sender => apart (same ▸ rfl)
      simp [shownPeer_active active rfl]
    | _ => cases target

theorem TableFrame.want {sender : Addr} (keeps : s.member.state.hasTable = true) :
    (s.memberAfter sender false f).presenceWant =
      (s.member.presenceWant || decide (f = .presence .listening s.config.digest)) := by
  rcases h with ⟨⟨m, u, l, rfl⟩ | ⟨c, l, rfl⟩ | ⟨o, rfl⟩⟩ | rfl | ⟨target, _⟩
  · simp [State.memberAfter]
  · simp [State.memberAfter]
  · simp [State.memberAfter]
  · simp [State.memberAfter, keeps]
  · cases f with
    | evict g c => simp [State.memberAfter]
    | _ => cases target

theorem TableFrame.service (sender : Addr) : s.serviceAfter sender false f = s.snap.service.filter
    (fun x => f.target != some x.1 && (!decide (f = .presence .listening s.config.digest) || x.1 != sender)) := by
  have all (q : Addr × Nat) : ((none : Option Addr) != some q.1) = true := rfl
  rcases h with ⟨⟨m, u, l, rfl⟩ | ⟨c, l, rfl⟩ | ⟨o, rfl⟩⟩ | rfl | ⟨target, _⟩
  · simp [State.serviceAfter, serviceFrame, Frame.target, all]
  · simp [State.serviceAfter, serviceFrame, Frame.target, all]
  · simp [State.serviceAfter, serviceFrame, Frame.target, all]
  · simp [State.serviceAfter, serviceFrame, serviceRemove, Frame.target, all]
  · cases f with
    | evict g c =>
      refine List.filter_congr fun q _ => ?_
      rw [Bool.eq_iff_iff]
      simp only [Frame.target, bne_iff_ne, ne_eq, Option.some.injEq, reduceCtorEq, decide_false, Bool.not_false,
        Bool.true_or, Bool.and_true]
      exact not_congr eq_comm
    | _ => cases target

end

/-- Where the eviction of this station leads (R81, R82). -/
theorem decideEvict_self {s t : State} (state : t.member.state = .active ∨ t.member.state = .leaving)
    (hold : t.line.hold = none) (tx : t.line.tx = none) (config : t.config = s.config) (c : EvictCause) (h : Header) :
    ∃ u, u.table = t.table ∧ u.req = t.req ∧ u.config = t.config ∧ u.snap = t.snap ∧
      u.errors = (if c = .dropout then (logError .evicted h t).errors else t.errors) ∧
      Purged (if c = .dropout ∧ t.member.state = .active ∧ s.config.fields.autojoin = true then .listening else .detached)
        (if c = .dropout then .evicted else .detached) u (decideEvict (.evict t.station c) h t) := by
  have keeps : t.member.state.hasTable = true := hasTable_iff.2 state
  cases c with
  | self =>
    have decided : decideEvict (.evict t.station .self) h t = leave .detached .detached .none t :=
      if_pos ⟨rfl, keeps⟩
    rw [decided]
    exact ⟨t, rfl, rfl, rfl, rfl, rfl, leave_purged keeps hold tx (.inr rfl) _⟩
  | dropout =>
    have decided : decideEvict (.evict t.station .dropout) h t = raise .evicted h .none t := if_pos ⟨rfl, keeps⟩
    have moves : t.fatalMove .evicted = some (if t.member.state = .active ∧ s.config.fields.autojoin = true
        then .listening else .detached, .evicted) := by
      simp only [State.fatalMove, State.autojoinDest, config]
      rcases state with active | leaving
      · simp [active]
      · simp [leaving]
    have purged := raise_purged keeps hold tx moves (by
      split
      · exact .inl rfl
      · exact .inr rfl) h
    have same := logError_eq .evicted h t
    rw [decided]
    refine ⟨_, ?_, ?_, ?_, ?_, rfl, ?_⟩
    case refine_5 =>
      simp only [true_and, if_true]
      exact purged
    all_goals rw [same]; rfl

/-- Settles O40: the frame is taken stage by stage, and an EVICT of this station purges it. -/
theorem acceptedTableFrameIsApplied : Obligations.AcceptedTableFrameIsApplied := by
  intro s r f powered state tx hold wait length sound sender a tableFrame restart target
  have keeps : s.member.state.hasTable = true := hasTable_iff.2 state
  have peer : sender ≠ s.station := senderOf_ne_of_receiveCheck sound
  have accepts := frameAccepted_received powered (takesPart_of_hasTable keeps) tx hold wait sound
  have named : target = f.target := by
    cases f <;> rfl
  rw [named]
  refine ⟨fun kind => ?_, fun c names nodup => ?_⟩
  · have kind : TableFrame s f := by
      rcases kind with table | same | ⟨g, names, other⟩
      · exact .table table
      · exact .restart same
      · exact .evict names other
    have apart : f.target ≠ some s.station := by
      intro names
      rcases kind with ⟨⟨_, _, _, rfl⟩ | ⟨_, _, rfl⟩ | ⟨_, rfl⟩⟩ | rfl | ⟨other, away⟩
      · cases names
      · cases names
      · cases names
      · cases names
      · rw [names] at other
        cases other
        exact away rfl
    have peerAt := tableTaken_peerAt sender f none length
    have taken := tableTaken_peer (s := s) sender f
    obtain ⟨u, leases, req, slots, config, tLeases, tReq, tSlots⟩ := tableTaken_units sender none f s
    refine ⟨tableTaken sender none f s, accepts.trans (congrArg _ (kind.plain keeps sender _)), taken.table,
      by rw [taken.line, ← tx], fun other => ?_, fun g names => ?_, fun p other unnamed => ?_, taken.wants, taken.state,
      taken.timer, taken.want.trans (kind.want keeps), by rw [taken.snap, kind.service], taken.fifo, taken.config,
      taken.errors, taken.digest, taken.time, taken.port, fun silent => ?_,
      u, leases, req, slots, config, tLeases, tReq, tSlots⟩
    · rw [peerAt, if_neg fun same => other same.1, State.peersShowing_getD length, if_pos ⟨rfl, peer⟩,
        kind.shown other]
    · have away : g ≠ s.station := fun same => apart (same ▸ names)
      have evicted := (peerAt g).trans (if_pos ⟨names, away⟩)
      rw [evicted]
      refine ⟨rfl, rfl, rfl, ?_⟩
      rw [State.peersShowing_getD length]
      split
      next same =>
        obtain ⟨rfl, _⟩ := same
        exact shownPeer_config_of_target names s.dropoutTime _ _
      next => rfl
    · rw [peerAt, if_neg fun same => unnamed same.1, State.peersShowing_getD length, if_neg fun same => other same.1]
    · have silent : (applyFrame s.table s.n s.station sender f).reports = [] := silent
      rw [silent] at tLeases tReq tSlots
      exact ⟨tLeases.trans leases, tReq.trans req, tSlots.trans slots⟩
  · subst names
    have taken := tableTaken_peer (s := s) sender (.evict s.station c)
    obtain ⟨v, leases, req, slots, config, tLeases, tReq, tSlots⟩ :=
      tableTaken_units sender none (.evict s.station c) s
    rw [applyFrame_evict_self s.n s.station sender c nodup] at tLeases tReq tSlots
    have station : (tableTaken sender none (.evict s.station c) s).station = s.station :=
      (tableTaken_only sender none (.evict s.station c) s).station
    have decides := (accepts.trans (congrArg _ (acceptFrame_evict keeps sender s.station c none (headerWhole r))))
    obtain ⟨u, uTable, uReq, uConfig, uSnap, uErrors, purged⟩ := decideEvict_self (s := s)
      (t := tableTaken sender none (.evict s.station c) s) (taken.state.symm ▸ state) (by rw [taken.line]; exact hold)
      (by rw [taken.line]) taken.config c (headerWhole r)
    rw [station] at purged
    refine ⟨_, decides, ?_, fun dropout => ?_, fun self => ?_, ?_, purged.leases, ?_, purged.peers, purged.wants, ?_,
      purged.digest, ?_⟩
    · rw [purged.state, taken.state]
    · rw [purged.errors, uErrors, if_pos dropout, logError_status, taken.errors]
      rfl
    · rw [purged.errors, uErrors, if_neg (by simp [self]), taken.errors]
    · rw [purged.table, uTable, taken.table]
      exact clearEntries_of_kinds (applyFrame_kinds _ _ _ _ _)
    · have same : u.req = s.req := uReq.trans (tReq.trans req)
      rw [purged.req, same]
    · rw [purged.snap, uSnap, taken.snap]
    · rw [purged.config, uConfig, taken.config]

end Sys2Proof.Machine
end

