-- ==== Sys2Proof/Proofs/OwnAccepted.lean ====
section
/-! PROOFS. An own frame is accepted (R12, R15, R16, R72, R74, R80, R92, R101, R109, R129, R136, R143, R146, R166). -/

namespace Sys2Proof.Machine

theorem frameAccepted_own {s : State} {x : TxFrame} (powered : s.powered = true) (part : s.takesPart = true)
    (tx : s.line.tx = some x) (wait : s.line.phase ≠ .waiting) : exec (.frameAccepted .own) s =
      .next (acceptFrame s.station (some x) x.frame (headerSent s.station x.frame) s) := by
  have listens : s.listens = true := by simp [State.listens, part, wait]
  rw [exec_frameAccepted, live_on powered, frameAccepted, if_neg (by simp [part])]
  simp only [ownFrameAccepted, tx, listens, if_true]

/-! ## The Membership Controller at an own frame -/

/-- The Line Interface behind an own frame. -/
theorem Line.accepted_own (l : Line) : l.accepted true = { l with
    phase := .gap, recessive := 0, tx := none, begun := [], yielding := true, rfc := l.rfc - 1, tfc := l.tfc - 1 } :=
  rfl

section
variable {s : State} {f : Frame}

theorem State.peersAfter_own (unnamed : f.target = none) : s.peersAfter s.station f = s.member.peers := by
  rw [State.peersAfter, unnamed]
  exact if_pos rfl

/-- An own frame ends the want for its target, unless that is this station. -/
theorem State.wantsAfter_own : s.wantsAfter s.station f =
    s.member.evictWants.filter (fun w => w.1 == s.station || f.target != some w.1) := by
  refine List.filter_congr fun w _ => ?_
  by_cases own : w.1 = s.station
  · simp [own]
  · have apart : (w.1 != s.station) = true := bne_iff_ne.2 own
    rw [apart, Bool.true_and]

theorem State.wantsAfter_own_unnamed (unnamed : f.target = none) : s.wantsAfter s.station f = s.member.evictWants := by
  have all (w : Addr × EvictCause) : ((none : Option Addr) != some w.1) = true := rfl
  rw [State.wantsAfter_own, unnamed]
  simp only [all, Bool.or_true, List.filter_true]

/-- An own frame but an EVICT loads the presence timer (R72). -/
theorem State.memberAfter_own (unnamed : f.target = none) : s.memberAfter s.station true f = { s.member with
    presenceTimer := some s.presencePeriod
    presenceWant := (s.memberAfter s.station true f).presenceWant
    listenTimer := (s.memberAfter s.station true f).listenTimer } := by
  have peers := State.peersAfter_own (s := s) unnamed
  have wants := State.wantsAfter_own_unnamed (s := s) unnamed
  simp only [State.memberAfter, peers, wants, if_true, Bool.not_true, Bool.false_and, Bool.or_false]

/-- Frames but PRESENCE leave the want and the listen timer. -/
theorem State.memberAfter_own_plain (unnamed : f.target = none) (kind : ∀ p d, f ≠ .presence p d) :
    s.memberAfter s.station true f = { s.member with presenceTimer := some s.presencePeriod } := by
  rw [State.memberAfter_own unnamed]
  cases f with
  | presence p d => exact absurd rfl (kind p d)
  | _ => rfl

/-- The events that the presence table sets at an own frame that names no station: none. -/
theorem shownEvents_own (unnamed : f.target = none) : (showTarget f (showSender s.station f s)).events = s.events := by
  have shown : showSender s.station f s = s := if_pos rfl
  cases f with
  | evict g c => cases unnamed
  | _ => rw [shown]; rfl

end

/-! ## An own frame at a station that keeps the table -/

section
variable {s : State} {x : TxFrame}

/-- The fields of the state behind an own frame, taken. -/
structure OwnTaken (s : State) (x : TxFrame) (t : State) : Prop where
  table : t.table = (applyFrame s.table s.n s.station s.station x.frame).table
  line : t.line = { s.line with phase := .gap, recessive := 0, tx := none, begun := [], yielding := true,
                                rfc := s.line.rfc - 1, tfc := s.line.tfc - 1 }
  member : t.member = s.memberAfter s.station true x.frame
  snap : t.snap = { s.snap with service := s.serviceAfter s.station true x.frame }
  config : t.config = s.config
  errors : t.errors = s.errors
  digest : t.digest = s.digest
  station : t.station = s.station

theorem tableTaken_own (s : State) (x : TxFrame) : OwnTaken s x (tableTaken s.station (some x) x.frame s) := by
  have only := tableTaken_only s.station (some x) x.frame s
  exact ⟨only.table, only.line, only.member, only.snap, only.config, only.errors, only.digest, only.station⟩

/-- The owner of a frame of the outgoing list, and no other, changes. -/
theorem ownFrameOwner_of_no_entry (f : Frame) (s : State) : ownFrameOwner (some ⟨f, none⟩) s = s := rfl

theorem outgoingAccepted_withdraw (n o : Nat) (v : State) : (outgoingAccepted n (.withdraw o) v).req =
    { v.req with outgoing := v.req.outgoing.filter (fun g => !(g.entry == n && g.isWithdraw)) } := rfl

theorem outgoingAccepted_claim {n : Nat} {v : State}
    (plain : ∀ e, v.pendAt n = some e → e.kind ≠ .acquire ∨ e.phase ≠ .withdrawing) (m : ClaimMode) (k : Nat)
    (l : List Nat) : (outgoingAccepted n (.claim m k l) v).req =
      { v.req with outgoing := v.req.outgoing.filter (fun g => !(g.entry == n && g.isClaim)) } := by
  cases entry : v.pendAt n with
  | none => simp only [outgoingAccepted, entry]; rfl
  | some e =>
    have other : ¬ (e.kind = .acquire ∧ e.phase = .withdrawing) := fun both =>
      (plain e entry).elim (fun h => h both.1) (fun h => h both.2)
    simp only [outgoingAccepted, entry, if_neg other]
    rfl

theorem outgoingAccepted_claim_withdrawing {n : Nat} {v : State} {e : PendEntry} (entry : v.pendAt n = some e)
    (kind : e.kind = .acquire) (phase : e.phase = .withdrawing) (m : ClaimMode) (k : Nat) (l : List Nat) :
    (outgoingAccepted n (.claim m k l) v).req = { v.req with outgoing := v.req.outgoing.map (fun g =>
      if g.entry == n && g.isClaim then ⟨n, .withdraw (e.origin.getD 0)⟩ else g) } := by
  have both : e.kind = .acquire ∧ e.phase = .withdrawing := ⟨kind, phase⟩
  simp only [outgoingAccepted, entry, if_pos both]
  rfl

/-- A CLAIM, RELEASE or WITHDRAW changes nothing of its owner but the outgoing list. -/
theorem ownFrameOwner_list (v : State) (tableFrame : (∃ m u l, x.frame = .claim m u l) ∨
    (∃ c l, x.frame = .release c l) ∨ ∃ o, x.frame = .withdraw o) :
    (ownFrameOwner (some x) v).leases = v.leases ∧ (ownFrameOwner (some x) v).slots = v.slots := by
  obtain ⟨f, entry⟩ := x
  cases entry with
  | none => exact ⟨rfl, rfl⟩
  | some n =>
    rcases tableFrame with ⟨m, u, l, rfl⟩ | ⟨c, l, rfl⟩ | ⟨o, rfl⟩
    · simp only [ownFrameOwner, outgoingAccepted]
      cases v.pendAt n with
      | none => exact ⟨rfl, rfl⟩
      | some e =>
        dsimp only
        split <;> exact ⟨rfl, rfl⟩
    · exact ⟨rfl, rfl⟩
    · exact ⟨rfl, rfl⟩

/-- An accepted SIGNAL completes SENT (R146). -/
theorem outgoingAccepted_signal {n : Nat} {v : State} {e : PendEntry} (entry : v.pendAt n = some e)
    (kind : e.kind = .signal) (m : Half) (c : BitVec 3) : (outgoingAccepted n (.signal m c) v).req = { v.req with
      pend := v.req.pend.set n none
      outgoing := v.req.outgoing.filter (fun o => !(o.entry == n && o.isSignal))
      cmp := v.req.cmp ++ [⟨.sent, e.tag, e.source, 5, 0, m.extractLsb' 8 8, m.extractLsb' 0 8,
        BitVec.ofNat 8 c.toNat, 0⟩] } := by
  simp only [outgoingAccepted, entry, kind, if_true, finishEntry_eq, removeOutgoing_eq]
  rfl

theorem outgoingAccepted_leases (n : Nat) (f : Frame) (v : State) : (outgoingAccepted n f v).leases = v.leases := by
  unfold outgoingAccepted
  split
  · split
    · split <;> rfl
    · rfl
  · rfl
  · dsimp only
    split
    · split <;> rfl
    · rfl
  all_goals rfl

theorem ownFrameOwner_leases (tx : Option TxFrame) (v : State) : (ownFrameOwner tx v).leases = v.leases := by
  unfold ownFrameOwner
  split
  · exact outgoingAccepted_leases _ _ _
  · rfl

end

/-! ## The frames that no table takes -/

/-- Frames that leave the table and that no unit is told of. -/
theorem applyFrame_other {f : Frame} (claim : ∀ m u l, f ≠ .claim m u l) (release : ∀ c l, f ≠ .release c l)
    (withdraw : ∀ o, f ≠ .withdraw o) (evict : ∀ g c, f ≠ .evict g c) (restart : ∀ d, f ≠ .presence .listening d)
    (t : List Entry) (n : Nat) (self sender : Addr) :
    (applyFrame t n self sender f).table = t ∧ (applyFrame t n self sender f).reports = [] := by
  cases f with
  | claim m u l => exact absurd rfl (claim m u l)
  | release c l => exact absurd rfl (release c l)
  | withdraw o => exact absurd rfl (withdraw o)
  | evict g c => exact absurd rfl (evict g c)
  | presence p d =>
    cases p with
    | listening => exact absurd rfl (restart d)
    | joining | active => exact ⟨rfl, rfl⟩
  | _ => exact ⟨rfl, rfl⟩

/-! ## A SIGNAL at the Event Unit and the slots -/

theorem triggerSignal_from (code : BitVec 3) (s : State) : TriggeredFrom s (triggerSignal code s) := by
  rw [triggerSignal_eq]
  exact triggerWhere_from _ _ _

/-- A SIGNAL whose mask names the station sets its latch flag and the SIGNAL event (R166, R167). -/
theorem signalFrame_named {s : State} (keeps : s.member.state.hasTable = true) {m : Half}
    (named : m.getLsbD s.station.toNat = true) (c : BitVec 3) :
    signalFrame (.signal m c) s = triggerSignal c (setEvent .signal (s.withEvents
      { s.events with latch := s.events.latch ||| BitVec.ofNat 8 (2 ^ c.toNat) })) :=
  if_pos ⟨keeps, named⟩

theorem signalFrame_unnamed {s : State} {m : Half} (unnamed : m.getLsbD s.station.toNat = false) (c : BitVec 3) :
    signalFrame (.signal m c) s = s := if_neg fun h => Bool.false_ne_true (unnamed.symm.trans h.2)

/-- Such a SIGNAL changes the slots and the events alone. -/
theorem signalFrame_sets {s : State} (keeps : s.member.state.hasTable = true) {m : Half}
    (named : m.getLsbD s.station.toNat = true) (c : BitVec 3) :
    ∃ sl ev, signalFrame (.signal m c) s = (s.withSlots sl).withEvents ev ∧
      ev.latch = s.events.latch ||| BitVec.ofNat 8 (2 ^ c.toNat) ∧ ev.latched.getLsbD 3 = true := by
  rw [signalFrame_named keeps named]
  obtain ⟨sl, k, _, triggered⟩ := triggerSignal_from c (setEvent .signal (s.withEvents
    { s.events with latch := s.events.latch ||| BitVec.ofNat 8 (2 ^ c.toNat) }))
  refine ⟨sl, _, triggered.trans rfl, rfl, ?_⟩
  have bit : Event.signal.mask[3] = true := by decide
  simp [setEvent_eq, bit]

end Sys2Proof.Machine
end

