-- ==== Sys2Proof/Proofs/OwnFrames.lean ====
section
/-! PROOFS. Own frames at an ACTIVE station and at the others: what each kind leaves (R27, R80, R92, R101, R109, R146). -/

namespace Sys2Proof.Machine

/-- An own frame that does not evict this station decides nothing about it. -/
theorem acceptFrame_own {s : State} {x : TxFrame} (keeps : s.member.state.hasTable = true) (h : Header)
    (evict : ∀ g c, x.frame = .evict g c → g ≠ s.station) : acceptFrame s.station (some x) x.frame h s =
      signalFrame x.frame (digestFrame s.station true x.frame h (tableTaken s.station (some x) x.frame s)) := by
  by_cases signal : ∃ m c, x.frame = .signal m c
  · obtain ⟨m, c, frame⟩ := signal
    rw [acceptFrame_of_hasTable keeps, frame]
    rfl
  by_cases digest : ∃ v, x.frame = .digest v
  · obtain ⟨v, frame⟩ := digest
    rw [acceptFrame_of_hasTable keeps, frame]
    rfl
  · rw [acceptFrame_plain keeps _ _ _ (fun m c frame => signal ⟨m, c, frame⟩) (fun v frame => digest ⟨v, frame⟩)
      (fun _ _ _ => .inl rfl) evict]
    cases frame : x.frame with
    | signal m c => exact absurd ⟨m, c, frame⟩ signal
    | digest v => exact absurd ⟨v, frame⟩ digest
    | _ => rfl

/-- The Digest Unit and the slots behind an own frame. -/
theorem ownFrame_settles {t : State} (keeps : t.member.state.hasTable = true) (a : Addr) (f : Frame) (h : Header) :
    ∃ sl ev dg, signalFrame f (digestFrame a true f h t) = ((t.withSlots sl).withEvents ev).withDigest dg ∧
      ((∀ m c, f ≠ .signal m c) → sl = t.slots ∧ ev = t.events) ∧
      (∀ d, f = .digest d → dg = { t.digest with want := false }) ∧
      (∀ m c, f = .signal m c → m.getLsbD t.station.toNat = true →
        ev.latch = t.events.latch ||| BitVec.ofNat 8 (2 ^ c.toNat) ∧ ev.latched.getLsbD 3 = true) := by
  cases f with
  | signal m c =>
    cases named : m.getLsbD t.station.toNat with
    | false =>
      refine ⟨t.slots, t.events, t.digest, signalFrame_unnamed named c, fun other => absurd rfl (other m c), nofun, ?_⟩
      rintro _ _ ⟨⟩ named'
      rw [named] at named'
      cases named'
    | true =>
      obtain ⟨sl, ev, behind, latch, event⟩ := signalFrame_sets keeps named c
      refine ⟨sl, ev, t.digest, behind, fun other => absurd rfl (other m c), nofun, ?_⟩
      rintro _ _ ⟨⟩ _
      exact ⟨latch, event⟩
  | digest d => exact ⟨t.slots, t.events, _, rfl, fun _ => ⟨rfl, rfl⟩, fun _ _ => rfl, nofun⟩
  | _ => exact ⟨t.slots, t.events, t.digest, rfl, fun _ => ⟨rfl, rfl⟩, nofun, nofun⟩

/-- The frames of the outgoing list that reach the table. -/
def Frame.changesTable (f : Frame) : Prop :=
  (∃ m u l, f = .claim m u l) ∨ (∃ c l, f = .release c l) ∨ ∃ o, f = .withdraw o

theorem serviceAfter_own_snap (s : State) (a j : Addr) (i : Nat) (k : TokenKind) (hs : List Holder) (ws : List Waiter) :
    s.serviceAfter a true (.snap j i k hs ws) = if i + 1 = s.n then s.snap.service.filter (fun y => y.1 != j)
      else s.snap.service.map (fun y => if y.1 == j then (j, i + 1) else y) := by
  have own : s.serviceAfter a true (.snap j i k hs ws) = (ownSnapAccepted j i s).snap.service := rfl
  rw [own, ownSnapAccepted]
  split <;> rfl

/-- The CLAIM, RELEASE or WITHDRAW of the outgoing list at its owner. -/
structure ListTaken (x : TxFrame) (v t : State) : Prop where
  leases : t.leases = v.leases
  slots : t.slots = v.slots
  unlisted : x.entry = none → t.req = v.req
  release : ∀ c l, x.frame = .release c l → t.req = v.req
  withdraw : ∀ o n, x = ⟨.withdraw o, some n⟩ →
    t.req = { v.req with outgoing := v.req.outgoing.filter (fun g => !(g.entry == n && g.isWithdraw)) }
  claim : ∀ m k l n, x = ⟨.claim m k l, some n⟩ →
    ((∀ e, v.pendAt n = some e → e.kind ≠ .acquire ∨ e.phase ≠ .withdrawing) →
      t.req = { v.req with outgoing := v.req.outgoing.filter (fun g => !(g.entry == n && g.isClaim)) }) ∧
    ∀ e, v.pendAt n = some e → e.kind = .acquire → e.phase = .withdrawing →
      t.req = { v.req with outgoing := v.req.outgoing.map (fun g =>
        if g.entry == n && g.isClaim then ⟨n, .withdraw (e.origin.getD 0)⟩ else g) }

theorem ownFrameOwner_taken {x : TxFrame} (h : x.frame.changesTable) {v t : State}
    (leases : t.leases = (ownFrameOwner (some x) v).leases) (slots : t.slots = (ownFrameOwner (some x) v).slots)
    (req : t.req = (ownFrameOwner (some x) v).req) : ListTaken x v t where
  leases := leases.trans (ownFrameOwner_list v h).1
  slots := slots.trans (ownFrameOwner_list v h).2
  unlisted none := req.trans (by
    obtain ⟨f, entry⟩ := x
    cases none
    rfl)
  release c l frame := req.trans (by
    obtain ⟨f, entry⟩ := x
    cases frame
    cases entry <;> rfl)
  withdraw o n same := req.trans (by rw [same]; exact outgoingAccepted_withdraw n o v)
  claim m k l n same := by
    subst same
    exact ⟨fun plain => req.trans (outgoingAccepted_claim plain m k l),
      fun e entry kind phase => req.trans (outgoingAccepted_claim_withdrawing entry kind phase m k l)⟩

/-- What an own frame of an ACTIVE station but an EVICT leaves. -/
theorem ownFrame_active (s : State) (x : TxFrame) (powered : s.powered = true) (active : s.member.state = .active)
    (tx : s.line.tx = some x) (wait : s.line.phase ≠ .waiting) (evict : ∀ g c, x.frame ≠ .evict g c)
    (restart : ∀ d, x.frame ≠ .presence .listening d) :
    ∃ t, exec (.frameAccepted .own) s = .next t ∧
      t.line = { s.line with
        phase := .gap, recessive := 0, tx := none, begun := [], yielding := true, rfc := s.line.rfc - 1,
        tfc := s.line.tfc - 1 } ∧
      t.member.state = .active ∧ t.member.presenceTimer = some s.presencePeriod ∧
      t.member.peers = s.member.peers ∧ t.config = s.config ∧ t.errors = s.errors ∧
      (x.frame.changesTable → t.table = (applyFrame s.table s.n s.station s.station x.frame).table) ∧
      (x.frame.changesTable → ∃ u : State, u.leases = s.leases ∧ u.req = s.req ∧ u.slots = s.slots ∧
        u.config = s.config ∧ ListTaken x (takeReports (applyFrame s.table s.n s.station s.station x.frame).reports u) t) ∧
      (¬ x.frame.changesTable → t.table = s.table ∧ t.leases = s.leases ∧ (x.entry = none → t.req = s.req)) ∧
      (∀ m c n e, x = ⟨.signal m c, some n⟩ → s.pendAt n = some e → e.kind = .signal →
        t.req = { s.req with
          pend := s.req.pend.set n none,
          outgoing := s.req.outgoing.filter (fun o => !(o.entry == n && o.isSignal)),
          cmp := s.req.cmp ++ [⟨.sent, e.tag, e.source, 5, 0, m.extractLsb' 8 8, m.extractLsb' 0 8,
            BitVec.ofNat 8 c.toNat, 0⟩] }) ∧
      (∀ m c, x.frame = .signal m c → m.getLsbD s.station.toNat = true →
        t.events.latch = s.events.latch ||| BitVec.ofNat 8 (2 ^ c.toNat) ∧ t.events.latched.getLsbD 3 = true) ∧
      (∀ d, x.frame = .digest d → t.digest = { s.digest with want := false }) ∧
      (∀ p d, x.frame = .presence p d → t.member.presenceWant = false) ∧
      (∀ j i k hs ws, x.frame = .snap j i k hs ws → t.snap = { s.snap with
        service := if i + 1 = s.n then s.snap.service.filter (fun y => y.1 != j)
          else s.snap.service.map (fun y => if y.1 == j then (j, i + 1) else y) }) := by
  have keeps : s.member.state.hasTable = true := by rw [active]; rfl
  have unnamed : x.frame.target = none := by
    cases frame : x.frame with
    | evict g c => exact absurd frame (evict g c)
    | _ => rfl
  have taken := tableTaken_own s x
  have member := taken.member.trans (State.memberAfter_own unnamed)
  obtain ⟨u, leases, req, slots, config, tLeases, tReq, tSlots⟩ := tableTaken_units s.station (some x) x.frame s
  have told := tableTaken_told s.station (some x) x.frame s
  have shown : (showTarget x.frame (showSender s.station x.frame (s.withLine (s.line.accepted (some x).isSome)))).events =
      s.events := shownEvents_own (s := s.withLine (s.line.accepted (some x).isSome)) unnamed
  have latch : (tableTaken s.station (some x) x.frame s).events.latch = s.events.latch :=
    told.latch.trans (congrArg Events.latch shown)
  have state : (tableTaken s.station (some x) x.frame s).member.state = .active := by rw [member]; exact active
  have timer : (tableTaken s.station (some x) x.frame s).member.presenceTimer = some s.presencePeriod := by rw [member]
  have peers : (tableTaken s.station (some x) x.frame s).member.peers = s.member.peers := by rw [member]
  have want : ∀ p d, x.frame = .presence p d →
      (tableTaken s.station (some x) x.frame s).member.presenceWant = false := fun p d frame => by
    rw [taken.member, frame]
    rfl
  have keeps' : (tableTaken s.station (some x) x.frame s).member.state.hasTable = true := by rw [state]; rfl
  obtain ⟨sl, ev, dg, behind, others, digest, signal⟩ :=
    ownFrame_settles keeps' s.station x.frame (headerSent s.station x.frame)
  have accepts := frameAccepted_own powered (takesPart_of_hasTable keeps) tx wait
  rw [acceptFrame_own keeps _ (fun g c frame => absurd frame (evict g c)), behind] at accepts
  have plain : ¬ x.frame.changesTable → (applyFrame s.table s.n s.station s.station x.frame).table = s.table ∧
      (applyFrame s.table s.n s.station s.station x.frame).reports = [] := fun other =>
    applyFrame_other (fun m u l h => other (.inl ⟨m, u, l, h⟩)) (fun c l h => other (.inr (.inl ⟨c, l, h⟩)))
      (fun o h => other (.inr (.inr ⟨o, h⟩))) evict restart _ _ _ _
  clear told shown member keeps'
  generalize tableTaken s.station (some x) x.frame s = v at *
  refine ⟨_, accepts, taken.line, state, timer, peers, taken.config, taken.errors, fun _ => taken.table, fun h => ?_, fun other => ?_,
    fun m c n e same entry kind => ?_, fun m c frame named => ?_, fun d frame => ?_, want,
    fun j i k hs ws frame => ?_⟩
  · have same := others (fun m c frame => by
      rw [frame] at h
      rcases h with ⟨_, _, _, h⟩ | ⟨_, _, h⟩ | ⟨_, h⟩ <;> cases h)
    exact ⟨u, leases, req, slots, config, ownFrameOwner_taken h tLeases (same.1.trans tSlots) tReq⟩
  · obtain ⟨table, reports⟩ := plain other
    rw [reports] at tLeases tReq
    refine ⟨taken.table.trans table, tLeases.trans ((ownFrameOwner_leases _ _).trans leases), fun none => ?_⟩
    obtain ⟨f, entry⟩ := x
    cases none
    exact tReq.trans req
  · subst same
    rw [(plain (by rintro (⟨_, _, _, h⟩ | ⟨_, _, h⟩ | ⟨_, h⟩) <;> cases h)).2] at tReq
    have entry' : u.pendAt n = some e := by
      rw [State.pendAt, req]
      exact entry
    have sent := tReq.trans (outgoingAccepted_signal entry' kind m c)
    rw [req] at sent
    exact sent
  · have set := signal m c frame (taken.station.symm ▸ named)
    rw [latch] at set
    exact set
  · exact (digest d frame).trans (by rw [taken.digest])
  · refine taken.snap.trans ?_
    rw [frame, serviceAfter_own_snap]

end Sys2Proof.Machine
end

