-- ==== Sys2Proof/Proofs/OwnFrames2.lean ====
section
/-! PROOFS. The own EVICT and RELEASE, and own frames in LEAVING, JOINING and LISTENING (R36, R74, R80, R91, R92, R129). -/

namespace Sys2Proof.Machine

/-! ## The own EVICT of a peer -/

theorem wantsAfter_own_evict (s : State) (g : Addr) (c : EvictCause) : s.wantsAfter s.station (.evict g c) =
    s.member.evictWants.filter (fun w => w.1 == s.station || w.1 != g) := by
  rw [State.wantsAfter_own]
  refine List.filter_congr fun w _ => congrArg _ ?_
  rw [Bool.eq_iff_iff]
  simp only [Frame.target, bne_iff_ne, ne_eq, Option.some.injEq]
  exact not_congr eq_comm

/-- The eviction of a peer that was not ABSENT sets the PEER event (R69). -/
theorem shownEvents_evict {s : State} {g : Addr} (other : g ≠ s.station) (c : EvictCause)
    (present : (s.peerAt g).state ≠ .absent) :
    (showTarget (.evict g c) (showSender s.station (.evict g c) s)).events.latched.getLsbD 5 = true := by
  have shown : showTarget (.evict g c) (showSender s.station (.evict g c) s) = setPeer g (s.peerAt g).evicted s := by
    have sender : showSender s.station (.evict g c) s = s := if_pos rfl
    rw [sender]
    exact if_neg other
  have changes : ((s.peerAt g).state != (s.peerAt g).evicted.state) = true := bne_iff_ne.2 present
  have bit : Event.peer.mask[5] = true := by decide
  rw [shown, setPeer_eq, changes]
  simp [bit]

/-- The own EVICT of a peer (R36, R68, R70, R102). -/
theorem ownEvict_active (s : State) (g : Addr) (c : EvictCause) (powered : s.powered = true)
    (active : s.member.state = .active) (tx : s.line.tx = some ⟨.evict g c, none⟩) (other : g ≠ s.station)
    (wait : s.line.phase ≠ .waiting) (length : s.member.peers.length = 16) :
    let a := applyFrame s.table s.n s.station s.station (.evict g c)
    ∃ t, exec (.frameAccepted .own) s = .next t ∧ t.table = a.table ∧
      t.line = { s.line with
        phase := .gap, recessive := 0, tx := none, begun := [], yielding := true, rfc := s.line.rfc - 1,
        tfc := s.line.tfc - 1 } ∧
      t.member.state = .active ∧ t.member.presenceTimer = some s.presencePeriod ∧
      t.member.presenceWant = s.member.presenceWant ∧
      t.peerAt g = { s.peerAt g with state := .absent, dropout := 0, digest := .none } ∧
      (∀ p, p ≠ g → t.peerAt p = s.peerAt p) ∧
      ((s.peerAt g).state ≠ .absent → t.events.latched.getLsbD 5 = true) ∧
      t.member.evictWants = s.member.evictWants.filter (fun w => w.1 == s.station || w.1 != g) ∧
      t.snap = { s.snap with service := s.snap.service.filter (fun y => y.1 != g) } ∧
      t.digest = s.digest ∧ t.errors = s.errors ∧ t.config = s.config ∧
      ∃ u : State, u.leases = s.leases ∧ u.req = s.req ∧ u.slots = s.slots ∧ u.config = s.config ∧
        t.leases = (takeReports a.reports u).leases ∧ t.req = (takeReports a.reports u).req ∧
        t.slots = (takeReports a.reports u).slots := by
  intro a
  have keeps : s.member.state.hasTable = true := by rw [active]; rfl
  have taken := tableTaken_own s ⟨.evict g c, none⟩
  have accepts := frameAccepted_own powered (takesPart_of_hasTable keeps) tx wait
  rw [acceptFrame_plain keeps s.station _ _ (by simp) (by simp) (by simp) (by rintro _ _ ⟨⟩; exact other)] at accepts
  have peers := tableTaken_peerAt s.station (.evict g c) (some ⟨.evict g c, none⟩) length
  have shown (p : Addr) : (s.peersShowing s.station (.evict g c)).getD p.toNat Peer.cleared = s.peerAt p := by
    rw [State.peersShowing_getD length, if_neg fun same => same.2 rfl]
  have events := tableTaken_told s.station (some ⟨.evict g c, none⟩) (.evict g c) s
  have units := tableTaken_units s.station (some ⟨.evict g c, none⟩) (.evict g c) s
  simp only [shown] at peers
  have state : (tableTaken s.station (some ⟨.evict g c, none⟩) (.evict g c) s).member.state = .active := by
    rw [taken.member]; exact active
  have timer : (tableTaken s.station (some ⟨.evict g c, none⟩) (.evict g c) s).member.presenceTimer =
      some s.presencePeriod := by rw [taken.member]; rfl
  have want : (tableTaken s.station (some ⟨.evict g c, none⟩) (.evict g c) s).member.presenceWant =
      s.member.presenceWant := by rw [taken.member]; rfl
  have wants : (tableTaken s.station (some ⟨.evict g c, none⟩) (.evict g c) s).member.evictWants =
      s.wantsAfter s.station (.evict g c) := by rw [taken.member]; rfl
  generalize tableTaken s.station (some ⟨.evict g c, none⟩) (.evict g c) s = t at *
  refine ⟨t, accepts, taken.table, taken.line, state, timer, want, ?_, fun p apart => ?_, fun present => ?_,
    wants.trans (wantsAfter_own_evict s g c), taken.snap, taken.digest, taken.errors, taken.config, units⟩
  · rw [peers, if_pos ⟨rfl, other⟩]
    rfl
  · rw [peers, if_neg]
    rintro ⟨⟨⟩, _⟩
    exact apart rfl
  · have set := shownEvents_evict (s := s.withLine (s.line.accepted true)) other c present
    rw [BitVec.getLsbD_eq_getElem (by decide)] at set ⊢
    exact events.latched (by decide) set

/-! ## The own RELEASE -/

/-- The own RELEASE in ACTIVE and LEAVING (R129, R150). -/
theorem ownRelease_taken (s : State) (c : ReleaseCause) (l : List Nat) (powered : s.powered = true)
    (state : s.member.state = .active ∨ s.member.state = .leaving) (tx : s.line.tx = some ⟨.release c l, none⟩)
    (wait : s.line.phase ≠ .waiting) :
    let a := applyFrame s.table s.n s.station s.station (.release c l)
    ∃ t, exec (.frameAccepted .own) s = .next t ∧ t.table = a.table ∧
      t.line = { s.line with
        phase := .gap, recessive := 0, tx := none, begun := [], yielding := true, rfc := s.line.rfc - 1,
        tfc := s.line.tfc - 1 } ∧
      t.member = { s.member with presenceTimer := some s.presencePeriod } ∧ t.snap = s.snap ∧
      t.digest = s.digest ∧ t.errors = s.errors ∧ t.config = s.config ∧
      (∃ u : State, u.leases = s.leases ∧ u.req = s.req ∧ u.slots = s.slots ∧ u.config = s.config ∧
        t.leases = (takeReports a.reports u).leases ∧ t.req = (takeReports a.reports u).req ∧
        t.slots = (takeReports a.reports u).slots) ∧
      ∀ lost r m q, a.reports = [.released l c lost] → s.leases.find? (fun y => y.tokens == l) = some r →
        r.source = .host → r.state = .releasePending →
        s.findPend (fun y => y.kind == .release && y.list == l) = some m → s.pendAt m = some q →
        t.leases = s.leases.filter (fun y => y.tokens != l) ∧ t.slots = s.slots ∧
        t.req = { s.req with
          pend := s.req.pend.set m none,
          cmp := s.req.cmp ++ [.listed .released q.tag q.source 2 l r.units] } := by
  intro a
  have keeps : s.member.state.hasTable = true := hasTable_iff.2 state
  have taken := tableTaken_own s ⟨.release c l, none⟩
  have accepts := frameAccepted_own powered (takesPart_of_hasTable keeps) tx wait
  rw [acceptFrame_plain keeps s.station _ _ (by simp) (by simp) (by simp) (by simp)] at accepts
  obtain ⟨u, leases, req, slots, config, tLeases, tReq, tSlots⟩ :=
    tableTaken_units s.station (some ⟨.release c l, none⟩) (.release c l) s
  have member := taken.member.trans (State.memberAfter_own_plain (f := .release c l) rfl (by simp))
  generalize tableTaken s.station (some ⟨.release c l, none⟩) (.release c l) s = t at *
  refine ⟨t, accepts, taken.table, taken.line, member, taken.snap, taken.digest, taken.errors, taken.config,
    ⟨u, leases, req, slots, config, tLeases, tReq, tSlots⟩, fun lost r m q reports found host pending entry pend => ?_⟩
  have found' : u.leases.find? (fun y => y.tokens == l) = some r := leases.symm ▸ found
  have entry' : u.findPend (fun y => y.kind == .release && y.list == l) = some m := by
    rw [← entry]
    exact findPend_congr (congrArg Requests.pend req) _
  have pend' : u.pendAt m = some q := by
    rw [State.pendAt, req]
    exact pend
  have ended := removeLease_released found' pending entry' pend'
  simp only [host] at ended
  have told : takeReports [.released l c lost] u = removeLease l u := rfl
  rw [reports, told, ended] at tLeases tReq tSlots
  refine ⟨tLeases.trans ?_, tSlots.trans slots, tReq.trans ?_⟩
  · rw [← leases]
    rfl
  · rw [← req]
    rfl

/-! ## The own frames of LEAVING, JOINING and LISTENING -/

/-- The Line Interface behind an own accepted frame. -/
def Line.afterOwn (l : Line) : Line := { l with
  phase := .gap, recessive := 0, tx := none, begun := [], yielding := true, rfc := l.rfc - 1, tfc := l.tfc - 1 }

/-- An own EVICT in LEAVING (R80, R85). -/
theorem ownEvict_leaving (s : State) (powered : s.powered = true) (wait : s.line.phase ≠ .waiting)
    (hold : s.line.hold = none) (leaving : s.member.state = .leaving)
    (tx : s.line.tx = some ⟨.evict s.station .self, none⟩) (nodup : ∀ w ∈ s.table, (w.waiters.map Waiter.station).Nodup) :
    ∃ t, exec (.frameAccepted .own) s = .next t ∧ t.member.state = .detached ∧ t.leases = [] ∧
      t.table = clearEntries s.table ∧ t.req = { s.req with
        outgoing := [], pend := List.replicate 16 none, cmp := s.req.cmp ++ purgeCompletions .detached s.req.pend } ∧
      t.line = { s.line.afterOwn with phase := .off, yielding := false } ∧ t.errors = s.errors ∧
      t.member.peers = List.replicate 16 Peer.cleared ∧ t.member.evictWants = [] ∧ t.snap.service = [] ∧
      t.config = s.config := by
  have keeps : s.member.state.hasTable = true := by rw [leaving]; rfl
  have taken := tableTaken_own s ⟨.evict s.station .self, none⟩
  obtain ⟨v, leases, req, slots, config, tLeases, tReq, tSlots⟩ :=
    tableTaken_units s.station (some ⟨.evict s.station .self, none⟩) (.evict s.station .self) s
  rw [applyFrame_evict_self s.n s.station s.station .self nodup] at tReq
  have accepts := frameAccepted_own powered (takesPart_of_hasTable keeps) tx wait
  rw [acceptFrame_evict keeps] at accepts
  have state : (tableTaken s.station (some ⟨.evict s.station .self, none⟩) (.evict s.station .self) s).member.state =
      .leaving := by
    rw [taken.member]
    exact leaving
  generalize tableTaken s.station (some ⟨.evict s.station .self, none⟩) (.evict s.station .self) s = t at *
  have keeps' : t.member.state.hasTable = true := by rw [state]; rfl
  have decides (h : Header) : decideEvict (.evict s.station .self) h t = leave .detached .detached .none t :=
    if_pos ⟨taken.station.symm, keeps'⟩
  have purged := leave_purged keeps' (by rw [taken.line]; exact hold) (by rw [taken.line]) (.inr rfl : MState.detached =
    .listening ∨ MState.detached = .detached) .detached
  rw [decides] at accepts
  refine ⟨_, accepts, purged.state, purged.leases, ?_, ?_, ?_, purged.errors.trans taken.errors, purged.peers,
    purged.wants, ?_, purged.config.trans taken.config⟩
  · rw [purged.table, taken.table]
    exact clearEntries_of_kinds (applyFrame_kinds _ _ _ _ _)
  · have same : t.req = s.req := tReq.trans req
    rw [purged.req, same]
  · rw [purged.offLine rfl, taken.line]
    rfl
  · rw [purged.snap]

/-- An own SNAP in LEAVING (R101). -/
theorem ownSnap_leaving (s : State) {e : Option Nat} (powered : s.powered = true) (wait : s.line.phase ≠ .waiting)
    (leaving : s.member.state = .leaving) {j : Addr} {i : Nat} {k : TokenKind} {hs : List Holder} {ws : List Waiter}
    (tx : s.line.tx = some ⟨.snap j i k hs ws, e⟩) :
    ∃ t, exec (.frameAccepted .own) s = .next t ∧ t.line = s.line.afterOwn ∧ t.member.state = .leaving ∧
      t.table = s.table ∧ t.snap = { s.snap with
        service := if i + 1 = s.n then s.snap.service.filter (fun y => y.1 != j)
          else s.snap.service.map (fun y => if y.1 == j then (j, i + 1) else y) } := by
  have keeps : s.member.state.hasTable = true := by rw [leaving]; rfl
  have taken := tableTaken_own s ⟨.snap j i k hs ws, e⟩
  have accepts := frameAccepted_own powered (takesPart_of_hasTable keeps) tx wait
  rw [acceptFrame_plain keeps s.station _ _ (by simp) (by simp) (by simp) (by simp)] at accepts
  refine ⟨_, accepts, taken.line, ?_, taken.table, ?_⟩
  · rw [taken.member]
    exact leaving
  · rw [taken.snap]
    simp only [serviceAfter_own_snap]

section
variable {s : State}

/-- The records behind an own PRESENCE (R72, R74). -/
def State.afterPresence (s : State) (p : PresenceState) : State :=
  (s.withLine s.line.afterOwn).withMember { s.member with
    presenceTimer := some s.presencePeriod, presenceWant := false
    listenTimer := if s.member.state = .listening ∧ p = .listening ∧ s.member.listenTimer = none
      then some (3 * s.presencePeriod) else s.member.listenTimer }

theorem memberFrame_own_presence (p : PresenceState) (d : Word) :
    memberFrame s.station true (.presence p d) (s.withLine (s.line.accepted true)) = s.afterPresence p := by
  have member := State.memberAfter_own (s := s.withLine (s.line.accepted true)) (f := .presence p d) rfl
  have events := shownEvents_own (s := s.withLine (s.line.accepted true)) (f := .presence p d) rfl
  have frame := memberFrame_eq s.station true (.presence p d) (s.withLine (s.line.accepted true))
  rw [frame]
  refine (congrArg (fun m => State.withEvents _ m) events).trans ?_
  refine (congrArg (fun m => (State.withMember _ m).withEvents _) member).trans ?_
  unfold State.afterPresence
  simp only [State.memberAfter, if_true, true_and]
  rfl

/-- The table, the units and the service list do not take it. -/
theorem ownPresence_untaken {p : PresenceState} {st : MState} (restart : p = .listening → st = .listening) (d : Word)
    (e : Option Nat) (u : State) : serviceFrame st s.station true (.presence p d)
      (ownFrameOwner (some ⟨.presence p d, e⟩) (acceptTable st s.station (.presence p d) u)) = u := by
  have table : acceptTable st s.station (.presence p d) u = u := by
    cases p with
    | listening => rw [restart rfl]; rfl
    | joining | active => cases st <;> rfl
  have owner (v : State) : ownFrameOwner (some ⟨.presence p d, e⟩) v = v := by cases e <;> rfl
  rw [table, owner]
  cases p <;> rfl

theorem acceptFrame_own_presence {p : PresenceState} (restart : p = .listening → s.member.state = .listening) (d : Word)
    (e : Option Nat) (h : Header) : acceptFrame s.station (some ⟨.presence p d, e⟩) (.presence p d) h s =
      acceptSnap true (.presence p d) (s.afterPresence p) := by
  have member : memberFrame s.station (some (⟨.presence p d, e⟩ : TxFrame)).isSome (.presence p d)
      (s.withLine (s.line.accepted (some (⟨.presence p d, e⟩ : TxFrame)).isSome)) = s.afterPresence p :=
    memberFrame_own_presence p d
  rw [acceptFrame_eq, member]
  have untaken := ownPresence_untaken (s := s) restart d e (s.afterPresence p)
  simp only [Option.isSome_some, untaken]
  unfold acceptEvents
  split <;> rfl

/-- A donor that neither fails nor has to be sought is left. -/
theorem seekDonor_watchDonor_of_settled {u : State}
    (seeking : u.snap.engine = .seeking → u.findDonor u.donorRef = none)
    (requesting : u.snap.engine = .requesting → u.eligible u.donorRef = true) : seekDonor (watchDonor u) = u := by
  have watched : watchDonor u = u := by
    refine watchDonor_of_other ?_
    rintro ⟨_, engine, _, lost⟩
    rw [requesting engine] at lost
    cases lost
  rw [watched, seekDonor]
  split
  next h => simp only [seeking h.2]
  next => rfl

end

/-- The own PRESENCE in LEAVING and in JOINING. -/
theorem ownPresence_settled (s : State) (powered : s.powered = true) (wait : s.line.phase ≠ .waiting) {d : Word}
    (sends : (s.member.state = .leaving ∧ s.line.tx = some ⟨.presence .active d, none⟩) ∨
      (s.member.state = .joining ∧ s.line.tx = some ⟨.presence .joining d, none⟩ ∧
        (s.snap.engine = .seeking → s.findDonor s.donorRef = none) ∧
        (s.snap.engine = .requesting → s.eligible s.donorRef = true))) :
    exec (.frameAccepted .own) s = .next ((s.withLine s.line.afterOwn).withMember { s.member with
      presenceTimer := some s.presencePeriod, presenceWant := false }) := by
  have kept {p : PresenceState} (other : s.member.state ≠ .listening) : s.afterPresence p =
      (s.withLine s.line.afterOwn).withMember { s.member with
        presenceTimer := some s.presencePeriod, presenceWant := false } := by
    simp only [State.afterPresence, other, false_and, if_false]
  rcases sends with ⟨leaving, tx⟩ | ⟨joining, tx, seeking, requesting⟩
  · have part : s.takesPart = true := takesPart_of_hasTable (by rw [leaving]; rfl)
    rw [frameAccepted_own powered part tx wait, acceptFrame_own_presence (by simp),
      kept (by simp [leaving]), acceptSnap, if_neg]
    exact fun joining => by cases leaving.symm.trans joining
  · have part : s.takesPart = true := by rw [State.takesPart, joining]; rfl
    rw [frameAccepted_own powered part tx wait, acceptFrame_own_presence (by simp),
      kept (by simp [joining]), acceptSnap]
    exact congrArg _ ((if_pos joining).trans (seekDonor_watchDonor_of_settled seeking requesting))

/-- The own PRESENCE in LISTENING starts the listen interval (R74). -/
theorem ownPresence_listening (s : State) {e : Option Nat} (powered : s.powered = true) (wait : s.line.phase ≠ .waiting)
    (listening : s.member.state = .listening) {d : Word} (tx : s.line.tx = some ⟨.presence .listening d, e⟩) :
    exec (.frameAccepted .own) s = .next ((s.withLine s.line.afterOwn).withMember { s.member with
      presenceTimer := some s.presencePeriod, presenceWant := false
      listenTimer := if s.member.listenTimer = none then some (3 * s.presencePeriod) else s.member.listenTimer }) := by
  have part : s.takesPart = true := by rw [State.takesPart, listening]; rfl
  rw [frameAccepted_own powered part tx wait, acceptFrame_own_presence (fun _ => listening), acceptSnap, if_neg]
  · simp only [State.afterPresence, listening, true_and]
  · exact fun joining => by cases listening.symm.trans joining

/-- The own SNAPREQ in JOINING makes the engine RECEIVING (R92). -/
theorem ownSnapreq_joining (s : State) {e : Option Nat} (powered : s.powered = true) (wait : s.line.phase ≠ .waiting)
    (joining : s.member.state = .joining) {d : Addr} {i : Nat} (tx : s.line.tx = some ⟨.snapreq d i, e⟩) :
    exec (.frameAccepted .own) s = .next (((s.withLine s.line.afterOwn).withMember { s.member with
      presenceTimer := some s.presencePeriod }).withSnap { s.snap with
        engine := .receiving, donor := some d, timer := some (2 * s.presencePeriod) }) := by
  have part : s.takesPart = true := by rw [State.takesPart, joining]; rfl
  set u := (s.withLine s.line.afterOwn).withMember { s.member with presenceTimer := some s.presencePeriod }
  have member : memberFrame s.station true (.snapreq d i) (s.withLine (s.line.accepted true)) = u := by
    have frame := memberFrame_eq s.station true (.snapreq d i) (s.withLine (s.line.accepted true))
    have after := State.memberAfter_own_plain (s := s.withLine (s.line.accepted true)) (f := .snapreq d i) rfl (by simp)
    have events := shownEvents_own (s := s.withLine (s.line.accepted true)) (f := .snapreq d i) rfl
    rw [frame]
    refine (congrArg (fun m => State.withEvents _ m) events).trans ?_
    exact congrArg (fun m => (State.withMember _ m).withEvents _) after
  have owner (v : State) : ownFrameOwner (some ⟨.snapreq d i, e⟩) v = v := by cases e <;> rfl
  have table : acceptTable s.member.state s.station (.snapreq d i) u = u := by rw [joining]; rfl
  have service : serviceFrame s.member.state s.station true (.snapreq d i) u = u := rfl
  have engine : acceptSnap true (.snapreq d i) u = snapreqAccepted d u := by
    refine (if_pos joining).trans ?_
    exact seekDonor_watchDonor_of_settled (by simp [snapreqAccepted]) (by simp [snapreqAccepted])
  have events (v : State) (h : Header) : acceptEvents s.member.state s.station true (.snapreq d i) h v = v := by
    rw [joining]
    rfl
  rw [frameAccepted_own powered part tx wait, acceptFrame_eq]
  simp only [Option.isSome_some, member, table, owner, service, engine, events]
  rfl

/-- Settles O41: the table and the units, the owner, and the other units in their order. -/
theorem ownAcceptedFrameIsTaken : Obligations.OwnAcceptedFrameIsTaken := by
  refine ⟨fun s x powered active tx wait evict restart => ?_, ownEvict_active, ownRelease_taken,
    fun s e powered wait hold => ⟨fun leaving tx nodup => ownEvict_leaving s powered wait hold leaving tx nodup,
      fun leaving j i k hs ws tx => ownSnap_leaving s powered wait leaving tx,
      fun d sends => ownPresence_settled s powered wait sends,
      fun listening d tx => ownPresence_listening s powered wait listening tx,
      fun joining d i tx => ownSnapreq_joining s powered wait joining tx⟩⟩
  obtain ⟨t, accepts, line, state, timer, peers, config, errors, table, units, other, sent, signal, digest, presence,
    snap⟩ := ownFrame_active s x powered active tx wait evict restart
  refine ⟨t, accepts, line, state, timer, peers, config, errors, table, fun taken => ?_, other, sent, signal, digest,
    presence, snap⟩
  obtain ⟨u, leases, req, slots, config, list⟩ := units taken
  exact ⟨u, leases, req, slots, config, list.leases, list.slots, list.unlisted, list.release, list.withdraw, list.claim⟩

end Sys2Proof.Machine
end

