-- ==== Sys2Proof/Proofs/SignalLatch.lean ====
section
/-! PROOFS. A peer's DIGEST (R110 to R113) and a peer's SIGNAL (R166, R167). -/

namespace Sys2Proof.Machine

/-! ## A frame that the table reports nothing of -/

/-- With no reports the units stay as they are. -/
theorem tableTaken_quiet {s : State} {sender : Addr} {f : Frame}
    (silent : (applyFrame s.table s.n s.station sender f).reports = []) :
    tableTaken sender none f s = (tableBase sender false f s).withEvents
      (showTarget f (showSender sender f (s.withLine (s.line.accepted false)))).events := by
  have frame := memberFrame_eq sender false f (s.withLine (s.line.accepted false))
  have told : tableFrame sender f (memberFrame sender false f (s.withLine (s.line.accepted false))) =
      (memberFrame sender false f (s.withLine (s.line.accepted false))).withTable
        (applyFrame s.table s.n s.station sender f).table := by
    rw [frame]
    exact congrArg (fun rs => takeReports rs _) silent
  have taken : tableTaken sender none f s = serviceFrame s.member.state sender false f
      (tableFrame sender f (memberFrame sender false f (s.withLine (s.line.accepted false)))) := rfl
  rw [taken, told, frame]
  refine (serviceFrame_eq s.member.state sender false f (s := s) ?_ ?_ ?_).trans ?_ <;> rfl

/-- The events that a frame naming no station sets: PEER at most. -/
theorem shownEvents_unnamed {s : State} (sender : Addr) {f : Frame} (unnamed : f.target = none) :
    ∃ m, (m = 0 ∨ m = Event.peer.mask) ∧ (showTarget f (showSender sender f s)).events =
      { s.events with latched := s.events.latched ||| m } := by
  have same : s.events.latched ||| 0 = s.events.latched := BitVec.or_zero
  have shown : (showTarget f (showSender sender f s)).events = (showSender sender f s).events := by
    cases f with
    | evict g c => cases unnamed
    | _ => rfl
  rw [shown, showSender]
  split
  · exact ⟨0, .inl rfl, by rw [same]⟩
  · rw [setPeer_eq]
    split
    · exact ⟨_, .inr rfl, rfl⟩
    · exact ⟨0, .inl rfl, by rw [same]; rfl⟩

/-! ## SIGNAL -/

/-- The latch and the SIGNAL event, but for the slots (R166). -/
def signalled (c : BitVec 3) (s : State) : State :=
  setEvent .signal (s.withEvents { s.events with latch := s.events.latch ||| BitVec.ofNat 8 (2 ^ c.toNat) })

theorem slotAt_triggerSignal {s : State} (length : s.slots.length = 4) (c : BitVec 3) {n : BitVec 2}
    (there : s.slotExists n = true) : (triggerSignal c s).slotAt n =
      if (s.slotAt n).source = 3 ∧ (s.slotAt n).code = c then (s.slotAt n).afterTrigger else s.slotAt n := by
  rw [triggerSignal_eq, slotAt_triggerWhere _ (slotList_nodup s) length]
  simp [mem_slotList, there]

/-- Everything but the slots behind a SIGNAL that names this station. -/
theorem triggerSignal_signalled (c : BitVec 3) (s : State) :
    (triggerSignal c (signalled c s)).table = s.table ∧ (triggerSignal c (signalled c s)).req = s.req ∧
      (triggerSignal c (signalled c s)).leases = s.leases ∧ (triggerSignal c (signalled c s)).errors = s.errors ∧
      (triggerSignal c (signalled c s)).events.latch = s.events.latch ||| BitVec.ofNat 8 (2 ^ c.toNat) ∧
      (triggerSignal c (signalled c s)).events.latched.getLsbD 3 = true := by
  have signal : Event.signal.mask.getLsbD 3 = true := by decide
  obtain ⟨sl, m, _, triggered⟩ := triggerSignal_from c (signalled c s)
  generalize triggerSignal c (signalled c s) = t at triggered
  subst triggered
  refine ⟨rfl, rfl, rfl, rfl, rfl, ?_⟩
  have set : (signalled c s).events.latched = s.events.latched ||| Event.signal.mask := rfl
  simp only [State.withEvents_events, set, BitVec.getLsbD_or, signal, Bool.or_true, Bool.true_or]

theorem signal_accepted (s : State) (r : RawFrame) (m : Half) (c : BitVec 3) (powered : s.powered = true)
    (state : s.member.state = .active ∨ s.member.state = .leaving) (tx : s.line.tx = none) (hold : s.line.hold = none)
    (wait : s.line.phase ≠ .waiting) (length : s.slots.length = 4)
    (sound : receiveCheck s.table s.station r = .ok (.signal m c)) :
    ∃ t, exec (.frameAccepted (.received r)) s = .next t ∧ t.table = s.table ∧ t.req = s.req ∧
      t.leases = s.leases ∧ t.errors = s.errors ∧
      (m.getLsbD s.station.toNat = true →
        t.events.latch = s.events.latch ||| BitVec.ofNat 8 (2 ^ c.toNat) ∧
        t.events.latched.getLsbD 3 = true ∧
        ∀ n, s.slotExists n = true →
          ((s.slotAt n).source = 3 → (s.slotAt n).code = c → (s.slotAt n).state = .armed →
            t.slotAt n = { s.slotAt n with state := .triggered }) ∧
          ((s.slotAt n).source ≠ 3 ∨ (s.slotAt n).code ≠ c → t.slotAt n = s.slotAt n)) ∧
      (m.getLsbD s.station.toNat = false →
        t.events.latch = s.events.latch ∧ t.slots = s.slots ∧
          t.events.latched.getLsbD 3 = s.events.latched.getLsbD 3) := by
  have keeps : s.member.state.hasTable = true := hasTable_iff.2 state
  have accepts := frameAccepted_received powered (takesPart_of_hasTable keeps) tx hold wait sound
  have behind : acceptFrame (senderOf r) none (.signal m c) (headerWhole r) s =
      signalFrame (.signal m c) (tableTaken (senderOf r) none (.signal m c) s) := by
    rw [acceptFrame_of_hasTable keeps]
    rfl
  obtain ⟨k, peer, shown⟩ := shownEvents_unnamed (s := s.withLine (s.line.accepted false)) (senderOf r)
    (f := .signal m c) rfl
  rw [behind, tableTaken_quiet rfl, shown] at accepts
  replace accepts : exec (.frameAccepted (.received r)) s = .next (signalFrame (.signal m c)
    ((tableBase (senderOf r) false (.signal m c) s).withEvents { s.events with latched := s.events.latched ||| k })) :=
    accepts
  have bit : k.getLsbD 3 = false := by rcases peer with rfl | rfl <;> decide
  set u := (tableBase (senderOf r) false (.signal m c) s).withEvents
    { s.events with latched := s.events.latched ||| k }
  have slots : u.slots = s.slots := rfl
  have exists_u : ∀ n, u.slotExists n = s.slotExists n := fun _ => rfl
  have station : u.station = s.station := rfl
  have table : u.table = s.table := rfl
  have req : u.req = s.req := rfl
  have leases : u.leases = s.leases := rfl
  have errors : u.errors = s.errors := rfl
  have latch : u.events.latch = s.events.latch := rfl
  have latched : u.events.latched = s.events.latched ||| k := rfl
  have keeps' : u.member.state.hasTable = true := keeps
  clear_value u
  have slotAt : ∀ n, u.slotAt n = s.slotAt n := fun n => by rw [State.slotAt, slots]; rfl
  rw [← station]
  cases named : m.getLsbD u.station.toNat with
  | false =>
    rw [signalFrame_unnamed named c] at accepts
    refine ⟨u, accepts, table, req, leases, errors, nofun, fun _ => ⟨latch, slots, ?_⟩⟩
    rw [latched, BitVec.getLsbD_or, bit, Bool.or_false]
  | true =>
    replace accepts : exec (.frameAccepted (.received r)) s = .next (triggerSignal c (signalled c u)) :=
      accepts.trans (congrArg _ (signalFrame_named keeps' named c))
    have at_slot {n : BitVec 2} (there : s.slotExists n = true) :=
      slotAt_triggerSignal (s := signalled c u) (slots.symm ▸ length) c (n := n) (exists_u n ▸ there)
    have same (n : BitVec 2) : (signalled c u).slotAt n = s.slotAt n := slotAt n
    obtain ⟨tTable, tReq, tLeases, tErrors, tLatch, tBit⟩ := triggerSignal_signalled c u
    generalize triggerSignal c (signalled c u) = t at *
    refine ⟨t, accepts, tTable.trans table, tReq.trans req, tLeases.trans leases, tErrors.trans errors,
      fun _ => ⟨latch ▸ tLatch, tBit, fun n there => ⟨fun source code armed => ?_, fun other => ?_⟩⟩, nofun⟩
    · refine (at_slot there).trans ?_
      rw [same, if_pos ⟨source, code⟩]
      exact Slot.afterTrigger_of_armed armed
    · refine (at_slot there).trans ?_
      rw [same]
      exact if_neg fun both => other.elim (fun h => h both.1) (fun h => h both.2)

end Sys2Proof.Machine
end

