-- ==== Sys2Proof/Proofs/DigestFrame.lean ====
section
/-! PROOFS. A peer's DIGEST: its status, the log, and a divergence (R110 to R113). -/

namespace Sys2Proof.Machine

/-- The addresses of the peers shown ACTIVE with a digest status, among all. -/
theorem countStatus_eq {s t : State} {sender : Addr} {status : DigestStatus} (station : t.station = s.station)
    (mine : (t.peerAt sender).state = .active ∧ (t.peerAt sender).digest = status)
    (others : ∀ a, a ≠ sender → t.peerAt a = s.peerAt a) (d : DigestStatus) :
    t.countStatus d = (((List.range 16).map (BitVec.ofNat 4)).filter (fun a : Addr =>
      a != s.station && (a == sender || (s.peerAt a).state == .active) &&
        (if a = sender then status else (s.peerAt a).digest) == d)).length := by
  rw [List.filter_map, List.length_map]
  unfold State.countStatus
  congr 1
  refine List.filter_congr fun i hi => ?_
  have small : i < 16 := List.mem_range.1 hi
  have index : (BitVec.ofNat 4 i).toNat = i := by
    rw [BitVec.toNat_ofNat]
    omega
  have entry : t.member.peers.getD i Peer.cleared = t.peerAt (BitVec.ofNat 4 i) := by rw [State.peerAt, index]
  have own : decide (i ≠ t.station.toNat) = (BitVec.ofNat 4 i != s.station) := by
    rw [station, Bool.eq_iff_iff, decide_eq_true_iff, bne_iff_ne, not_iff_not, ← BitVec.toNat_inj, index]
  rw [entry, own]
  simp only [Function.comp]
  by_cases same : (BitVec.ofNat 4 i : Addr) = sender
  · simp [same, mine.1, mine.2]
  · have apart : ((BitVec.ofNat 4 i : Addr) == sender) = false := beq_eq_false_iff_ne.2 same
    rw [others _ same, apart, Bool.false_or, if_neg same]

/-- A peer's DIGEST with its status shown and a disagreement logged, before the divergence is looked at. -/
def digestShown (sender : Addr) (v : Word) (h : Header) (s : State) : State :=
  let shown := setPeer sender { s.peerAt sender with digest := if v = s.tableDigest then .agree else .disagree } s
  if v = s.tableDigest then shown else logError .digestDisagree h shown

theorem compareDigest_eq (sender : Addr) (v : Word) (h : Header) (s : State) : compareDigest sender v h s =
    if 2 ≤ (digestShown sender v h s).countStatus .disagree ∧
        (digestShown sender v h s).countStatus .agree < (digestShown sender v h s).countStatus .disagree
      then raise .divergence h .none (digestShown sender v h s) else digestShown sender v h s := by
  have raised (u : State) : raise .digestDisagree h .none u = logError .digestDisagree h u := raise_of_not_fatal rfl h .none
  have shown : (if (v == s.tableDigest) = true
      then setPeer sender { s.peerAt sender with digest := if (v == s.tableDigest) = true then .agree else .disagree } s
      else raise .digestDisagree h .none
        (setPeer sender { s.peerAt sender with digest := if (v == s.tableDigest) = true then .agree else .disagree } s)) =
      digestShown sender v h s := by
    rw [raised]
    simp only [digestShown, beq_iff_eq]
  unfold compareDigest
  dsimp only
  rw [shown]

/-- The fields of the state so shown. -/
theorem digestShown_eq (sender : Addr) (v : Word) (h : Header) (s : State) : ∃ ev er, digestShown sender v h s =
    ((s.withMember { s.member with
      peers := s.member.peers.set sender.toNat
        ({ s.peerAt sender with digest := if v = s.tableDigest then .agree else .disagree }) }).withEvents ev).withErrors
          er ∧
    er.status = s.errors.status ||| if v = s.tableDigest then 0 else 0x0008 := by
  have same : s.errors.status ||| 0 = s.errors.status := BitVec.or_zero
  generalize entry : ({ s.peerAt sender with digest := if v = s.tableDigest then .agree else .disagree } : Peer) = p
  obtain ⟨ev, shown⟩ : ∃ ev, setPeer sender p s =
      (s.withMember { s.member with peers := s.member.peers.set sender.toNat p }).withEvents ev := ⟨_, setPeer_eq _ _ _⟩
  rw [digestShown, entry, shown]
  by_cases agree : v = s.tableDigest
  · rw [if_pos agree, if_pos agree]
    exact ⟨ev, s.errors, rfl, same.symm⟩
  · rw [if_neg agree, if_neg agree, logError_eq]
    exact ⟨_, _, rfl, rfl⟩

theorem digest_accepted (s : State) (r : RawFrame) (v : Word) (powered : s.powered = true)
    (state : s.member.state = .active ∨ s.member.state = .leaving) (tx : s.line.tx = none) (hold : s.line.hold = none)
    (wait : s.line.phase ≠ .waiting) (length : s.member.peers.length = 16)
    (sound : receiveCheck s.table s.station r = .ok (.digest v)) :
    ∃ u, exec (.frameAccepted (.received r)) s = .next (if 2 ≤ u.countStatus .disagree ∧
          u.countStatus .agree < u.countStatus .disagree then raise .divergence (headerWhole r) .none u else u) ∧
      u.table = s.table ∧ u.leases = s.leases ∧ u.req = s.req ∧ u.config = s.config ∧ u.station = s.station ∧
      u.member.state = s.member.state ∧ u.line.hold = none ∧ u.line.tx = none ∧
      u.errors.status = s.errors.status ||| (if v = digestOf s.table then 0 else 0x0008) ∧
      u.peerAt (senderOf r) = { s.peerAt (senderOf r) with
        state := .active, dropout := s.dropoutTime, digest := if v = digestOf s.table then .agree else .disagree } ∧
      ∀ p, p ≠ senderOf r → u.peerAt p = s.peerAt p := by
  have keeps : s.member.state.hasTable = true := hasTable_iff.2 state
  have accepts := frameAccepted_received powered (takesPart_of_hasTable keeps) tx hold wait sound
  have peers := tableTaken_peerAt (senderOf r) (.digest v) none length
  have taken := tableTaken_peer (s := s) (senderOf r) (.digest v)
  obtain ⟨w, leases, req, slots, config, tLeases, tReq, tSlots⟩ := tableTaken_units (senderOf r) none (.digest v) s
  have behind : acceptFrame (senderOf r) none (.digest v) (headerWhole r) s =
      if (tableTaken (senderOf r) none (.digest v) s).member.state.hasTable then
        compareDigest (senderOf r) v (headerWhole r) (tableTaken (senderOf r) none (.digest v) s)
      else tableTaken (senderOf r) none (.digest v) s := by
    rw [acceptFrame_of_hasTable keeps]
    rfl
  have shown (p : Addr) : (s.peersShowing (senderOf r) (.digest v)).getD p.toNat Peer.cleared =
      if p = senderOf r then { s.peerAt (senderOf r) with
        state := .active, dropout := s.dropoutTime
        digest := if (s.peerAt (senderOf r)).state = .active then (s.peerAt (senderOf r)).digest else .none }
      else s.peerAt p := by
    rw [State.peersShowing_getD length, shownPeer_active rfl rfl]
    simp [senderOf_ne_of_receiveCheck sound]
  have peerAt (p : Addr) : (tableTaken (senderOf r) none (.digest v) s).peerAt p = _ :=
    ((peers p).trans (if_neg (by rintro ⟨⟨⟩, _⟩))).trans (shown p)
  have length' : (tableTaken (senderOf r) none (.digest v) s).member.peers.length = 16 := by
    rw [(tableTaken_only (senderOf r) none (.digest v) s).member]
    exact State.length_peersShowing length _ _
  have station : (tableTaken (senderOf r) none (.digest v) s).station = s.station :=
    (tableTaken_only (senderOf r) none (.digest v) s).station
  rw [behind, taken.state, if_pos keeps, compareDigest_eq] at accepts
  have line := taken.line
  have table : (tableTaken (senderOf r) none (.digest v) s).table = s.table := taken.table
  have state' := taken.state
  have config' := taken.config
  have errors := taken.errors
  have leases' : (tableTaken (senderOf r) none (.digest v) s).leases = s.leases := tLeases.trans leases
  have req' : (tableTaken (senderOf r) none (.digest v) s).req = s.req := tReq.trans req
  clear peers taken tLeases tReq tSlots behind
  generalize tableTaken (senderOf r) none (.digest v) s = t at *
  have digest : t.tableDigest = digestOf s.table := by rw [State.tableDigest, state', if_pos keeps, table]
  obtain ⟨ev, er, eq, status⟩ := digestShown_eq (senderOf r) v (headerWhole r) t
  rw [digest] at eq status
  refine ⟨digestShown (senderOf r) v (headerWhole r) t, accepts, ?_⟩
  rw [eq]
  have entries (p : Addr) := peer_getD_set length' (senderOf r) p
    { t.peerAt (senderOf r) with digest := if v = digestOf s.table then .agree else .disagree }
  refine ⟨table, leases', req', config', station, state', ?_, ?_, ?_, ?_, fun p other => ?_⟩
  · exact (congrArg Line.hold line).trans hold
  · exact congrArg Line.tx line
  · rw [← errors]
    exact status
  · refine (entries (senderOf r)).trans ?_
    rw [if_pos rfl, peerAt, if_pos rfl]
  · refine (entries p).trans ?_
    rw [if_neg other]
    exact (peerAt p).trans (if_neg other)

/-- Settles O57: the DIGEST is compared and the majority judged; the SIGNAL sets its latch and triggers its slots. -/
theorem signalSetsLatchAndTriggers : Obligations.SignalSetsLatchAndTriggers := by
  refine ⟨fun s r v powered state tx hold wait length sound => ?_, signal_accepted⟩
  intro sender status after count diverged logged
  obtain ⟨u, accepts, table, leases, req, config, station, member, free, quiet, errors, mine, others⟩ :=
    digest_accepted s r v powered state tx hold wait length sound
  have counts (d : DigestStatus) : u.countStatus d = count d :=
    countStatus_eq station ⟨congrArg Peer.state mine, congrArg Peer.digest mine⟩ others d
  simp only [counts] at accepts
  have agrees : (if v = digestOf s.table then (0 : Half) else 0x0008) = if status = .agree then 0 else 0x0008 := by
    by_cases agree : v = digestOf s.table <;> simp [status, agree]
  rw [agrees] at errors
  by_cases apart : diverged
  · rw [if_pos apart] at accepts
    have status_divergence : ∀ t : State, t.errors = (logError .divergence (headerWhole r) u).errors →
        t.errors.status = s.errors.status ||| logged := by
      intro t same
      rw [same, logError_status, errors, BitVec.or_assoc]
      simp only [logged, if_pos apart]
      rfl
    have keeps : u.member.state.hasTable = true := by rw [member]; exact hasTable_iff.2 state
    cases fatal : s.config.fields.divergenceFatal with
    | false =>
      have stays : u.fatalMove .divergence = none := by
        simp only [State.fatalMove, config, fatal, if_true]
      have same := logError_eq .divergence (headerWhole r) u
      rw [raise_of_not_fatal stays] at accepts
      refine ⟨_, accepts, status_divergence _ rfl, nofun, fun _ => ?_⟩
      rw [same]
      exact ⟨member, table, leases, req, mine, others⟩
    | true =>
      have moves : u.fatalMove .divergence = some (if s.member.state = .active ∧ s.config.fields.autojoin = true
          then .listening else .detached, .detached) := by
        simp only [State.fatalMove, State.autojoinDest, config, fatal, member]
        rcases state with active | leaving
        · simp [active]
        · simp [leaving]
      have purged := raise_purged keeps free quiet moves (by
        split
        · exact .inl rfl
        · exact .inr rfl) (headerWhole r)
      refine ⟨_, accepts, status_divergence _ purged.errors, fun _ _ => ⟨purged.state, purged.leases, ?_⟩, fun none => ?_⟩
      · rw [purged.table, logError_eq]
        exact congrArg clearEntries table
      · exact absurd none (by simp [apart])
  · rw [if_neg apart] at accepts
    refine ⟨u, accepts, ?_, fun diverges => absurd diverges apart, fun _ => ⟨member, table, leases, req, mine, others⟩⟩
    rw [errors]
    simp only [logged, if_neg apart]
    exact congrArg _ BitVec.or_zero.symm

end Sys2Proof.Machine
end

