-- ==== Sys2Proof/Proofs/Voided.lean ====
section
/-! PROOFS. A station that leaves the line (R82, R85, R86), and the voiding of frames (R9 to R11, R16, R17). -/

namespace Sys2Proof.Machine

/-! ## Out of the line -/

/-- The Line Interface of a station that is detached. -/
def Line.detached (l : Line) : Line :=
  { l with yielding := false, phase := .off, recessive := 0, tx := none, begun := [] }

/-- t is s detached, by the purge or from a join. -/
structure Detaches (s t : State) : Prop where
  state : t.member.state = .detached
  peers : t.member.peers = List.replicate 16 Peer.cleared
  table : t.table = clearEntries s.table
  line : t.line = s.line.detached
  errors : t.errors = s.errors
  config : t.config = s.config
  station : t.station = s.station
  powered : t.powered = s.powered
  keeper : s.member.state.hasTable = true → t.leases = []
  joiner : s.member.state.hasTable = false → t.req = s.req ∧ t.leases = s.leases ∧ t.slots = s.slots ∧
    t.snap = { s.snap with
      lapsed := if s.snapTimerOut then some s.snap.failures else none, cursor := 0, engine := .idle, donor := none,
      failures := 0, timer := none }

theorem detachJoiner_detaches {s : State} (joiner : s.member.state.hasTable = false) : Detaches s (detachJoiner s) := by
  rw [detachJoiner_eq, enterDetached_eq]
  simp only [State.withMember, State.withLine, State.withEvents]
  constructor
  case keeper => exact fun keeps => Bool.noConfusion (joiner.symm.trans keeps)
  case joiner => exact fun _ => ⟨rfl, rfl, rfl, rfl⟩
  all_goals rfl

theorem leaveNow_detaches {s : State} (part : s.takesPart = true) (st : Status) :
    Detaches s (leaveNow .detached st s) := by
  cases keeps : s.member.state.hasTable with
  | true =>
    have purged := purge_purged (.inr rfl : MState.detached = .listening ∨ MState.detached = .detached) st s
    have base := base_purge .detached st s
    rw [leaveNow_of_hasTable .detached st keeps]
    exact ⟨purged.state, purged.peers, purged.table, purged.offLine rfl, purged.errors, purged.config,
      station_of_base base, powered_of_base base, fun _ => purged.leases,
      fun joiner => Bool.noConfusion (joiner.symm.trans keeps)⟩
  | false =>
    rw [leaveNow_of_joiner .detached st part keeps]
    exact detachJoiner_detaches keeps

/-- An error that detaches a station with no frame of its own and no hold on the line. -/
theorem raise_detaches {s : State} (part : s.takesPart = true) (hold : s.line.hold = none) (tx : s.line.tx = none)
    {k : ErrKind} {st : Status} (moves : s.fatalMove k = some (.detached, st)) (h : Header) :
    Detaches (logError k h s) (raise k h .none s) := by
  have same := logError_eq k h s
  have free : (logError k h s).line.hold = none := by rw [same]; exact hold
  have quiet : (logError k h s).line.tx = none := by rw [same]; exact tx
  have part' : (logError k h s).takesPart = true := by rw [same]; exact part
  have atOnce : leave .detached st .none (logError k h s) = leaveNow .detached st (logError k h s) := by
    rw [leave, if_neg (by simp [free]), heldLine_none quiet]
    rfl
  rw [raise_of_fatal moves, atOnce]
  exact leaveNow_detaches part' st

theorem fatalMove_limit {s : State} (part : s.takesPart = true) {k : ErrKind} (limit : k = .rxLimit ∨ k = .txLimit) :
    s.fatalMove k = some (.detached, .detached) := by
  rcases limit with rfl | rfl <;> exact if_pos part

/-! ## The fault counters (R16) -/

theorem raiseCounter_below {c : Nat} (h : c + 4 < 64) : raiseCounter c = c + 4 := by
  unfold raiseCounter Config.faultStep Config.faultLimit
  omega

theorem raiseCounter_limit {c : Nat} (h : 64 ≤ c + 4) : raiseCounter c = 64 := by
  unfold raiseCounter Config.faultStep Config.faultLimit
  omega

/-! ## An own frame is voided -/

/-- The span of the error hold that an own bit error makes (R9). -/
theorem gaveUp_driven (f : RawFrame) (k : Option Nat) (l : Line) : (l.gaveUp f k).driven = (match k with
    | none => l.driven
    | some b => some (b + 1, (if b ≤ 19 then 822 else 54 + 8 * f.length.toNat) - 1)) := by
  cases k with
  | none => rfl
  | some b =>
    have reckoned : reckonedBits f (bitErrorFailure b) = if b ≤ 19 then 822 else 54 + 8 * f.length.toNat := by
      have cause : ((bitErrorFailure b).bits < lengthEnd || (bitErrorFailure b).lengthCause) = decide (b ≤ 19) := by
        change (decide (b < 19) || decide (11 < b ∧ b ≤ 19)) = decide (b ≤ 19)
        rw [Bool.eq_iff_iff]
        simp only [Bool.or_eq_true, decide_eq_true_eq]
        omega
      rw [reckonedBits, cause]
      by_cases early : b ≤ 19
      · rw [if_pos early, decide_eq_true early]
        rfl
      · rw [if_neg early, decide_eq_false early]
        rfl
    simp only [Line.gaveUp, objectionSpan, reckoned]
    rfl

/-- The Line Interface at the end of an own voided frame. -/
def Line.voidedOwn (l : Line) (f : RawFrame) (k : Option Nat) : Line := l.ownVoided.gaveUp f k

theorem voidedOwn_eq (l : Line) (f : RawFrame) (k : Option Nat) : l.voidedOwn f k = { l with
    phase := .gap, recessive := 0, tx := none, begun := [], yielding := false, tfc := raiseCounter l.tfc
    driven := match k with
      | none => l.driven
      | some b => some (b + 1, (if b ≤ 19 then 822 else 54 + 8 * f.length.toNat) - 1) } := by
  have driven := gaveUp_driven f k l.ownVoided
  cases k with
  | none => rfl
  | some b =>
    have whole : l.voidedOwn f (some b) = { l.ownVoided with driven := (l.ownVoided.gaveUp f (some b)).driven } := rfl
    rw [whole, driven]
    rfl

/-- The log at the end of an own voided frame. -/
def voidedLogged (x : TxFrame) (k : Option Nat) (s : State) : State :=
  logError .txVoided (headerSent s.station x.frame) (s.withLine (s.line.voidedOwn (x.frame.toRaw s.station) k))

theorem ownVoiding_eq (x : TxFrame) (k : Option Nat) (s : State) : ownVoiding x k s = (match x.entry with
    | some n => outgoingVoided n x.frame (voidedLogged x k s)
    | none => voidedLogged x k s) := rfl

theorem ownVoiding_voided (x : TxFrame) (k : Option Nat) (s : State) :
    OnlyUnits (voidedLogged x k s) (ownVoiding x k s) := ownVoiding_only x k s

theorem voidedLogged_line (x : TxFrame) (k : Option Nat) (s : State) :
    (voidedLogged x k s).line = s.line.voidedOwn (x.frame.toRaw s.station) k := by
  rw [voidedLogged, logError_eq]
  rfl

theorem voidedLogged_req (x : TxFrame) (k : Option Nat) (s : State) : (voidedLogged x k s).req = s.req := by
  rw [voidedLogged, logError_eq]
  rfl

theorem voidedLogged_status (x : TxFrame) (k : Option Nat) (s : State) :
    (voidedLogged x k s).errors.status = s.errors.status ||| 0x0002 := logError_status _ _ _

theorem frameVoided_own {s : State} {x : TxFrame} (powered : s.powered = true) (part : s.takesPart = true)
    (tx : s.line.tx = some x) (wait : s.line.phase ≠ .waiting) (k : Option Nat) :
    exec (.frameVoided (.own k)) s = .next (voidOwn x k s) := by
  have listens : s.listens = true := by simp [State.listens, part, wait]
  rw [exec_frameVoided, live_on powered, frameVoided, if_neg (by simp [part])]
  simp only [ownFrameVoided, tx, listens, if_true]

theorem voidOwn_below {s : State} {x : TxFrame} {k : Option Nat} (below : s.line.tfc + 4 < 64) :
    voidOwn x k s = ownVoiding x k s := by
  have tfc : (ownVoiding x k s).line.tfc = s.line.tfc + 4 := by
    rw [(ownVoiding_voided x k s).line, voidedLogged_line, voidedOwn_eq]
    exact raiseCounter_below below
  rw [voidOwn_eq, if_neg]
  rintro ⟨_, limit⟩
  rw [tfc] at limit
  exact absurd limit (Nat.ne_of_lt below)

theorem voidOwn_limit {s : State} {x : TxFrame} {k : Option Nat} (before : s.line.tfc < 64) (reached : 64 ≤ s.line.tfc + 4) :
    voidOwn x k s = raise .txLimit (headerSent s.station x.frame) .none (ownVoiding x k s) := by
  have tfc : (ownVoiding x k s).line.tfc = 64 := by
    rw [(ownVoiding_voided x k s).line, voidedLogged_line, voidedOwn_eq]
    exact raiseCounter_limit reached
  rw [voidOwn_eq, if_pos ⟨before, tfc⟩]

/-! ## The owner of a voided frame (R143, R145) -/

theorem outgoingVoided_kept {n : Nat} {f : Frame} {s : State}
    (kept : ∀ m u l e, f = .claim m u l → s.pendAt n = some e → e.kind ≠ .acquire ∨ e.phase ≠ .withdrawing) :
    outgoingVoided n f s = s := by
  cases f with
  | claim m u l =>
    cases entry : s.pendAt n with
    | none => simp only [outgoingVoided, entry]
    | some e =>
      have other : ¬ (e.kind = .acquire ∧ e.phase = .withdrawing) := fun both =>
        (kept m u l e rfl entry).elim (fun h => h both.1) (fun h => h both.2)
      simp only [outgoingVoided, entry, if_neg other]
  | _ => rfl

theorem outgoingVoided_withdrawing {n : Nat} {s : State} {e : PendEntry} (entry : s.pendAt n = some e)
    (kind : e.kind = .acquire) (phase : e.phase = .withdrawing) (m : ClaimMode) (u : Nat) (l : List Nat) :
    outgoingVoided n (.claim m u l) s = withdrawClaim n e [] (removeOutgoing (fun f => f.entry == n && f.isClaim) s) := by
  have both : e.kind = .acquire ∧ e.phase = .withdrawing := ⟨kind, phase⟩
  simp only [outgoingVoided, entry, if_pos both]

/-- The claim that never parked ends, and the CANCEL that waits for it (R143, R144). -/
theorem withdrawClaim_cancelled {s : State} {n q o : Nat} {e c : PendEntry} (entry : s.pendAt n = some e)
    (kind : e.kind = .acquire) (origin : e.origin = some o) (host : e.source = .host) (cancel : s.cancelOf o = some q)
    (waits : s.pendAt q = some c) :
    withdrawClaim n e [] (removeOutgoing (fun f => f.entry == n && f.isClaim) s) = s.withReq { s.req with
      pend := (s.req.pend.set n none).set q none
      outgoing := s.req.outgoing.filter (fun f => !(f.entry == n && (f.isClaim || f.isWithdraw)))
      cmp := s.req.cmp ++ [.withdrawn e.tag .host e.units o [], .one .done c.tag c.source 4 (byteOf o)] } := by
  have frames : (s.req.outgoing.filter (fun f => !(f.entry == n && f.isClaim))).filter
      (fun f => !(f.entry == n && f.isWithdraw)) =
      s.req.outgoing.filter (fun f => !(f.entry == n && (f.isClaim || f.isWithdraw))) := by
    rw [List.filter_filter]
    refine List.filter_congr fun f _ => ?_
    rw [Bool.and_or_distrib_left, Bool.not_or, Bool.and_comm]
  rw [withdrawClaim_eq, origin, host, Option.getD_some,
    finishCancel_of_ended (s := s) entry kind cancel waits rfl, claimEnded, removeOutgoing_eq]
  simp only [tellWithdrawn, State.withReq_req, withReq_withReq, frames, List.append_assoc, List.cons_append,
    List.nil_append]

end Sys2Proof.Machine
end

