-- ==== Sys2Proof/Proofs/VoidedOwn.lean ====
section
/-! PROOFS. FRAME_VOIDED at a station in the line: its own frame, and another's (R9, R11, R16, R143, R145). -/

namespace Sys2Proof.Machine

/-! ## The own frame -/

section
variable {s : State} {x : TxFrame} (powered : s.powered = true) (part : s.takesPart = true)
  (wait : s.line.phase ≠ .waiting) (tx : s.line.tx = some x)

/-- The log and the counters behind an own voided frame below the limit. -/
theorem voidedLogged_below (below : s.line.tfc + 4 < 64) (k : Option Nat) : voidedLogged x k s =
    logError .txVoided (headerSent s.station x.frame) (s.withLine { s.line with
      phase := .gap, recessive := 0, tx := none, begun := [], yielding := false, tfc := s.line.tfc + 4
      driven := match k with
        | none => s.line.driven
        | some b => some (b + 1, (if b ≤ 19 then 822 else 54 + 8 * (x.frame.toRaw s.station).length.toNat) - 1) }) := by
  cases k <;> simp only [voidedLogged, voidedOwn_eq, raiseCounter_below below]

include powered part wait tx

theorem frameVoided_own_kept (below : s.line.tfc + 4 < 64) (k : Option Nat)
    (kept : ∀ m u l n e, x = ⟨.claim m u l, some n⟩ → s.pendAt n = some e → e.kind ≠ .acquire ∨ e.phase ≠ .withdrawing) :
    exec (.frameVoided (.own k)) s = .next (voidedLogged x k s) := by
  rw [frameVoided_own powered part tx wait, voidOwn_below below, ownVoiding_eq]
  obtain ⟨f, entry⟩ := x
  cases entry with
  | none => rfl
  | some n =>
    refine congrArg _ (outgoingVoided_kept fun m u l e frame entry => ?_)
    rw [State.pendAt, voidedLogged_req] at entry
    exact kept m u l n e (congrArg (fun g => (⟨g, some n⟩ : TxFrame)) frame) entry

theorem frameVoided_own_claim (below : s.line.tfc + 4 < 64) (k : Option Nat) {m : ClaimMode} {u : Nat} {l : List Nat}
    {n : Nat} {e : PendEntry} (claim : x = ⟨.claim m u l, some n⟩) (entry : s.pendAt n = some e)
    (kind : e.kind = .acquire) (phase : e.phase = .withdrawing) : exec (.frameVoided (.own k)) s =
      .next (withdrawClaim n e [] (removeOutgoing (fun f => f.entry == n && f.isClaim) (voidedLogged x k s))) := by
  rw [frameVoided_own powered part tx wait, voidOwn_below below, ownVoiding_eq]
  subst claim
  have entry' : (voidedLogged ⟨.claim m u l, some n⟩ k s).pendAt n = some e := by
    rw [State.pendAt, voidedLogged_req]
    exact entry
  exact congrArg _ (outgoingVoided_withdrawing entry' kind phase m u l)

theorem frameVoided_own_limit (hold : s.line.hold = none) (before : s.line.tfc < 64) (reached : 64 ≤ s.line.tfc + 4)
    (k : Option Nat) : ∃ u, exec (.frameVoided (.own k)) s = .next (raise .txLimit (headerSent s.station x.frame) .none u) ∧
      OnlyUnits (voidedLogged x k s) u ∧
      Detaches (logError .txLimit (headerSent s.station x.frame) u)
        (raise .txLimit (headerSent s.station x.frame) .none u) ∧ (x.entry = none → u = voidedLogged x k s) := by
  have only := ownVoiding_voided x k s
  have line := only.line.trans (voidedLogged_line x k s)
  have member : (ownVoiding x k s).member = s.member := ownVoiding_member x k s
  have part' : (ownVoiding x k s).takesPart = true := by rw [State.takesPart, member]; exact part
  refine ⟨ownVoiding x k s, ?_, only, ?_, fun none => ?_⟩
  · rw [frameVoided_own powered part tx wait, voidOwn_limit before reached]
  · refine raise_detaches part' ?_ ?_ (fatalMove_limit part' (.inr rfl)) _
    · rw [line, voidedOwn_eq]
      exact hold
    · rw [line, voidedOwn_eq]
  · rw [ownVoiding_eq, none]

end

/-! ## Another station's frame -/

/-- The log and the counters behind a frame that this station objects to. -/
def otherVoiding (f : RawFrame) (e : Failure) (s : State) : State :=
  (logError .rxCheck (headerReceived e.bits f) s).withLine
    { s.line.otherVoided true with driven := some (objectionSpan f e) }

theorem voidOther_eq (f : RawFrame) (e : Failure) (s : State) : voidOther f (some e) s =
    if s.line.rfc < 64 ∧ raiseCounter s.line.rfc = 64
      then raise .rxLimit (headerReceived e.bits f) .none (otherVoiding f e s) else otherVoiding f e s := by
  have line : (logError .rxCheck (headerReceived e.bits f) s).line = s.line := by rw [logError_eq]; rfl
  simp only [voidOther, line, otherVoiding]
  rfl

theorem frameVoided_received {s : State} (powered : s.powered = true) (part : s.takesPart = true)
    (wait : s.line.phase ≠ .waiting) (hold : s.line.hold = none) (tx : s.line.tx = none) (r : RawFrame) (k : Option Nat) :
    exec (.frameVoided (.received r k)) s = .next (voidOther r (failureOf s.table s.station r k) s) := by
  have receives : s.receives = true := by simp [State.receives, State.listens, State.aborting, part, tx, hold, wait]
  rw [exec_frameVoided, live_on powered, frameVoided, if_neg (by simp [part])]
  exact congrArg _ (if_pos receives)

/-- The span of an objection (R9). -/
theorem objectionSpan_eq (f : RawFrame) (e : Failure) : objectionSpan f e =
    (e.bits + 1, (if e.bits < 19 ∨ e.lengthCause = true then 822 else 54 + 8 * f.length.toNat) - 1) := by
  have cause : (if (decide (e.bits < 19) || e.lengthCause) = true then 822 else 54 + 8 * f.length.toNat) =
      if e.bits < 19 ∨ e.lengthCause = true then 822 else 54 + 8 * f.length.toNat := by
    simp only [Bool.or_eq_true, decide_eq_true_eq]
  exact congrArg (fun n => (e.bits + 1, n - 1)) cause

theorem otherVoiding_below {s : State} (below : s.line.rfc + 4 < 64) (r : RawFrame) (e : Failure) :
    voidOther r (some e) s = (logError .rxCheck (headerReceived e.bits r) s).withLine { s.line with
      phase := .gap, recessive := 0, begun := [], yielding := false, rfc := s.line.rfc + 4
      driven := some (e.bits + 1, (if e.bits < 19 ∨ e.lengthCause = true then 822 else 54 + 8 * r.length.toNat) - 1) } := by
  have counter := raiseCounter_below below
  rw [voidOther_eq, counter, if_neg fun h => absurd h.2 (Nat.ne_of_lt below), otherVoiding, objectionSpan_eq]
  simp only [Line.otherVoided, if_true, counter]

theorem otherVoiding_limit {s : State} (part : s.takesPart = true) (hold : s.line.hold = none) (tx : s.line.tx = none)
    (before : s.line.rfc < 64) (reached : 64 ≤ s.line.rfc + 4) (r : RawFrame) (e : Failure) :
    voidOther r (some e) s = raise .rxLimit (headerReceived e.bits r) .none (otherVoiding r e s) ∧
      Detaches (logError .rxLimit (headerReceived e.bits r) (otherVoiding r e s))
        (raise .rxLimit (headerReceived e.bits r) .none (otherVoiding r e s)) := by
  have part' : (otherVoiding r e s).takesPart = true := by
    rw [otherVoiding, logError_eq]
    exact part
  exact ⟨by rw [voidOther_eq, if_pos ⟨before, raiseCounter_limit reached⟩],
    raise_detaches part' hold tx (fatalMove_limit part' (.inl rfl)) _⟩

theorem otherVoiding_status (r : RawFrame) (e : Failure) (s : State) :
    (otherVoiding r e s).errors.status = s.errors.status ||| 0x0001 := logError_status _ _ _

theorem otherVoiding_line (r : RawFrame) (e : Failure) (s : State) : (otherVoiding r e s).line =
    { s.line.otherVoided true with driven := some (objectionSpan r e) } := rfl

/-! ## The first half of the obligation -/

theorem voided_own (s : State) (powered : s.powered = true) (part : s.takesPart = true) (wait : s.line.phase ≠ .waiting)
    (hold : s.line.hold = none) (x : TxFrame) (tx : s.line.tx = some x) :
    let driven (k : Option Nat) : Option (Nat × Nat) := match k with
      | none => s.line.driven
      | some b => some (b + 1, (if b ≤ 19 then 822
          else 54 + 8 * (x.frame.toRaw s.station).length.toNat) - 1)
    let voided (k : Option Nat) : State := logError .txVoided (headerSent s.station x.frame)
      (s.withLine { s.line with
        phase := .gap, recessive := 0, tx := none, begun := [], yielding := false, tfc := s.line.tfc + 4,
        driven := driven k })
    (∀ k, s.line.tfc + 4 < 64 →
      ((∀ m u l n e, x = ⟨.claim m u l, some n⟩ → s.pendAt n = some e →
          e.kind ≠ .acquire ∨ e.phase ≠ .withdrawing) →
        exec (.frameVoided (.own k)) s = .next (voided k)) ∧
      (∀ m u l n e o, x = ⟨.claim m u l, some n⟩ → s.pendAt n = some e → e.kind = .acquire →
        e.phase = .withdrawing → e.origin = some o → e.source = .host →
        let rest := s.req.outgoing.filter (fun f => !(f.entry == n && (f.isClaim || f.isWithdraw)))
        let claimEnds : Completion := .withdrawn e.tag .host e.units o []
        (s.cancelOf o = none → exec (.frameVoided (.own k)) s = .next ((voided k).withReq { s.req with
          pend := s.req.pend.set n none, outgoing := rest, cmp := s.req.cmp ++ [claimEnds] })) ∧
        (∀ q c, s.cancelOf o = some q → s.pendAt q = some c →
          exec (.frameVoided (.own k)) s = .next ((voided k).withReq { s.req with
            pend := (s.req.pend.set n none).set q none, outgoing := rest,
            cmp := s.req.cmp ++ [claimEnds, .one .done c.tag c.source 4 (BitVec.ofNat 8 o)] }))) ∧
      (∀ m u l n e o j, x = ⟨.claim m u l, some n⟩ → s.pendAt n = some e → e.kind = .acquire →
        e.phase = .withdrawing → e.origin = some o → e.source = .slot j → s.cancelOf o = none →
        exec (.frameVoided (.own k)) s = .next (modifySlot j
          (fun y => { y with
            heldPlace := false, gnt := false, stop := false,
            state := if y.mode = .follow ∧ y.stop = false then .armed else .disabled })
          ((voided k).withReq { s.req with
            pend := s.req.pend.set n none,
            outgoing := s.req.outgoing.filter (fun f => !(f.entry == n && (f.isClaim || f.isWithdraw))),
            cmp := s.req.cmp ++ [.withdrawn e.tag (.slot j) e.units o []] })))) ∧
    (∀ k, s.line.tfc < 64 → 64 ≤ s.line.tfc + 4 →
      ∃ t, exec (.frameVoided (.own k)) s = .next t ∧ t.member.state = .detached ∧ t.line.tfc = 64 ∧
        t.line.rfc = s.line.rfc ∧ t.errors.status = s.errors.status ||| 0x0082) := by
  intro driven voided
  have logged (below : s.line.tfc + 4 < 64) (k : Option Nat) : voidedLogged x k s = voided k := voidedLogged_below below k
  refine ⟨fun k below => ⟨fun kept => ?_, fun m u l n e o claim entry kind phase origin host => ?_,
    fun m u l n e o j claim entry kind phase origin slot alone => ?_⟩, fun k before reached => ?_⟩
  · rw [← logged below]
    exact frameVoided_own_kept powered part wait tx below k kept
  · have voids := frameVoided_own_claim powered part wait tx below k claim entry kind phase
    have req := voidedLogged_req x k s
    have cancels := findPend_congr (t := voidedLogged x k s) (s := s) (congrArg Requests.pend req)
    refine ⟨fun alone => ?_, fun q c cancel waits => ?_⟩
    · have alone' : (voidedLogged x k s).cancelOf (e.origin.getD 0) = none := by
        rw [origin]
        exact (cancels _).trans alone
      rw [voids, withdrawClaim_unbegun alone', req, ← logged below, host, origin]
      rfl
    · have entry' : (voidedLogged x k s).pendAt n = some e := by rw [State.pendAt, req]; exact entry
      have waits' : (voidedLogged x k s).pendAt q = some c := by rw [State.pendAt, req]; exact waits
      rw [voids, withdrawClaim_cancelled entry' kind origin host ((cancels _).trans cancel) waits', req, ← logged below]
      rfl
  · have voids := frameVoided_own_claim powered part wait tx below k claim entry kind phase
    have req := voidedLogged_req x k s
    have alone' : (voidedLogged x k s).cancelOf (e.origin.getD 0) = none := by
      rw [origin]
      exact (findPend_congr (t := voidedLogged x k s) (s := s) (congrArg Requests.pend req) _).trans alone
    rw [voids, withdrawClaim_unbegun alone', req, ← logged below, slot, origin]
    rfl
  · obtain ⟨u, voids, only, detaches, _⟩ := frameVoided_own_limit powered part wait tx hold before reached k
    have line := only.line.trans (voidedLogged_line x k s)
    have same := logError_eq .txLimit (headerSent s.station x.frame) u
    have line' : (logError .txLimit (headerSent s.station x.frame) u).line = u.line := by rw [same]; rfl
    refine ⟨_, voids, detaches.state, ?_, ?_, ?_⟩
    · rw [detaches.line, line', line, voidedOwn_eq]
      exact raiseCounter_limit reached
    · rw [detaches.line, line', line, voidedOwn_eq]
      rfl
    · rw [detaches.errors, logError_status, only.errors, voidedLogged_status, BitVec.or_assoc]
      rfl

theorem voided_other (s : State) (powered : s.powered = true) (part : s.takesPart = true) (wait : s.line.phase ≠ .waiting)
    (hold : s.line.hold = none) (tx : s.line.tx = none) (r : RawFrame) (k : Option Nat) :
    (failureOf s.table s.station r k = none → exec (.frameVoided (.received r k)) s =
      .next (s.withLine { s.line with phase := .gap, recessive := 0, begun := [], yielding := false })) ∧
    (∀ e, failureOf s.table s.station r k = some e → s.line.rfc + 4 < 64 →
      exec (.frameVoided (.received r k)) s = .next
        ((logError .rxCheck (headerReceived e.bits r) s).withLine { s.line with
          phase := .gap, recessive := 0, begun := [], yielding := false, rfc := s.line.rfc + 4,
          driven := some (e.bits + 1, (if e.bits < 19 ∨ e.lengthCause = true then 822
            else 54 + 8 * r.length.toNat) - 1) })) ∧
    (∀ e, failureOf s.table s.station r k = some e → s.line.rfc < 64 → 64 ≤ s.line.rfc + 4 →
      ∃ t, exec (.frameVoided (.received r k)) s = .next t ∧ t.member.state = .detached ∧
        t.line.rfc = 64 ∧ t.line.tfc = s.line.tfc ∧ t.errors.status = s.errors.status ||| 0x0041) := by
  have voids := frameVoided_received powered part wait hold tx r k
  refine ⟨fun passes => ?_, fun e fails below => ?_, fun e fails before reached => ?_⟩
  · rw [voids, passes]
    rfl
  · rw [voids, fails, otherVoiding_below below]
  · obtain ⟨limit, detaches⟩ := otherVoiding_limit part hold tx before reached r e
    have same := logError_eq .rxLimit (headerReceived e.bits r) (otherVoiding r e s)
    have line : (logError .rxLimit (headerReceived e.bits r) (otherVoiding r e s)).line = (otherVoiding r e s).line := by
      rw [same]
      rfl
    refine ⟨_, voids.trans (by rw [fails, limit]), detaches.state, ?_, ?_, ?_⟩
    · rw [detaches.line, line, otherVoiding_line]
      exact raiseCounter_limit reached
    · rw [detaches.line, line, otherVoiding_line]
      rfl
    · rw [detaches.errors, logError_status, otherVoiding_status, BitVec.or_assoc]
      rfl

end Sys2Proof.Machine
end

