-- ==== Sys2Proof/Proofs/VoidedJoin.lean ====
section
/-! PROOFS. Two errors at one moment that each end a join (R82, log 43): the limit of a fault counter, and the third end of
the snapshot timer in a row. -/

namespace Sys2Proof.Machine

/-! ## The receive check reads the kinds of the table alone -/

theorem kind_clearEntries (t : List Entry) (k : Nat) : (entryAt (clearEntries t) k).kind = (entryAt t k).kind := by
  unfold entryAt clearEntries
  rw [List.getD_eq_getElem?_getD, List.getD_eq_getElem?_getD, List.getElem?_map]
  cases t[k]? <;> rfl

theorem length_clearEntries (t : List Entry) : (clearEntries t).length = t.length := List.length_map _

theorem checkTokens_clearEntries (t : List Entry) (multi : Bool) (u : Nat) : ∀ (l : List Byte) (last : Option Nat)
    (bits : Nat), checkTokens (clearEntries t) multi u l last bits = checkTokens t multi u l last bits
  | [], _, _ => rfl
  | b :: l, last, bits => by
    simp only [checkTokens, kind_clearEntries, length_clearEntries, checkTokens_clearEntries t multi u l]

theorem scanWaiters_clearEntries (t : List Entry) : ∀ (n : Nat) (l : List Byte) (bits : Nat) (seen : List Addr),
    scanWaiters (clearEntries t) n l bits seen = scanWaiters t n l bits seen
  | 0, _, _, _ => rfl
  | _ + 1, [], _, _ => rfl
  | _ + 1, [_], _, _ => rfl
  | n + 1, a :: b :: l, bits, seen => by
    simp only [scanWaiters, checkTokens_clearEntries, scanWaiters_clearEntries t n]

theorem checkPayload_clearEntries (t : List Entry) (code : Nat) (p : List Byte) :
    checkPayload (clearEntries t) code p = checkPayload t code p := by
  simp only [checkPayload, checkRelease, checkClaim, checkSnap, kind_clearEntries, length_clearEntries,
    checkTokens_clearEntries, scanWaiters_clearEntries]

theorem failureOf_clearEntries (t : List Entry) (self : Addr) (f : RawFrame) (k : Option Nat) :
    failureOf (clearEntries t) self f k = failureOf t self f k := by
  have check : receiveCheck (clearEntries t) self f = receiveCheck t self f := by
    simp only [receiveCheck, checkPayload_clearEntries]
  unfold failureOf
  rw [check]

/-! ## The snapshot timer's end (R96, R97) -/

theorem exec_snapshotTimerExpiry (place : HoldPlace) (s : State) :
    exec (.snapshotTimerExpiry place) s = live (snapshotExpiry place) s := rfl

/-- The end that was overtaken is logged all the same (R82). -/
theorem snapshotExpiry_lapsed {s : State} {n : Nat} (place : HoldPlace) (out : s.snapTimerOut = false)
    (lapsed : s.snap.lapsed = some n) : snapshotExpiry place s = lapsedExpiry n s := by
  simp only [snapshotExpiry, out, lapsed, Bool.false_eq_true, if_false]

/-- DONOR_LOST logged, with the failure counted. -/
def donorLost (s : State) : State :=
  logError .donorLost .noFrame (s.withSnap { s.snap with failures := s.snap.failures + 1 })

/-- The third failure in a row. -/
def joinFails (s : State) : State :=
  (donorLost s).withSnap { s.snap with failures := s.snap.failures + 1, cause := .donorLimit, timer := none }

theorem donorLost_snap (s : State) : (donorLost s).snap = { s.snap with failures := s.snap.failures + 1 } := by
  rw [donorLost, logError_eq]
  rfl

theorem snapshotExpiry_third {s : State} (place : HoldPlace) (out : s.snapTimerOut = true) (third : 2 ≤ s.snap.failures) :
    snapshotExpiry place s = raise .joinFailed .noFrame place (joinFails s) := by
  have limit : donorLimit ≤ s.snap.failures + 1 := Nat.succ_le_succ third
  have behind : (donorLost s).withSnap { (donorLost s).snap with cause := .donorLimit, timer := none } = joinFails s := by
    rw [donorLost_snap]
    rfl
  rw [snapshotExpiry, if_pos out]
  dsimp only
  rw [if_pos limit]
  exact congrArg _ behind

theorem joinFails_eq (s : State) : ∃ ev er, joinFails s = ((s.withSnap { s.snap with
      failures := s.snap.failures + 1, cause := .donorLimit, timer := none }).withEvents ev).withErrors er ∧
    er.status = s.errors.status ||| 0x0010 := by
  rw [joinFails, donorLost, logError_eq]
  exact ⟨_, _, rfl, rfl⟩

/-- The join ends: what every way out of it leaves of the engine. -/
def Snap.joinEnded (p : Snap) (lapsed : Option Nat) : Snap :=
  { p with lapsed := lapsed, cursor := 0, engine := .idle, donor := none, failures := 0, timer := none }

/-- JOIN_FAILED where the frame on the line ends at that moment, or no frame and no hold is there to wait for. -/
theorem joinFailed_detaches {s : State} (joining : s.member.state = .joining) (hold : s.line.hold = none)
    (place : HoldPlace) (free : s.heldLine (.leave .detached .detached) place = none) (h : Header) :
    ∃ u, Detaches (logError .joinFailed h s) u ∧
      raise .joinFailed h place s = if place.frameEnds then u.withLine { u.line with ended := s.line.ending } else u := by
  have part : s.takesPart = true := by rw [State.takesPart, joining]; rfl
  have moves : s.fatalMove .joinFailed = some (.detached, .detached) := if_pos joining
  have same := logError_eq .joinFailed h s
  have line : (logError .joinFailed h s).line = s.line := by rw [same]; rfl
  have part' : (logError .joinFailed h s).takesPart = true := by rw [same]; exact part
  have member : (logError .joinFailed h s).member = s.member := by rw [same]; rfl
  have free' : (logError .joinFailed h s).heldLine (.leave .detached .detached) place = none := by
    rw [heldLine_eq_none, line, part'.trans part.symm, ← heldLine_eq_none s (.leave .detached .detached)]
    exact free
  refine ⟨_, leaveNow_detaches part' .detached, ?_⟩
  rw [raise_of_fatal moves, leave, if_neg (by simp [line, hold]), free']
  simp only [leaveAtOnce, line]

/-- The lapsed end of the snapshot timer at a station out of the line. -/
theorem lapsedExpiry_out {s : State} (out : s.takesPart = false) (n : Nat) :
    (lapsedExpiry n s).member = s.member ∧ (lapsedExpiry n s).line = s.line ∧
      (2 ≤ n → (lapsedExpiry n s).errors.status = s.errors.status ||| 0x0410 ∧ (lapsedExpiry n s).snap = { s.snap with
        lapsed := none, cause := if s.snap.cause = .none then .donorLimit else s.snap.cause }) ∧
      (¬ 2 ≤ n → (lapsedExpiry n s).errors.status = s.errors.status ||| 0x0010 ∧
        (lapsedExpiry n s).snap = { s.snap with lapsed := none }) := by
  set lost := logError .donorLost .noFrame (s.withSnap { s.snap with lapsed := none }) with hl
  have status : lost.errors.status = s.errors.status ||| 0x0010 := logError_status _ _ _
  have snap : lost.snap = { s.snap with lapsed := none } := by rw [hl, logError_eq]; rfl
  have member : lost.member = s.member := by rw [hl, logError_eq]; rfl
  have line : lost.line = s.line := by rw [hl, logError_eq]; rfl
  by_cases third : 2 ≤ n
  · set named := lost.withSnap { lost.snap with cause := if lost.snap.cause = .none then .donorLimit else lost.snap.cause }
      with hn
    have part : named.takesPart = false := by
      have same : named.member = s.member := member
      rw [State.takesPart, same]
      exact out
    have limit : donorLimit ≤ n + 1 := Nat.succ_le_succ third
    have ended : lapsedExpiry n s = logError .joinFailed .noFrame named := by
      rw [← raise_out .joinFailed .noFrame .none part]
      exact if_pos limit
    have logged := logError_eq .joinFailed .noFrame named
    refine ⟨?_, ?_, fun _ => ⟨?_, ?_⟩, fun below => absurd third below⟩
    · rw [ended, logged]
      exact member
    · rw [ended, logged]
      exact line
    · have same : named.errors = lost.errors := rfl
      rw [ended, logError_status, same, status, BitVec.or_assoc]
      rfl
    · rw [ended, logged]
      have same : named.snap = { s.snap with
          lapsed := none, cause := if s.snap.cause = .none then .donorLimit else s.snap.cause } := by
        rw [hn, snap]
        rfl
      exact same
  · have ended : lapsedExpiry n s = lost := if_neg fun limit => third (Nat.le_of_succ_le_succ limit)
    rw [ended]
    exact ⟨member, line, fun third' => absurd third' third, fun _ => ⟨status, snap⟩⟩

/-! ## The limit first -/

/-- A joiner that a fault counter has detached, with the end of its snapshot timer still to be taken. -/
structure LimitReached (s t : State) (rfc tfc : Nat) (limit : Half) : Prop where
  state : t.member.state = .detached
  phase : t.line.phase = .off
  rfc : t.line.rfc = rfc
  tfc : t.line.tfc = tfc
  powered : t.powered = s.powered
  status : t.errors.status = s.errors.status ||| limit
  snap : t.snap = s.snap.joinEnded (some s.snap.failures)

theorem limit_detaches {s u t : State} {k : ErrKind} {h : Header} (joining : s.member.state = .joining)
    (out : s.snapTimerOut = true) (member : u.member = s.member) (snap : u.snap = s.snap) (base : u.powered = s.powered)
    {logged : Half} (status : u.errors.status = s.errors.status ||| logged) (detaches : Detaches (logError k h u) t) :
    LimitReached s t u.line.rfc u.line.tfc (logged ||| k.mask) := by
  have same := logError_eq k h u
  have line : (logError k h u).line = u.line := by rw [same]; rfl
  have member' : (logError k h u).member = s.member := by rw [same]; exact member
  have snap' : (logError k h u).snap = s.snap := by rw [same]; exact snap
  have powered : (logError k h u).powered = s.powered := by rw [same]; exact base
  have joiner : (logError k h u).member.state.hasTable = false := by rw [member', joining]; rfl
  have out' : (logError k h u).snapTimerOut = true := by
    rw [snapTimerOut_eq, member', snap']
    exact (snapTimerOut_eq s).1 out
  refine ⟨detaches.state, ?_, ?_, ?_, detaches.powered.trans powered, ?_, ?_⟩
  · rw [detaches.line]; rfl
  · rw [detaches.line, line]; rfl
  · rw [detaches.line, line]; rfl
  · rw [detaches.errors, logError_status, status, BitVec.or_assoc]
  · rw [(detaches.joiner joiner).2.2.2, out', snap']
    rfl

/-- The end that the limit has overtaken is logged, and moves nothing. -/
theorem lapsed_after_limit {s t : State} {rfc tfc : Nat} {limit : Half} (powered : s.powered = true)
    (reached : LimitReached s t rfc tfc limit) (place : HoldPlace) :
    ∃ u, exec (.snapshotTimerExpiry place) t = .next u ∧
      (u.member.state = .detached ∧ u.line.phase = .off ∧ u.line.rfc = rfc ∧ u.line.tfc = tfc ∧ u.snap.engine = .idle ∧
        u.snap.cursor = 0 ∧ u.snap.lapsed = none) ∧
      (2 ≤ s.snap.failures → u.errors.status = s.errors.status ||| limit ||| 0x0410 ∧
        (s.snap.cause = .none → u.snap.cause = .donorLimit)) ∧
      (¬ 2 ≤ s.snap.failures → u.errors.status = s.errors.status ||| limit ||| 0x0010 ∧ u.snap.cause = s.snap.cause) := by
  have out : t.takesPart = false := by rw [State.takesPart, reached.state]; rfl
  have quiet : t.snapTimerOut = false := by
    refine Bool.eq_false_iff.2 fun timer => ?_
    have joining := ((snapTimerOut_eq t).1 timer).1
    rw [reached.state] at joining
    cases joining
  have lapsed : t.snap.lapsed = some s.snap.failures := by rw [reached.snap]; rfl
  obtain ⟨member, line, third, other⟩ := lapsedExpiry_out out s.snap.failures
  have expires : exec (.snapshotTimerExpiry place) t = .next (lapsedExpiry s.snap.failures t) := by
    rw [exec_snapshotTimerExpiry, live_on (reached.powered.trans powered), snapshotExpiry_lapsed place quiet lapsed]
  rw [reached.status] at third other
  have engine : (lapsedExpiry s.snap.failures t).snap.engine = .idle ∧ (lapsedExpiry s.snap.failures t).snap.cursor = 0 ∧
      (lapsedExpiry s.snap.failures t).snap.lapsed = none := by
    by_cases h : 2 ≤ s.snap.failures
    · rw [(third h).2, reached.snap]
      exact ⟨rfl, rfl, rfl⟩
    · rw [(other h).2, reached.snap]
      exact ⟨rfl, rfl, rfl⟩
  refine ⟨_, expires, ⟨?_, ?_, ?_, ?_, engine⟩, fun h => ⟨(third h).1, fun unset => ?_⟩, fun h => ⟨(other h).1, ?_⟩⟩
  · rw [member, reached.state]
  · rw [line, reached.phase]
  · rw [line, reached.rfc]
  · rw [line, reached.tfc]
  · rw [(third h).2, reached.snap]
    exact if_pos unset
  · rw [(other h).2, reached.snap]
    rfl

/-! ## The snapshot timer first -/

/-- A joiner that the third end of its snapshot timer has detached at the moment at which a frame ends. -/
structure JoinFailed (s t : State) : Prop where
  state : t.member.state = .detached
  line : t.line = { s.line.detached with ended := s.line.ending }
  powered : t.powered = s.powered
  station : t.station = s.station
  table : t.table = clearEntries s.table
  status : t.errors.status = s.errors.status ||| 0x0410
  snap : t.snap = { s.snap.joinEnded none with cause := .donorLimit }

theorem third_end_detaches {s : State} (powered : s.powered = true) (joining : s.member.state = .joining)
    (hold : s.line.hold = none) (out : s.snapTimerOut = true) (third : 2 ≤ s.snap.failures) {place : HoldPlace}
    (ends : place.frameEnds = true) : ∃ t, exec (.snapshotTimerExpiry place) s = .next t ∧ JoinFailed s t := by
  obtain ⟨ev, er, fails, status⟩ := joinFails_eq s
  have expires : exec (.snapshotTimerExpiry place) s = .next (raise .joinFailed .noFrame place (joinFails s)) := by
    rw [exec_snapshotTimerExpiry, live_on powered, snapshotExpiry_third place out third]
  have base : (joinFails s).member = s.member ∧ (joinFails s).line = s.line ∧ (joinFails s).powered = s.powered ∧
      (joinFails s).station = s.station ∧ (joinFails s).table = s.table ∧ (joinFails s).errors = er ∧
      (joinFails s).snap = { s.snap with failures := s.snap.failures + 1, cause := .donorLimit, timer := none } := by
    rw [fails]
    exact ⟨rfl, rfl, rfl, rfl, rfl, rfl, rfl⟩
  generalize joinFails s = u at *
  obtain ⟨member, line, powered', station, table, errors, snap⟩ := base
  obtain ⟨t, detaches, raised⟩ := joinFailed_detaches (s := u) (by rw [member]; exact joining) (by rw [line]; exact hold) place
    ((heldLine_eq_none _ _ _).2 (.inl ends)) .noFrame
  have same := logError_eq .joinFailed .noFrame u
  rw [raised, if_pos ends] at expires
  refine ⟨_, expires, detaches.state, ?_, ?_, ?_, ?_, ?_, ?_⟩
  · have line' : (logError .joinFailed .noFrame u).line = s.line := by rw [same]; exact line
    have after : t.line = s.line.detached := detaches.line.trans (congrArg Line.detached line')
    change { t.line with ended := u.line.ending } = _
    rw [after, line]
  · exact detaches.powered.trans (by rw [same]; exact powered')
  · exact detaches.station.trans (by rw [same]; exact station)
  · exact detaches.table.trans (by rw [same]; exact congrArg clearEntries table)
  · refine (congrArg Errors.status detaches.errors).trans ?_
    rw [logError_status, errors, status, BitVec.or_assoc]
    rfl
  · have snap' : (logError .joinFailed .noFrame u).snap = u.snap := by rw [same]; rfl
    have quiet : (logError .joinFailed .noFrame u).snapTimerOut = false := by
      refine Bool.eq_false_iff.2 fun timer => ?_
      have due := ((snapTimerOut_eq _).1 timer).2.2
      rw [snap', snap] at due
      cases due
    have joiner : (logError .joinFailed .noFrame u).member.state.hasTable = false := by
      rw [same]
      exact (congrArg (fun m : Member => m.state.hasTable) member).trans (by rw [joining]; rfl)
    refine (detaches.joiner joiner).2.2.2.trans ?_
    rw [quiet, snap', snap]
    rfl

/-- A voided frame whose end is still to be taken, at a station out of the line. -/
theorem endedVoided_next {s : State} {v : VoidedFrame} (powered : s.powered = true) (out : s.takesPart = false) :
    exec (.frameVoided v) s = .next (endedVoided v s) := by
  rw [exec_frameVoided, live_on powered]
  exact congrArg _ (if_pos (by simp [out]))

/-- The own frame's end at a station whose join has failed brings TFC to its limit. -/
theorem own_limit_after_end {s t : State} (powered : s.powered = true) (failed : JoinFailed s t) {x : TxFrame}
    (k : Option Nat) (tx : s.line.tx = some x) (unlisted : x.entry = none) (before : s.line.tfc < 64)
    (reached : 64 ≤ s.line.tfc + 4) : ∃ u, exec (.frameVoided (.own k)) t = .next u ∧ u.member.state = .detached ∧
      u.line.phase = .off ∧ u.line.rfc = s.line.rfc ∧ u.line.tfc = 64 ∧ u.snap = t.snap ∧ u.line.ended = none ∧
      u.errors.status = t.errors.status ||| 0x0082 := by
  have out : t.takesPart = false := by rw [State.takesPart, failed.state]; rfl
  have ended : t.line.ended = some (.own x) := by rw [failed.line, Line.ending, tx]
  have tfc : t.line.tfc = s.line.tfc := by rw [failed.line]; rfl
  have line := voidedLogged_line x k t
  have member : (voidedLogged x k t).member = t.member := by rw [voidedLogged, logError_eq]; rfl
  have snap : (voidedLogged x k t).snap = t.snap := by rw [voidedLogged, logError_eq]; rfl
  have status := voidedLogged_status x k t
  have voiding : ownVoiding x k t = voidedLogged x k t := by rw [ownVoiding_eq, unlisted]
  have takes : endedVoided (.own k) t = outOfLine (voidOwn x k t) := by simp only [endedVoided, ended]
  rw [endedVoided_next (failed.powered.trans powered) out, takes,
    voidOwn_limit (by rw [tfc]; exact before) (by rw [tfc]; exact reached), voiding]
  generalize voidedLogged x k t = u at *
  have out' : u.takesPart = false := by rw [State.takesPart, member]; exact out
  rw [raise_out _ _ _ out']
  have same := logError_eq .txLimit (headerSent t.station x.frame) u
  have line' : (logError .txLimit (headerSent t.station x.frame) u).line = u.line := by rw [same]; rfl
  refine ⟨_, rfl, ?_, rfl, ?_, ?_, ?_, rfl, ?_⟩
  · rw [outOfLine, same]
    exact (congrArg Member.state member).trans failed.state
  · change (logError .txLimit (headerSent t.station x.frame) u).line.rfc = _
    rw [line', line, voidedOwn_eq, failed.line]
    rfl
  · change (logError .txLimit (headerSent t.station x.frame) u).line.tfc = _
    rw [line', line, voidedOwn_eq]
    exact raiseCounter_limit (by rw [tfc]; exact reached)
  · rw [outOfLine, same]
    exact snap
  · change (logError .txLimit (headerSent t.station x.frame) u).errors.status = _
    rw [logError_status, status, BitVec.or_assoc]
    rfl

/-- Another station's frame that ends faulty there brings RFC to its limit. -/
theorem other_limit_after_end {s t : State} (powered : s.powered = true) (failed : JoinFailed s t) {r : RawFrame}
    {k : Option Nat} {e : Failure} (tx : s.line.tx = none) (wait : s.line.phase ≠ .waiting)
    (fails : failureOf s.table s.station r k = some e) (before : s.line.rfc < 64) (reached : 64 ≤ s.line.rfc + 4) :
    ∃ u, exec (.frameVoided (.received r k)) t = .next u ∧ u.member.state = .detached ∧ u.line.phase = .off ∧
      u.line.rfc = 64 ∧ u.line.tfc = s.line.tfc ∧ u.snap = t.snap ∧ u.line.ended = none ∧
      u.errors.status = t.errors.status ||| 0x0041 := by
  have out : t.takesPart = false := by rw [State.takesPart, failed.state]; rfl
  have ended : t.line.ended = some .received := by rw [failed.line, Line.ending, tx, if_neg wait]
  have rfc : t.line.rfc = s.line.rfc := by rw [failed.line]; rfl
  have fails' : failureOf t.table t.station r k = some e := by
    rw [failed.table, failed.station, failureOf_clearEntries, fails]
  have takes : endedVoided (.received r k) t = outOfLine (voidOther r (some e) t) := by
    simp only [endedVoided, ended, fails']
  have limit : t.line.rfc < 64 ∧ raiseCounter t.line.rfc = 64 := by
    rw [rfc]
    exact ⟨before, raiseCounter_limit reached⟩
  have line := otherVoiding_line r e t
  have member : (otherVoiding r e t).member = t.member := by rw [otherVoiding, logError_eq]; rfl
  have snap : (otherVoiding r e t).snap = t.snap := by rw [otherVoiding, logError_eq]; rfl
  have status := otherVoiding_status r e t
  rw [endedVoided_next (failed.powered.trans powered) out, takes, voidOther_eq, if_pos limit]
  generalize otherVoiding r e t = u at *
  have out' : u.takesPart = false := by rw [State.takesPart, member]; exact out
  rw [raise_out _ _ _ out']
  have same := logError_eq .rxLimit (headerReceived e.bits r) u
  have line' : (logError .rxLimit (headerReceived e.bits r) u).line = u.line := by rw [same]; rfl
  refine ⟨_, rfl, ?_, rfl, ?_, ?_, ?_, rfl, ?_⟩
  · rw [outOfLine, same]
    exact (congrArg Member.state member).trans failed.state
  · change (logError .rxLimit (headerReceived e.bits r) u).line.rfc = _
    rw [line', line]
    exact limit.2
  · change (logError .rxLimit (headerReceived e.bits r) u).line.tfc = _
    rw [line', line, failed.line]
    rfl
  · rw [outOfLine, same]
    exact snap
  · change (logError .rxLimit (headerReceived e.bits r) u).errors.status = _
    rw [logError_status, status, BitVec.or_assoc]
    rfl

/-- Settles O42: the counters and the log of a voided frame, its owner, and two errors at one moment. -/
theorem voidedFrameCountsAndLimits : Obligations.VoidedFrameCountsAndLimits := by
  refine ⟨fun s powered part wait hold => ⟨voided_own s powered part wait hold, voided_other s powered part wait hold⟩, ?_⟩
  intro s place v powered joining engine timer wait hold own peers either limit third ends
  have part : s.takesPart = true := by rw [State.takesPart, joining]; rfl
  have out : s.snapTimerOut = true := (snapTimerOut_eq s).2 ⟨joining, engine, timer⟩
  refine ⟨?_, fun again frameEnds => ?_⟩
  · have reached : ∃ t, exec (.frameVoided v) s = .next t ∧ LimitReached s t (if s.line.tx = none then 64 else s.line.rfc)
        (if s.line.tx = none then s.line.tfc else 64) limit := by
      rcases either with ⟨⟨x, k, tx, unlisted, rfl⟩, before, reached⟩ | ⟨⟨r, k, e, tx, rfl, fails⟩, before, reached⟩
      · obtain ⟨u, voids, _, detaches, unowned⟩ := frameVoided_own_limit powered part wait tx hold before reached k
        obtain rfl := unowned unlisted
        have line := voidedLogged_line x k s
        have logged := limit_detaches joining out (by rw [voidedLogged, logError_eq]; rfl)
          (by rw [voidedLogged, logError_eq]; rfl) (by rw [voidedLogged, logError_eq]; rfl) (voidedLogged_status x k s)
          detaches
        rw [line, voidedOwn_eq] at logged
        have counter := raiseCounter_limit reached
        have sends : s.line.tx ≠ none := by simp [tx]
        simp only [limit, if_neg sends]
        exact ⟨_, voids, counter ▸ logged⟩
      · obtain ⟨raised, detaches⟩ := otherVoiding_limit part hold tx before reached r e
        have logged := limit_detaches joining out (by rw [otherVoiding, logError_eq]; rfl)
          (by rw [otherVoiding, logError_eq]; rfl) (by rw [otherVoiding, logError_eq]; rfl) (otherVoiding_status r e s)
          detaches
        have rfc : (otherVoiding r e s).line.rfc = 64 := raiseCounter_limit reached
        have tfc : (otherVoiding r e s).line.tfc = s.line.tfc := rfl
        rw [rfc, tfc] at logged
        simp only [limit, if_pos tx]
        exact ⟨_, (frameVoided_received powered part wait hold tx r k).trans (by rw [fails, raised]), logged⟩
    obtain ⟨t, voids, reached⟩ := reached
    obtain ⟨u, expires, behind, last, other⟩ := lapsed_after_limit powered reached place
    exact ⟨t, u, voids, reached.state, reached.status, expires, behind, last, other⟩
  · obtain ⟨t, expires, failed⟩ := third_end_detaches powered joining hold out again frameEnds
    have voids : ∃ u, exec (.frameVoided v) t = .next u ∧ u.member.state = .detached ∧ u.line.phase = .off ∧
        u.line.rfc = (if s.line.tx = none then 64 else s.line.rfc) ∧
        u.line.tfc = (if s.line.tx = none then s.line.tfc else 64) ∧ u.snap = t.snap ∧ u.line.ended = none ∧
        u.errors.status = t.errors.status ||| limit := by
      rcases either with ⟨⟨x, k, tx, unlisted, rfl⟩, before, reached⟩ | ⟨⟨r, k, e, tx, rfl, fails⟩, before, reached⟩
      · have sends : s.line.tx ≠ none := by simp [tx]
        simp only [limit, if_neg sends]
        exact own_limit_after_end powered failed k tx unlisted before reached
      · simp only [limit, if_pos tx]
        exact other_limit_after_end powered failed tx wait fails before reached
    obtain ⟨u, voids, state, phase, rfc, tfc, snap, ended, status⟩ := voids
    rw [failed.status] at status
    refine ⟨t, u, expires, failed.state, ?_, ?_, failed.status, voids, ⟨state, phase, rfc, tfc, ?_, ?_, ?_⟩, ended, status, ?_⟩
    · rw [failed.line]; rfl
    · rw [failed.line]; rfl
    · rw [snap, failed.snap]; rfl
    · rw [snap, failed.snap]; rfl
    · rw [snap, failed.snap]; rfl
    · rw [snap, failed.snap]

end Sys2Proof.Machine
end

