-- ==== Sys2Proof/Proofs/JoinTable.lean ====
section
/-! PROOFS. A frame changes the entries below the limit alone (R46, R94). -/

namespace Sys2Proof.Machine

namespace Applying

/-- A later stage that leaves every entry at the limit and above. -/
structure Under (a b : Applying) : Prop where
  limit : b.limit = a.limit
  entry : ∀ k, a.limit ≤ k → b.entry k = a.entry k

variable {a b c : Applying}

theorem Under.refl (a : Applying) : Under a a := ⟨rfl, fun _ _ => rfl⟩

theorem Under.trans (h : Under a b) (g : Under b c) : Under a c :=
  ⟨g.limit.trans h.limit, fun k hk => (g.entry k (h.limit.symm ▸ hk)).trans (h.entry k hk)⟩

theorem Under.ite {p : Prop} [Decidable p] (h : Under a b) (g : Under a c) : Under a (if p then b else c) := by
  split <;> assumption

theorem report_under (a : Applying) (st : Addr) (r : Report) : Under a (a.report st r) := by
  unfold report
  split
  · exact ⟨rfl, fun _ _ => rfl⟩
  · exact .refl a

theorem update_under {k : Nat} (hk : k < a.limit) (f : Entry → Entry) : Under a (a.update k f) := by
  refine ⟨rfl, fun j hj => ?_⟩
  have apart : k ≠ j := fun same => absurd hj (Nat.not_le.2 (same ▸ hk))
  simp only [entry, entryAt, update, List.getD_eq_getElem?_getD, List.getElem?_modify, if_neg apart, id_map']

theorem setStep_under (st : Addr) (list : List Nat) : ∀ (rest : List Nat) (pos : Nat) (a : Applying),
    Under a (a.setStep st list pos rest)
  | [], _, a => .refl a
  | k :: rest, pos, a => by
    unfold setStep
    split
    · exact .refl a
    next below =>
      have hk : k < a.limit := Nat.not_le.1 below
      split
      · exact ((update_under hk _).trans (report_under _ _ _)).trans (setStep_under st list rest _ _)
      · exact (update_under hk _).trans (report_under _ _ _)

theorem exclusiveCascade_under {k : Nat} (hk : k < a.limit) : Under a (a.exclusiveCascade k) := by
  unfold exclusiveCascade
  split
  · exact .refl a
  · exact ((update_under hk _).trans (report_under _ _ _)).trans (setStep_under _ _ _ _ _)

theorem foldl_under {α : Type} {f : Applying → α → Applying} (l : List α)
    (step : ∀ b, b.limit = a.limit → ∀ x ∈ l, Under b (f b x)) : Under a (l.foldl f a) := by
  induction l generalizing a with
  | nil => exact .refl a
  | cons x l ih =>
    have first := step a rfl x (by simp)
    exact first.trans (ih fun b hb y hy => step b (hb.trans first.limit) y (List.mem_cons_of_mem _ hy))

theorem poolCascade_under {k : Nat} (hk : k < a.limit) : Under a (a.poolCascade k) :=
  (update_under hk _).trans (foldl_under _ fun _ _ _ _ => report_under _ _ _)

theorem cascade_under {k : Nat} (hk : k < a.limit) : Under a (a.cascade k) :=
  .ite (exclusiveCascade_under hk) (poolCascade_under hk)

theorem removeHolder_under (st : Addr) {k : Nat} (hk : k < a.limit) : Under a (a.removeHolder st k) := by
  have removed := update_under hk (fun e => { e with holders := e.holders.filter (fun h => h.station != st) })
  exact .ite (removed.trans (cascade_under (removed.limit.symm ▸ hk))) (.refl a)

theorem claim_under (st : Addr) (m : ClaimMode) (u : Nat) (l : List Nat) : Under a (a.claim st m u l) := by
  unfold claim
  split
  · rename_i k
    split
    · exact .refl a
    next below =>
      have hk : k < a.limit := Nat.not_le.1 below
      split
      · exact (update_under hk _).trans (report_under _ _ _)
      · cases m with
        | tryNow => exact report_under _ _ _
        | wait => exact (update_under hk _).trans (report_under _ _ _)
  · exact setStep_under _ _ _ _ _

theorem release_under (st : Addr) (cause : ReleaseCause) (l : List Nat) : Under a (a.release st cause l) := by
  have passes : ∀ (l : List Nat) (x : Applying × List Nat), Under x.1 (l.foldl (fun (x : Applying × List Nat) k =>
      if k < x.1.limit && (x.1.entry k).heldBy st then (x.1.removeHolder st k, x.2 ++ [k]) else x) x).1 := by
    intro l
    induction l with
    | nil => exact fun x => .refl x.1
    | cons k l ih =>
      intro x
      rw [List.foldl_cons]
      refine Under.trans ?_ (ih _)
      split
      next here =>
        obtain ⟨hk, _⟩ := Bool.and_eq_true_iff.1 here
        exact removeHolder_under st (of_decide_eq_true hk)
      next => exact .refl x.1
  unfold release
  exact (passes l (a, [])).trans (report_under _ _ _)

theorem withdraw_under (st : Addr) (o : Nat) : Under a (a.withdraw st o) := by
  unfold withdraw
  split
  · exact .refl a
  next k found =>
    have hk : k < a.limit := List.mem_range.1 (List.mem_of_find?_eq_some found)
    split
    · exact .refl a
    next w _ =>
      dsimp only
      have erased := update_under hk (fun e => { e with waiters := e.waiters.eraseP (fun x => x.isOf st o) })
      refine Under.trans ?_ (report_under _ _ _)
      generalize a.update k _ = b at *
      have handed := foldl_under (a := b) (f := fun c t => c.removeHolder st t)
        ((w.list.take w.position).filter (fun t => decide (t < b.limit) && (b.entry t).heldBy st))
        (fun c same t ht => removeHolder_under st (by
          obtain ⟨_, inside⟩ := List.mem_filter.1 ht
          rw [same]
          exact of_decide_eq_true (Bool.and_eq_true_iff.1 inside).1))
      have all := erased.trans handed
      refine all.trans ?_
      exact .ite (poolCascade_under (all.limit.symm ▸ hk)) (.refl _)

theorem evictEntry_under (target : Addr) {k : Nat} (hk : k < a.limit) : Under a (a.evictEntry target k) := by
  unfold evictEntry
  dsimp only
  have erased := update_under hk (fun x => { x with waiters := x.waiters.eraseP (fun w => w.station == target) })
  have served : Under a (if (a.entry k).waitedBy target then
      if !(a.entry k).kind.isExclusive && ((a.entry k).waiters.head?.any (fun w => w.station == target)) then
        (a.update k (fun x => { x with waiters := x.waiters.eraseP (fun w => w.station == target) })).poolCascade k
      else a.update k (fun x => { x with waiters := x.waiters.eraseP (fun w => w.station == target) })
      else a) :=
    .ite (.ite (erased.trans (poolCascade_under (erased.limit.symm ▸ hk))) erased) (.refl a)
  exact served.trans (removeHolder_under target (served.limit.symm ▸ hk))

theorem evict_under (target : Addr) : Under a (a.evict target) :=
  foldl_under _ fun _ same _ hk => evictEntry_under target (same.symm ▸ List.mem_range.1 hk)

theorem apply_under (sender : Addr) (f : Frame) : Under a (a.apply sender f) := by
  cases f with
  | claim m u l => exact claim_under sender m u l
  | release c l => exact release_under sender c l
  | withdraw o => exact withdraw_under sender o
  | evict t c => exact (evict_under t).trans (report_under _ _ _)
  | presence p d =>
    cases p with
    | listening => exact evict_under sender
    | joining | active => exact .refl a
  | _ => exact .refl a

end Applying

/-- The entries at the limit and above stay as they stand. -/
theorem applyFrame_above (t : List Entry) (limit : Nat) (self sender : Addr) (f : Frame) {k : Nat} (hk : limit ≤ k) :
    entryAt (applyFrame t limit self sender f).table k = entryAt t k :=
  (Applying.apply_under (a := ⟨t, limit, f.lastChange, self, []⟩) sender f).entry k hk

/-- A CLAIM of one token at the limit or above is discarded whole. -/
theorem applyFrame_claim_above {t : List Entry} {limit k : Nat} (self sender : Addr) (m : ClaimMode) (u : Nat)
    (hk : limit ≤ k) : (applyFrame t limit self sender (.claim m u [k])).table = t := by
  simp only [applyFrame, Applying.apply, Applying.claim, if_pos hk]

end Sys2Proof.Machine
end

