-- ==== Sys2Proof/Proofs/JoinFrames.lean ====
section
/-! PROOFS. An accepted frame of a peer at a joiner (R46, R90 to R95, R98). -/

namespace Sys2Proof.Machine

/-! ## The donor is watched and sought -/

/-- The engine's look at its donor behind a frame: chosen again if it fails, sought if there is none (R90, R91). -/
def redonor (s : State) : State := seekDonor (watchDonor s)

section
variable {s : State}

theorem redonor_of_settled (seeking : s.snap.engine = .seeking → s.findDonor s.donorRef = none)
    (requesting : s.snap.engine = .requesting → s.eligible s.donorRef = true) : redonor s = s :=
  seekDonor_watchDonor_of_settled seeking requesting

theorem redonor_of_not_joining (other : s.member.state ≠ .joining) : redonor s = s := by
  have watched : watchDonor s = s := watchDonor_of_other fun h => other h.1
  rw [redonor, watched]
  exact if_neg fun h => other h.1

/-- A donor that is no more eligible is chosen again, or sought (R91). -/
theorem redonor_of_lost (joining : s.member.state = .joining) (engine : s.snap.engine = .requesting)
    (off : s.snapreqOnLine = false) (lost : s.eligible s.donorRef = false) :
    redonor s = chooseDonor s.donorRef s := by
  have watched : watchDonor s = chooseDonor s.donorRef s := if_pos ⟨joining, engine, off, lost⟩
  rw [redonor, watched]
  cases found : s.findDonor s.donorRef with
  | some d =>
    rw [chooseDonor_of_some found]
    exact if_neg fun h => by cases h.2
  | none =>
    rw [chooseDonor_of_none found, seekDonor]
    split
    next =>
      have again : (s.withSnap { s.snap with engine := .seeking, timer := some (2 * s.presencePeriod) }).findDonor
          (s.withSnap { s.snap with engine := .seeking, timer := some (2 * s.presencePeriod) }).donorRef = none := found
      rw [again]
    next => rfl

/-- A peer that has become eligible is asked (R90). -/
theorem redonor_of_found (joining : s.member.state = .joining) (engine : s.snap.engine = .seeking) {d : Addr}
    (found : s.findDonor s.donorRef = some d) :
    redonor s = s.withSnap { s.snap with engine := .requesting, donor := some d, timer := none } := by
  have watched : watchDonor s = s := watchDonor_of_other fun h => by
    rw [engine] at h
    cases h.2.1
  rw [redonor, watched, seekDonor, if_pos ⟨joining, engine⟩, found]
  rfl

/-- It changes the engine, the donor and the timer alone. -/
theorem redonor_eq (s : State) : ∃ e d t, redonor s = s.withSnap { s.snap with engine := e, donor := d, timer := t } := by
  have same : s = s.withSnap { s.snap with engine := s.snap.engine, donor := s.snap.donor, timer := s.snap.timer } := rfl
  have chosen (u : State) (ref : Addr) : ∃ e d t, chooseDonor ref u =
      u.withSnap { u.snap with engine := e, donor := d, timer := t } := by
    cases found : u.findDonor ref with
    | some d => exact ⟨_, _, _, chooseDonor_of_some found⟩
    | none => exact ⟨_, u.snap.donor, _, chooseDonor_of_none found⟩
  have sought (u : State) : ∃ e d t, seekDonor u = u.withSnap { u.snap with engine := e, donor := d, timer := t } := by
    unfold seekDonor
    split
    · split
      · exact ⟨_, _, _, rfl⟩
      · exact ⟨_, _, _, rfl⟩
    · exact ⟨_, _, _, rfl⟩
  have watched : ∃ e d t, watchDonor s = s.withSnap { s.snap with engine := e, donor := d, timer := t } := by
    unfold watchDonor
    split
    · exact chosen s _
    · exact ⟨_, _, _, same⟩
  obtain ⟨e, d, t, hw⟩ := watched
  obtain ⟨e', d', t', hs⟩ := sought (watchDonor s)
  exact ⟨e', d', t', by rw [redonor, hs, hw]; rfl⟩

end

/-! ## A frame at a joiner -/

/-- The records of a joiner behind a frame but for its engine: the line, the presence table, the entries below the
cursor. -/
def joinerTaken (sender : Addr) (f : Frame) (s : State) : State :=
  ((((s.withLine (s.line.accepted false)).withMember (s.memberAfter sender false f)).withEvents
    (showTarget f (showSender sender f (s.withLine (s.line.accepted false)))).events).withTable
      (applyFrame s.table s.snap.cursor s.station sender f).table).withSnap
        { s.snap with service := s.serviceAfter sender false f }

section
variable {s : State} (joining : s.member.state = .joining)
include joining

theorem acceptFrame_joiner (sender : Addr) {f : Frame}
    (resolved : ∀ o, f = .withdraw o → withdrawUnresolved s.table s.snap.cursor sender o = false) (h : Header) :
    acceptFrame sender none f h s = decideEvict f h (decideMismatch sender false f h
      (acceptSnap false f (joinerTaken sender f s))) := by
  have frame := memberFrame_eq sender false f (s.withLine (s.line.accepted false))
  have go (u : State) (hu : u.table = s.table ∧ u.snap = s.snap ∧ u.station = s.station) :
      joinerFrame sender f u = u.withTable (applyFrame s.table s.snap.cursor s.station sender f).table := by
    obtain ⟨table, snap, station⟩ := hu
    have base : applyFrame u.table u.snap.cursor u.station sender f =
        applyFrame s.table s.snap.cursor s.station sender f := by rw [table, snap, station]
    unfold joinerFrame
    rw [base]
    cases f with
    | withdraw o =>
      have resolves : withdrawUnresolved u.table u.snap.cursor sender o = false := by
        rw [table, snap]
        exact resolved o rfl
      simp only [resolves, Bool.false_eq_true, if_false]
    | _ => rfl
  have taken : serviceFrame s.member.state sender false f (ownFrameOwner none (acceptTable s.member.state sender f
      (memberFrame sender false f (s.withLine (s.line.accepted false))))) = joinerTaken sender f s := by
    have table : acceptTable s.member.state sender f (memberFrame sender false f (s.withLine (s.line.accepted false))) =
        joinerFrame sender f (memberFrame sender false f (s.withLine (s.line.accepted false))) := by
      rw [joining]
      rfl
    have went := go (memberFrame sender false f (s.withLine (s.line.accepted false)))
      ⟨by rw [frame]; rfl, by rw [frame]; rfl, by rw [frame]; rfl⟩
    rw [table, went, frame]
    refine (serviceFrame_eq s.member.state sender false f (s := s) ?_ ?_ ?_).trans ?_ <;> rfl
  have events (u : State) : acceptEvents s.member.state sender false f h u = u := by
    rw [joining]
    rfl
  rw [acceptFrame_eq]
  simp only [Option.isSome_none]
  rw [taken, events]

theorem acceptSnap_joiner {f : Frame} (sender : Addr) (other : ∀ j k hs ws, f ≠ .snap j s.snap.cursor k hs ws) :
    acceptSnap false f (joinerTaken sender f s) = redonor (joinerTaken sender f s) := by
  have state : (joinerTaken sender f s).member.state = .joining := joining
  rw [acceptSnap, if_pos state]
  cases f with
  | snap j i k hs ws =>
    have apart : ¬ i = (joinerTaken sender (.snap j i k hs ws) s).snap.cursor := by
      intro same
      have cursor : i = s.snap.cursor := same
      subst cursor
      exact other j k hs ws rfl
    have settled : joinerSnap false (.snap j i k hs ws) (joinerTaken sender (.snap j i k hs ws) s) =
        seekDonor (watchDonor (if i = (joinerTaken sender (.snap j i k hs ws) s).snap.cursor then _
          else joinerTaken sender (.snap j i k hs ws) s)) := rfl
    rw [settled, if_neg apart]
    rfl
  | _ => rfl

end

/-- The SNAP at the cursor is taken, and the last one ends the join (R93, R98). -/
theorem acceptSnap_cursor {u : State} (joining : u.member.state = .joining) {i : Nat} (cursor : i = u.snap.cursor)
    (j : Addr) (k : TokenKind) (hs : List Holder) (ws : List Waiter) : acceptSnap false (.snap j i k hs ws) u =
      redonor (if u.snap.cursor + 1 = u.n then joinComplete (takeSnap i k hs ws u) else takeSnap i k hs ws u) := by
  have taken : acceptSnap false (.snap j i k hs ws) u = redonor (if i = u.snap.cursor then
      (if (takeSnap i k hs ws u).snap.cursor = (takeSnap i k hs ws u).n then joinComplete (takeSnap i k hs ws u)
        else takeSnap i k hs ws u) else u) := if_pos joining
  rw [taken, if_pos cursor]
  rfl

/-- A station without a table decides nothing on an EVICT. -/
theorem decideEvict_of_no_table {t : State} (none : t.member.state.hasTable = false) (f : Frame) (h : Header) :
    decideEvict f h t = t := by
  cases f with
  | evict g c => cases c <;> exact if_neg fun both => Bool.noConfusion (none.symm.trans both.2)
  | _ => rfl

theorem decideMismatch_of_match {t : State} (sender : Addr) (own : Bool) {f : Frame} (h : Header)
    (settled : ∀ p d, f = .presence p d → own = true ∨ d = t.config.digest) : decideMismatch sender own f h t = t := by
  cases f with
  | presence p d =>
    refine if_pos ?_
    rw [Bool.or_eq_true, beq_iff_eq]
    exact settled p d rfl
  | _ => rfl

end Sys2Proof.Machine
end

