-- ==== Sys2Proof/Proofs/JoinDonor.lean ====
section
/-! PROOFS. The join, frame by frame and at the ends of its timer (R86, R90 to R98). -/

namespace Sys2Proof.Machine

/-! ## Eligible donors behind a frame (R89) -/

section
variable {s : State} {sender : Addr} {f : Frame}

theorem joinerTaken_peerAt (length : s.member.peers.length = 16) (p : Addr) :
    (joinerTaken sender f s).peerAt p = if f.target = some p ∧ p ≠ s.station
      then ((s.peersShowing sender f).getD p.toNat Peer.cleared).evicted
      else (s.peersShowing sender f).getD p.toNat Peer.cleared := State.peersAfter_getD length sender p f

theorem State.eligible_iff {a : Addr} : s.eligible a = true ↔
    a ≠ s.station ∧ (s.peerAt a).state = .active ∧ (s.peerAt a).config = .matching := by
  simp [State.eligible, and_assoc]

/-- An evicted station is no donor. -/
theorem eligible_of_evicted (length : s.member.peers.length = 16) {g : Addr} (target : f.target = some g) :
    (joinerTaken sender f s).eligible g = false := by
  refine Bool.eq_false_iff.2 fun eligible => ?_
  obtain ⟨other, active, _⟩ := State.eligible_iff.1 eligible
  rw [joinerTaken_peerAt length, if_pos ⟨target, other⟩] at active
  cases active

/-- A station that shows itself not ACTIVE is no donor. -/
theorem eligible_of_shown (length : s.member.peers.length = 16) (peer : sender ≠ s.station) {p : PresenceState} {d : Word}
    (presence : f = .presence p d) (away : p ≠ .active) : (joinerTaken sender f s).eligible sender = false := by
  refine Bool.eq_false_iff.2 fun eligible => ?_
  obtain ⟨_, active, _⟩ := State.eligible_iff.1 eligible
  subst presence
  rw [joinerTaken_peerAt length, if_neg (by rintro ⟨⟨⟩, _⟩), State.peersShowing_getD length, if_pos ⟨rfl, peer⟩] at active
  cases p with
  | active => exact away rfl
  | listening | joining => cases active

/-- A SNAP leaves every donor eligible. -/
theorem eligible_after_snap (length : s.member.peers.length = 16) {j : Addr} {i : Nat} {k : TokenKind} {hs : List Holder}
    {ws : List Waiter} {a : Addr} (eligible : s.eligible a = true) :
    (joinerTaken sender (.snap j i k hs ws) s).eligible a = true := by
  obtain ⟨other, active, config⟩ := State.eligible_iff.1 eligible
  refine State.eligible_iff.2 ⟨other, ?_⟩
  rw [joinerTaken_peerAt length, if_neg (by rintro ⟨⟨⟩, _⟩), State.peersShowing_getD length]
  split
  next same =>
    obtain ⟨rfl, _⟩ := same
    exact ⟨rfl, config⟩
  next => exact ⟨active, config⟩

/-- A peer that shows itself ACTIVE with the digest in force is eligible, and no other is made so by it. -/
theorem eligible_after_presence (length : s.member.peers.length = 16) (peer : sender ≠ s.station)
    (none : ∀ a, s.eligible a = false) (a : Addr) :
    (joinerTaken sender (.presence .active s.config.digest) s).eligible a = true ↔ a = sender := by
  rw [State.eligible_iff, joinerTaken_peerAt length, if_neg (by rintro ⟨⟨⟩, _⟩), State.peersShowing_getD length]
  constructor
  · rintro ⟨other, active, config⟩
    by_contra apart
    rw [if_neg fun same => apart same.1] at active config
    exact Bool.noConfusion ((none a).symm.trans (State.eligible_iff.2 ⟨other, active, config⟩))
  · rintro rfl
    rw [if_pos ⟨rfl, peer⟩]
    exact ⟨peer, rfl, if_pos rfl⟩

end

theorem mem_searchOrder : ∀ ref a : Addr, a ∈ searchOrder ref := by decide

/-- The only eligible peer is found. -/
theorem findDonor_of_unique {t : State} {d : Addr} (unique : ∀ a, t.eligible a = true ↔ a = d) (ref : Addr) :
    t.findDonor ref = some d := by
  unfold State.findDonor
  cases found : (searchOrder ref).find? (fun a => t.eligible a) with
  | none => exact absurd ((unique d).2 rfl) (List.find?_eq_none.1 found d (mem_searchOrder ref d))
  | some a => exact congrArg some ((unique a).1 (List.find?_some (p := fun a => t.eligible a) found))

/-! ## The exec of a frame at a joiner -/

section
variable {s : State} {r : RawFrame} {f : Frame} (powered : s.powered = true) (joining : s.member.state = .joining)
  (tx : s.line.tx = none) (hold : s.line.hold = none) (wait : s.line.phase ≠ .waiting)
  (sound : receiveCheck s.table s.station r = .ok f)

theorem joinerTaken_offLine (sender : Addr) (f : Frame) (hold : s.line.hold = none) :
    (joinerTaken sender f s).snapreqOnLine = false := by
  have quiet : (joinerTaken sender f s).line.ownFrame = none := ownFrame_none rfl hold
  simp [State.snapreqOnLine, quiet]

include powered joining tx hold wait sound

theorem joiner_accepts : exec (.frameAccepted (.received r)) s =
    .next (acceptFrame (senderOf r) none f (headerWhole r) s) :=
  frameAccepted_received powered (by rw [State.takesPart, joining]; rfl) tx hold wait sound

/-- A frame that is no SNAP at the cursor and that ends no join. -/
theorem joiner_redonors (plain : ∀ j k hs ws, f ≠ .snap j s.snap.cursor k hs ws)
    (resolved : ∀ o, f = .withdraw o → withdrawUnresolved s.table s.snap.cursor (senderOf r) o = false) :
    exec (.frameAccepted (.received r)) s = .next (decideMismatch (senderOf r) false f (headerWhole r)
      (redonor (joinerTaken (senderOf r) f s))) ∨ ∃ g c, f = .evict g c ∧
    exec (.frameAccepted (.received r)) s = .next (redonor (joinerTaken (senderOf r) f s)) := by
  have accepts := joiner_accepts powered joining tx hold wait sound
  rw [acceptFrame_joiner joining (senderOf r) resolved, acceptSnap_joiner joining (senderOf r) plain] at accepts
  cases f with
  | evict g c =>
    refine .inr ⟨g, c, rfl, accepts.trans (congrArg _ ?_)⟩
    obtain ⟨e, d, t, same⟩ := redonor_eq (joinerTaken (senderOf r) (.evict g c) s)
    refine decideEvict_of_no_table ?_ _ _
    change (redonor (joinerTaken (senderOf r) (.evict g c) s)).member.state.hasTable = false
    rw [same]
    exact congrArg MState.hasTable joining
  | _ => exact .inl accepts

end

end Sys2Proof.Machine
end

