-- ==== Sys2Proof/Proofs/JoinParts.lean ====
section
/-! PROOFS. The join's answer to each frame of a peer (R46, R90, R91, R93 to R95, R98). -/

namespace Sys2Proof.Machine

section
variable {s : State} {r : RawFrame} {f : Frame} (powered : s.powered = true) (joining : s.member.state = .joining)
  (tx : s.line.tx = none) (hold : s.line.hold = none) (wait : s.line.phase ≠ .waiting)
  (sound : receiveCheck s.table s.station r = .ok f)

/-! ## A SNAP (R93, R98) -/

include powered joining tx hold wait in
theorem joiner_snap {j : Addr} {i : Nat} {k : TokenKind} {hs : List Holder} {ws : List Waiter}
    (sound : receiveCheck s.table s.station r = .ok (.snap j i k hs ws)) :
    exec (.frameAccepted (.received r)) s = .next (acceptSnap false (.snap j i k hs ws)
      (joinerTaken (senderOf r) (.snap j i k hs ws) s)) := by
  have accepts := joiner_accepts powered joining tx hold wait sound
  rw [acceptFrame_joiner joining (senderOf r) (fun _ same => by cases same)] at accepts
  exact accepts

/-- The joiner with the SNAP at its cursor taken (R93). -/
def snapTaken (sender j : Addr) (k : TokenKind) (hs : List Holder) (ws : List Waiter) (s : State) : State :=
  takeSnap s.snap.cursor k hs ws (joinerTaken sender (.snap j s.snap.cursor k hs ws) s)

theorem snapTaken_snap (sender j : Addr) (k : TokenKind) (hs : List Holder) (ws : List Waiter) :
    (snapTaken sender j k hs ws s).snap = { s.snap with
      cursor := s.snap.cursor + 1, failures := 0, timer := s.snap.timer.map (fun _ => 2 * s.presencePeriod) } := rfl

theorem snapTaken_table (sender j : Addr) (k : TokenKind) (hs : List Holder) (ws : List Waiter) :
    (snapTaken sender j k hs ws s).table = s.table.set s.snap.cursor ⟨k, hs, ws, .none⟩ := rfl

include joining in
theorem acceptSnap_taken (sender j : Addr) (k : TokenKind) (hs : List Holder) (ws : List Waiter) :
    acceptSnap false (.snap j s.snap.cursor k hs ws) (joinerTaken sender (.snap j s.snap.cursor k hs ws) s) =
      redonor (if s.snap.cursor + 1 = s.n then joinComplete (snapTaken sender j k hs ws s)
        else snapTaken sender j k hs ws s) :=
  acceptSnap_cursor (u := joinerTaken sender (.snap j s.snap.cursor k hs ws) s) joining rfl j k hs ws

theorem takeSnap_eligible (i : Nat) (k : TokenKind) (hs : List Holder) (ws : List Waiter) (u : State) (a : Addr) :
    (takeSnap i k hs ws u).eligible a = u.eligible a := rfl

theorem takeSnap_config (i : Nat) (k : TokenKind) (hs : List Holder) (ws : List Waiter) (u : State) :
    (takeSnap i k hs ws u).config = u.config := rfl

include joining in
/-- The donor is eligible behind a SNAP as before it, so that the engine asks no other in REQUESTING. -/
theorem redonor_snapTaken (length : s.member.peers.length = 16) (sender j : Addr) (k : TokenKind) (hs : List Holder)
    (ws : List Waiter) :
    ((s.snap.engine = .receiving ∨ (s.snap.engine = .requesting ∧ s.eligible s.donorRef = true) ∨
        (s.snap.engine = .seeking ∧ (snapTaken sender j k hs ws s).findDonor s.donorRef = none)) →
      redonor (snapTaken sender j k hs ws s) = snapTaken sender j k hs ws s) ∧
    (∀ d, s.snap.engine = .seeking → (snapTaken sender j k hs ws s).findDonor s.donorRef = some d →
      redonor (snapTaken sender j k hs ws s) = (snapTaken sender j k hs ws s).withSnap
        { (snapTaken sender j k hs ws s).snap with engine := .requesting, donor := some d, timer := none }) := by
  have state : (snapTaken sender j k hs ws s).member.state = .joining := joining
  have engine : (snapTaken sender j k hs ws s).snap.engine = s.snap.engine := rfl
  have ref : (snapTaken sender j k hs ws s).donorRef = s.donorRef := by
    rw [State.donorRef, snapTaken_snap, State.donorRef]
  have keeps : s.eligible s.donorRef = true → (snapTaken sender j k hs ws s).eligible s.donorRef = true :=
    fun eligible => (takeSnap_eligible _ _ _ _ _ _).trans (eligible_after_snap length eligible)
  generalize snapTaken sender j k hs ws s = u at *
  rw [← ref] at keeps ⊢
  rw [← engine]
  constructor
  · rintro (receiving | ⟨requesting, eligible⟩ | ⟨seeking, lost⟩)
    · exact redonor_of_settled (fun h => by cases receiving.symm.trans h) (fun h => by cases receiving.symm.trans h)
    · exact redonor_of_settled (fun h => by cases requesting.symm.trans h) fun _ => keeps (ref ▸ eligible)
    · exact redonor_of_settled (fun _ => lost) fun h => by cases seeking.symm.trans h
  · exact fun d seeking found => redonor_of_found state seeking found

/-- The station becomes ACTIVE with what it has taken (R77, R98). -/
theorem joinComplete_active (u : State) : (joinComplete u).member.state = .active ∧
    (joinComplete u).member.presenceWant = true ∧ (joinComplete u).events.latched.getLsbD 4 = true ∧
    (joinComplete u).digest.timer = (if u.digestInterval = 0 then none else some u.digestInterval) ∧
    (joinComplete u).snap = { u.snap with cursor := 0, engine := .idle, donor := none, failures := 0, timer := none } ∧
    (joinComplete u).table = u.table := by
  have entered : joinComplete u = triggerWhere (fun x => decide (x.source = 4)) u.slotList (enteredActive (idleEngine u)) :=
    (becomeActive_eq (idleEngine u)).trans (triggerActivation_eq _)
  have from_ := triggerWhere_from (fun x => decide (x.source = 4)) u.slotList (enteredActive (idleEngine u))
  have bits := from_.latched (i := 4) (by omega) (by omega)
  obtain ⟨sl, m, -, only⟩ := from_
  rw [entered]
  rw [only] at bits ⊢
  refine ⟨rfl, rfl, ?_, rfl, rfl, rfl⟩
  rw [BitVec.getLsbD_eq_getElem (by omega), bits]
  simp [enteredActive]

/-! ## A frame that changes the table (R46, R94) -/

include powered joining tx hold wait sound in
theorem joiner_table (frame : (∃ m u l, f = .claim m u l) ∨ (∃ c l, f = .release c l) ∨ (∃ g c, f = .evict g c) ∨
      f = .presence .listening s.config.digest ∨
      ∃ o, f = .withdraw o ∧ withdrawUnresolved s.table s.snap.cursor (senderOf r) o = false) :
    exec (.frameAccepted (.received r)) s = .next (redonor (joinerTaken (senderOf r) f s)) := by
  have snap : ∀ j k hs ws, f ≠ .snap j s.snap.cursor k hs ws := by
    rintro j k hs ws rfl
    rcases frame with ⟨_, _, _, h⟩ | ⟨_, _, h⟩ | ⟨_, _, h⟩ | h | ⟨_, h, _⟩ <;> cases h
  have resolved : ∀ o, f = .withdraw o → withdrawUnresolved s.table s.snap.cursor (senderOf r) o = false := by
    rintro o rfl
    rcases frame with ⟨_, _, _, h⟩ | ⟨_, _, h⟩ | ⟨_, _, h⟩ | h | ⟨_, h, resolves⟩ <;> cases h
    exact resolves
  rcases joiner_redonors powered joining tx hold wait sound snap resolved with plain | ⟨_, _, _, evicts⟩
  · refine plain.trans (congrArg _ (decideMismatch_of_match _ _ _ fun p d shows => .inr ?_))
    obtain ⟨e, o, x, same⟩ := redonor_eq (joinerTaken (senderOf r) f s)
    rw [same]
    change d = s.config.digest
    rcases frame with ⟨_, _, _, h⟩ | ⟨_, _, h⟩ | ⟨_, _, h⟩ | h | ⟨_, h, _⟩ <;> rw [h] at shows <;> cases shows
    rfl
  · exact evicts

/-! ## A frame in REQUESTING (R90, R91) -/

theorem withDonor_requesting {u : State} (joining : u.member.state = .joining) (engine : u.snap.engine = .requesting)
    (off : u.snapreqOnLine = false) :
    (u.eligible u.donorRef = true → redonor u = u) ∧
    (u.eligible u.donorRef = false →
      (∀ d, u.findDonor u.donorRef = some d →
        redonor u = u.withSnap { u.snap with engine := .requesting, donor := some d, timer := none }) ∧
      (u.findDonor u.donorRef = none →
        redonor u = u.withSnap { u.snap with engine := .seeking, timer := some (2 * u.presencePeriod) })) := by
  constructor
  · exact fun eligible => redonor_of_settled (fun h => by rw [engine] at h; cases h) fun _ => eligible
  · intro lost
    rw [redonor_of_lost joining engine off lost]
    exact ⟨fun d => chooseDonor_of_some, chooseDonor_of_none⟩

/-- A PRESENCE of a peer that is not ACTIVE, or whose digest agrees, moves no joiner: PEER_CONFIG at most is logged
(R78). -/
theorem decideMismatch_joiner {t : State} (joining : t.member.state = .joining) (sender : Addr) (h : Header)
    (agrees : ∀ d, f = .presence .active d → d = t.config.digest) :
    decideMismatch sender false f h t = t ∨ decideMismatch sender false f h t = logError .peerConfig h t := by
  cases f with
  | presence p d =>
    by_cases same : d = t.config.digest
    · exact .inl (decideMismatch_of_match _ _ _ fun _ _ shows => .inr (by cases shows; exact same))
    · have away : p ≠ .active := fun active => same (agrees d (active ▸ rfl))
      have kind : t.mismatchKind sender p = some .peerConfig := by
        cases p with
        | active => exact absurd rfl away
        | listening | joining => simp only [State.mismatchKind, joining]
      right
      simp only [decideMismatch, Bool.false_or, beq_iff_eq, if_neg same, kind]
      exact raise_of_not_fatal rfl _ _
  | _ => exact .inl rfl

/-! ## An unresolved WITHDRAW (R95) -/

theorem withdrawUnresolved_iff (t : List Entry) (cursor : Nat) (sender : Addr) (o : Nat) :
    withdrawUnresolved t cursor sender o = true ↔ o < cursor ∧ (entryAt t o).heldBy sender = true ∧
      ∀ k, k < cursor → ∀ w ∈ (entryAt t k).waiters, ¬ (w.station = sender ∧ w.list.head? = some o) := by
  simp [withdrawUnresolved, Waiter.isOf, List.find?_eq_none, and_assoc]

end

end Sys2Proof.Machine
end

