-- ==== Sys2Proof/Proofs/JoinLost.lean ====
section
/-! PROOFS. A donor that fails is replaced twice (R86, R90 to R98). -/

namespace Sys2Proof.Machine

section
variable {s : State} {r : RawFrame} {f : Frame} (powered : s.powered = true) (joining : s.member.state = .joining)
  (tx : s.line.tx = none) (hold : s.line.hold = none) (wait : s.line.phase ≠ .waiting)
  (sound : receiveCheck s.table s.station r = .ok f)
include powered joining tx hold wait sound

/-- A WITHDRAW that cannot be resolved ends the join (R95). -/
theorem joiner_unresolved {o : Nat} (withdraw : f = .withdraw o)
    (unresolved : withdrawUnresolved s.table s.snap.cursor (senderOf r) o = true) :
    ∃ t, exec (.frameAccepted (.received r)) s = .next t ∧ t.member.state = .detached ∧
      t.errors.status = s.errors.status ||| 0x0400 ∧ t.table = clearEntries s.table ∧
      t.snap.cause = .withdrawUnresolved ∧ t.snap.engine = .idle ∧ t.snap.cursor = 0 := by
  subst withdraw
  have accepts := joiner_accepts powered joining tx hold wait sound
  have frame := memberFrame_eq (senderOf r) false (.withdraw o) (s.withLine (s.line.accepted false))
  have base : (memberFrame (senderOf r) false (.withdraw o) (s.withLine (s.line.accepted false))).member.state = .joining ∧
      (memberFrame (senderOf r) false (.withdraw o) (s.withLine (s.line.accepted false))).line = s.line.accepted false ∧
      (memberFrame (senderOf r) false (.withdraw o) (s.withLine (s.line.accepted false))).table = s.table ∧
      (memberFrame (senderOf r) false (.withdraw o) (s.withLine (s.line.accepted false))).snap = s.snap ∧
      (memberFrame (senderOf r) false (.withdraw o) (s.withLine (s.line.accepted false))).errors = s.errors := by
    rw [frame]
    exact ⟨joining, rfl, rfl, rfl, rfl⟩
  have stages (u : State) : acceptFrame (senderOf r) none (.withdraw o) (headerWhole r) s =
      acceptSnap false (.withdraw o) (joinerFrame (senderOf r) (.withdraw o)
        (memberFrame (senderOf r) false (.withdraw o) (s.withLine (s.line.accepted false)))) := by
    rw [acceptFrame_eq, joining]
    rfl
  rw [stages s] at accepts
  generalize memberFrame (senderOf r) false (.withdraw o) (s.withLine (s.line.accepted false)) = u at *
  obtain ⟨state, line, table, snap, errors⟩ := base
  have ended : joinerFrame (senderOf r) (.withdraw o) u =
      raise .joinFailed .noFrame .none (u.withSnap { u.snap with cause := .withdrawUnresolved }) := by
    have unresolved' : withdrawUnresolved u.table u.snap.cursor (senderOf r) o = true := by
      rw [table, snap]
      exact unresolved
    exact if_pos unresolved'
  rw [ended] at accepts
  set v := u.withSnap { u.snap with cause := .withdrawUnresolved } with hv
  have state' : v.member.state = .joining := state
  have line' : v.line = s.line.accepted false := line
  have part : v.takesPart = true := by rw [State.takesPart, state']; rfl
  have detaches := raise_detaches (s := v) part (by rw [line']; exact hold) (by rw [line']; rfl) (k := .joinFailed)
    (if_pos state') .noFrame
  have same := logError_eq .joinFailed .noFrame v
  have joiner := (detaches.joiner (by rw [same]; exact (congrArg MState.hasTable state'))).2.2.2
  have out : acceptSnap false (.withdraw o) (raise .joinFailed .noFrame .none v) = raise .joinFailed .noFrame .none v := by
    refine if_neg ?_
    rw [detaches.state]
    decide
  rw [out] at accepts
  refine ⟨_, accepts, detaches.state, ?_, ?_, ?_, ?_, ?_⟩
  · rw [detaches.errors, logError_status]
    exact congrArg (fun e : Errors => e.status ||| 0x0400) errors
  · rw [detaches.table, same]
    exact congrArg clearEntries table
  · rw [joiner, same]
    rfl
  · rw [joiner]
  · rw [joiner]

end

/-! ## The frames -/

section
variable {s : State} {r : RawFrame} {f : Frame} (powered : s.powered = true) (joining : s.member.state = .joining)
  (tx : s.line.tx = none) (hold : s.line.hold = none) (wait : s.line.phase ≠ .waiting)
  (sound : receiveCheck s.table s.station r = .ok f)
include powered joining tx hold wait sound

/-- A frame that ends no join leaves the engine behind the choice of its donor (R78, R90, R91). -/
theorem joiner_stays (agrees : ∀ d, f = .presence .active d → d = s.config.digest)
    (resolved : ∀ o, f = .withdraw o → withdrawUnresolved s.table s.snap.cursor (senderOf r) o = false)
    (plain : ∀ j k hs ws, f ≠ .snap j s.snap.cursor k hs ws) :
    ∃ t, exec (.frameAccepted (.received r)) s = .next t ∧
      t.member = (redonor (joinerTaken (senderOf r) f s)).member ∧
      t.station = (redonor (joinerTaken (senderOf r) f s)).station ∧
      t.snap = (redonor (joinerTaken (senderOf r) f s)).snap := by
  have nexts := joiner_redonors powered joining tx hold wait sound plain resolved
  have kept : (redonor (joinerTaken (senderOf r) f s)).member.state = .joining ∧
      (redonor (joinerTaken (senderOf r) f s)).config = s.config := by
    obtain ⟨e, o, x, same⟩ := redonor_eq (joinerTaken (senderOf r) f s)
    rw [same]
    exact ⟨joining, rfl⟩
  generalize redonor (joinerTaken (senderOf r) f s) = u at *
  obtain ⟨state, config⟩ := kept
  rcases nexts with next | ⟨_, _, _, next⟩
  · refine ⟨_, next, ?_⟩
    rcases decideMismatch_joiner state (senderOf r) (headerWhole r) (config.symm ▸ agrees) with stays | logs
    · rw [stays]
      exact ⟨rfl, rfl, rfl⟩
    · rw [logs, logError_eq]
      exact ⟨rfl, rfl, rfl⟩
  · exact ⟨u, next, rfl, rfl, rfl⟩

end

section
variable {s : State} {r : RawFrame} {f : Frame} (powered : s.powered = true) (joining : s.member.state = .joining)
  (tx : s.line.tx = none) (hold : s.line.hold = none) (wait : s.line.phase ≠ .waiting)
  (length : s.member.peers.length = 16) (sound : receiveCheck s.table s.station r = .ok f)
include powered joining tx hold wait length sound

/-- In REQUESTING a donor that the frame makes ineligible is chosen again, or sought (R91). -/
theorem joiner_requesting (engine : s.snap.engine = .requesting)
    (agrees : ∀ d, f = .presence .active d → d = s.config.digest)
    (resolved : ∀ o, f = .withdraw o → withdrawUnresolved s.table s.snap.cursor (senderOf r) o = false)
    (plain : ∀ j k hs ws, f ≠ .snap j s.snap.cursor k hs ws) :
    ∃ t, exec (.frameAccepted (.received r)) s = .next t ∧ t.member.state = .joining ∧
      ((∃ c, f = .evict s.donorRef c) ∨ (senderOf r = s.donorRef ∧ ∃ p d, f = .presence p d ∧ p ≠ .active) →
        t.eligible s.donorRef = false) ∧
      (t.eligible s.donorRef = true → t.snap = { s.snap with service := t.snap.service }) ∧
      (t.eligible s.donorRef = false →
        (∀ d, t.findDonor s.donorRef = some d → t.snap = { s.snap with
          donor := some d, timer := none, service := t.snap.service }) ∧
        (t.findDonor s.donorRef = none → t.snap = { s.snap with
          engine := .seeking, timer := some (2 * s.presencePeriod), service := t.snap.service })) := by
  have lost : (∃ c, f = .evict s.donorRef c) ∨ (senderOf r = s.donorRef ∧ ∃ p d, f = .presence p d ∧ p ≠ .active) →
      (joinerTaken (senderOf r) f s).eligible s.donorRef = false := by
    rintro (⟨c, rfl⟩ | ⟨donor, p, d, presence, away⟩)
    · exact eligible_of_evicted length rfl
    · rw [← donor]
      exact eligible_of_shown length (senderOf_ne_of_receiveCheck sound) presence away
  have behind := joiner_stays powered joining tx hold wait sound agrees resolved plain
  obtain ⟨t, next, member, station, snap⟩ := behind
  have taken := withDonor_requesting (u := joinerTaken (senderOf r) f s) joining engine (joinerTaken_offLine _ _ hold)
  have only := redonor_eq (joinerTaken (senderOf r) f s)
  have base : (joinerTaken (senderOf r) f s).snap = { s.snap with service := s.serviceAfter (senderOf r) false f } := rfl
  have ref : (joinerTaken (senderOf r) f s).donorRef = s.donorRef := by rw [State.donorRef, base, State.donorRef]
  have state : (joinerTaken (senderOf r) f s).member.state = .joining := joining
  have period : (joinerTaken (senderOf r) f s).presencePeriod = s.presencePeriod := rfl
  generalize joinerTaken (senderOf r) f s = u at *
  have redonored : (redonor u).member = u.member ∧ (redonor u).station = u.station := by
    obtain ⟨e, o, x, same⟩ := only
    rw [same]
    exact ⟨rfl, rfl⟩
  have eligible : t.eligible = u.eligible := by
    funext a
    simp only [State.eligible, State.peerAt, member, station, redonored]
  have finds : t.findDonor = u.findDonor := by
    funext a
    simp only [State.findDonor, eligible]
  rw [ref, period] at taken
  obtain ⟨settled, chosen⟩ := taken
  refine ⟨t, next, ?_⟩
  rw [eligible, finds]
  refine ⟨?_, lost, fun still => ?_, fun gone => ⟨fun d found => ?_, fun none => ?_⟩⟩
  · rw [member, redonored.1, state]
  · rw [snap, settled still, base]
  · rw [snap, (chosen gone).1 d found, base]
    exact congrArg (fun e => ({ s.snap with
      engine := e, donor := some d, timer := none, service := s.serviceAfter (senderOf r) false f } : Snap)) engine.symm
  · rw [snap, (chosen gone).2 none, base]
    rfl

/-- In SEEKING the peer that becomes eligible is asked (R90). -/
theorem joiner_seeking (engine : s.snap.engine = .seeking) (alone : ∀ a, s.eligible a = false)
    (presence : f = .presence .active s.config.digest) :
    ∃ t, exec (.frameAccepted (.received r)) s = .next t ∧ t.member.state = .joining ∧
      t.snap.engine = .requesting ∧ t.snap.donor = some (senderOf r) ∧ t.snap.timer = none ∧
      t.snap.failures = s.snap.failures ∧ t.snap.cursor = s.snap.cursor := by
  subst presence
  have unique := eligible_after_presence length (senderOf_ne_of_receiveCheck sound) alone
  have asked := redonor_of_found (s := joinerTaken (senderOf r) (.presence .active s.config.digest) s) joining engine
    (findDonor_of_unique unique _)
  rcases joiner_redonors powered joining tx hold wait sound nofun nofun with next | ⟨_, _, shows, _⟩
  · refine ⟨_, next.trans (congrArg _ (decideMismatch_of_match _ _ _ fun p d shows => .inr ?_)), ?_⟩
    · rw [asked]
      cases shows
      rfl
    · rw [asked]
      exact ⟨joining, rfl, rfl, rfl, rfl, rfl⟩
  · cases shows

end

end Sys2Proof.Machine
end

