-- ==== Sys2Proof/Proofs/JoinEnds.lean ====
section
/-! PROOFS. The end of the snapshot timer (R86, R96, R97). -/

namespace Sys2Proof.Machine

section
variable {s : State} (place : HoldPlace) (powered : s.powered = true) (out : s.snapTimerOut = true)
include powered out

/-- Before the third failure in a row another donor is asked, or sought (R96). -/
theorem snapshotTimer_again (again : s.snap.failures < 2) :
    (∀ d, s.findDonor s.donorRef = some d → exec (.snapshotTimerExpiry place) s = .next
      ((logError .donorLost .noFrame s).withSnap { s.snap with
        failures := s.snap.failures + 1, engine := .requesting, donor := some d, timer := none })) ∧
    (s.findDonor s.donorRef = none → exec (.snapshotTimerExpiry place) s = .next
      ((logError .donorLost .noFrame s).withSnap { s.snap with
        failures := s.snap.failures + 1, engine := .seeking, timer := some (2 * s.presencePeriod) })) := by
  have below : ¬ donorLimit ≤ s.snap.failures + 1 := Nat.not_le.2 (Nat.succ_lt_succ again)
  have chooses : exec (.snapshotTimerExpiry place) s = .next (chooseDonor (donorLost s).donorRef (donorLost s)) := by
    rw [exec_snapshotTimerExpiry, live_on powered, snapshotExpiry, if_pos out]
    exact congrArg _ (if_neg below)
  have logged : donorLost s = (logError .donorLost .noFrame s).withSnap { s.snap with failures := s.snap.failures + 1 } := by
    rw [donorLost, logError_eq, logError_eq]
    rfl
  have same := logError_eq .donorLost .noFrame s
  have finds : (donorLost s).findDonor = s.findDonor := by
    funext a
    simp only [logged, same, State.findDonor, State.eligible, State.peerAt, State.withSnap, State.withErrors,
      State.withEvents]
  have ref : (donorLost s).donorRef = s.donorRef := by
    rw [State.donorRef, donorLost_snap, State.donorRef]
  have period : (donorLost s).presencePeriod = s.presencePeriod := by
    rw [logged, same]
    rfl
  rw [chooses, ref]
  constructor
  · intro d found
    rw [chooseDonor_of_some (finds ▸ found), donorLost_snap, logged]
    rfl
  · intro none
    rw [chooseDonor_of_none (finds ▸ none), donorLost_snap, period, logged]
    rfl

variable (hold : s.line.hold = none) (third : 2 ≤ s.snap.failures)
include hold third

/-- The third failure waits for the frame on the line (R19). -/
theorem snapshotTimer_held (joining : s.member.state = .joining) (runs : place.frameEnds = false)
    (frame : s.line.tx.isSome = true ∨ (place.rxHold = true ∧ s.line.phase ≠ .waiting)) :
    ∃ t, exec (.snapshotTimerExpiry place) s = .next t ∧ t.line.tx = none ∧
      t.line.hold = some ⟨s.line.tx, .leave .detached .detached, place.start⟩ ∧
      t.member = s.member ∧ t.table = s.table ∧ t.req = s.req ∧
      t.errors.status = s.errors.status ||| 0x0410 ∧
      t.snap = { s.snap with failures := s.snap.failures + 1, timer := none, cause := .donorLimit } := by
  have expires : exec (.snapshotTimerExpiry place) s = .next (raise .joinFailed .noFrame place (joinFails s)) := by
    rw [exec_snapshotTimerExpiry, live_on powered, snapshotExpiry_third place out third]
  obtain ⟨ev, er, fails, status⟩ := joinFails_eq s
  have base : (logError .joinFailed .noFrame (joinFails s)).line = s.line ∧
      (logError .joinFailed .noFrame (joinFails s)).member = s.member ∧
      (logError .joinFailed .noFrame (joinFails s)).table = s.table ∧
      (logError .joinFailed .noFrame (joinFails s)).req = s.req ∧
      (logError .joinFailed .noFrame (joinFails s)).errors.status = s.errors.status ||| 0x0410 ∧
      (logError .joinFailed .noFrame (joinFails s)).snap =
        { s.snap with failures := s.snap.failures + 1, timer := none, cause := .donorLimit } := by
    have errors : (joinFails s).errors = er := by rw [fails]; rfl
    have logged : (logError .joinFailed .noFrame (joinFails s)).errors.status = s.errors.status ||| 0x0410 := by
      rw [logError_status, errors, status, BitVec.or_assoc]
      rfl
    refine ⟨?_, ?_, ?_, ?_, logged, ?_⟩ <;> rw [logError_eq, fails] <;> rfl
  have moves : (joinFails s).fatalMove .joinFailed = some (.detached, .detached) := by
    refine if_pos ?_
    rw [fails]
    exact joining
  rw [raise_of_fatal moves] at expires
  generalize logError .joinFailed .noFrame (joinFails s) = u at *
  obtain ⟨line, member, table, req, errors, snap⟩ := base
  have part : u.takesPart = true := by rw [State.takesPart, member, joining]; rfl
  have held : ∃ l, u.heldLine (.leave .detached .detached) place = some l := by
    refine Option.ne_none_iff_exists'.1 fun none => ?_
    rcases (heldLine_eq_none _ _ _).1 none with ends | ⟨tx, free⟩
    · exact Bool.noConfusion (runs.symm.trans ends)
    · rw [line] at tx free
      rcases frame with sends | ⟨received, wait⟩
      · simp [tx] at sends
      · exact free ⟨received, part, wait⟩
  obtain ⟨l, held⟩ := held
  have waits : leave .detached .detached place u = u.withLine l := by
    rw [leave, if_neg (by simp [line, hold]), held]
  obtain ⟨tx, held', -, -, -⟩ := heldLine_hold held
  rw [waits] at expires
  rw [line] at held'
  exact ⟨_, expires, tx, held', member, table, req, errors, snap⟩

/-- The third failure ends the join (R86, R97). -/
theorem snapshotTimer_ends (joining : s.member.state = .joining)
    (free : (s.line.tx = none ∧ place.rxHold = false) ∨ place.frameEnds = true) :
    ∃ t, exec (.snapshotTimerExpiry place) s = .next t ∧ t.member.state = .detached ∧
      t.line.phase = .off ∧ t.line.tx = none ∧
      t.snap = { s.snap with
        cursor := 0, engine := .idle, donor := none, failures := 0, timer := none, cause := .donorLimit, lapsed := none } ∧
      t.errors.status = s.errors.status ||| 0x0410 ∧ t.table = clearEntries s.table ∧
      t.member.peers = List.replicate 16 Peer.cleared ∧ t.line.rfc = s.line.rfc ∧
      t.line.tfc = s.line.tfc ∧ t.req = s.req := by
  have expires : exec (.snapshotTimerExpiry place) s = .next (raise .joinFailed .noFrame place (joinFails s)) := by
    rw [exec_snapshotTimerExpiry, live_on powered, snapshotExpiry_third place out third]
  obtain ⟨ev, er, fails, status⟩ := joinFails_eq s
  have base : (joinFails s).member = s.member ∧ (joinFails s).line = s.line ∧ (joinFails s).table = s.table ∧
      (joinFails s).req = s.req ∧ (joinFails s).errors = er ∧
      (joinFails s).snap = { s.snap with failures := s.snap.failures + 1, cause := .donorLimit, timer := none } := by
    rw [fails]
    exact ⟨rfl, rfl, rfl, rfl, rfl, rfl⟩
  generalize joinFails s = u at *
  obtain ⟨member, line, table, req, errors, snap⟩ := base
  have unheld : u.heldLine (.leave .detached .detached) place = none := by
    rw [heldLine_eq_none, line]
    rcases free with ⟨tx, quiet⟩ | ends
    · exact .inr ⟨tx, fun rx => Bool.noConfusion (quiet.symm.trans rx.1)⟩
    · exact .inl ends
  obtain ⟨v, detaches, raised⟩ := joinFailed_detaches (s := u) (by rw [member]; exact joining) (by rw [line]; exact hold) place
    unheld .noFrame
  have logged := logError_eq .joinFailed .noFrame u
  have line' : (logError .joinFailed .noFrame u).line = s.line := by rw [logged]; exact line
  have snap' : (logError .joinFailed .noFrame u).snap = u.snap := by rw [logged]; rfl
  have table' : (logError .joinFailed .noFrame u).table = s.table := by rw [logged]; exact table
  have req' : (logError .joinFailed .noFrame u).req = s.req := by rw [logged]; exact req
  have status' : (logError .joinFailed .noFrame u).errors.status = s.errors.status ||| 0x0410 := by
    rw [logError_status, errors, status, BitVec.or_assoc]
    rfl
  have tableless : (logError .joinFailed .noFrame u).member.state.hasTable = false := by
    have same : (logError .joinFailed .noFrame u).member = s.member := by rw [logged]; exact member
    rw [same, joining]
    rfl
  have joiner := detaches.joiner tableless
  have quiet : (logError .joinFailed .noFrame u).snapTimerOut = false := by
    refine Bool.eq_false_iff.2 fun timer => ?_
    have due := ((snapTimerOut_eq _).1 timer).2.2
    rw [snap', snap] at due
    cases due
  obtain ⟨reqs, -, -, engine⟩ := joiner
  rw [quiet, snap', snap] at engine
  have detached : v.member.state = .detached ∧ v.line = s.line.detached ∧ v.snap = { s.snap with
        cursor := 0, engine := .idle, donor := none, failures := 0, timer := none, cause := .donorLimit, lapsed := none } ∧
      v.errors.status = s.errors.status ||| 0x0410 ∧ v.table = clearEntries s.table ∧
      v.member.peers = List.replicate 16 Peer.cleared ∧ v.req = s.req :=
    ⟨detaches.state, by rw [detaches.line, line'], engine, by rw [detaches.errors, status'],
      by rw [detaches.table, table'], detaches.peers, by rw [reqs, req']⟩
  have only : ∃ w, raise .joinFailed .noFrame place u = w ∧ w.member = v.member ∧ w.line.phase = v.line.phase ∧
      w.line.tx = v.line.tx ∧ w.snap = v.snap ∧ w.errors = v.errors ∧ w.table = v.table ∧ w.line.rfc = v.line.rfc ∧
      w.line.tfc = v.line.tfc ∧ w.req = v.req := by
    refine ⟨_, rfl, ?_⟩
    rw [raised]
    split <;> exact ⟨rfl, rfl, rfl, rfl, rfl, rfl, rfl, rfl, rfl⟩
  obtain ⟨w, same, member'', phase, tx, snapW, errorsW, tableW, rfc, tfc, reqW⟩ := only
  obtain ⟨state, lineV, snapV, statusV, tableV, peers, reqV⟩ := detached
  rw [same] at expires
  rw [lineV] at phase tx rfc tfc
  exact ⟨w, expires, by rw [member'', state], phase, tx, by rw [snapW, snapV], by rw [errorsW, statusV],
    by rw [tableW, tableV], by rw [member'', peers], rfc, tfc, by rw [reqW, reqV]⟩

end

section
variable {s : State} (joining : s.member.state = .joining)
include joining

/-- The entries below the cursor are all that changes beside the presence table. -/
theorem redonor_joinerTaken (sender : Addr) (f : Frame) :
    let t := redonor (joinerTaken sender f s)
    t.table = (applyFrame s.table s.snap.cursor s.station sender f).table ∧ t.req = s.req ∧ t.leases = s.leases ∧
      t.slots = s.slots ∧ t.member.state = .joining := by
  have base : (joinerTaken sender f s).table = (applyFrame s.table s.snap.cursor s.station sender f).table ∧
      (joinerTaken sender f s).req = s.req ∧ (joinerTaken sender f s).leases = s.leases ∧
      (joinerTaken sender f s).slots = s.slots ∧ (joinerTaken sender f s).member.state = .joining :=
    ⟨rfl, rfl, rfl, rfl, joining⟩
  generalize joinerTaken sender f s = u at *
  obtain ⟨e, d, x, same⟩ := redonor_eq u
  rw [same]
  exact base

/-- A SNAP that is not at the cursor is not taken. -/
theorem joiner_snap_other {i : Nat} (sender j : Addr) (k : TokenKind) (hs : List Holder) (ws : List Waiter)
    (other : i ≠ s.snap.cursor) :
    let t := acceptSnap false (.snap j i k hs ws) (joinerTaken sender (.snap j i k hs ws) s)
    t.table = s.table ∧ t.member.state = .joining ∧ t.snap.cursor = s.snap.cursor ∧
      t.snap.failures = s.snap.failures ∧ (s.snap.engine = .receiving → t.snap = s.snap) := by
  intro t
  have settles : t = redonor (joinerTaken sender (.snap j i k hs ws) s) :=
    acceptSnap_joiner joining sender (by rintro _ _ _ _ ⟨⟩; exact other rfl)
  have table : (joinerTaken sender (.snap j i k hs ws) s).table = s.table := rfl
  have snap : (joinerTaken sender (.snap j i k hs ws) s).snap = s.snap := rfl
  have state : (joinerTaken sender (.snap j i k hs ws) s).member.state = .joining := joining
  rw [settles]
  generalize joinerTaken sender (.snap j i k hs ws) s = u at *
  obtain ⟨e, d, x, same⟩ := redonor_eq u
  refine ⟨?_, ?_, ?_, ?_, fun receiving => ?_⟩
  · rw [same]; exact table
  · rw [same]; exact state
  · rw [same]; exact (congrArg Snap.cursor snap : u.snap.cursor = _)
  · rw [same]; exact (congrArg Snap.failures snap : u.snap.failures = _)
  · have receiving' : u.snap.engine = .receiving := by rw [snap, receiving]
    rw [redonor_of_settled (fun h => by cases receiving'.symm.trans h) (fun h => by cases receiving'.symm.trans h), snap]

/-- The SNAP at the cursor is taken, and the last one completes the join (R93, R98). -/
theorem joiner_snap_cursor (length : s.member.peers.length = 16) {i : Nat} (sender j : Addr) (k : TokenKind)
    (hs : List Holder) (ws : List Waiter) (cursor : i = s.snap.cursor) :
    let t := acceptSnap false (.snap j i k hs ws) (joinerTaken sender (.snap j i k hs ws) s)
    let taken : Snap := { s.snap with
      cursor := i + 1, failures := 0, timer := s.snap.timer.map (fun _ => 2 * s.presencePeriod) }
    t.table = s.table.set i ⟨k, hs, ws, .none⟩ ∧
    (i + 1 ≠ s.n → t.member.state = .joining ∧
      (s.snap.engine = .receiving ∨ (s.snap.engine = .requesting ∧ s.eligible s.donorRef = true) ∨
        (s.snap.engine = .seeking ∧ t.findDonor s.donorRef = none) → t.snap = taken) ∧
      (∀ d, s.snap.engine = .seeking → t.findDonor s.donorRef = some d →
        t.snap = { taken with engine := .requesting, donor := some d, timer := none })) ∧
    (i + 1 = s.n → t.member.state = .active ∧ t.member.presenceWant = true ∧ t.events.latched.getLsbD 4 = true ∧
      t.digest.timer = (if s.digestInterval = 0 then none else some s.digestInterval) ∧
      t.snap = { s.snap with cursor := 0, engine := .idle, donor := none, failures := 0, timer := none }) := by
  subst cursor
  intro t taken
  have takes : t = _ := acceptSnap_taken joining sender j k hs ws
  have snap := snapTaken_snap (s := s) sender j k hs ws
  have table := snapTaken_table (s := s) sender j k hs ws
  have state : (snapTaken sender j k hs ws s).member.state = .joining := joining
  have interval : (snapTaken sender j k hs ws s).digestInterval = s.digestInterval := by
    have config : (snapTaken sender j k hs ws s).config = s.config :=
      takeSnap_config _ _ _ _ (joinerTaken sender (.snap j s.snap.cursor k hs ws) s)
    rw [State.digestInterval, config, State.digestInterval]
  obtain ⟨settled, found⟩ := redonor_snapTaken joining length sender j k hs ws
  rw [takes]
  generalize snapTaken sender j k hs ws s = u at *
  by_cases last : s.snap.cursor + 1 = s.n
  · obtain ⟨active, want, bit, timer, idle, same⟩ := joinComplete_active u
    rw [if_pos last, redonor_of_not_joining (by rw [active]; decide)]
    refine ⟨same.trans table, fun h => absurd last h, fun _ => ⟨active, want, bit, ?_, ?_⟩⟩
    · rw [timer, interval]
    · rw [idle, snap]
  · rw [if_neg last]
    have kept : (redonor u).table = u.table ∧ (redonor u).member = u.member ∧ (redonor u).findDonor = u.findDonor := by
      obtain ⟨e, d, x, same⟩ := redonor_eq u
      rw [same]
      exact ⟨rfl, rfl, rfl⟩
    obtain ⟨table', member, finds⟩ := kept
    rw [finds, member, table']
    refine ⟨table, fun _ => ⟨state, fun still => ?_, fun d seeking eligible => ?_⟩, fun h => absurd h last⟩
    · rw [settled still, snap]
    · rw [found d seeking eligible, snap]
      rfl

end

/-- Settles O56: the join's answer to each frame, and the ends of its timer. -/
theorem lostDonorIsReplacedTwice : Obligations.LostDonorIsReplacedTwice := by
  refine ⟨?_, ?_⟩
  · intro s r f powered joining tx hold wait length sound sender below unresolved
    have open_ (o : Nat) : withdrawUnresolved s.table s.snap.cursor sender o = true ↔ unresolved o :=
      withdrawUnresolved_iff s.table s.snap.cursor sender o
    have resolves {o : Nat} (h : ¬ unresolved o) : withdrawUnresolved s.table s.snap.cursor sender o = false :=
      Bool.eq_false_iff.2 fun both => h ((open_ o).1 both)
    refine ⟨?_, fun frame => ?_, fun engine agrees resolved plain => ?_, fun o withdraw h => ?_, ?_⟩
    · rintro j i k hs ws rfl
      exact ⟨_, joiner_snap powered joining tx hold wait sound, joiner_snap_other joining sender j k hs ws,
        joiner_snap_cursor joining length sender j k hs ws⟩
    · have next := joiner_table powered joining tx hold wait sound (by
        rcases frame with claim | release | evict | presence | ⟨o, withdraw, h⟩
        · exact .inl claim
        · exact .inr (.inl release)
        · exact .inr (.inr (.inl evict))
        · exact .inr (.inr (.inr (.inl presence)))
        · exact .inr (.inr (.inr (.inr ⟨o, withdraw, resolves h⟩))))
      obtain ⟨table, req, leases, slots, state⟩ := redonor_joinerTaken joining (senderOf r) f
      refine ⟨_, next, table, fun k above => ?_, ?_, req, leases, slots, state⟩
      · rw [table]
        exact applyFrame_above _ _ _ _ _ above
      · rintro m u k rfl above
        exact table.trans (applyFrame_claim_above _ _ _ _ above)
    · exact joiner_requesting powered joining tx hold wait length sound engine agrees
        (fun o withdraw => resolves (resolved o withdraw)) plain
    · exact joiner_unresolved powered joining tx hold wait sound withdraw ((open_ o).2 h)
    · exact fun engine alone presence => joiner_seeking powered joining tx hold wait length sound engine alone presence
  · intro s place powered joining engine timer
    have out : s.snapTimerOut = true := (snapTimerOut_eq s).2 ⟨joining, engine, timer⟩
    exact ⟨snapshotTimer_again place powered out,
      fun third hold => snapshotTimer_held place powered out hold third joining,
      fun third hold => snapshotTimer_ends place powered out hold third joining⟩

end Sys2Proof.Machine
end

