-- ==== Sys2Proof/Proofs/PeerShown.lean ====
section
/-! PROOFS. A peer's frame at the presence table, in every state that takes part in the line (R68, R72, R75, R78, R99,
R102). -/

namespace Sys2Proof.Machine

/-- The presence table as a peer's frame leaves it, whatever the other blocks do. -/
structure Shown (s : State) (sender : Addr) (f : Frame) (t : State) : Prop where
  member : t.member = s.memberAfter sender false f
  line : t.line = s.line.accepted false
  errors : t.errors = s.errors
  config : t.config = s.config
  station : t.station = s.station
  powered : t.powered = s.powered
  kinds : t.table.map Entry.kind = s.table.map Entry.kind
  service : t.snap.service = s.serviceAfter sender false f
  events : ∃ m, t.events.latched = (showTarget f (showSender sender f s)).events.latched ||| m
  listening : s.member.state = .listening → t.table = s.table ∧ t.req = s.req ∧ t.leases = s.leases ∧
    t.slots = s.slots ∧ t.digest = s.digest ∧ t.events.latch = s.events.latch

section
variable {s : State} {sender : Addr} {f : Frame}

/-! ## The events that the presence table sets -/

theorem setPeer_withLine (a : Addr) (p : Peer) (l : Line) (u : State) :
    setPeer a p (u.withLine l) = (setPeer a p u).withLine l := by
  rw [setPeer_eq, setPeer_eq]
  rfl

theorem showSender_withLine (l : Line) : showSender sender f (s.withLine l) = (showSender sender f s).withLine l := by
  by_cases own : sender = s.station
  · exact (if_pos own).trans (congrArg (fun u : State => u.withLine l) (if_pos own).symm)
  · exact (if_neg own).trans ((setPeer_withLine _ _ _ _).trans (congrArg (fun u : State => u.withLine l) (if_neg own).symm))

theorem showTarget_withLine (l : Line) (u : State) : showTarget f (u.withLine l) = (showTarget f u).withLine l := by
  cases f with
  | evict g c =>
    by_cases own : g = u.station
    · exact (if_pos own).trans (congrArg (fun v : State => v.withLine l) (if_pos own).symm)
    · exact (if_neg own).trans ((setPeer_withLine _ _ _ _).trans (congrArg (fun v : State => v.withLine l) (if_neg own).symm))
  | _ => rfl

/-- The presence table reads nothing of the Line Interface. -/
theorem shownEvents_line (l : Line) : (showTarget f (showSender sender f (s.withLine l))).events =
    (showTarget f (showSender sender f s)).events := by
  rw [showSender_withLine, showTarget_withLine]
  rfl

/-- Step 4 only sets events, the PEER event among them. -/
theorem showTarget_events (u : State) : ∃ m, (showTarget f u).events = { u.events with latched := u.events.latched ||| m } := by
  have same : u.events.latched ||| 0 = u.events.latched := BitVec.or_zero
  cases f with
  | evict g c =>
    simp only [showTarget]
    split
    · exact ⟨0, by rw [same]⟩
    · rw [setPeer_eq]
      split
      · exact ⟨_, rfl⟩
      · exact ⟨0, by rw [same]; rfl⟩
  | _ => exact ⟨0, by rw [same]; rfl⟩

/-- Another peer state than before sets the PEER event. -/
theorem shownEvents_peer (peer : sender ≠ s.station) (other : shownState sender (s.peerAt sender).state f ≠
    (s.peerAt sender).state) : (showTarget f (showSender sender f s)).events.latched.getLsbD 5 = true := by
  have bit : Event.peer.mask.getLsbD 5 = true := by decide
  obtain ⟨m, events⟩ := showTarget_events (f := f) (showSender sender f s)
  have changes : ((s.peerAt sender).state !=
      (shownPeer s.dropoutTime s.config.digest sender (s.peerAt sender) f).state) = true := bne_iff_ne.2 (Ne.symm other)
  have sender_ : (showSender sender f s).events.latched = s.events.latched ||| Event.peer.mask := by
    rw [showSender, if_neg peer, setPeer_eq]
    exact if_pos changes
  rw [events]
  simp only [sender_, BitVec.getLsbD_or, bit, Bool.or_true, Bool.true_or]

/-! ## The stations, state by state -/

/-- The records of a station in LISTENING behind a peer's frame. -/
def listenerTaken (sender : Addr) (f : Frame) (s : State) : State :=
  (((s.withLine (s.line.accepted false)).withMember (s.memberAfter sender false f)).withEvents
    (showTarget f (showSender sender f s)).events).withSnap { s.snap with service := s.serviceAfter sender false f }

theorem listenerTaken_shown (sender : Addr) (f : Frame) (s : State) : Shown s sender f (listenerTaken sender f s) where
  member := rfl
  line := rfl
  errors := rfl
  config := rfl
  station := rfl
  powered := rfl
  kinds := rfl
  service := rfl
  events := ⟨0, BitVec.or_zero.symm⟩
  listening := by
    intro _
    have latch : (showTarget f (showSender sender f s)).events.latch = s.events.latch := by
      obtain ⟨m, events⟩ := showTarget_events (f := f) (showSender sender f s)
      rw [events, showSender]
      split
      · rfl
      · rw [setPeer_eq]
        rfl
    exact ⟨rfl, rfl, rfl, rfl, rfl, latch⟩

theorem acceptFrame_listener (listening : s.member.state = .listening) (h : Header) :
    acceptFrame sender none f h s = decideMismatch sender false f h (listenerTaken sender f s) := by
  have frame := memberFrame_eq sender false f (s.withLine (s.line.accepted false))
  rw [shownEvents_line] at frame
  have taken : serviceFrame s.member.state sender false f (memberFrame sender false f (s.withLine (s.line.accepted false))) =
      listenerTaken sender f s := by
    rw [frame]
    refine (serviceFrame_eq s.member.state sender false f (s := s) ?_ ?_ ?_).trans ?_ <;> rfl
  have stages : acceptFrame sender none f h s = decideEvict f h (decideMismatch sender false f h
      (acceptEvents s.member.state sender false f h (acceptSnap false f (serviceFrame s.member.state sender false f
        (acceptTable s.member.state sender f (memberFrame sender false f (s.withLine (s.line.accepted false)))))))) := rfl
  have table (u : State) : acceptTable s.member.state sender f u = u := by rw [listening]; rfl
  have events (u : State) : acceptEvents s.member.state sender false f h u = u := by rw [listening]; rfl
  have snap : acceptSnap false f (listenerTaken sender f s) = listenerTaken sender f s := by
    refine if_neg fun joining => ?_
    cases listening.symm.trans joining
  rw [stages, table, taken, snap, events]
  cases f with
  | evict g c => exact decideEvict_of_no_table (t := listenerTaken sender (.evict g c) s) (congrArg MState.hasTable listening) _ _
  | _ => rfl

/-- What the engine looks at behind the frame is no part of it. -/
theorem Shown.behind_redonor {t : State} (shown : Shown s sender f t) : Shown s sender f (redonor t) := by
  obtain ⟨e, d, x, same⟩ := redonor_eq t
  rw [same]
  exact ⟨shown.member, shown.line, shown.errors, shown.config, shown.station, shown.powered, shown.kinds, shown.service,
    shown.events, shown.listening⟩

theorem joinerTaken_shown (joining : s.member.state = .joining) : Shown s sender f (joinerTaken sender f s) where
  member := rfl
  line := rfl
  errors := rfl
  config := rfl
  station := rfl
  powered := rfl
  kinds := applyFrame_kinds _ _ _ _ _
  service := rfl
  events := ⟨0, (congrArg Events.latched (shownEvents_line _)).trans BitVec.or_zero.symm⟩
  listening := fun listening => by cases joining.symm.trans listening

theorem tableTaken_shown (keeps : s.member.state.hasTable = true) : Shown s sender f (tableTaken sender none f s) := by
  have only := tableTaken_only sender none f s
  have told := (tableTaken_told sender none f s).events
  refine ⟨only.member, only.line, only.errors, only.config, only.station, only.powered, ?_, ?_, ?_, fun listening => ?_⟩
  · rw [only.table]
    exact applyFrame_kinds _ _ _ _ _
  · rw [only.snap]
    rfl
  · obtain ⟨m, events⟩ := told
    refine ⟨m, ?_⟩
    rw [events]
    exact congrArg (fun ev : Events => ev.latched ||| m) (shownEvents_line _)
  · rw [listening] at keeps
    cases keeps

/-- A SIGNAL sets events and triggers slots alone. -/
theorem Shown.behind_signal {t : State} (shown : Shown s sender f t) (keeps : s.member.state.hasTable = true) :
    Shown s sender f (signalFrame f t) := by
  have state : t.member.state = s.member.state := by rw [shown.member]; rfl
  have changed : signalFrame f t = t ∨ ∃ c, signalFrame f t = triggerSignal c (signalled c t) := by
    cases f with
    | signal m c =>
      cases named : m.getLsbD t.station.toNat with
      | false => exact .inl (signalFrame_unnamed named c)
      | true => exact .inr ⟨c, signalFrame_named (by rw [state]; exact keeps) named c⟩
    | _ => exact .inl rfl
  rcases changed with same | ⟨c, same⟩
  · rw [same]
    exact shown
  · obtain ⟨sl, m, _, triggered⟩ := triggerSignal_from c (signalled c t)
    obtain ⟨ev, signals, set⟩ : ∃ ev, signalled c t = t.withEvents ev ∧
        ev.latched = t.events.latched ||| Event.signal.mask := by
      rw [signalled, setEvent_eq]
      exact ⟨_, rfl, rfl⟩
    rw [same, triggered, signals]
    obtain ⟨k, events⟩ := shown.events
    have latched : ev.latched ||| m = (showTarget f (showSender sender f s)).events.latched |||
        (k ||| Event.signal.mask ||| m) := by
      rw [set, events, BitVec.or_assoc, BitVec.or_assoc, BitVec.or_assoc]
    exact ⟨shown.member, shown.line, shown.errors, shown.config, shown.station, shown.powered, shown.kinds, shown.service,
      ⟨_, latched⟩, fun listening => by
        rw [listening] at keeps
        cases keeps⟩

/-- Every such station takes the frame, and decides on the configuration last. -/
theorem peerFrame_shown {r : RawFrame} (powered : s.powered = true) (part : s.takesPart = true) (tx : s.line.tx = none)
    (hold : s.line.hold = none) (wait : s.line.phase ≠ .waiting) (sound : receiveCheck s.table s.station r = .ok f)
    (evict : ∀ c, f ≠ .evict s.station c) (digest : ∀ v, f = .digest v → s.member.state.hasTable = false)
    (joiner : s.member.state = .joining → (∀ o, f ≠ .withdraw o) ∧ ∀ j k hs ws, f ≠ .snap j s.snap.cursor k hs ws) :
    ∃ t, exec (.frameAccepted (.received r)) s = .next (decideMismatch (senderOf r) false f (headerWhole r) t) ∧
      Shown s (senderOf r) f t := by
  have accepts := frameAccepted_received powered part tx hold wait sound
  cases state : s.member.state with
  | unconfigured | detached =>
    rw [State.takesPart, state] at part
    cases part
  | listening =>
    rw [acceptFrame_listener state] at accepts
    exact ⟨_, accepts, listenerTaken_shown _ _ _⟩
  | joining =>
    obtain ⟨withdraw, snap⟩ := joiner state
    refine ⟨redonor (joinerTaken (senderOf r) f s), ?_, (joinerTaken_shown state).behind_redonor⟩
    rcases joiner_redonors powered state tx hold wait sound snap (fun o same => absurd same (withdraw o)) with
      next | ⟨g, c, rfl, next⟩
    · exact next
    · exact next
  | active | leaving =>
    have keeps : s.member.state.hasTable = true := by rw [state]; rfl
    have shown := (tableTaken_shown (s := s) (sender := senderOf r) (f := f) keeps).behind_signal keeps
    refine ⟨signalFrame f (tableTaken (senderOf r) none f s), accepts.trans (congrArg _ ?_), shown⟩
    rw [acceptFrame_of_hasTable keeps]
    have station := shown.station
    cases f with
    | digest v =>
      rw [digest v rfl] at keeps
      cases keeps
    | evict g c =>
      refine (congrArg (decideEvict _ _) rfl).trans ?_
      have other : ¬ (g = (signalFrame (.evict g c) (tableTaken (senderOf r) none (.evict g c) s)).station ∧
          (signalFrame (.evict g c) (tableTaken (senderOf r) none (.evict g c) s)).member.state.hasTable = true) := by
        rw [station]
        rintro ⟨rfl, _⟩
        exact evict c rfl
      cases c <;> exact if_neg other
    | _ => rfl

end

end Sys2Proof.Machine
end

