-- ==== Sys2Proof/Proofs/PeerFrames.lean ====
section
/-! PROOFS. What a peer's frame shows of its sender and of its target, and a foreign configuration (R68, R72, R75, R78,
R99, R102). -/

namespace Sys2Proof.Machine

section
variable {s t : State} {sender : Addr} {f : Frame} (shown : Shown s sender f t)
include shown

theorem Shown.state : t.member.state = s.member.state := by
  rw [shown.member]
  rfl

theorem Shown.peerAt (length : s.member.peers.length = 16) (p : Addr) : t.peerAt p =
    if f.target = some p ∧ p ≠ s.station then ((s.peersShowing sender f).getD p.toNat Peer.cleared).evicted
    else (s.peersShowing sender f).getD p.toNat Peer.cleared := by
  rw [State.peerAt, shown.member]
  exact State.peersAfter_getD length sender p f

section
variable (length : s.member.peers.length = 16) (peer : sender ≠ s.station)
include length peer

/-- The sender's entry (R68). -/
theorem Shown.sender_entry (unnamed : f.target ≠ some sender) :
    t.peerAt sender = shownPeer s.dropoutTime s.config.digest sender (s.peerAt sender) f := by
  rw [shown.peerAt length, if_neg fun both => unnamed both.1, State.peersShowing_getD length, if_pos ⟨rfl, peer⟩]

/-- The target's entry (R68). -/
theorem Shown.target_entry {g : Addr} (named : f.target = some g) (other : g ≠ s.station) :
    t.peerAt g = (s.peerAt g).evicted := by
  rw [shown.peerAt length, if_pos ⟨named, other⟩, State.peersShowing_getD length]
  split
  next same =>
    obtain ⟨rfl, _⟩ := same
    have config := shownPeer_config_of_target named s.dropoutTime s.config.digest (s.peerAt g)
    simp only [Peer.evicted, config]
  next => rfl

omit peer in
theorem Shown.other_entry {p : Addr} (other : p ≠ sender) (unnamed : f.target ≠ some p) : t.peerAt p = s.peerAt p := by
  rw [shown.peerAt length, if_neg fun both => unnamed both.1, State.peersShowing_getD length,
    if_neg fun both => other both.1]

end

theorem Shown.peerEvent (peer : sender ≠ s.station)
    (other : shownState sender (s.peerAt sender).state f ≠ (s.peerAt sender).state) :
    t.events.latched.getLsbD 5 = true := by
  obtain ⟨m, events⟩ := shown.events
  rw [events, BitVec.getLsbD_or, shownEvents_peer peer other, Bool.true_or]

/-! ## The wants, the listen interval and the joiners served -/

theorem Shown.want : t.member.presenceWant = true ↔ s.member.presenceWant = true ∨
    (s.member.state.hasTable = true ∧ ∃ d, f = .presence .listening d) := by
  have same : t.member.presenceWant = (s.memberAfter sender false f).presenceWant := by rw [shown.member]
  rw [same]
  cases f with
  | presence p d => cases p <;> simp [State.memberAfter]
  | _ => simp [State.memberAfter]

theorem Shown.seen : t.member.activeSeen = true ↔ s.member.activeSeen = true ∨
    (s.member.state = .listening ∧ s.member.listenTimer ≠ none ∧ f.showsRunning = true) := by
  have same : t.member.activeSeen = (s.memberAfter sender false f).activeSeen := by rw [shown.member]
  rw [same]
  simp [State.memberAfter, Option.isSome_iff_ne_none, and_assoc]

theorem Shown.listenTimer : t.member.listenTimer = s.member.listenTimer := by
  have same : t.member.listenTimer = (s.memberAfter sender false f).listenTimer := by rw [shown.member]
  rw [same]
  cases f with
  | presence p d => simp [State.memberAfter]
  | _ => rfl

end

/-- A PRESENCE with the digest in force shows a match; the other frames leave it. -/
theorem shownMatch_of_agrees {own : Word} {f : Frame} (old : MatchState) (agrees : ∀ p d, f = .presence p d → d = own) :
    shownMatch own old f = (match (generalizing := false) f with
      | .presence _ _ => .matching
      | _ => old) := by
  cases f with
  | presence p d => exact if_pos (agrees p d rfl)
  | _ => rfl

theorem showsRunning_iff (f : Frame) : f.showsRunning = true ↔ (∃ g c, f = .evict g c) ∨ (∃ c l, f = .release c l) ∨
    (∃ o, f = .withdraw o) ∨ (∃ m u l, f = .claim m u l) ∨ (∃ m c, f = .signal m c) ∨
    (∃ j i k hs ws, f = .snap j i k hs ws) ∨ (∃ v, f = .digest v) ∨ ∃ d, f = .presence .active d := by
  cases f with
  | presence p d => cases p <;> simp [Frame.showsRunning]
  | _ => simp [Frame.showsRunning]

/-- A joiner that asks this station to serve it is appended, or its next index replaced in place (R99). -/
theorem serviceAfter_snapreq (s : State) (sender d : Addr) (i : Nat) : s.serviceAfter sender false (.snapreq d i) =
    if d ≠ s.station then s.snap.service.filter (fun x => x.1 != sender)
    else if s.member.state ≠ .active then s.snap.service
    else if ∃ x ∈ s.snap.service, x.1 = sender then
      s.snap.service.map (fun x => if x.1 == sender then (sender, i) else x)
    else s.snap.service ++ [(sender, i)] := by
  simp only [State.serviceAfter, serviceFrame, Bool.false_eq_true, if_false, ne_eq, ite_not]
  by_cases mine : d = s.station
  · rw [if_pos mine, if_pos mine]
    by_cases active : s.member.state = .active
    · rw [if_pos active, if_pos active]
      simp only [serviceAdd, List.any_eq_true, beq_iff_eq]
      rfl
    · rw [if_neg active, if_neg active]
  · rw [if_neg mine, if_neg mine]
    rfl

/-! ## Another configuration (R78) -/

section
variable {s t : State} {sender : Addr} {p : PresenceState} {d : Word} (shown : Shown s sender (.presence p d) t)
  (foreign : d ≠ s.config.digest)
include shown foreign

theorem Shown.foreign_decides {k : ErrKind} (kind : s.mismatchKind sender p = some k) (h : Header) :
    decideMismatch sender false (.presence p d) h t = raise k h .none t := by
  have same : t.mismatchKind sender p = s.mismatchKind sender p := by
    unfold State.mismatchKind
    rw [shown.state, shown.station]
  have apart : ¬ d = t.config.digest := by
    rw [shown.config]
    exact foreign
  simp only [decideMismatch, Bool.false_or, beq_iff_eq, if_neg apart, same, kind]

/-- The conflict detaches the station. -/
theorem Shown.foreign_conflict (part : s.takesPart = true) (hold : s.line.hold = none) (h : Header)
    (kind : s.mismatchKind sender p = some .configConflict) :
    let u := decideMismatch sender false (.presence p d) h t
    u.member.state = .detached ∧ u.errors.status = s.errors.status ||| 0x0100 ∧
      u.member.peers = List.replicate 16 Peer.cleared ∧
      (s.member.state = .active → u.leases = [] ∧ u.table = clearEntries s.table) := by
  intro u
  have part' : t.takesPart = true := by rw [State.takesPart, shown.state]; exact part
  have detaches := raise_detaches part' (by rw [shown.line]; exact hold) (by rw [shown.line]; rfl)
    (k := .configConflict) (if_pos part') h
  have decided : u = raise .configConflict h .none t := shown.foreign_decides foreign kind h
  have logged := logError_eq .configConflict h t
  rw [decided]
  refine ⟨detaches.state, ?_, detaches.peers, fun active => ⟨detaches.keeper ?_, ?_⟩⟩
  · rw [detaches.errors, logError_status, shown.errors]
    rfl
  · have state := shown.state
    rw [logged]
    exact congrArg MState.hasTable (state.trans active)
  · have table : (logError .configConflict h t).table = t.table := by rw [logged]; rfl
    rw [detaches.table, table]
    exact clearEntries_of_kinds shown.kinds

/-- Elsewhere it is logged alone. -/
theorem Shown.foreign_logged (length : s.member.peers.length = 16) (peer : sender ≠ s.station) (h : Header)
    (kind : s.mismatchKind sender p = some .peerConfig) :
    let u := decideMismatch sender false (.presence p d) h t
    u.member.state = s.member.state ∧ u.errors.status = s.errors.status ||| 0x0004 ∧
      (u.peerAt sender).config = .mismatch := by
  intro u
  have decided : u = logError .peerConfig h t :=
    (shown.foreign_decides foreign kind h).trans (raise_of_not_fatal rfl _ _)
  have entry := shown.sender_entry length peer (by rintro ⟨⟩)
  have member : u.member = t.member := by rw [decided, logError_eq]; rfl
  refine ⟨?_, ?_, ?_⟩
  · rw [member, shown.state]
  · rw [decided, logError_status, shown.errors]
    rfl
  · rw [State.peerAt, member]
    refine (congrArg Peer.config entry).trans ?_
    exact if_neg foreign

end

/-- R78's table of the states. -/
theorem mismatchKind_eq (s : State) (part : s.takesPart = true) (sender : Addr) (p : PresenceState) :
    (s.member.state = .listening ∨ (s.member.state = .joining ∧ p = .active) ∨
        (s.member.state = .active ∧ p = .active ∧ sender.toNat < s.station.toNat) →
      s.mismatchKind sender p = some .configConflict) ∧
    (¬ (s.member.state = .listening ∨ (s.member.state = .joining ∧ p = .active) ∨
        (s.member.state = .active ∧ p = .active ∧ sender.toNat < s.station.toNat)) →
      s.mismatchKind sender p = some .peerConfig) := by
  rw [State.takesPart] at part
  unfold State.mismatchKind
  cases state : s.member.state with
  | unconfigured | detached =>
    rw [state] at part
    cases part
  | listening | joining | leaving => cases p <;> simp
  | active =>
    cases p with
    | listening | joining => simp
    | active =>
      simp only [reduceCtorEq, false_and, false_or, true_and]
      exact ⟨fun below => if_pos below, fun above => if_neg above⟩

end Sys2Proof.Machine
end

