-- ==== Sys2Proof/Proofs/Dropout.lean ====
section
/-! PROOFS. A silent peer drops out (R69, R70, R91, R102). -/

namespace Sys2Proof.Machine

/-! ## The expiry of a dropout counter -/

theorem exec_dropoutExpiry (a : Addr) (s : State) : exec (.dropoutExpiry a) s = live (dropoutExpiry a) s := rfl

/-- The state in which an absent peer's expiry leaves the presence table and the service list. -/
def dropped (a : Addr) (s : State) : State :=
  setPeer a { s.peerAt a with state := .absent } (serviceRemove a s)

theorem dropped_eq {s : State} {a : Addr} (there : (s.peerAt a).state ≠ .absent) : dropped a s =
    ((s.withSnap { s.snap with service := s.snap.service.filter (fun r => r.1 != a) }).withMember
      { s.member with peers := s.member.peers.set a.toNat { s.peerAt a with state := .absent } }).withEvents
        { s.events with latched := s.events.latched ||| Event.peer.mask } := by
  have changes : ((s.peerAt a).state != .absent) = true := bne_iff_ne.2 there
  have set : (if ((serviceRemove a s).peerAt a).state != PeerState.absent then
      (serviceRemove a s).events.latched ||| Event.peer.mask else (serviceRemove a s).events.latched) =
        s.events.latched ||| Event.peer.mask := if_pos changes
  rw [dropped, setPeer_eq, set]
  rfl

section
variable {s : State} {a : Addr} (powered : s.powered = true)
include powered

theorem dropoutExpiry_stays (stays : (s.peerAt a).state = .absent ∨ (s.peerAt a).dropout ≠ 0 ∨ s.wantsEvict a = true) :
    exec (.dropoutExpiry a) s = .next s := by
  rw [exec_dropoutExpiry, live_on powered]
  exact congrArg _ (if_pos (.inr (.inr stays)))

variable (part : s.takesPart = true) (other : a ≠ s.station) (there : (s.peerAt a).state ≠ .absent)
  (silent : (s.peerAt a).dropout = 0) (unwanted : s.wantsEvict a = false)
include part other there silent unwanted

theorem dropoutExpiry_drops : exec (.dropoutExpiry a) s = .next
    (if (s.peerAt a).state = .active ∧ s.member.state = .active then
      (s.withSnap { s.snap with service := s.snap.service.filter (fun r => r.1 != a) }).withMember
        { s.member with evictWants := s.member.evictWants ++ [(a, .dropout)] }
    else watchDonor (dropped a s)) := by
  have drops : ¬ (s.takesPart = false ∨ a = s.station ∨ (s.peerAt a).state = .absent ∨ (s.peerAt a).dropout ≠ 0 ∨
      s.wantsEvict a = true) := by
    simp [part, other, there, silent, unwanted]
  rw [exec_dropoutExpiry, live_on powered]
  exact congrArg _ (if_neg drops)

end

/-- The chosen donor is looked at behind the dropout (R91). -/
theorem watchDonor_dropped {s u : State} {a : Addr} (snap : u.snap = { s.snap with
      service := s.snap.service.filter (fun r => r.1 != a) }) (line : u.line = s.line)
    (state : u.member.state = s.member.state) (config : u.config = s.config) (gone : u.eligible a = false)
    (others : ∀ b, b ≠ a → u.eligible b = s.eligible b) :
    (s.member.state ≠ .joining ∨ s.snap.engine ≠ .requesting ∨
        (∃ d i e, s.line.ownFrame = some ⟨.snapreq d i, e⟩) ∨ (a ≠ s.donorRef ∧ s.eligible s.donorRef = true) →
      watchDonor u = u) ∧
    (s.member.state = .joining → s.snap.engine = .requesting → (∀ d i e, s.line.ownFrame ≠ some ⟨.snapreq d i, e⟩) →
      a = s.donorRef →
      (∀ d, u.findDonor a = some d →
        watchDonor u = u.withSnap { u.snap with engine := .requesting, donor := some d, timer := none }) ∧
      (u.findDonor a = none →
        watchDonor u = u.withSnap { u.snap with engine := .seeking, timer := some (2 * s.presencePeriod) })) := by
  have ref : u.donorRef = s.donorRef := by rw [State.donorRef, snap, State.donorRef]
  have engine : u.snap.engine = s.snap.engine := by rw [snap]
  have period : u.presencePeriod = s.presencePeriod := by rw [State.presencePeriod, config, State.presencePeriod]
  constructor
  · intro settled
    refine watchDonor_of_other ?_
    rintro ⟨joining, requesting, off, lost⟩
    rw [state] at joining
    rw [engine] at requesting
    rcases settled with h | h | ⟨d, i, e, own⟩ | ⟨apart, eligible⟩
    · exact h joining
    · exact h requesting
    · rw [State.snapreqOnLine, line, own] at off
      cases off
    · rw [ref, others _ (Ne.symm apart), eligible] at lost
      cases lost
  · intro joining requesting off donor
    have offLine : u.snapreqOnLine = false := by
      rw [State.snapreqOnLine, line]
      split
      next d i e own => exact absurd own (off d i e)
      next => rfl
    have chooses : watchDonor u = chooseDonor a u := by
      rw [donor, ← ref]
      exact if_pos ⟨state.trans joining, engine.trans requesting, offLine, by rw [ref, ← donor]; exact gone⟩
    rw [chooses, ← period]
    exact ⟨fun d => chooseDonor_of_some, chooseDonor_of_none⟩

/-- Settles O54: what a peer's frame shows, and how a silent peer drops out. -/
theorem silentPeerDropsOut : Obligations.SilentPeerDropsOut := by
  refine ⟨?_, ?_⟩
  · intro s r f powered part tx hold wait length sound sender old newcomer shown running
    have peer : sender ≠ s.station := senderOf_ne_of_receiveCheck sound
    refine ⟨fun agrees evict digest joiner => ?_, ?_⟩
    · obtain ⟨t, next, taken⟩ := peerFrame_shown powered part tx hold wait sound evict digest joiner
      have matching : decideMismatch (senderOf r) false f (headerWhole r) t = t :=
        decideMismatch_of_match _ _ _ fun p d same => .inr ((agrees p d same).trans (by rw [taken.config]))
      rw [matching] at next
      have state : (∀ c, f ≠ .evict sender c) → shownState sender old.state f = shown := by
        intro other
        cases f with
        | evict g c => exact if_neg fun same : g = sender => other c (same ▸ rfl)
        | presence p d => cases p <;> rfl
        | _ => rfl
      refine ⟨t, next, taken.state, ?_, taken.errors, ?_, fun other => ⟨?_, fun changed => ?_⟩, ?_, fun p apart unnamed => ?_,
        taken.want, ?_, taken.listenTimer, ?_, taken.listening⟩
      · rw [taken.line]
        exact congrArg (fun x => ({ s.line with
          phase := .gap, recessive := 0, tx := x, begun := [], yielding := false, rfc := s.line.rfc - 1 } : Line)) tx.symm
      · rw [taken.member]
        rfl
      · have unnamed : f.target ≠ some sender := by
          cases f with
          | evict g c =>
            intro same
            cases same
            exact other c rfl
          | _ => exact nofun
        rw [taken.sender_entry length peer unnamed, ← state other]
        exact congrArg (fun m => ({
          state := shownState sender old.state f, dropout := s.dropoutTime, config := m
          digest := if shownState sender old.state f = .active ∧ old.state ≠ .active then .none else old.digest } : Peer))
          (shownMatch_of_agrees old.config agrees)
      · exact taken.peerEvent peer (by rw [state other]; exact changed)
      · rintro g c rfl
        exact taken.target_entry length peer rfl (by rintro rfl; exact evict c rfl)
      · refine taken.other_entry length apart ?_
        cases f with
        | evict g c =>
          intro same
          cases same
          exact unnamed c rfl
        | _ => exact nofun
      · rw [taken.seen, showsRunning_iff]
      · rw [taken.service]
        cases f with
        | snapreq d i => exact serviceAfter_snapreq s sender d i
        | presence p d => cases p <;> rfl
        | _ => rfl
    · rintro p d rfl foreign conflict
      obtain ⟨t, next, taken⟩ := peerFrame_shown powered part tx hold wait sound nofun nofun (fun _ => ⟨nofun, nofun⟩)
      obtain ⟨conflicts, logs⟩ := mismatchKind_eq s part sender p
      exact ⟨_, next, fun h => taken.foreign_conflict foreign part hold (headerWhole r) (conflicts h),
        fun h => taken.foreign_logged foreign length peer (headerWhole r) (logs h)⟩
  · intro s a powered part other length p served
    refine ⟨dropoutExpiry_stays powered, fun there silent unwanted => ?_⟩
    have drops := dropoutExpiry_drops powered part other there silent unwanted
    refine ⟨fun active active' => drops.trans (congrArg _ (if_pos ⟨active, active'⟩)), fun away => ?_⟩
    rw [if_neg (by rintro ⟨active, active'⟩; exact away.elim (fun h => h active) (fun h => h active'))] at drops
    have eq := dropped_eq there
    have base : (dropped a s).snap = served ∧ (dropped a s).line = s.line ∧
        (dropped a s).member = { s.member with peers := s.member.peers.set a.toNat { p with state := .absent } } ∧
        (dropped a s).config = s.config ∧ (dropped a s).station = s.station ∧
        (dropped a s).events = { s.events with latched := s.events.latched ||| 0x0020 } ∧ (dropped a s).table = s.table ∧
        (dropped a s).req = s.req ∧ (dropped a s).errors = s.errors := by
      rw [eq]
      exact ⟨rfl, rfl, rfl, rfl, rfl, rfl, rfl, rfl, rfl⟩
    generalize dropped a s = u at *
    obtain ⟨snap, line, member, config, station, events, table, req, errors⟩ := base
    have peers (b : Addr) : u.peerAt b = if b = a then { p with state := .absent } else s.peerAt b := by
      rw [State.peerAt, member]
      exact peer_getD_set length a b _
    have gone : u.eligible a = false := by
      refine Bool.eq_false_iff.2 fun eligible => ?_
      obtain ⟨_, active, _⟩ := State.eligible_iff.1 eligible
      rw [peers, if_pos rfl] at active
      cases active
    have others (b : Addr) (apart : b ≠ a) : u.eligible b = s.eligible b := by
      simp only [State.eligible, peers, if_neg apart, station]
    have state : u.member.state = s.member.state := by rw [member]
    obtain ⟨settled, chosen⟩ := watchDonor_dropped snap line state config gone others
    have only : ∃ x, watchDonor u = u.withSnap x ∧ x.service = u.snap.service := by
      unfold watchDonor
      split
      · cases found : u.findDonor u.donorRef with
        | some d => exact ⟨_, chooseDonor_of_some found, rfl⟩
        | none => exact ⟨_, chooseDonor_of_none found, rfl⟩
      · exact ⟨u.snap, rfl, rfl⟩
    have finds : (watchDonor u).findDonor = u.findDonor := by
      obtain ⟨x, same, _⟩ := only
      rw [same]
      rfl
    refine ⟨_, drops, ?_, ?_, ?_, ?_, ?_, ?_, ?_, ?_, ?_, ?_, fun still => ?_, fun joining requesting off donor => ?_⟩
    case refine_11 => rw [settled still, snap]
    case refine_12 =>
      obtain ⟨some, none⟩ := chosen joining requesting off donor
      rw [finds]
      refine ⟨fun d found => ?_, fun lost => ?_⟩
      · rw [some d found, snap]
        exact congrArg (fun e => ({ served with engine := e, donor := Option.some d, timer := Option.none } : Snap))
          requesting.symm
      · rw [none lost, snap]
        rfl
    all_goals
      obtain ⟨x, same, service⟩ := only
      rw [same]
    · exact (peers a).trans (if_pos rfl)
    · exact fun b apart => (peers b).trans (if_neg apart)
    · exact events
    · exact (congrArg Member.evictWants member : u.member.evictWants = _)
    · exact service.trans (congrArg Snap.service snap)
    · exact state
    · exact table
    · exact req
    · exact line
    · exact errors

end Sys2Proof.Machine
end

