-- ==== Sys2Proof/Proofs/RegisterFields.lean ====
section
/-! PROOFS. What the registers read, field by field (R181, R185, section 12.5). -/

namespace Sys2Proof.Machine

/-! ## Fields of a byte -/

/-- A field above another one. -/
theorem field_or_byteOf {low shift : Nat} (value : Nat) (below : low < 2 ^ shift) :
    field value shift ||| byteOf low = byteOf (value * 2 ^ shift + low) := by
  rw [field, byteOf, byteOf, ← BitVec.ofNat_or, Nat.mul_comm, ← Nat.two_pow_add_eq_or_of_lt below]
  rfl

theorem flagBit_eq (b : Bool) (n : Nat) : flagBit b n = field b.toNat n := by
  cases b <;> simp [flagBit, field, byteOf]

theorem field_zero (value : Nat) : field value 0 = byteOf value := congrArg byteOf (Nat.mul_one value)

theorem nibbles_eq {hi lo : Nat} (high : hi < 16) (low : lo < 16) : nibbles hi lo = byteOf (16 * hi + lo) := by
  rw [nibbles, byteOf, Nat.mod_eq_of_lt high, Nat.mod_eq_of_lt low, Nat.mul_comm]

theorem setWidth_eq {n : Nat} (x : BitVec n) : x.setWidth 8 = byteOf x.toNat :=
  BitVec.eq_of_toNat_eq (by simp [byteOf])

/-- The two bytes of a counter. -/
theorem bytes16_ofNat (n : Nat) : bytes16 (BitVec.ofNat 16 n) = [byteOf (n / 256), byteOf n] := by
  have high : (BitVec.ofNat 16 n).extractLsb' 8 8 = byteOf (n / 256) := by
    apply BitVec.eq_of_toNat_eq
    simp only [BitVec.extractLsb'_toNat, BitVec.toNat_ofNat, byteOf, Nat.shiftRight_eq_div_pow]
    omega
  have low : (BitVec.ofNat 16 n).extractLsb' 0 8 = byteOf n := by
    apply BitVec.eq_of_toNat_eq
    simp only [BitVec.extractLsb'_toNat, BitVec.toNat_ofNat, byteOf, Nat.shiftRight_eq_div_pow]
    omega
  rw [bytes16, high, low]

theorem bytes16_low (h : Half) : bytes16 h = [h.extractLsb' 8 8, byteOf h.toNat] := by
  have low : h.extractLsb' 0 8 = byteOf h.toNat := by
    apply BitVec.eq_of_toNat_eq
    simp [byteOf, BitVec.extractLsb'_toNat]
  rw [bytes16, low]

/-- The codes stay within their fields. -/
theorem code_bounds : (∀ e : Engine, e.code < 4) ∧ (∀ c : JoinCause, c.code < 4) ∧ (∀ p : Phase, p.code < 8) ∧
    (∀ l : LeaseState, l.code < 4) ∧ (∀ k : ReqKind, k.code < 16) ∧ (∀ d : DigestStatus, d.code < 4) ∧
    (∀ m : MatchState, m.code < 4) ∧ (∀ src : Source, src.code < 16) := by
  refine ⟨?_, ?_, ?_, ?_, ?_, ?_, ?_, ?_⟩
  case refine_8 =>
    rintro (_ | n)
    · exact Nat.zero_lt_succ 15
    · have : 8 + n.toNat < 16 := by omega
      exact this
  all_goals
    intro x
    cases x <;> decide

/-! ## The registers -/

theorem capability_vg418 {s : State} (grade : s.grade = .vg418) : s.capabilityBytes = [64, 0x84] := by
  rw [State.capabilityBytes, State.n, grade]
  decide

theorem capability_vg418l {s : State} (grade : s.grade = .vg418l) : s.capabilityBytes = [32, 0x42] := by
  rw [State.capabilityBytes, State.n, grade]
  decide

theorem membershipBytes_eq {s : State} (failures : s.snap.failures ≤ 3) : s.membershipBytes =
    [byteOf s.member.state.code, byteOf (64 * s.snap.engine.code + 16 * s.snap.failures + s.snap.cause.code),
      byteOf s.snap.cursor, match s.snap.donor with
        | none => 0x80
        | some a => byteOf a.toNat] := by
  obtain ⟨_, cause, _⟩ := code_bounds
  have cause := cause s.snap.cause
  have engine : field s.snap.engine.code 6 ||| field s.snap.failures 4 ||| byteOf s.snap.cause.code =
      byteOf (64 * s.snap.engine.code + 16 * s.snap.failures + s.snap.cause.code) := by
    rw [BitVec.or_assoc, field_or_byteOf _ (by omega), field_or_byteOf _ (by omega)]
    congr 1
    omega
  rw [State.membershipBytes, engine]
  cases s.snap.donor <;> rfl

/-- The header log holds the eight bytes of the payload. -/
theorem headerBytes_eq {h : Header} (length : h.payload.length = 8) : h.bytes =
    [h.origin.code, byteOf h.contention.toNat, byteOf h.kind.toNat, h.length] ++ h.payload := by
  have payload : (List.range 8).map (fun i => h.payload.getD i 0) = h.payload := by
    refine List.ext_getElem (by simp [length]) fun i hi _ => ?_
    have inside : i < h.payload.length := by simpa [length] using hi
    simp [inside]
  rw [Header.bytes, payload, setWidth_eq, setWidth_eq]

theorem leaseBytes_eq {l : Lease} (cls : l.cls ≤ 3) (length : l.tokens.length ≤ 4) : l.bytes =
    [byteOf (128 + 16 * l.cls + l.state.code), byteOf (16 * l.source.code + l.tokens.length)] ++
      (List.range 4).map (fun i => byteOf (l.tokens.getD i 0)) ++
      [byteOf l.units, l.tag, byteOf (l.counter / 256), byteOf l.counter] := by
  obtain ⟨_, _, _, state, _, _, _, source⟩ := code_bounds
  have state := state l.state
  have first : flagBit true 7 ||| field l.cls 4 ||| byteOf l.state.code = byteOf (128 + 16 * l.cls + l.state.code) := by
    rw [flagBit_eq, BitVec.or_assoc, field_or_byteOf _ (by omega), field_or_byteOf _ (by omega)]
    congr 1
    simp only [Bool.toNat_true]
    omega
  rw [Lease.bytes, first, nibbles_eq (source _) (by omega), bytes16_ofNat]
  rfl

theorem pendBytes_eq {e : PendEntry} (list : e.list.length ≤ 4) (progress : e.progress.length ≤ 4) (units : e.units < 16)
    (cls : e.cls < 16) : e.bytes = [byteOf (128 + e.phase.code), byteOf (16 * e.source.code + e.kind.code), e.tag,
      byteOf (e.origin.getD 0), byteOf (16 * e.list.length + e.progress.length)] ++
      (List.range 4).map (fun i => byteOf (e.list.getD i 0)) ++ [byteOf (16 * e.units + e.cls)] := by
  obtain ⟨_, _, phase, _, kind, _, _, source⟩ := code_bounds
  have phase := phase e.phase
  have first : flagBit true 7 ||| byteOf e.phase.code = byteOf (128 + e.phase.code) := by
    rw [flagBit_eq, field_or_byteOf _ (by omega)]
    congr 1
  rw [PendEntry.bytes, first, nibbles_eq (source _) (kind _), nibbles_eq (by omega) (by omega), nibbles_eq units cls]
  rfl

theorem peerBytes_eq (a : Addr) {p : Peer} (dropout : p.dropout < 1024) : p.bytes a = [byteOf a.toNat,
    byteOf (64 * p.state.code + 16 * p.config.code + 4 * p.digest.code + p.dropout / 256), byteOf p.dropout] := by
  obtain ⟨_, _, _, _, _, digest, config, _⟩ := code_bounds
  have digest := digest p.digest
  have config := config p.config
  have second : field p.state.code 6 ||| field p.config.code 4 ||| field p.digest.code 2 ||| byteOf (p.dropout / 256 % 4) =
      byteOf (64 * p.state.code + 16 * p.config.code + 4 * p.digest.code + p.dropout / 256) := by
    rw [BitVec.or_assoc, BitVec.or_assoc, field_or_byteOf _ (by omega), field_or_byteOf _ (by omega),
      field_or_byteOf _ (by omega)]
    congr 1
    omega
  rw [Peer.bytes, second]

/-- The own address reads the own state (R67). -/
theorem peerBytes_own (s : State) : (s.peerRead s.station).bytes s.station = [byteOf s.station.toNat,
    (match s.member.state with
      | .unconfigured | .detached => 0
      | .listening => 0x50
      | .joining => 0x90
      | .active | .leaving => 0xD0), 0] := by
  have read : (s.peerRead s.station).dropout = 0 := by rw [State.peerRead, if_pos rfl]
  rw [peerBytes_eq _ (by rw [read]; omega), State.peerRead, if_pos rfl, State.takesPart]
  cases s.member.state <;> rfl

theorem ctrlByte_eq (x : Slot) : x.ctrlByte = byteOf ((if x.state = .disabled ∨ x.stop = true then 0 else 128) +
    (if x.mode = .follow then 64 else 0) + 8 * x.source.toNat + x.code.toNat) := by
  have enable : x.enableRead.toNat * 2 ^ 7 = if x.state = .disabled ∨ x.stop = true then 0 else 128 := by
    cases stop : x.stop <;> by_cases off : x.state = .disabled <;> simp [Slot.enableRead, off, stop]
  have follow : (decide (x.mode = .follow)).toNat * 2 ^ 6 = if x.mode = .follow then 64 else 0 := by
    by_cases h : x.mode = .follow <;> simp [h]
  have bound : (decide (x.mode = .follow)).toNat ≤ 1 := Bool.toNat_le _
  rw [Slot.ctrlByte, flagBit_eq, flagBit_eq, BitVec.or_assoc, BitVec.or_assoc, field_or_byteOf _ (by omega),
    field_or_byteOf _ (by omega), field_or_byteOf _ (by omega), enable, follow]
  congr 1
  omega

theorem statusBytes_eq (x : Slot) : x.statusBytes = [byteOf (16 * x.state.code +
    (if x.state = .triggered then 8 else 0) + (if x.missed = true then 4 else 0) + (if x.stop = true then 2 else 0) +
    (if x.pin = true then 1 else 0)), byteOf x.cause.code] := by
  have flag (b : Bool) (k : Nat) : b.toNat * k = if b = true then k else 0 := by cases b <;> simp
  have bound (b : Bool) : b.toNat ≤ 1 := Bool.toNat_le b
  have trigger := bound x.triggerFlag
  have missed := bound x.missed
  have stop := bound x.stop
  have pin := bound x.pin
  have first : field x.state.code 4 ||| flagBit x.triggerFlag 3 ||| flagBit x.missed 2 ||| flagBit x.stop 1 |||
      flagBit x.pin 0 = byteOf (x.state.code * 2 ^ 4 + (x.triggerFlag.toNat * 2 ^ 3 + (x.missed.toNat * 2 ^ 2 +
        (x.stop.toNat * 2 ^ 1 + x.pin.toNat)))) := by
    simp only [flagBit_eq, field_zero, BitVec.or_assoc]
    rw [field_or_byteOf _ (by omega), field_or_byteOf _ (by omega), field_or_byteOf _ (by omega),
      field_or_byteOf _ (by omega)]
  have pinned : x.pin.toNat = if x.pin = true then 1 else 0 := by rw [← flag, Nat.mul_one]
  have triggered : (if x.triggerFlag = true then 8 else 0) = if x.state = .triggered then 8 else 0 := by
    simp [Slot.triggerFlag]
  rw [Slot.statusBytes, first]
  simp only [Nat.reducePow, flag, pinned, triggered]
  congr 2
  omega

end Sys2Proof.Machine
end

