-- ==== Sys2Proof/Proofs/RegisterReads.lean ====
section
/-! PROOFS. Read transactions through a register (R178). -/

namespace Sys2Proof.Machine

/-! ## A register's bytes -/

theorem length_regBytes {r : Reg} {base len : Nat} (h : (r, base, len) ∈ registerMap) (s : State) :
    (s.regBytes r).length = len := by
  rw [← bytes_of_mem h]
  cases r with
  | leaseView =>
    simp only [State.regBytes]
    cases s.leaseOf s.port.leaseSel.toNat <;> rfl
  | pendView =>
    simp only [State.regBytes]
    cases s.pendAt s.port.pendSel.toNat <;> rfl
  | slotCtrl | slotSpec | slotStatus =>
    simp only [State.regBytes, State.slotBytes]
    split <;> rfl
  | _ => rfl

theorem readRegister_of_mem {r : Reg} {base len : Nat} (h : (r, base, len) ∈ registerMap) {s : State}
    (answers : s.portOpen = true) {k : Nat} (hk : k < len) :
    s.readRegister (BitVec.ofNat 7 (base + k)) = (s.regBytes r).drop k := by
  have bounds := bounds_of_mem h
  have offset : (BitVec.ofNat 7 (base + k)).toNat - base = k := by
    rw [BitVec.toNat_ofNat]
    omega
  rw [State.readRegister, if_pos answers]
  simp only [registerAt_of_mem h hk, offset]

/-- A register's first address reads all of it. -/
theorem readRegister_base {r : Reg} {base len : Nat} (h : (r, base, len) ∈ registerMap) {s : State}
    (answers : s.portOpen = true) : s.readRegister (BitVec.ofNat 7 base) = s.regBytes r :=
  readRegister_of_mem h answers (bounds_of_mem h).1

/-- The map ends at 0x77. -/
theorem registerAt_beyond : ∀ a : BitVec 7, 0x78 ≤ a.toNat → registerAt a = none := by decide

theorem readRegister_beyond {s : State} (answers : s.portOpen = true) {a : BitVec 7} (beyond : 0x78 ≤ a.toNat) :
    s.readRegister a = [0] := by
  rw [State.readRegister, if_pos answers]
  simp only [registerAt_beyond a beyond]

/-- What the transaction itself holds is read at the completion window alone. -/
theorem regBytes_sameBut {s t : State} (same : s.sameButTransaction t) {r : Reg} (other : r ≠ .cmpData) :
    t.regBytes r = s.regBytes r := by
  unfold State.sameButTransaction at same
  rw [same]
  cases r with
  | cmpData => exact absurd rfl other
  | _ => rfl

/-! ## A read transaction -/

/-- The first byte that a transaction reads of a register captures the whole of it. -/
theorem readByte_first {r : Reg} {base len : Nat} (h : (r, base, len) ∈ registerMap) (other : r ≠ .cmpData) {s : State}
    (fresh : s.port.txn ≠ .read ∨ s.port.rd = none) {k : Nat} (hk : k < len) :
    readByte (BitVec.ofNat 7 (base + k)) s = (inTransaction .read (BitVec.ofNat 7 (base + k)) s).withPort
      { (inTransaction .read (BitVec.ofNat 7 (base + k)) s).port with
        addr := nextAddr (BitVec.ofNat 7 (base + k)), rd := some ⟨r.base, s.regBytes r⟩,
        sdo := some ((s.regBytes r).getD k 0) } := by
  have bounds := bounds_of_mem h
  have offset : (BitVec.ofNat 7 (base + k)).toNat - base = k := by
    rw [BitVec.toNat_ofNat]
    omega
  have window : BitVec.ofNat 7 (base + k) ≠ cmpDataAddr := by
    have all : ∀ x ∈ registerMap, x.1 ≠ .cmpData → ∀ k < x.2.2, BitVec.ofNat 7 (x.2.1 + k) ≠ cmpDataAddr := by decide
    exact all _ h other k hk
  have uncaptured : (inTransaction .read (BitVec.ofNat 7 (base + k)) s).port.rd = none := by
    unfold inTransaction
    split
    next same => exact fresh.resolve_left fun apart => apart same.1
    next => rfl
  have captured : (inTransaction .read (BitVec.ofNat 7 (base + k)) s).capture r = ⟨r.base, s.regBytes r⟩ := by
    rw [State.capture, uncaptured]
    exact congrArg (RegRead.mk r.base) (regBytes_sameBut (inTransaction_sameBut _ _ s) other)
  simp only [readByte, if_neg window, registerAt_of_mem h hk, captured, offset]

/-- A state within a read transaction that holds the capture of a register. -/
structure Reading (r : Reg) (base k : Nat) (bs : List Byte) (t : State) : Prop where
  answers : t.portOpen = true
  txn : t.port.txn = .read
  addr : t.port.addr = BitVec.ofNat 7 (base + k)
  capture : t.port.rd = some ⟨r.base, bs⟩

section
variable {r : Reg} {base len : Nat} (h : (r, base, len) ∈ registerMap) (plain : r ≠ .reqData ∧ r ≠ .cmpData)
include h plain

/-- The next byte comes from the capture. -/
theorem readByte_next {t : State} {bs : List Byte} {k : Nat} (reading : Reading r base k bs t) (hk : k < len) :
    readByte (BitVec.ofNat 7 (base + k)) t = t.withPort
      { t.port with addr := BitVec.ofNat 7 (base + (k + 1)), sdo := some (bs.getD k 0) } := by
  obtain ⟨request, completion⟩ := plain
  obtain ⟨_, txn, addr, capture⟩ := reading
  have bounds := bounds_of_mem h
  have offset : (BitVec.ofNat 7 (base + k)).toNat - base = k := by
    rw [BitVec.toNat_ofNat]
    omega
  have window : BitVec.ofNat 7 (base + k) ≠ cmpDataAddr := by
    have all : ∀ x ∈ registerMap, x.1 ≠ .cmpData → ∀ k < x.2.2, BitVec.ofNat 7 (x.2.1 + k) ≠ cmpDataAddr := by decide
    exact all _ h completion k hk
  have inside : inTransaction .read (BitVec.ofNat 7 (base + k)) t = t := if_pos ⟨txn, addr⟩
  have captured : t.capture r = ⟨r.base, bs⟩ := by
    rw [State.capture, capture]
    exact if_pos rfl
  have held : t.port.rd = some ⟨r.base, bs⟩ := capture
  simp only [readByte, inside, if_neg window, registerAt_of_mem h hk, captured, offset,
    nextAddr_of_mem h request completion hk]
  rw [← held]
  rfl

/-- The rest of a register is read through. -/
theorem readBytes_rest (m : Nat) {t : State} {bs : List Byte} {k : Nat} (reading : Reading r base k bs t)
    (length : bs.length = len) (rest : k + (m + 1) = len) :
    let x := readBytes (m + 1) (BitVec.ofNat 7 (base + k)) t
    x.1 = bs.drop k ∧ t.sameButTransaction x.2 ∧ x.2.port.sdo = x.1.getLast? ∧
      x.2.port.addr = BitVec.ofNat 7 (base + len) := by
  induction m generalizing t k with
  | zero =>
    intro x
    have inside : k < bs.length := by omega
    have next := readByte_next h plain reading (by omega : k < len)
    have reads : x = ([bs[k]], t.withPort
        { t.port with addr := BitVec.ofNat 7 (base + (k + 1)), sdo := some bs[k] }) := by
      simp only [x, readBytes, if_pos reading.answers, next, List.getD_eq_getElem _ _ inside]
      rfl
    have all : bs.drop k = [bs[k]] := by
      rw [List.drop_eq_getElem_cons inside, List.drop_eq_nil_of_le (by omega)]
    rw [reads, all, ← rest]
    exact ⟨rfl, withPort_sameBut t _ _ _ _ _ _, rfl, rfl⟩
  | succ m ih =>
    intro x
    have inside : k < bs.length := by omega
    have next := readByte_next h plain reading (by omega : k < len)
    set u := t.withPort { t.port with addr := BitVec.ofNat 7 (base + (k + 1)), sdo := some (bs.getD k 0) } with hu
    have reading' : Reading r base (k + 1) bs u := ⟨reading.answers, reading.txn, rfl, reading.capture⟩
    obtain ⟨bytes, same, sdo, addr⟩ := ih reading' (by omega)
    have reads : x = (bs[k] :: (readBytes (m + 1) (BitVec.ofNat 7 (base + (k + 1))) u).1,
        (readBytes (m + 1) (BitVec.ofNat 7 (base + (k + 1))) u).2) := by
      have address : u.port.addr = BitVec.ofNat 7 (base + (k + 1)) := rfl
      have driven : u.port.sdo = some bs[k] := by
        rw [hu, List.getD_eq_getElem _ _ inside]
        rfl
      have step : x = (u.port.sdo.toList ++ (readBytes (m + 1) u.port.addr u).1, (readBytes (m + 1) u.port.addr u).2) := by
        rw [← next]
        exact if_pos reading.answers
      rw [step, driven, address]
      rfl
    have more : (readBytes (m + 1) (BitVec.ofNat 7 (base + (k + 1))) u).1 ≠ [] := by
      rw [bytes]
      intro none
      have := List.drop_eq_nil_iff.1 none
      omega
    rw [reads]
    refine ⟨?_, (withPort_sameBut t _ _ _ _ _ _).andThen same, ?_, addr⟩
    · rw [bytes, List.drop_eq_getElem_cons inside]
    · rw [sdo, List.getLast?_cons_of_ne_nil more]

end

end Sys2Proof.Machine
end

