-- ==== Sys2Proof/Proofs/RegisterViews.lean ====
section
/-! PROOFS. What registers read, and how a read transaction goes (R178, R181, R185, section 12.5). -/

namespace Sys2Proof.Machine

section
variable {s : State} (answers : s.portOpen = true)
include answers

/-- The port goes on to take bytes in a read transaction. -/
theorem portOpen_reading {p : Port} (state : p.state = s.port.state) (txn : p.txn = .read) :
    (s.withPort p).portOpen = true := by
  simp only [State.portOpen, State.portAnswers, Bool.and_eq_true, decide_eq_true_eq] at answers ⊢
  obtain ⟨⟨powered, state'⟩, _⟩ := answers
  refine ⟨⟨powered, state.trans state'⟩, ?_⟩
  intro ignored
  cases txn.symm.trans ignored

/-- A transaction of one byte reads it. -/
theorem readBytes_one (a : BitVec 7) : readBytes 1 a s = ((readByte a s).port.sdo.toList, readByte a s) := by
  have reads : readBytes 1 a s = ((readByte a s).port.sdo.toList ++ [], readByte a s) := if_pos answers
  rw [reads, List.append_nil]

variable (fresh : s.port.txn ≠ .read ∨ s.port.rd = none)
include fresh

/-- A register is read through, from its first byte to its last. -/
theorem readBytes_register {r : Reg} {base len : Nat} (h : (r, base, len) ∈ registerMap) (other : r ≠ .cmpData) :
    let x := readBytes len (BitVec.ofNat 7 base) s
    x.1 = s.readRegister (BitVec.ofNat 7 base) ∧ s.sameButTransaction x.2 ∧ x.2.port.sdo = x.1.getLast? ∧
      x.2.port.addr = (if r = .reqData then 0x13 else BitVec.ofNat 7 (base + len)) := by
  intro x
  have length := length_regBytes h s
  have inside : 0 < (s.regBytes r).length := by rw [length]; exact (bounds_of_mem h).1
  have first := readByte_first h other fresh (bounds_of_mem h).1
  rw [Nat.add_zero, List.getD_eq_getElem _ _ inside] at first
  set v := inTransaction .read (BitVec.ofNat 7 base) s with hv
  have same : s.sameButTransaction v := inTransaction_sameBut _ _ s
  have base_v : v.port.txn = .read := inTransaction_txn _ _ _
  set u := v.withPort { v.port with
    addr := nextAddr (BitVec.ofNat 7 base), rd := some ⟨r.base, s.regBytes r⟩, sdo := some (s.regBytes r)[0] } with hu
  have same' : s.sameButTransaction u := same.andThen (withPort_sameBut v _ _ _ _ _ _)
  have answers' : u.portOpen = true := by
    unfold State.sameButTransaction at same'
    have portState : u.port.state = s.port.state := by rw [same']; rfl
    have opens := portOpen_reading answers (p := u.port) portState base_v
    have power : u.powered = s.powered := by rw [same']; rfl
    simp only [State.portOpen, State.portAnswers] at opens ⊢
    rw [power]
    exact opens
  rw [readRegister_base h answers]
  obtain ⟨m, rfl⟩ : ∃ m, len = m + 1 := ⟨len - 1, by have := (bounds_of_mem h).1; omega⟩
  cases m with
  | zero =>
    have reads : x = ([(s.regBytes r)[0]], u) := by
      rw [← first]
      have one := readBytes_one answers (BitVec.ofNat 7 base)
      rw [first] at one ⊢
      exact one
    have all : s.regBytes r = [(s.regBytes r)[0]] := by
      conv_lhs => rw [← List.drop_zero (l := s.regBytes r)]
      rw [List.drop_eq_getElem_cons inside, List.drop_eq_nil_of_le (by omega)]
    rw [reads]
    refine ⟨all.symm, same', rfl, ?_⟩
    have next : ∀ y ∈ registerMap, y.1 ≠ .cmpData → y.2.2 = 1 → nextAddr (BitVec.ofNat 7 y.2.1) =
        if y.1 = .reqData then 0x13 else BitVec.ofNat 7 (y.2.1 + y.2.2) := by decide
    exact next _ h other rfl
  | succ m =>
    have plain := window_of_mem h (by omega)
    have nextAddr' := nextAddr_of_mem h plain.1 plain.2 (bounds_of_mem h).1
    have reading : Reading r base 1 (s.regBytes r) u := ⟨answers', base_v, nextAddr', rfl⟩
    obtain ⟨bytes, rest, sdo, addr⟩ := readBytes_rest h plain m reading length (by omega)
    have reads : x = ((s.regBytes r)[0] :: (readBytes (m + 1) (BitVec.ofNat 7 (base + 1)) u).1,
        (readBytes (m + 1) (BitVec.ofNat 7 (base + 1)) u).2) := by
      have step : x = ((readByte (BitVec.ofNat 7 base) s).port.sdo.toList ++
          (readBytes (m + 1) (readByte (BitVec.ofNat 7 base) s).port.addr (readByte (BitVec.ofNat 7 base) s)).1,
          (readBytes (m + 1) (readByte (BitVec.ofNat 7 base) s).port.addr (readByte (BitVec.ofNat 7 base) s)).2) :=
        if_pos answers
      have address : u.port.addr = BitVec.ofNat 7 (base + 1) := nextAddr'
      rw [step, first, address]
      rfl
    have more : (readBytes (m + 1) (BitVec.ofNat 7 (base + 1)) u).1 ≠ [] := by
      rw [bytes]
      intro none
      have := List.drop_eq_nil_iff.1 none
      omega
    rw [reads]
    refine ⟨?_, same'.andThen rest, ?_, ?_⟩
    · rw [bytes]
      conv_rhs => rw [← List.drop_zero (l := s.regBytes r), List.drop_eq_getElem_cons inside]
    · rw [sdo, List.getLast?_cons_of_ne_nil more]
    · rw [addr, if_neg plain.1]

/-- One byte at any address but the completion window. -/
theorem readBytes_one_register {a : BitVec 7} (other : a ≠ 0x15) :
    (readBytes 1 a s).1 = (s.readRegister a).take 1 := by
  rw [readBytes_one answers]
  cases there : registerAt a with
  | none =>
    have reads : (readByte a s).port.sdo = some 0 := by
      simp only [readByte, there]
      rw [if_neg (show a ≠ cmpDataAddr from other)]
      rfl
    rw [reads, State.readRegister, if_pos answers]
    simp only [there]
    rfl
  | some x =>
    obtain ⟨r, base, len⟩ := x
    obtain ⟨h, low, high⟩ := mem_of_registerAt there
    have window : r ≠ .cmpData := by
      rintro rfl
      have only : ∀ y ∈ registerMap, y.1 = .cmpData → y.2 = (0x15, 1) := by decide
      have place := only _ h rfl
      obtain ⟨rfl, rfl⟩ : base = 0x15 ∧ len = 1 := ⟨congrArg Prod.fst place, congrArg Prod.snd place⟩
      have address : a.toNat = (0x15 : BitVec 7).toNat := Nat.le_antisymm (Nat.lt_succ_iff.1 high) low
      exact other (BitVec.eq_of_toNat_eq address)
    obtain ⟨k, offset⟩ : ∃ k, a.toNat = base + k := ⟨a.toNat - base, by omega⟩
    have hk : k < len := by omega
    obtain rfl : a = BitVec.ofNat 7 (base + k) := by rw [← offset, BitVec.ofNat_toNat, BitVec.setWidth_eq]
    have inside : k < (s.regBytes r).length := by rw [length_regBytes h]; exact hk
    rw [readByte_first h window fresh hk, readRegister_of_mem h answers hk, List.getD_eq_getElem _ _ inside,
      List.drop_eq_getElem_cons inside]
    rfl

omit fresh in
/-- The address moves on from 0x7F to 0x00. -/
theorem readBytes_wraps : (readBytes 2 0x7F s).1 = [0, 0x6B] := by
  set v := inTransaction .read 0x7F s with hv
  have same : s.sameButTransaction v := inTransaction_sameBut _ _ s
  have first : readByte 0x7F s = v.withPort { v.port with addr := 0x00, rd := none, sdo := some 0 } := rfl
  set u := v.withPort { v.port with addr := 0x00, rd := none, sdo := some 0 } with hu
  have txn : u.port.txn = .read := inTransaction_txn _ _ _
  have answers' : u.portOpen = true := by
    have same' : s.sameButTransaction u := same.andThen (withPort_sameBut v _ _ _ _ _ _)
    unfold State.sameButTransaction at same'
    have portState : u.port.state = s.port.state := by rw [same']; rfl
    have opens := portOpen_reading answers (p := u.port) portState txn
    have power : u.powered = s.powered := by rw [same']; rfl
    simp only [State.portOpen, State.portAnswers] at opens ⊢
    rw [power]
    exact opens
  have step : readBytes 2 0x7F s = ((readByte 0x7F s).port.sdo.toList ++
      (readBytes 1 (readByte 0x7F s).port.addr (readByte 0x7F s)).1,
      (readBytes 1 (readByte 0x7F s).port.addr (readByte 0x7F s)).2) := if_pos answers
  have wraps : u.port.addr = BitVec.ofNat 7 0 := rfl
  have id : (Reg.id, 0, 2) ∈ registerMap := by decide
  have next := readBytes_one_register answers' (.inr rfl) (a := BitVec.ofNat 7 0) (by decide)
  rw [readRegister_base id answers'] at next
  rw [step, first, wraps]
  simp only [next]
  rfl

omit answers fresh in
/-- The second byte of EVENT comes from the capture that the first byte took. -/
theorem event_captured (fresh : s.port.txn ≠ .read ∨ s.port.rd = none) {u : State}
    (port : u.port = (readByte 0x0C s).port) (open_ : u.portOpen = true) :
    (readByte 0x0D u).port.sdo = some (byteOf s.eventWord.toNat) := by
  have event : (Reg.event, 0x0C, 2) ∈ registerMap := by decide
  have first := readByte_first event (by decide) fresh (k := 0) (by decide)
  have held : Reading .event 0x0C 1 (s.regBytes .event) u := by
    have port' := port.trans (congrArg State.port first)
    refine ⟨open_, ?_, ?_, ?_⟩
    · rw [port']
      exact inTransaction_txn _ _ _
    · rw [port']
      rfl
    · rw [port']
      rfl
  have second := readByte_next event (by decide) held (by decide)
  have bytes : s.regBytes .event = [s.eventWord.extractLsb' 8 8, byteOf s.eventWord.toNat] := bytes16_low _
  rw [bytes] at second
  exact congrArg (fun t : State => t.port.sdo) second

end

/-! ## The registers of the obligation -/

theorem slotBytes_absent {s : State} {n : Nat} {f : Slot → List Byte} (grade : s.grade = .vg418l) (beyond : 2 ≤ s.port.slotSel.toNat) :
    s.slotBytes n f = List.replicate n 0 := by
  have absent : s.slotExists s.port.slotSel = false := by
    rw [State.slotExists, grade]
    exact decide_eq_false (by simp [Grade.slots]; omega)
  rw [State.slotBytes, absent]
  rfl

/-- Settles O14: the registers, and how a read transaction goes through them. -/
theorem registerReads : Obligations.RegisterReads := by
  intro s b8 toks
  refine ⟨fun closed a n => ⟨?_, ?_⟩, fun answers => ?_⟩
  · rw [State.readRegister, closed]
    rfl
  · cases n with
    | zero => rfl
    | succ n =>
      have none : readBytes (n + 1) a s = ([], passBy s) := if_neg (by simp [closed])
      rw [none]
  have reads (r : Reg) (a : BitVec 7) (h : (r, a.toNat, r.bytes) ∈ registerMap) : s.readRegister a = s.regBytes r := by
    have whole := readRegister_base h answers
    rw [BitVec.ofNat_toNat, BitVec.setWidth_eq] at whole
    exact whole
  refine ⟨fun grade => ?_, fun grade => ?_, fun a beyond => readRegister_beyond answers beyond, ?_, ?_, ?_, ?_, ?_,
    fun failures => ?_, fun length => ?_, fun none => ?_, fun l present cls length => ?_, fun none => ?_,
    fun e present list progress units cls => ?_, ⟨fun peer dropout => ?_, fun own => ?_⟩,
    ⟨fun grade beyond => ⟨?_, ?_, ?_⟩, fun there => ⟨?_, ?_, ?_⟩⟩, fun fresh => ⟨fun r base len h other => ?_,
      fun a other => ?_, ?_, fun u open_ port => ?_⟩⟩
  · exact (reads .capability 0x02 (by decide)).trans (capability_vg418 grade)
  · exact (reads .capability 0x02 (by decide)).trans (capability_vg418l grade)
  · exact (reads .station 0x04 (by decide)).trans (congrArg (fun b => [b]) (setWidth_eq _))
  · exact reads .rfc 0x17 (by decide)
  · exact reads .tfc 0x18 (by decide)
  · exact reads .cmpCount 0x16 (by decide)
  · have event : (Reg.event, 0x0C, 2) ∈ registerMap := by decide
    have second := readRegister_of_mem event answers (k := 1) (by decide)
    have bytes : s.regBytes .event = [s.eventWord.extractLsb' 8 8, byteOf s.eventWord.toNat] := bytes16_low _
    rw [bytes] at second
    exact second
  · refine (reads .membership 0x05 (by decide)).trans ((membershipBytes_eq failures).trans ?_)
    cases s.snap.donor <;> rfl
  · exact (reads .errHeader 0x1E (by decide)).trans (headerBytes_eq length)
  · refine (reads .leaseView 0x33 (by decide)).trans ?_
    simp only [State.regBytes, none]
    rfl
  · refine (reads .leaseView 0x33 (by decide)).trans ?_
    simp only [State.regBytes, present]
    exact leaseBytes_eq cls length
  · refine (reads .pendView 0x3E (by decide)).trans ?_
    simp only [State.regBytes, none]
    rfl
  · refine (reads .pendView 0x3E (by decide)).trans ?_
    simp only [State.regBytes, present]
    exact pendBytes_eq list progress units cls
  · refine (reads .peerView 0x49 (by decide)).trans ?_
    have entry : s.peerRead s.port.peerSel = s.peerAt s.port.peerSel := if_neg peer
    simp only [State.regBytes, entry]
    exact peerBytes_eq _ dropout
  · refine (reads .peerView 0x49 (by decide)).trans ?_
    have own : s.port.peerSel = s.station := own
    simp only [State.regBytes, own]
    refine (peerBytes_own s).trans ?_
    cases s.member.state <;> rfl
  · exact (reads .slotCtrl 0x4D (by decide)).trans (slotBytes_absent (n := 1) (f := fun x => [x.ctrlByte]) grade beyond)
  · exact (reads .slotSpec 0x4E (by decide)).trans (slotBytes_absent (n := 8) (f := fun x => x.spec.bytes) grade beyond)
  · exact (reads .slotStatus 0x56 (by decide)).trans (slotBytes_absent grade beyond)
  · exact (reads .slotCtrl 0x4D (by decide)).trans ((if_pos there).trans (congrArg (fun b => [b]) (ctrlByte_eq _)))
  · exact (reads .slotSpec 0x4E (by decide)).trans (if_pos there)
  · exact (reads .slotStatus 0x56 (by decide)).trans ((if_pos there).trans (statusBytes_eq _))
  · exact readBytes_register answers fresh h other
  · exact readBytes_one_register answers fresh other
  · exact readBytes_wraps answers
  · exact event_captured fresh port open_

end Sys2Proof.Machine
end

