-- ==== Sys2Proof/Proofs/Sizes.lean ====
section
/-! PROOFS. The sizes of the Request Unit's collections and the places (R132 to R137), operation by operation:
`Fits k j s` is a state with room for k more places and j more outgoing frames. -/

namespace Sys2Proof.Machine

/-! ## Sums over the lease records and the pending table -/

/-- The sum of weights over the pending table. -/
def pendWeight (h : PendEntry → Nat) (p : List (Option PendEntry)) : Nat := (p.map (fun e => e.elim 0 h)).sum

/-- The sum of weights over the lease records and the pending table. -/
def State.weigh (s : State) (g : Lease → Nat) (h : PendEntry → Nat) : Nat :=
  (s.leases.map g).sum + pendWeight h s.req.pend

theorem pendWeight_set (h : PendEntry → Nat) (p : List (Option PendEntry)) (n : Nat) (e : Option PendEntry)
    (hn : n < p.length) :
    pendWeight h (p.set n e) + (p.getD n none).elim 0 h = pendWeight h p + e.elim 0 h := by
  induction p generalizing n with
  | nil => simp at hn
  | cons a p ih =>
    cases n with
    | zero => simp [pendWeight]; omega
    | succ n =>
      have := ih n (by simpa using hn)
      simp only [pendWeight, List.set_cons_succ, List.map_cons, List.sum_cons, List.getD_cons_succ] at this ⊢
      omega

theorem le_pendWeight {s : State} {n : Nat} {e : PendEntry} (h : PendEntry → Nat) (he : s.pendAt n = some e) :
    h e ≤ pendWeight h s.req.pend := by
  have hn := pendAt_lt he
  have moved := pendWeight_set h s.req.pend n none hn
  rw [show s.req.pend.getD n none = some e from he] at moved
  simp only [Option.elim] at moved
  omega

/-- The weights after a number of the pending table is written. -/
theorem weigh_setPend {s : State} {n : Nat} (e : Option PendEntry) (g : Lease → Nat) (h : PendEntry → Nat)
    (hn : n < s.req.pend.length) :
    (setPend n e s).weigh g h + (s.pendAt n).elim 0 h = s.weigh g h + e.elim 0 h := by
  have := pendWeight_set h s.req.pend n e hn
  simp only [State.weigh, setPend, State.pendAt, State.withReq] at this ⊢
  omega

/-- The entry that completes leaves the pending table. -/
theorem weigh_finishEntry {s : State} {n : Nat} {e : PendEntry} (c : Completion) (g : Lease → Nat)
    (h : PendEntry → Nat) (he : s.pendAt n = some e) :
    (finishEntry n c s).weigh g h + h e = s.weigh g h := by
  have := weigh_setPend none g h (pendAt_lt he)
  rw [he] at this
  exact this

theorem findIdx_isNone_getD (p : List (Option PendEntry)) : p.getD (p.findIdx (fun e => e.isNone)) none = none := by
  induction p with
  | nil => rfl
  | cons a p ih =>
    cases a with
    | none => simp [List.findIdx_cons]
    | some e => simpa [List.findIdx_cons] using ih

/-- A new entry adds its weight, where a number is free. -/
theorem weigh_addPend_le (e : PendEntry) (s : State) (g : Lease → Nat) (h : PendEntry → Nat) :
    (addPend e s).weigh g h ≤ s.weigh g h + h e := by
  unfold addPend
  by_cases hn : s.freePend < s.req.pend.length
  · have := weigh_setPend (some e) g h hn
    have free : s.pendAt s.freePend = none := findIdx_isNone_getD s.req.pend
    rw [free] at this
    simp only [Option.elim] at this
    omega
  · have same : setPend s.freePend (some e) s = s := by
      unfold setPend
      rw [List.set_eq_of_length_le (by omega)]
      rfl
    rw [same]
    omega

theorem sum_insertLease (g : Lease → Nat) (l : Lease) (ls : List Lease) :
    ((insertLease l ls).map g).sum = g l + (ls.map g).sum := by
  induction ls with
  | nil => simp [insertLease]
  | cons x ls ih =>
    unfold insertLease
    split
    · simp
    · simp only [List.map_cons, List.sum_cons, ih]; omega

theorem pendCount_eq (s : State) : s.pendCount = pendWeight (fun _ => 1) s.req.pend := by
  unfold State.pendCount pendWeight
  induction s.req.pend with
  | nil => rfl
  | cons a p ih => cases a <;> simp [ih]; omega

/-! ## Slots -/

theorem countP_modify (p : Slot → Bool) (f : Slot → Slot) (xs : List Slot) (n : Nat) (d : Slot)
    (hn : n < xs.length) :
    (xs.modify n f).countP p + (if p (xs.getD n d) then 1 else 0) =
      xs.countP p + (if p (f (xs.getD n d)) then 1 else 0) := by
  induction xs generalizing n with
  | nil => simp at hn
  | cons x xs ih =>
    cases n with
    | zero => simp [List.countP_cons]; omega
    | succ n =>
      have := ih n (by simpa using hn)
      simp only [List.modify_succ_cons, List.countP_cons, List.getD_cons_succ] at this ⊢
      omega

theorem slotPlaces_modifySlot {s : State} (n : BitVec 2) (f : Slot → Slot) (hs : s.slots.length = 4) :
    (modifySlot n f s).slotPlaces + (if (s.slotAt n).heldPlace then 1 else 0) =
      s.slotPlaces + (if (f (s.slotAt n)).heldPlace then 1 else 0) := by
  have := countP_modify (fun x => x.heldPlace) f s.slots n.toNat (Slot.initial false) (by
    have := n.isLt; omega)
  simp only [List.countP_eq_length_filter] at this
  exact this

theorem mem_modify {f : Slot → Slot} {xs : List Slot} {n : Nat} {d y : Slot} (h : y ∈ xs.modify n f) :
    y ∈ xs ∨ (n < xs.length ∧ y = f (xs.getD n d)) := by
  obtain ⟨i, hi⟩ := List.mem_iff_getElem?.1 h
  rw [List.getElem?_modify] at hi
  cases hx : xs[i]? with
  | none => simp [hx] at hi
  | some x =>
    rw [hx] at hi
    by_cases hn : n = i
    · subst hn
      have hl : n < xs.length := (List.getElem?_eq_some_iff.1 hx).1
      refine .inr ⟨hl, ?_⟩
      simp at hi
      simp [List.getD, hx, hi]
    · simp [hn] at hi
      exact .inl (hi ▸ List.mem_of_getElem? hx)

/-! ## Room in the collections -/

/-- A slot with a claim under way or held has its place. -/
def Slot.hasPlace (x : Slot) : Prop :=
  x.state = .claiming ∨ x.state = .withdrawing ∨ x.state = .held → x.heldPlace = true

/-- The collections of the units are within their sizes, with room for k places and j outgoing frames. -/
structure Fits (k j : Nat) (s : State) : Prop where
  fifo : s.req.fifo.length ≤ Config.reqFifoDepth
  outgoing : s.req.outgoing.length + j ≤ Config.outgoingDepth
  asm : s.req.asm.length ≤ 7
  pend : s.req.pend.length = 16
  slots : s.slots.length = 4
  reserved : s.reserved + k ≤ Config.places
  places : ∀ x ∈ s.slots, x.hasPlace
  leases : (s.leases.map Lease.first).Pairwise (· ≤ ·)

namespace Fits

variable {s t : State} {k j k' j' : Nat}

/-- Room may be left unused. -/
theorem mono (h : Fits k j s) (hk : k' ≤ k) (hj : j' ≤ j) : Fits k' j' s :=
  ⟨h.fifo, Nat.le_trans (Nat.add_le_add_left hj _) h.outgoing, h.asm, h.pend, h.slots,
    Nat.le_trans (Nat.add_le_add_left hk _) h.reserved, h.places, h.leases⟩

theorem of_same (h : Fits k j s) (hl : t.leases = s.leases) (hr : t.req = s.req) (hs : t.slots = s.slots) :
    Fits k j t := by
  refine ⟨hr ▸ h.fifo, hr ▸ h.outgoing, hr ▸ h.asm, hr ▸ h.pend, hs ▸ h.slots, ?_, hs ▸ h.places, hl ▸ h.leases⟩
  have := h.reserved
  simpa only [State.reserved, State.pendCount, State.slotPlaces, hr, hs] using this

/-- A change of the pending table, the completions, the outgoing list and the FIFO within their sizes. -/
theorem of_req (h : Fits k j s) (r : Requests) (hf : r.fifo.length ≤ Config.reqFifoDepth)
    (ho : r.outgoing.length + j' ≤ Config.outgoingDepth) (ha : r.asm.length ≤ 7) (hp : r.pend.length = 16)
    (hw : pendWeight (fun _ => 1) r.pend + r.cmp.length + k' ≤
      pendWeight (fun _ => 1) s.req.pend + s.req.cmp.length + k) : Fits k' j' (s.withReq r) := by
  refine ⟨hf, ho, ha, hp, h.slots, ?_, h.places, h.leases⟩
  have := h.reserved
  simp only [State.reserved, pendCount_eq] at this ⊢
  change pendWeight _ r.pend + r.cmp.length + s.slotPlaces + k' ≤ _
  omega

theorem slot_place (h : Fits k j s) (n : BitVec 2) : (s.slotAt n).hasPlace := h.places _ (slotAt_mem n h.slots)

theorem setEvent (h : Fits k j s) (e : Event) : Fits k j (setEvent e s) := h.of_same rfl rfl rfl
theorem setEventIf (h : Fits k j s) (c : Bool) (e : Event) : Fits k j (setEventIf c e s) := by
  rw [setEventIf_eq]; exact h.of_same rfl rfl rfl

theorem pushCompletion (h : Fits (k + 1) j s) (c : Completion) : Fits k j (pushCompletion c s) :=
  h.of_req _ h.fifo h.outgoing h.asm h.pend (by simp; omega)

/-- The place of an entry passes to its completion (R133). -/
theorem finishEntry (h : Fits k j s) {n : Nat} {e : PendEntry} (c : Completion) (he : s.pendAt n = some e) :
    Fits k j (finishEntry n c s) := by
  have freed := pendWeight_set (fun _ => 1) s.req.pend n none (pendAt_lt he)
  rw [show s.req.pend.getD n none = some e from he] at freed
  simp only [Option.elim] at freed
  rw [finishEntry_eq]
  exact h.of_req _ h.fifo h.outgoing h.asm (by simpa using h.pend) (by
    simp only [List.length_append, List.length_singleton]
    omega)

theorem setPend_some (h : Fits k j s) {n : Nat} {e : PendEntry} (e' : PendEntry) (he : s.pendAt n = some e) :
    Fits k j (setPend n (some e') s) := by
  have same := pendWeight_set (fun _ => 1) s.req.pend n (some e') (pendAt_lt he)
  rw [show s.req.pend.getD n none = some e from he] at same
  simp only [Option.elim] at same
  exact h.of_req { s.req with pend := s.req.pend.set n (some e') } h.fifo h.outgoing h.asm (by simpa using h.pend) (by
    dsimp only
    omega)

theorem addPend (h : Fits (k + 1) j s) (e : PendEntry) : Fits k j (addPend e s) := by
  have grown := weigh_addPend_le e s (fun _ => 0) (fun _ => 1)
  simp only [State.weigh] at grown
  exact h.of_req _ h.fifo h.outgoing h.asm (by simpa using h.pend) (by
    change pendWeight (fun _ => 1) (Machine.addPend e s).req.pend + s.req.cmp.length + k ≤ _
    have same : (Machine.addPend e s).leases = s.leases := rfl
    rw [same] at grown
    omega)

theorem addOutgoing (h : Fits k (j + 1) s) (f : OutFrame) : Fits k j (addOutgoing f s) :=
  h.of_req _ h.fifo (by have := h.outgoing; simp; omega) h.asm h.pend (Nat.le_refl _)

theorem removeOutgoing (h : Fits k j s) (p : OutFrame → Bool) : Fits k j (removeOutgoing p s) :=
  h.of_req _ h.fifo (by
    have := h.outgoing
    have := List.length_filter_le (fun f => !p f) s.req.outgoing
    simp only; omega) h.asm h.pend (Nat.le_refl _)

theorem modifySlot (h : Fits k j s) (n : BitVec 2) (f : Slot → Slot) (hp : (f (s.slotAt n)).hasPlace)
    (hk : k' + (if (f (s.slotAt n)).heldPlace then 1 else 0) ≤ k + (if (s.slotAt n).heldPlace then 1 else 0)) :
    Fits k' j (modifySlot n f s) := by
  refine ⟨h.fifo, h.outgoing, h.asm, h.pend, ?_, ?_, fun x hx => ?_, h.leases⟩
  · rw [Machine.modifySlot, State.withSlots]; simpa using h.slots
  · have moved := slotPlaces_modifySlot n f h.slots
    have := h.reserved
    simp only [State.reserved] at this ⊢
    change s.pendCount + s.req.cmp.length + _ + k' ≤ _
    omega
  · rcases mem_modify (d := Slot.initial false) hx with hx | ⟨_, rfl⟩
    · exact h.places x hx
    · exact hp

/-- A change of a slot that neither takes nor gives a place. -/
theorem modifySlot_keep (h : Fits k j s) (n : BitVec 2) (f : Slot → Slot)
    (hh : ∀ x, (f x).heldPlace = x.heldPlace) (hp : (s.slotAt n).hasPlace → (f (s.slotAt n)).hasPlace) :
    Fits k j (Machine.modifySlot n f s) :=
  h.modifySlot n f (hp (h.slot_place n)) (by rw [hh])

theorem slotEvent (h : Fits k j s) (n : BitVec 2) (c : SlotCause) : Fits k j (slotEvent n c s) :=
  (h.modifySlot_keep n (fun x => { x with cause := c }) (fun _ => rfl) id).setEvent _

theorem slotReturn (h : Fits k j s) (n : BitVec 2) (expired : Bool) : Fits k j (slotReturn n expired s) := by
  have back : Fits k j (Machine.modifySlot n Slot.returned s) := by
    refine h.modifySlot n _ ?_ (by simp [Slot.returned])
    simp only [Slot.returned, Slot.hasPlace]
    split <;> simp
  unfold Machine.slotReturn
  cases expired
  · exact back
  · exact back.slotEvent n .expired

theorem slotTrigger (h : Fits k j s) (n : BitVec 2) : Fits k j (slotTrigger n s) := by
  unfold Machine.slotTrigger
  split
  · exact h
  · exact h.modifySlot_keep n _ (fun _ => rfl) (fun _ => by simp [Slot.hasPlace])
  all_goals exact (h.modifySlot_keep n (fun x => { x with missed := true }) (fun _ => rfl) id).slotEvent n .missed

theorem triggerWhere (h : Fits k j s) (c : Slot → Bool) (l : List (BitVec 2)) : Fits k j (triggerWhere c l s) := by
  induction l generalizing s with
  | nil => exact h
  | cons n l ih =>
    have first : Fits k j (if c (s.slotAt n) then Machine.slotTrigger n s else s) := by
      split
      · exact h.slotTrigger n
      · exact h
    exact ih first

/-! ## Leases -/

theorem withLeases (h : Fits k j s) (x : List Lease) (hx : (x.map Lease.first).Pairwise (· ≤ ·)) :
    Fits k j (s.withLeases x) :=
  ⟨h.fifo, h.outgoing, h.asm, h.pend, h.slots, h.reserved, h.places, hx⟩

theorem modifyLeases (h : Fits k j s) (p : Lease → Bool) (f : Lease → Lease) (hf : ∀ l, (f l).tokens = l.tokens) :
    Fits k j (modifyLeases p f s) := by
  refine h.withLeases _ ?_
  have same : ∀ l, (if p l then f l else l).first = l.first := fun l => by
    split
    · simp only [Lease.first, hf]
    · rfl
  simpa only [List.map_map, Function.comp_def, same] using h.leases

theorem insertLease_sorted (l : Lease) (ls : List Lease) (h : (ls.map Lease.first).Pairwise (· ≤ ·)) :
    ((insertLease l ls).map Lease.first).Pairwise (· ≤ ·) := by
  rw [List.pairwise_map] at h ⊢
  induction ls with
  | nil => simp [insertLease]
  | cons x ls ih =>
    obtain ⟨hx, hs⟩ := List.pairwise_cons.1 h
    unfold insertLease
    split
    · rename_i hlt
      refine List.pairwise_cons.2 ⟨fun y hy => ?_, h⟩
      rcases List.mem_cons.1 hy with rfl | hy
      · omega
      · have := hx y hy; omega
    · rename_i hge
      refine List.pairwise_cons.2 ⟨fun y hy => ?_, ih hs⟩
      rcases (mem_insertLease _).1 hy with rfl | hy
      · omega
      · exact hx y hy

theorem createLease (h : Fits k j s) (l : List Nat) (u c : Nat) (src : Source) (tag : Byte) :
    Fits k j (createLease l u c src tag s) := by
  unfold Machine.createLease
  split
  · exact h.withLeases _ (insertLease_sorted _ _ h.leases)
  · exact (h.withLeases _ (insertLease_sorted _ _ h.leases)).setEventIf _ _

theorem expireLease (h : Fits k j s) (x : Nat) : Fits k j (expireLease x s) := by
  unfold Machine.expireLease
  split
  · exact h
  · rename_i l _
    have expired := (h.modifyLeases (fun l => l.names x)
      (fun l => { l with state := .expiredPending, counter := 0 }) (fun _ => rfl)).setEvent .leaseExpired
    cases l.source with
    | host => exact expired
    | slot n =>
      refine expired.modifySlot_keep n _ (fun x => by split <;> rfl) (fun hp => ?_)
      split
      · simp [Slot.hasPlace]
      · exact hp

theorem settleLeases (h : Fits k j s) : Fits k j (settleLeases s) := by
  have fold : ∀ (ls : List Lease) (t : State), Fits k j t →
      Fits k j (ls.foldl (fun t l => Machine.expireLease l.first t) t) := by
    intro ls
    induction ls with
    | nil => exact fun _ ht => ht
    | cons l ls ih => exact fun t ht => ih _ (ht.expireLease _)
  exact fold _ s h

/-! ## The ends of a claim -/

theorem finishCancel (h : Fits k j s) (o : Nat) (st : Status) : Fits k j (finishCancel o st s) := by
  unfold Machine.finishCancel
  split
  · exact h
  · split
    · exact h
    · rename_i he
      exact h.finishEntry _ he

/-- The place that the slot holds goes to the RELEASING entry (R126). -/
theorem slotRelease (h : Fits k j s) (n : BitVec 2) (hp : (s.slotAt n).heldPlace = true) :
    Fits k j (slotRelease n s) := by
  have released (t : State) (k : Nat) (ht : Fits k j t) : Fits k j (Machine.modifySlot n
      (fun x => { x with state := .releasing, gnt := false }) t) :=
    ht.modifySlot_keep n _ (fun _ => rfl) (fun _ => by simp [Slot.hasPlace])
  unfold Machine.slotRelease
  dsimp only
  split
  · exact released s k h
  · rename_i l _
    split
    · exact released s k h
    · set t := Machine.modifyLeases (fun x => x.names l.first) Lease.releasing s with ht
      have leased : Fits k j t := h.modifyLeases _ _ (fun _ => rfl)
      -- the place is given before the entry takes it: the order of the two does not show in the state
      have given : Fits (k + 1) j (Machine.modifySlot n (fun x => { x with heldPlace := false })
          (Machine.modifySlot n (fun x => { x with state := .releasing, gnt := false }) t)) := by
        refine (released t k leased).modifySlot n _ (by
          rw [slotAt_modifySlot n n _ leased.slots, if_pos rfl]; simp [Slot.hasPlace]) ?_
        rw [slotAt_modifySlot n n _ leased.slots, if_pos rfl]
        simp [show t.slotAt n = s.slotAt n from rfl, hp]
      exact given.addPend _

theorem tellGranted (h : Fits k j s) (src : Source) : Fits k j (tellGranted src s) := by
  cases src with
  | host => exact h
  | slot n =>
    have place := h.slot_place n
    unfold Machine.tellGranted Machine.slotGranted
    dsimp only
    split
    · rename_i hs
      refine h.modifySlot_keep n _ (fun _ => rfl) (fun hp _ => hp (.inl hs))
    · rename_i hs
      exact h.slotRelease n (place (.inr (.inl hs)))
    all_goals exact h

theorem tellWithdrawn (h : Fits k j s) (src : Source) : Fits k j (tellWithdrawn src s) := by
  cases src with
  | host => exact h
  | slot n => exact h.slotReturn n false

theorem grantClaim (h : Fits k j s) {n : Nat} {e : PendEntry} (list : List Nat) (u : Nat)
    (he : s.pendAt n = some e) : Fits k j (grantClaim n e list u s) := by
  have leased := (h.createLease list u e.cls e.source e.tag).removeOutgoing (fun f => f.entry == n && f.isWithdraw)
  refine ((leased.finishEntry (e := e) _ ?_).finishCancel _ _).tellGranted _
  have only := createLease_only list u e.cls e.source e.tag s
  have req : (Machine.createLease list u e.cls e.source e.tag s).req = s.req := by
    unfold Machine.createLease
    split
    · rfl
    · rw [setEventIf_eq]; rfl
  change (Machine.createLease list u e.cls e.source e.tag s).req.pend.getD n none = some e
  rw [req]
  exact he

theorem refuseClaim (h : Fits k j s) {n : Nat} {e : PendEntry} (he : s.pendAt n = some e) :
    Fits k j (refuseClaim n e s) := (h.finishEntry _ he).finishCancel _ _

theorem withdrawClaim (h : Fits k j s) {n : Nat} {e : PendEntry} (l : List Nat) (he : s.pendAt n = some e) :
    Fits k j (withdrawClaim n e l s) :=
  (((h.removeOutgoing (fun f => f.entry == n && f.isWithdraw)).finishEntry (e := e) _ he).finishCancel _
    _).tellWithdrawn _

theorem removeLease (h : Fits k j s) (l : List Nat) : Fits k j (removeLease l s) := by
  unfold Machine.removeLease
  split
  · exact h
  · rename_i x _
    have gone : Fits k j (s.withLeases (s.leases.filter (fun y => y.tokens != l))) := by
      refine h.withLeases _ ?_
      have := h.leases
      rw [List.pairwise_map] at this ⊢
      exact this.sublist List.filter_sublist
    have entry : ∀ t, Fits k j t → Fits k j (if x.state = .releasePending then
          match t.findPend (fun e => e.kind == .release && e.list == l) with
          | none => t
          | some m =>
            match t.pendAt m with
            | none => t
            | some e =>
              Machine.finishEntry m (.listed .released e.tag e.source ReqKind.release.code l x.units) t
        else t) := by
      intro t ht
      split
      · split
        · exact ht
        · split
          · exact ht
          · rename_i he
            exact ht.finishEntry _ he
      · exact ht
    dsimp only
    cases x.source with
    | host => exact entry _ gone
    | slot n => exact (entry _ gone).slotReturn n _

theorem takeReport (h : Fits k j s) (r : Report) : Fits k j (takeReport r s) := by
  cases r with
  | grant o x u c =>
    unfold Machine.takeReport
    dsimp only
    split
    · exact h
    · split
      · exact h
      · rename_i he
        exact h.setPend_some _ he
      · rename_i he
        exact h.grantClaim _ _ he
  | parked o x p =>
    unfold Machine.takeReport
    dsimp only
    split
    · exact h
    · split
      · exact h
      · rename_i he
        split
        · exact h.setPend_some _ he
        · exact h
  | refused o =>
    unfold Machine.takeReport
    dsimp only
    split
    · exact h
    · split
      · exact h
      · rename_i he
        exact h.refuseClaim he
  | withdrawn o l =>
    unfold Machine.takeReport
    dsimp only
    split
    · exact h
    · split
      · exact h
      · rename_i he
        exact h.withdrawClaim _ he
  | released l c x => exact h.removeLease l
  | evicted c => exact h

theorem takeReports (h : Fits k j s) (rs : List Report) : Fits k j (takeReports rs s) := by
  unfold Machine.takeReports
  induction rs generalizing s with
  | nil => exact h
  | cons r rs ih => exact ih (h.takeReport r)

theorem outgoingAccepted (h : Fits k j s) (n : Nat) (f : Frame) : Fits k j (outgoingAccepted n f s) := by
  unfold Machine.outgoingAccepted
  split
  · split
    · split
      · exact h.of_req _ h.fifo (by have := h.outgoing; simpa using this) h.asm h.pend (Nat.le_refl _)
      · exact h.removeOutgoing _
    · exact h.removeOutgoing _
  · exact h.removeOutgoing _
  · dsimp only
    split
    · rename_i he
      split
      · exact (h.removeOutgoing _).finishEntry _ he
      · exact h.removeOutgoing _
    · exact h.removeOutgoing _
  all_goals exact h

theorem outgoingVoided (h : Fits k j s) (n : Nat) (f : Frame) : Fits k j (outgoingVoided n f s) := by
  unfold Machine.outgoingVoided
  split
  · split
    · rename_i he
      split
      · exact (h.removeOutgoing _).withdrawClaim _ he
      · exact h
    · exact h
  all_goals exact h

end Fits

end Sys2Proof.Machine
end

