-- ==== Sys2Proof/Proofs/Claims.lean ====
section
/-! PROOFS. The tokens and slots of this station's own claims (R118, R135, R138, R153, R156): what keeps them apart, as
weights over the lease records and the claim entries, and the operations that only give claims up. -/

namespace Sys2Proof.Machine

/-! ## Weights of claims -/

/-- The weight of a claim entry; the other kinds have none. -/
def claimPart (φ : List Nat → Source → Nat) (p : PendEntry) : Nat := if p.kind = .acquire then φ p.list p.source else 0

/-- The sum of a weight over the lease records and claim entries, by their tokens and source. -/
def State.claimWeight (s : State) (φ : List Nat → Source → Nat) : Nat :=
  s.weigh (fun l => φ l.tokens l.source) (claimPart φ)

/-- The lease records and claim entries of slot n, as a weight. -/
def slotPart (n : BitVec 2) (_ : List Nat) (src : Source) : Nat := if src = .slot n then 1 else 0

/-- The times a token is named, as a weight. -/
def tokenPart (x : Nat) (l : List Nat) (_ : Source) : Nat := l.count x

theorem length_filter_eq_sum {α : Type} (p : α → Bool) (l : List α) :
    (l.filter p).length = (l.map (fun a => if p a then 1 else 0)).sum := by
  induction l with
  | nil => rfl
  | cons a l ih =>
    by_cases h : p a
    · simp [h, ih, Nat.add_comm]
    · simp [h, ih]

theorem claimsOfSlot_eq (s : State) (n : BitVec 2) : s.claimsOfSlot n = s.claimWeight (slotPart n) := by
  unfold State.claimsOfSlot State.claimWeight State.weigh pendWeight
  rw [length_filter_eq_sum, length_filter_eq_sum]
  congr 3
  · funext l
    simp [slotPart]
  · funext e
    cases e with
    | none => rfl
    | some p => by_cases kind : p.kind = .acquire <;> simp [claimPart, slotPart, kind]

theorem count_ownTokens (s : State) (x : Nat) : s.ownTokens.count x = s.claimWeight (tokenPart x) := by
  unfold State.ownTokens State.claimWeight State.weigh pendWeight
  rw [List.count_append, List.count_flatMap, List.count_flatMap]
  congr 3
  funext e
  cases e with
  | none => rfl
  | some p => by_cases kind : p.kind = .acquire <;> simp [claimPart, tokenPart, kind]

theorem ownTokens_nodup_iff (s : State) : s.ownTokens.Nodup ↔ ∀ x, s.claimWeight (tokenPart x) ≤ 1 := by
  simp only [List.nodup_iff_count_le_one, count_ownTokens]

/-- The tokens and slots are apart, by the weights. -/
theorem tokensApart_iff (s : State) : s.tokensApart ↔ (∀ x, s.claimWeight (tokenPart x) ≤ 1) ∧
    (∀ p, some p ∈ s.req.pend → p.kind = .acquire → p.list ≠ [] ∧ p.origin = p.list.head?) ∧
    ∀ n : BitVec 2,
      ((s.slotAt n).state ≠ .disabled → (s.slotAt n).spec.tokens ≠ [] ∧ (s.slotAt n).spec.tokens.Pairwise (· < ·)) ∧
      ((s.slotAt n).inProgress = false → s.claimWeight (slotPart n) = 0) ∧ s.claimWeight (slotPart n) ≤ 1 := by
  simp only [State.tokensApart, ownTokens_nodup_iff, claimsOfSlot_eq]

/-! ## Operations that only give claims up -/

/-- t has no claim that s has not, and its slots are where s has them, or have ended their claims. -/
structure Calm (s t : State) : Prop where
  weights : ∀ φ, t.claimWeight φ ≤ s.claimWeight φ
  entries : ∀ p, some p ∈ t.req.pend → p.kind = .acquire →
    ∃ q, some q ∈ s.req.pend ∧ q.kind = .acquire ∧ q.list = p.list ∧ q.origin = p.origin
  specs : ∀ n, (t.slotAt n).spec = (s.slotAt n).spec
  starts : ∀ n, (t.slotAt n).state ≠ .disabled → (s.slotAt n).state ≠ .disabled ∨ 1 ≤ s.claimWeight (slotPart n)
  ends : ∀ n, (t.slotAt n).inProgress = false → (s.slotAt n).inProgress = false ∨
    (s.claimWeight (slotPart n) ≤ 1 → t.claimWeight (slotPart n) = 0)

namespace Calm

variable {s t u : State}

theorem refl (s : State) : Calm s s :=
  ⟨fun _ => Nat.le_refl _, fun p hp kind => ⟨p, hp, kind, rfl, rfl⟩, fun _ => rfl, fun _ h => .inl h, fun _ h => .inl h⟩

theorem trans (h : Calm s t) (g : Calm t u) : Calm s u where
  weights φ := (g.weights φ).trans (h.weights φ)
  entries p hp kind := by
    obtain ⟨q, hq, kindq, list, origin⟩ := g.entries p hp kind
    obtain ⟨r, hr, kindr, list', origin'⟩ := h.entries q hq kindq
    exact ⟨r, hr, kindr, list'.trans list, origin'.trans origin⟩
  specs n := (g.specs n).trans (h.specs n)
  starts n on := by
    rcases g.starts n on with on' | claimed
    · exact h.starts n on'
    · exact .inr (claimed.trans (h.weights _))
  ends n idle := by
    rcases g.ends n idle with idle' | ended
    · rcases h.ends n idle' with idle'' | ended
      · exact .inl idle''
      · exact .inr fun once => Nat.le_zero.1 ((g.weights _).trans (Nat.le_of_eq (ended once)))
    · exact .inr fun once => ended ((h.weights _).trans once)

theorem ite {c : Prop} [Decidable c] (ht : Calm s t) (hu : Calm s u) : Calm s (if c then t else u) := by
  split <;> assumption

/-- The tokens and slots stay apart. -/
theorem apart (h : Calm s t) (a : s.tokensApart) : t.tokensApart := by
  rw [tokensApart_iff] at a ⊢
  obtain ⟨tokens, origins, slots⟩ := a
  refine ⟨fun x => (h.weights _).trans (tokens x), fun p hp kind => ?_, fun n => ?_⟩
  · obtain ⟨q, hq, kindq, list, origin⟩ := h.entries p hp kind
    rw [← list, ← origin]
    exact origins q hq kindq
  · obtain ⟨spec, idle, once⟩ := slots n
    refine ⟨fun on => ?_, fun out => ?_, (h.weights _).trans once⟩
    · rw [h.specs n]
      rcases h.starts n on with on' | claimed
      · exact spec on'
      · refine spec fun off => ?_
        have none := idle (by rw [Slot.inProgress, off])
        omega
    · rcases h.ends n out with out' | ended
      · exact Nat.le_zero.1 ((h.weights _).trans (Nat.le_of_eq (idle out')))
      · exact ended once

/-! ### Records outside the claims -/

theorem of_same (hl : t.leases = s.leases) (hp : t.req.pend = s.req.pend) (hs : t.slots = s.slots) : Calm s t := by
  have weight (φ) : t.claimWeight φ = s.claimWeight φ := by simp only [State.claimWeight, State.weigh, hl, hp]
  have slot (n) : t.slotAt n = s.slotAt n := by simp only [State.slotAt, hs]
  refine ⟨fun φ => Nat.le_of_eq (weight φ), fun p h kind => ⟨p, hp ▸ h, kind, rfl, rfl⟩, fun n => by rw [slot],
    fun n h => ?_, fun n h => ?_⟩
  · rw [slot] at h
    exact .inl h
  · rw [slot] at h
    exact .inl h

theorem setEvent (e : Event) (s : State) : Calm s (setEvent e s) := of_same rfl rfl rfl
theorem setEventIf (c : Bool) (e : Event) (s : State) : Calm s (setEventIf c e s) := by
  rw [setEventIf_eq]
  exact of_same rfl rfl rfl
theorem pushCompletion (c : Completion) (s : State) : Calm s (pushCompletion c s) := of_same rfl rfl rfl
theorem addOutgoing (f : OutFrame) (s : State) : Calm s (addOutgoing f s) := of_same rfl rfl rfl
theorem removeOutgoing (p : OutFrame → Bool) (s : State) : Calm s (removeOutgoing p s) := of_same rfl rfl rfl

/-! ### The pending table -/

/-- A change of one number of the table adds at most the weight of what it brings. -/
theorem claimWeight_setPend_le (n : Nat) (e : Option PendEntry) (s : State) (φ : List Nat → Source → Nat) :
    (setPend n e s).claimWeight φ + (s.pendAt n).elim 0 (claimPart φ) ≤ s.claimWeight φ + e.elim 0 (claimPart φ) := by
  by_cases inside : n < s.req.pend.length
  · exact Nat.le_of_eq (weigh_setPend e _ _ inside)
  · have same : setPend n e s = s := by
      unfold setPend
      rw [List.set_eq_of_length_le (Nat.le_of_not_lt inside)]
      rfl
    have none : s.pendAt n = none := by
      simp [State.pendAt, List.getElem?_eq_none (Nat.le_of_not_lt inside)]
    rw [same, none]
    simp

theorem mem_setPend {n : Nat} {e : Option PendEntry} {p : PendEntry} (h : some p ∈ (setPend n e s).req.pend) :
    some p ∈ s.req.pend ∨ some p = e := List.mem_or_eq_of_mem_set h

/-- An entry ends, or is no claim. -/
theorem setPend_noClaim (n : Nat) (e : Option PendEntry) (noClaim : ∀ p, e = some p → p.kind ≠ .acquire) (s : State) :
    Calm s (setPend n e s) where
  weights φ := by
    have le := claimWeight_setPend_le n e s φ
    have none : e.elim 0 (claimPart φ) = 0 := by
      cases e with
      | none => rfl
      | some p => exact if_neg (noClaim p rfl)
    omega
  entries p hp kind := by
    rcases mem_setPend hp with hp | rfl
    · exact ⟨p, hp, kind, rfl, rfl⟩
    · exact absurd kind (noClaim p rfl)
  specs _ := rfl
  starts _ h := .inl h
  ends _ h := .inl h

/-- An entry goes on, with the same claim. -/
theorem setPend_same {n : Nat} {e e' : PendEntry} (he : s.pendAt n = some e) (kind : e'.kind = e.kind)
    (list : e'.list = e.list) (source : e'.source = e.source) (origin : e'.origin = e.origin) :
    Calm s (setPend n (some e') s) where
  weights φ := by
    have le := claimWeight_setPend_le n (some e') s φ
    have same : claimPart φ e' = claimPart φ e := by simp only [claimPart, kind, list, source]
    rw [he] at le
    simp only [Option.elim, same] at le
    omega
  entries p hp kindp := by
    rcases mem_setPend hp with hp | hp
    · exact ⟨p, hp, kindp, rfl, rfl⟩
    · cases hp
      exact ⟨e, pendAt_mem he, kind ▸ kindp, list.symm, origin.symm⟩
  specs _ := rfl
  starts _ h := .inl h
  ends _ h := .inl h

theorem finishEntry (n : Nat) (c : Completion) (s : State) : Calm s (finishEntry n c s) :=
  (setPend_noClaim n none nofun s).trans (pushCompletion c _)

theorem addPend_noClaim {e : PendEntry} (kind : e.kind ≠ .acquire) (s : State) : Calm s (addPend e s) :=
  setPend_noClaim _ _ (fun p hp => by cases hp; exact kind) s

/-- The claim that ends has its weight no more. -/
theorem claimWeight_finishEntry {n : Nat} {e : PendEntry} (c : Completion) (he : s.pendAt n = some e)
    (φ : List Nat → Source → Nat) : (Machine.finishEntry n c s).claimWeight φ + claimPart φ e = s.claimWeight φ :=
  weigh_finishEntry c _ _ he

theorem finishCancel (o : Nat) (st : Status) (s : State) : Calm s (finishCancel o st s) := by
  unfold Machine.finishCancel
  split
  · exact refl s
  · split
    · exact refl s
    · exact finishEntry _ _ s

/-! ### Slots -/

theorem slotAt_modifySlot_cases (n m : BitVec 2) (f : Slot → Slot) (s : State) :
    (Machine.modifySlot n f s).slotAt m = s.slotAt m ∨ (m = n ∧ (Machine.modifySlot n f s).slotAt m = f (s.slotAt n)) := by
  by_cases same : m = n
  · subst same
    by_cases inside : m.toNat < s.slots.length
    · exact .inr ⟨rfl, by simp [Machine.modifySlot, State.slotAt, inside]⟩
    · exact .inl (by simp [Machine.modifySlot, State.slotAt, inside])
  · exact .inl (slotAt_modifySlot_ne same)

/-- A slot changes after claims have been given up: it keeps its specification, and where it is in progress no more its
claim has ended. -/
theorem behind_modifySlot (h : Calm s t) (n : BitVec 2) (f : Slot → Slot) (spec : (f (t.slotAt n)).spec = (t.slotAt n).spec)
    (on : (f (t.slotAt n)).state ≠ .disabled → (t.slotAt n).state ≠ .disabled ∨ 1 ≤ s.claimWeight (slotPart n))
    (out : (f (t.slotAt n)).inProgress = false → (t.slotAt n).inProgress = false ∨
      (s.claimWeight (slotPart n) ≤ 1 → t.claimWeight (slotPart n) = 0)) : Calm s (Machine.modifySlot n f t) where
  weights := h.weights
  entries := h.entries
  specs m := by
    rcases slotAt_modifySlot_cases n m f t with same | ⟨rfl, changed⟩
    · rw [same]
      exact h.specs m
    · rw [changed, spec]
      exact h.specs m
  starts m := by
    rcases slotAt_modifySlot_cases n m f t with same | ⟨rfl, changed⟩
    · rw [same]
      exact h.starts m
    · rw [changed]
      intro on'
      rcases on on' with was | claimed
      · exact h.starts m was
      · exact .inr claimed
  ends m := by
    rcases slotAt_modifySlot_cases n m f t with same | ⟨rfl, changed⟩
    · rw [same]
      exact h.ends m
    · rw [changed]
      intro out'
      rcases out out' with idle | ended
      · exact h.ends m idle
      · exact .inr ended

theorem modifySlot (n : BitVec 2) (f : Slot → Slot) (s : State) (spec : (f (s.slotAt n)).spec = (s.slotAt n).spec)
    (on : (f (s.slotAt n)).state ≠ .disabled → (s.slotAt n).state ≠ .disabled ∨ 1 ≤ s.claimWeight (slotPart n))
    (out : (f (s.slotAt n)).inProgress = false → (s.slotAt n).inProgress = false) : Calm s (Machine.modifySlot n f s) :=
  (refl s).behind_modifySlot n f spec on (fun h => .inl (out h))

/-- A change of a slot beside its state and its specification. -/
theorem modifySlot_flags (n : BitVec 2) (f : Slot → Slot) (state : ∀ x, (f x).state = x.state)
    (spec : ∀ x, (f x).spec = x.spec) (s : State) : Calm s (Machine.modifySlot n f s) :=
  modifySlot n f s (spec _) (fun on => .inl (state _ ▸ on)) (fun out => by
    simp only [Slot.inProgress, state] at out ⊢
    exact out)

/-- A slot whose claim goes on. -/
theorem modifySlot_progress (n : BitVec 2) (f : Slot → Slot) {s : State} (on : (s.slotAt n).state ≠ .disabled)
    (spec : (f (s.slotAt n)).spec = (s.slotAt n).spec) (progress : (f (s.slotAt n)).inProgress = true) :
    Calm s (Machine.modifySlot n f s) :=
  modifySlot n f s spec (fun _ => .inl on) (fun out => by cases progress.symm.trans out)

theorem slotEvent (n : BitVec 2) (c : SlotCause) (s : State) : Calm s (slotEvent n c s) :=
  (modifySlot_flags n (fun x => { x with cause := c }) (fun _ => rfl) (fun _ => rfl) s).trans (setEvent _ _)

/-- A slot returns when its claim has ended. -/
theorem slotReturn (h : Calm s t) (n : BitVec 2) (expired : Bool)
    (was : (t.slotAt n).state ≠ .disabled ∨ 1 ≤ s.claimWeight (slotPart n))
    (ended : (t.slotAt n).inProgress = false ∨ (s.claimWeight (slotPart n) ≤ 1 → t.claimWeight (slotPart n) = 0)) :
    Calm s (slotReturn n expired t) := by
  have back : Calm s (Machine.modifySlot n Slot.returned t) := h.behind_modifySlot n _ rfl (fun _ => was) (fun _ => ended)
  unfold Machine.slotReturn
  cases expired
  · exact back
  · exact back.trans (slotEvent n .expired _)

end Calm

end Sys2Proof.Machine
end

