-- ==== Sys2Proof/Proofs/ClaimOps.lean ====
section
/-! PROOFS. The Lease Unit, the Slot Unit and the Request Unit give claims up (R118, R126, R128, R139, R143 to R145, R157
to R163). -/

namespace Sys2Proof.Machine

namespace Calm

variable {s t : State}

/-! ## Leases -/

theorem sum_map_le_of_sublist {α : Type} (g : α → Nat) {l m : List α} (h : l.Sublist m) : (l.map g).sum ≤ (m.map g).sum :=
  (h.map g).sum_le_sum (fun _ _ => Nat.zero_le _)

/-- Lease records go, or change beside their tokens and source. -/
theorem of_leases (hl : (t.leases.map (fun l => (l.tokens, l.source))).Sublist (s.leases.map (fun l => (l.tokens, l.source))))
    (hp : t.req.pend = s.req.pend) (hs : t.slots = s.slots) : Calm s t := by
  have slot (n) : t.slotAt n = s.slotAt n := by simp only [State.slotAt, hs]
  refine ⟨fun φ => ?_, fun p h kind => ⟨p, hp ▸ h, kind, rfl, rfl⟩, fun n => by rw [slot], fun n h => ?_, fun n h => ?_⟩
  · have le := sum_map_le_of_sublist (fun x : List Nat × Source => φ x.1 x.2) hl
    simp only [List.map_map] at le
    simp only [State.claimWeight, State.weigh, hp]
    exact Nat.add_le_add_right le _
  · rw [slot] at h
    exact .inl h
  · rw [slot] at h
    exact .inl h

theorem modifyLeases (p : Lease → Bool) (f : Lease → Lease) (tokens : ∀ l, (f l).tokens = l.tokens)
    (source : ∀ l, (f l).source = l.source) (s : State) : Calm s (modifyLeases p f s) := by
  refine of_leases ?_ rfl rfl
  have same : (Machine.modifyLeases p f s).leases.map (fun l => (l.tokens, l.source)) =
      s.leases.map (fun l => (l.tokens, l.source)) := by
    simp only [Machine.modifyLeases, State.withLeases, List.map_map]
    refine List.map_congr_left fun l _ => ?_
    simp only [Function.comp]
    split
    · rw [tokens, source]
    · rfl
  rw [same]

theorem tickLeases (s : State) : Calm s (tickLeases s) := by
  refine Calm.trans ?_ (setEventIf _ _ _)
  refine of_leases ?_ rfl rfl
  have same : (s.leases.map (fun l => l.tick (s.classParams l.cls))).map (fun l => (l.tokens, l.source)) =
      s.leases.map (fun l => (l.tokens, l.source)) := by
    rw [List.map_map]
    refine List.map_congr_left fun l _ => ?_
    simp only [Function.comp, Lease.tick]
    split <;> rfl
  exact same ▸ List.Sublist.refl _

theorem tellExpiry (src : Source) (s : State) : Calm s (tellExpiry src s) := by
  cases src with
  | host => exact refl s
  | slot n =>
    refine modifySlot n _ s ?_ (fun on => .inl fun off => ?_) (fun out => ?_)
    · split <;> rfl
    · rw [if_neg (by rw [off]; decide)] at on
      exact on off
    · split at out
      · cases out
      · exact out

theorem expireLease (k : Nat) (s : State) : Calm s (expireLease k s) := by
  unfold Machine.expireLease
  split
  · exact refl s
  · exact ((modifyLeases _ (fun x => { x with state := .expiredPending, counter := 0 }) (fun _ => rfl) (fun _ => rfl)
      s).trans (setEvent _ _)).trans (tellExpiry _ _)

theorem settleLeases (s : State) : Calm s (settleLeases s) := by
  have fold : ∀ (ls : List Lease) (t : State), Calm t (ls.foldl (fun t l => Machine.expireLease l.first t) t) := by
    intro ls
    induction ls with
    | nil => exact refl
    | cons l ls ih => exact fun t => (expireLease _ t).trans (ih _)
  exact fold _ s

/-! ## A slot lets go -/

theorem slotRelease (n : BitVec 2) {s : State} (on : (s.slotAt n).state ≠ .disabled) : Calm s (slotRelease n s) := by
  have go (t : State) (same : (t.slotAt n).state ≠ .disabled) :
      Calm t (Machine.modifySlot n (fun x => { x with state := .releasing, gnt := false }) t) :=
    modifySlot_progress n _ same rfl rfl
  unfold Machine.slotRelease
  dsimp only
  split
  · exact go s on
  · refine ite (go s on) ?_
    refine (((modifyLeases _ Lease.releasing (fun _ => rfl) (fun _ => rfl) s).trans (addPend_noClaim ?_ _)).trans
      (go _ on)).trans (modifySlot_flags n (fun x => { x with heldPlace := false }) (fun _ => rfl) (fun _ => rfl) _)
    exact ReqKind.noConfusion

theorem tellGranted (src : Source) (s : State) : Calm s (tellGranted src s) := by
  cases src with
  | host => exact refl s
  | slot n =>
    show Calm s (slotGranted n s)
    unfold slotGranted
    cases state : (s.slotAt n).state with
    | claiming =>
      exact modifySlot_progress n (fun x => { x with state := .held, gnt := true }) (by rw [state]; decide) rfl rfl
    | withdrawing => exact slotRelease n (by rw [state]; decide)
    | disabled | armed | triggered | held | releasing => exact refl s

/-! ## The ends of a claim -/

/-- The claim of a slot weighs on it. -/
theorem one_le_slotPart {n : Nat} {e : PendEntry} {m : BitVec 2} (he : s.pendAt n = some e) (kind : e.kind = .acquire)
    (source : e.source = .slot m) : 1 ≤ s.claimWeight (slotPart m) := by
  have le := le_pendWeight (claimPart (slotPart m)) he
  have one : claimPart (slotPart m) e = 1 := by simp [claimPart, slotPart, kind, source]
  rw [one] at le
  exact le.trans (Nat.le_add_left _ _)

theorem dropWithdraw (n : Nat) (s : State) : Calm s (dropWithdraw n s) := removeOutgoing _ s

theorem refuseClaim (n : Nat) (e : PendEntry) (s : State) : Calm s (refuseClaim n e s) :=
  (finishEntry _ _ s).trans (finishCancel _ _ _)

theorem withdrawClaim {n : Nat} {e : PendEntry} (released : List Nat) (he : s.pendAt n = some e)
    (kind : e.kind = .acquire) : Calm s (withdrawClaim n e released s) := by
  have ends := fun c φ => claimWeight_finishEntry (s := Machine.dropWithdraw n s) (n := n) (e := e) c he φ
  have before := dropWithdraw n s
  have finished := fun c => before.trans (finishEntry n c (Machine.dropWithdraw n s))
  unfold Machine.withdrawClaim
  dsimp only
  generalize (Completion.withdrawn _ _ _ _ _) = c
  have cancelled := finishCancel (e.origin.getD 0) .done (Machine.finishEntry n c (Machine.dropWithdraw n s))
  cases source : e.source with
  | host => exact (finished c).trans cancelled
  | slot m =>
    refine slotReturn ((finished c).trans cancelled) m false (.inr (one_le_slotPart he kind source)) (.inr fun once => ?_)
    have one : claimPart (slotPart m) e = 1 := by simp [claimPart, slotPart, kind, source]
    have left := ends c (slotPart m)
    have less := cancelled.weights (slotPart m)
    have same : (Machine.dropWithdraw n s).claimWeight (slotPart m) = s.claimWeight (slotPart m) := rfl
    omega

theorem createLease_leases (l : List Nat) (u c : Nat) (src : Source) (tag : Byte) (s : State) :
    ∃ x : Lease, x.tokens = l ∧ x.source = src ∧ (createLease l u c src tag s).leases = insertLease x s.leases ∧
      (createLease l u c src tag s).req = s.req ∧ (createLease l u c src tag s).slots = s.slots := by
  unfold createLease
  split
  · exact ⟨_, rfl, rfl, rfl, rfl, rfl⟩
  · rw [setEventIf_eq]
    exact ⟨_, rfl, rfl, rfl, rfl, rfl⟩

/-- The claim becomes a lease record of the same tokens and source (R119). -/
theorem grantClaim {n : Nat} {e : PendEntry} {list : List Nat} (units : Nat) (he : s.pendAt n = some e)
    (kind : e.kind = .acquire) (agree : e.list = list) : Calm s (grantClaim n e list units s) := by
  obtain ⟨x, tokens, source, leases, req, slots⟩ := createLease_leases list units e.cls e.source e.tag s
  unfold Machine.grantClaim
  dsimp only
  generalize Machine.createLease list units e.cls e.source e.tag s = u at *
  generalize (Completion.listed _ _ _ _ _ _) = c
  have entry : (Machine.dropWithdraw n u).pendAt n = some e := by
    have same : (Machine.dropWithdraw n u).pendAt n = u.pendAt n := rfl
    rw [same, State.pendAt, req]
    exact he
  have granted : Calm s (Machine.finishEntry n c (Machine.dropWithdraw n u)) := by
    have gone := finishEntry n c (Machine.dropWithdraw n u)
    have pend : (Machine.dropWithdraw n u).req.pend = s.req.pend := by
      have same : (Machine.dropWithdraw n u).req.pend = u.req.pend := rfl
      rw [same, req]
    have slotAt (m : BitVec 2) : (Machine.finishEntry n c (Machine.dropWithdraw n u)).slotAt m = s.slotAt m := by
      have same : (Machine.finishEntry n c (Machine.dropWithdraw n u)).slotAt m = u.slotAt m := rfl
      rw [same, State.slotAt, slots, State.slotAt]
    refine ⟨fun φ => ?_, fun p hp kind => ?_, fun m => by rw [slotAt], fun m on => ?_, fun m out => ?_⟩
    · have moved := claimWeight_finishEntry c entry φ
      have part : claimPart φ e = φ list e.source := by rw [claimPart, if_pos kind, agree]
      have grown : (Machine.dropWithdraw n u).claimWeight φ = φ list e.source + s.claimWeight φ := by
        have same : (Machine.dropWithdraw n u).claimWeight φ = u.claimWeight φ := rfl
        rw [same]
        simp only [State.claimWeight, State.weigh, leases, req, sum_insertLease, tokens, source, Nat.add_assoc]
      omega
    · obtain ⟨q, hq, same⟩ := gone.entries p hp kind
      exact ⟨q, pend ▸ hq, same⟩
    · rw [slotAt] at on
      exact .inl on
    · rw [slotAt] at out
      exact .inl out
  exact (granted.trans (finishCancel _ _ _)).trans (tellGranted _ _)

/-! ## A lease record is removed -/

theorem sum_filter_add_le {g : Lease → Nat} {tokens : List Nat} {ls : List Lease} {l : Lease} (there : l ∈ ls)
    (named : l.tokens = tokens) : ((ls.filter (fun x => x.tokens != tokens)).map g).sum + g l ≤ (ls.map g).sum := by
  induction ls with
  | nil => cases there
  | cons x ls ih =>
    have rest := sum_map_le_of_sublist g (List.filter_sublist (p := fun x => x.tokens != tokens) (l := ls))
    rcases List.mem_cons.1 there with rfl | there
    · rw [List.filter_cons_of_neg (by simp [named])]
      simp only [List.map_cons, List.sum_cons]
      omega
    · have le := ih there
      by_cases keep : (x.tokens != tokens) = true
      · rw [List.filter_cons_of_pos (p := fun x : Lease => x.tokens != tokens) keep]
        simp only [List.map_cons, List.sum_cons]
        omega
      · rw [List.filter_cons_of_neg (p := fun x : Lease => x.tokens != tokens) keep]
        simp only [List.map_cons, List.sum_cons]
        omega

theorem one_le_slotPart_of_lease {l : Lease} (there : l ∈ s.leases) {m : BitVec 2} (source : l.source = .slot m) :
    1 ≤ s.claimWeight (slotPart m) := by
  have le := List.single_le_sum (fun _ _ => Nat.zero_le _) _
    (List.mem_map_of_mem (f := fun l : Lease => slotPart m l.tokens l.source) there)
  have one : slotPart m l.tokens l.source = 1 := if_pos source
  rw [one] at le
  exact le.trans (Nat.le_add_right _ _)

theorem removeLease (l : List Nat) (s : State) : Calm s (removeLease l s) := by
  unfold Machine.removeLease
  split
  · exact refl s
  next x found =>
    have there : x ∈ s.leases := List.mem_of_find?_eq_some found
    have named : x.tokens = l := by simpa using List.find?_some found
    have gone : Calm s (s.withLeases (s.leases.filter (fun y => y.tokens != l))) :=
      of_leases (List.filter_sublist.map _) rfl rfl
    have left (φ) : (s.withLeases (s.leases.filter (fun y => y.tokens != l))).claimWeight φ + φ x.tokens x.source ≤
        s.claimWeight φ := by
      have le := sum_filter_add_le (g := fun y => φ y.tokens y.source) there named
      have whole : (s.withLeases (s.leases.filter (fun y => y.tokens != l))).claimWeight φ =
          ((s.leases.filter (fun y => y.tokens != l)).map (fun y => φ y.tokens y.source)).sum +
            pendWeight (claimPart φ) s.req.pend := rfl
      rw [whole, State.claimWeight, State.weigh]
      omega
    dsimp only
    generalize s.withLeases (s.leases.filter (fun y => y.tokens != l)) = u at *
    generalize finished : (if x.state = .releasePending then _ else u) = v
    have entry : Calm u v := by
      rw [← finished]
      split
      · split
        · exact refl u
        · split
          · exact refl u
          · exact finishEntry _ _ _
      · exact refl u
    cases source : x.source with
    | host => exact gone.trans entry
    | slot m =>
      refine slotReturn (gone.trans entry) m _ (.inr (one_le_slotPart_of_lease there source)) (.inr fun once => ?_)
      have one : slotPart m x.tokens x.source = 1 := if_pos source
      have left := left (slotPart m)
      have less := entry.weights (slotPart m)
      omega

/-! ## The end of an own frame -/

theorem outgoingAccepted (n : Nat) (f : Frame) (s : State) : Calm s (outgoingAccepted n f s) := by
  unfold Machine.outgoingAccepted
  split
  · split
    · exact ite (of_same rfl rfl rfl) (removeOutgoing _ s)
    · exact removeOutgoing _ s
  · exact removeOutgoing _ s
  · dsimp only
    split
    · exact ite ((removeOutgoing _ s).trans (finishEntry _ _ _)) (removeOutgoing _ s)
    · exact removeOutgoing _ s
  all_goals exact refl s

theorem outgoingVoided (n : Nat) (f : Frame) (s : State) : Calm s (outgoingVoided n f s) := by
  unfold Machine.outgoingVoided
  split
  · split
    next e he =>
      split
      next both => exact (removeOutgoing _ s).trans (withdrawClaim (s := Machine.removeOutgoing _ s) [] he both.1)
      next => exact refl s
    next => exact refl s
  all_goals exact refl s

/-! ## Triggers -/

theorem slotTrigger (n : BitVec 2) (s : State) : Calm s (slotTrigger n s) := by
  have missed : Calm s (Machine.slotEvent n .missed (Machine.modifySlot n (fun x => { x with missed := true }) s)) :=
    (modifySlot_flags n (fun x => { x with missed := true }) (fun _ => rfl) (fun _ => rfl) s).trans
      (slotEvent n .missed _)
  unfold Machine.slotTrigger
  cases state : (s.slotAt n).state with
  | disabled => exact refl s
  | armed =>
    exact modifySlot n _ s rfl (fun _ => .inl (by rw [state]; decide)) (fun _ => by rw [Slot.inProgress, state])
  | triggered | claiming | withdrawing | held | releasing => exact missed

theorem triggerWhere (c : Slot → Bool) (l : List (BitVec 2)) (s : State) : Calm s (triggerWhere c l s) := by
  induction l generalizing s with
  | nil => exact refl s
  | cons n l ih =>
    have first : Calm s (if c (s.slotAt n) then Machine.slotTrigger n s else s) := ite (slotTrigger n s) (refl s)
    exact first.trans (ih _)

theorem triggerSignal (c : BitVec 3) (s : State) : Calm s (triggerSignal c s) := by
  rw [triggerSignal_eq]
  exact triggerWhere _ _ s

theorem triggerActivation (s : State) : Calm s (triggerActivation s) := by
  rw [triggerActivation_eq]
  exact triggerWhere _ _ s

end Calm

end Sys2Proof.Machine
end

