-- ==== Sys2Proof/Proofs/ClaimReports.lean ====
section
/-! PROOFS. The reports of the Token Table at the claims of this station (R139, R128), with complete grants that carry
the lists of the claims they name; and a claim that comes (R138, R156). -/

namespace Sys2Proof.Machine

/-! ## Which entry a token names -/

/-- Two claim entries of one table weigh together at most what all do. -/
theorem claimPart_add_le {s : State} {n : Nat} {e p : PendEntry} (he : s.pendAt n = some e) (hp : some p ∈ s.req.pend)
    (other : p ≠ e) (φ : List Nat → Source → Nat) : claimPart φ e + claimPart φ p ≤ s.claimWeight φ := by
  obtain ⟨m, hm⟩ := List.mem_iff_getElem?.1 hp
  have hm : s.pendAt m = some p := pendAt_eq_some.2 hm
  have apart : m ≠ n := fun same => other (Option.some.inj ((hm.symm.trans (by rw [same])).trans he))
  have gone := Calm.claimWeight_finishEntry (s := s) (.bare .done 0 .host 0) he φ
  have stays : (finishEntry n (.bare .done 0 .host 0) s).pendAt m = some p := by
    rw [pendAt_eq_some, finishEntry_eq, State.withReq]
    dsimp only
    rw [List.getElem?_set_ne (Ne.symm apart)]
    exact pendAt_eq_some.1 hm
  have le := le_pendWeight (claimPart φ) stays
  have whole : pendWeight (claimPart φ) (finishEntry n (.bare .done 0 .host 0) s).req.pend ≤
      (finishEntry n (.bare .done 0 .host 0) s).claimWeight φ := Nat.le_add_left _ _
  omega

/-- Where the tokens are apart, the claim entry with an origin is the one that a report of that origin finds. -/
theorem claimOf_of_origin {s : State} (a : s.tokensApart) {p : PendEntry} (hp : some p ∈ s.req.pend)
    (kind : p.kind = .acquire) {o : Nat} (origin : p.origin = some o) :
    ∃ n, s.claimOf o = some n ∧ s.pendAt n = some p := by
  cases found : s.claimOf o with
  | none =>
    have no := findPend_eq_none.1 found p hp
    simp [kind, origin] at no
  | some n =>
    obtain ⟨e, he, kinde, origine⟩ := claimOf_eq_some found
    refine ⟨n, rfl, ?_⟩
    by_contra differs
    have other : p ≠ e := fun same => differs (same ▸ he)
    obtain ⟨tokens, origins, _⟩ := (tokensApart_iff s).1 a
    have named {q : PendEntry} (hq : some q ∈ s.req.pend) (kindq : q.kind = .acquire) (originq : q.origin = some o) :
        1 ≤ claimPart (tokenPart o) q := by
      have head := (origins q hq kindq).2.symm.trans originq
      rw [claimPart, if_pos kindq]
      exact List.one_le_count_iff.2 (List.mem_of_mem_head? head)
    have both := claimPart_add_le he hp other (tokenPart o)
    have first := named (pendAt_mem he) kinde origine
    have second := named hp kind origin
    have once := tokens o
    omega

/-! ## Reports -/

/-- The complete grants among these reports carry the lists of the claims that their origins name. -/
def State.agreed (s : State) (rs : List Report) : Prop :=
  ∀ o k u l, .grant o k u (some l) ∈ rs → ∀ p, some p ∈ s.req.pend → p.kind = .acquire → p.origin = some o → p.list = l

theorem agreed_of_reportsAgree {s : State} {sender : Addr} {f : Frame} (a : s.tokensApart)
    (h : s.reportsAgree sender f) : s.agreed (applyFrame s.table s.n s.station sender f).reports := by
  intro o k u l hr p hp kind origin
  obtain ⟨n, found, here⟩ := claimOf_of_origin a hp kind origin
  exact h o k u l n p hr found here

namespace Calm

variable {s t : State}

theorem agreed (h : Calm s t) {rs : List Report} (a : s.agreed rs) : t.agreed rs := by
  intro o k u l hr p hp kind origin
  obtain ⟨q, hq, kindq, list, same⟩ := h.entries p hp kind
  rw [← list]
  exact a o k u l hr q hq kindq (same.trans origin)

theorem takeReport (r : Report) {s : State} (a : s.agreed [r]) : Calm s (takeReport r s) := by
  have claimed {o n : Nat} {e : PendEntry} (found : s.claimOf o = some n) (here : s.pendAt n = some e) :
      e.kind = .acquire ∧ e.origin = some o := by
    obtain ⟨e', here', named⟩ := claimOf_eq_some found
    rw [here] at here'
    cases here'
    exact named
  cases r with
  | grant o k u complete =>
    unfold Machine.takeReport
    dsimp only
    split
    · exact refl s
    next n found =>
      split
      · exact refl s
      next e here => exact setPend_same here rfl rfl rfl rfl
      next e list here =>
        obtain ⟨kind, origin⟩ := claimed found here
        exact grantClaim u here kind (a o k u list (List.mem_singleton.2 rfl) e (pendAt_mem here) kind origin)
  | parked o k p =>
    unfold Machine.takeReport
    dsimp only
    split
    · exact refl s
    · split
      · exact refl s
      next e here => exact ite (setPend_same here rfl rfl rfl rfl) (refl s)
  | refused o =>
    unfold Machine.takeReport
    dsimp only
    split
    · exact refl s
    · split
      · exact refl s
      · exact refuseClaim _ _ s
  | withdrawn o l =>
    unfold Machine.takeReport
    dsimp only
    split
    · exact refl s
    next n found =>
      split
      · exact refl s
      next e here => exact withdrawClaim l here (claimed found here).1
  | released l c lost => exact removeLease l s
  | evicted c => exact refl s

theorem takeReports (rs : List Report) {s : State} (a : s.agreed rs) : Calm s (takeReports rs s) := by
  unfold Machine.takeReports
  induction rs generalizing s with
  | nil => exact refl s
  | cons r rs ih =>
    have first : Calm s (Machine.takeReport r s) := takeReport r (fun o k u l hr =>
      a o k u l (by rw [List.mem_singleton.1 hr]; exact List.mem_cons_self))
    exact first.trans (ih (first.agreed fun o k u l hr => a o k u l (List.mem_cons_of_mem _ hr)))

end Calm

/-! ## A claim that comes -/

theorem claimWeight_of_unclaimed {s : State} {x : Nat} (h : (s.holdsToken x || s.claimsToken x) = false) :
    s.claimWeight (tokenPart x) = 0 := by
  obtain ⟨leases, entries⟩ := (unclaimed_iff s x).1 h
  have none : (s.leases.map (fun l => tokenPart x l.tokens l.source)).sum = 0 := by
    refine List.sum_eq_zero fun k hk => ?_
    obtain ⟨l, hl, rfl⟩ := List.mem_map.1 hk
    exact List.count_eq_zero.2 (leases l hl)
  have free : pendWeight (claimPart (tokenPart x)) s.req.pend = 0 := by
    refine List.sum_eq_zero fun k hk => ?_
    obtain ⟨e, he, rfl⟩ := List.mem_map.1 hk
    cases e with
    | none => rfl
    | some p =>
      by_cases kind : p.kind = .acquire
      · simp only [Option.elim, claimPart, if_pos kind]
        exact List.count_eq_zero.2 (entries p he kind).2
      · exact if_neg kind
  rw [State.claimWeight, State.weigh, none, free]

theorem claimWeight_addPend_le {e : PendEntry} (kind : e.kind = .acquire) (s : State) (φ : List Nat → Source → Nat) :
    (addPend e s).claimWeight φ ≤ s.claimWeight φ + φ e.list e.source := by
  have le := weigh_addPend_le e s (fun l => φ l.tokens l.source) (claimPart φ)
  rw [claimPart, if_pos kind] at le
  exact le

/-- A claim of unclaimed tokens comes, and where its source is a slot that slot is in progress with it. -/
theorem apart_of_newClaim {s t : State} {e : PendEntry} (a : s.tokensApart) (kind : e.kind = .acquire)
    (leases : t.leases = s.leases) (pend : t.req.pend = (addPend e s).req.pend)
    (list : e.list ≠ []) (nodup : e.list.Nodup) (origin : e.origin = e.list.head?) (free : s.conflict e.list = none)
    (specs : ∀ m, (t.slotAt m).spec = (s.slotAt m).spec ∧
      ((t.slotAt m).state ≠ .disabled → (s.slotAt m).state ≠ .disabled))
    (new : ∀ m, e.source = .slot m → (s.slotAt m).inProgress = false ∧ (t.slotAt m).inProgress = true)
    (old : ∀ m, e.source ≠ .slot m → (t.slotAt m).inProgress = (s.slotAt m).inProgress) : t.tokensApart := by
  rw [tokensApart_iff] at a ⊢
  obtain ⟨tokens, origins, slots⟩ := a
  have weight (φ) : t.claimWeight φ ≤ s.claimWeight φ + φ e.list e.source := by
    have same : t.claimWeight φ = (addPend e s).claimWeight φ := by
      simp only [State.claimWeight, State.weigh, leases, pend]
      rfl
    exact same ▸ claimWeight_addPend_le kind s φ
  refine ⟨fun x => ?_, fun p hp kindp => ?_, fun m => ?_⟩
  · have le := weight (tokenPart x)
    have once : tokenPart x e.list e.source ≤ 1 := List.nodup_iff_count_le_one.1 nodup x
    by_cases named : x ∈ e.list
    · have unclaimed : (s.holdsToken x || s.claimsToken x) = false := by
        simpa using List.find?_eq_none.1 free x named
      have zero := claimWeight_of_unclaimed unclaimed
      omega
    · have zero : tokenPart x e.list e.source = 0 := List.count_eq_zero.2 named
      have few := tokens x
      omega
  · rw [pend] at hp
    rcases Calm.mem_setPend hp with hp | hp
    · exact origins p hp kindp
    · cases hp
      exact ⟨list, origin⟩
  · obtain ⟨spec, idle, once⟩ := slots m
    obtain ⟨sameSpec, on⟩ := specs m
    have le := weight (slotPart m)
    refine ⟨fun h => sameSpec ▸ spec (on h), ?_⟩
    by_cases source : e.source = .slot m
    · obtain ⟨was, now⟩ := new m source
      have zero := idle was
      have one : slotPart m e.list e.source ≤ 1 := by unfold slotPart; split <;> omega
      exact ⟨(fun out => Bool.noConfusion (now.symm.trans out)), (by omega)⟩
    · have none : slotPart m e.list e.source = 0 := if_neg source
      refine ⟨fun out => ?_, by omega⟩
      have zero := idle ((old m source).symm.trans out)
      omega

/-- A slot that has no claim changes, and keeps or takes a specification that passes. -/
theorem apart_of_idleSlot {s t : State} (a : s.tokensApart) (leases : t.leases = s.leases) (req : t.req = s.req)
    (slots : ∀ m, t.slotAt m = s.slotAt m ∨ ((s.slotAt m).inProgress = false ∧
      ((t.slotAt m).state ≠ .disabled → (t.slotAt m).spec.tokens ≠ [] ∧
        (t.slotAt m).spec.tokens.Pairwise (· < ·)))) : t.tokensApart := by
  rw [tokensApart_iff] at a ⊢
  obtain ⟨tokens, origins, old⟩ := a
  have weight (φ) : t.claimWeight φ = s.claimWeight φ := by simp only [State.claimWeight, State.weigh, leases, req]
  refine ⟨fun x => weight _ ▸ tokens x, req ▸ origins, fun m => ?_⟩
  obtain ⟨spec, idle, once⟩ := old m
  rw [weight]
  rcases slots m with same | ⟨out, passes⟩
  · rw [same]
    exact ⟨spec, idle, once⟩
  · exact ⟨passes, fun _ => idle out, once⟩

theorem claimWeight_of_empty {t : State} (leases : t.leases = []) (pend : ∀ p, some p ∉ t.req.pend)
    (φ : List Nat → Source → Nat) : t.claimWeight φ = 0 := by
  have free : pendWeight (claimPart φ) t.req.pend = 0 := by
    refine List.sum_eq_zero fun k hk => ?_
    obtain ⟨e, he, rfl⟩ := List.mem_map.1 hk
    cases e with
    | none => rfl
    | some p => exact absurd he (pend p)
  rw [State.claimWeight, State.weigh, leases, free]
  rfl

/-- Nothing is claimed and every slot is DISABLED. -/
theorem apart_of_initial {t : State} (leases : t.leases = []) (pend : ∀ p, some p ∉ t.req.pend)
    (slots : ∀ m, (t.slotAt m).state = .disabled) : t.tokensApart := by
  have weight := claimWeight_of_empty leases pend
  rw [tokensApart_iff]
  refine ⟨fun x => by rw [weight]; omega, fun p hp => absurd hp (pend p), fun m => ?_⟩
  exact ⟨fun on => absurd (slots m) on, fun _ => weight _, by rw [weight]; omega⟩

end Sys2Proof.Machine
end

