-- ==== Sys2Proof/Proofs/SlotSizes.lean ====
section
/-! PROOFS. The commands of the trigger slots within the sizes of the collections, and with the tokens of claims kept
apart (R153 to R160). -/

namespace Sys2Proof.Machine

/-! ## What a slot keeps -/

theorem slotAt_expireLease (k : Nat) (n : BitVec 2) (s : State) :
    ((expireLease k s).slotAt n).heldPlace = (s.slotAt n).heldPlace ∧
      ((s.slotAt n).state ≠ .disabled → ((expireLease k s).slotAt n).state ≠ .disabled) := by
  unfold expireLease
  split
  · exact ⟨rfl, id⟩
  next l _ =>
    cases l.source with
    | host => exact ⟨rfl, id⟩
    | slot m =>
      have lowered (x : Slot) :
          (if x.state = .held then { x with state := .releasing, gnt := false } else x : Slot).heldPlace = x.heldPlace ∧
            (x.state ≠ .disabled →
              (if x.state = .held then { x with state := .releasing, gnt := false } else x : Slot).state ≠ .disabled) := by
        split
        · exact ⟨rfl, fun _ => nofun⟩
        · exact ⟨rfl, id⟩
      rcases Calm.slotAt_modifySlot_cases m n (fun x : Slot =>
        if x.state = .held then { x with state := .releasing, gnt := false } else x) (setEvent .leaseExpired
          (modifyLeases (fun x => x.names k) (fun x => { x with state := .expiredPending, counter := 0 }) s))
        with same | ⟨rfl, changed⟩
      · exact ⟨congrArg Slot.heldPlace same, fun on off => on ((congrArg Slot.state same).symm.trans off)⟩
      · obtain ⟨place, state⟩ := lowered (s.slotAt n)
        exact ⟨(congrArg Slot.heldPlace changed).trans place,
          fun on off => state on ((congrArg Slot.state changed).symm.trans off)⟩

theorem slotAt_settleLeases (n : BitVec 2) (s : State) :
    ((settleLeases s).slotAt n).heldPlace = (s.slotAt n).heldPlace ∧
      ((s.slotAt n).state ≠ .disabled → ((settleLeases s).slotAt n).state ≠ .disabled) := by
  have fold : ∀ (ls : List Lease) (t : State),
      ((ls.foldl (fun t l => expireLease l.first t) t).slotAt n).heldPlace = (t.slotAt n).heldPlace ∧
        ((t.slotAt n).state ≠ .disabled →
          ((ls.foldl (fun t l => expireLease l.first t) t).slotAt n).state ≠ .disabled) := by
    intro ls
    induction ls with
    | nil => exact fun t => ⟨rfl, id⟩
    | cons l ls ih =>
      intro t
      obtain ⟨place, state⟩ := slotAt_expireLease l.first n t
      obtain ⟨places, states⟩ := ih (expireLease l.first t)
      exact ⟨places.trans place, states ∘ state⟩
  exact fold _ s

/-- The slot that has its stop set keeps its state. -/
theorem slotAt_stopped (n : BitVec 2) (s : State) :
    ((modifySlot n Slot.stopped s).slotAt n).state = (s.slotAt n).state := by
  rcases Calm.slotAt_modifySlot_cases n n Slot.stopped s with same | ⟨_, changed⟩
  · rw [same]
  · rw [changed]
    rfl

/-! ## Withdrawal and release asked by a slot (R145, R159, R160) -/

namespace Fits

variable {s : State} {k j : Nat}

theorem oneMore_of_free (h : Fits k 0 s) (free : 0 < s.outgoingFree) : Fits k 1 s := by
  have room : s.req.outgoing.length + 1 ≤ Config.outgoingDepth := by
    unfold State.outgoingFree at free
    omega
  exact ⟨h.fifo, room, h.asm, h.pend, h.slots, h.reserved, h.places, h.leases⟩

theorem slotWithdraw (h : Fits k 0 s) (n : BitVec 2) (claiming : (s.slotAt n).state = .claiming) :
    Fits k 0 (slotWithdraw n s) := by
  have place := h.slot_place n (.inl claiming)
  have asked {t : State} (ht : Fits k 0 t) (same : t.slots = s.slots) :
      Fits k 0 (Machine.modifySlot n (fun x => { x with state := .withdrawing }) t) := by
    refine ht.modifySlot_keep n _ (fun _ => rfl) (fun _ _ => ?_)
    have slot : t.slotAt n = s.slotAt n := by simp only [State.slotAt, same]
    rw [slot]
    exact place
  unfold Machine.slotWithdraw
  split
  · exact h
  · split
    · exact h
    next e here =>
      dsimp only
      split
      · split
        · exact asked (h.setPend_some _ here) rfl
        · exact (h.removeOutgoing _).withdrawClaim _ here
      · split
        next free => exact asked (((h.oneMore_of_free free).setPend_some _ here).addOutgoing _) rfl
        next => exact asked (h.setPend_some _ here) rfl
      all_goals exact h

theorem slotLetGo (h : Fits k j s) (n : BitVec 2) (held : (s.slotAt n).state = .held) : Fits k j (slotLetGo n s) :=
  h.settleLeases.slotRelease n ((slotAt_settleLeases n s).1.trans (h.slot_place n (.inr (.inr held))))

theorem disableSlot (h : Fits k 0 s) (n : BitVec 2) : Fits k 0 (disableSlot n s) := by
  have stopped : Fits k 0 (Machine.modifySlot n Slot.stopped s) := h.modifySlot_keep n _ (fun _ => rfl) id
  have off : Fits k 0 (Machine.modifySlot n (fun x => { x with state := .disabled }) s) :=
    h.modifySlot_keep n _ (fun _ => rfl) (fun _ => by simp [Slot.hasPlace])
  unfold Machine.disableSlot
  cases state : (s.slotAt n).state with
  | disabled => exact h
  | armed | triggered => exact off
  | claiming => exact stopped.slotWithdraw n ((slotAt_stopped n s).trans state)
  | held => exact stopped.slotLetGo n ((slotAt_stopped n s).trans state)
  | withdrawing | releasing => exact stopped

theorem enableSlot (h : Fits k j s) (n : BitVec 2) : Fits k j (enableSlot n s) := by
  unfold Machine.enableSlot
  dsimp only
  split
  · split
    · exact h.slotEvent n _
    · exact h.modifySlot_keep n Slot.armed (fun _ => rfl) (fun _ => by simp [Slot.hasPlace, Slot.armed])
  · exact h

theorem writeEnable (h : Fits k 0 s) (n : BitVec 2) (v : Bool) : Fits k 0 (writeEnable n v s) := by
  cases v
  · exact h.disableSlot n
  · exact h.enableSlot n

theorem setCtrl (h : Fits k j s) (n : BitVec 2) (v : Byte) : Fits k j (Machine.modifySlot n (Slot.setCtrl v) s) :=
  h.modifySlot_keep n _ (fun x => by unfold Slot.setCtrl; split <;> rfl) (fun place => by
    unfold Slot.setCtrl
    split <;> exact place)

theorem setSpec (h : Fits k j s) (n : BitVec 2) (p : SlotSpec) : Fits k j (Machine.modifySlot n (Slot.setSpec p) s) :=
  h.modifySlot_keep n _ (fun x => by unfold Slot.setSpec; split <;> rfl) (fun place => by
    unfold Slot.setSpec
    split <;> exact place)

theorem writeSlotCtrl (h : Fits k 0 s) (n : BitVec 2) (v : Byte) : Fits k 0 (writeSlotCtrl n v s) :=
  (h.setCtrl n v).writeEnable n _

theorem fireSlot (h : Fits k j s) (n : BitVec 2) : Fits k j (fireSlot n s) := by
  unfold Machine.fireSlot
  split
  · exact h.slotTrigger n
  · exact h

theorem clearTrigger (h : Fits k j s) (n : BitVec 2) : Fits k j (Machine.modifySlot n Slot.clearTrigger s) :=
  h.modifySlot_keep n _ (fun x => by unfold Slot.clearTrigger; split <;> rfl) (fun place => by
    unfold Slot.clearTrigger
    split
    · simp [Slot.hasPlace]
    · exact place)

theorem clearMissed (h : Fits k j s) (n : BitVec 2) : Fits k j (Machine.modifySlot n Slot.clearMissed s) :=
  h.modifySlot_keep n _ (fun _ => rfl) id

theorem clearSlotFlags (h : Fits k j s) (n : BitVec 2) (b : Byte) : Fits k j (clearSlotFlags n b s) := by
  have first : Fits k j (if bitOf b 3 then Machine.modifySlot n Slot.clearTrigger s else s) := by
    split
    · exact h.clearTrigger n
    · exact h
  unfold Machine.clearSlotFlags
  dsimp only
  split
  · exact first.clearMissed n
  · exact first

theorem oppositeEdge (h : Fits k 0 s) (n : BitVec 2) : Fits k 0 (oppositeEdge n s) := by
  unfold Machine.oppositeEdge
  cases state : (s.slotAt n).state with
  | disabled | armed | withdrawing | releasing => exact h
  | triggered => exact h.modifySlot_keep n _ (fun _ => rfl) (fun _ => by simp [Slot.hasPlace])
  | claiming => exact h.slotWithdraw n state
  | held => exact h.slotLetGo n state

theorem pinEdge (h : Fits k 0 s) (n : BitVec 2) (level : Bool) : Fits k 0 (pinEdge n level s) := by
  have sampled : Fits k 0 (Machine.modifySlot n (fun y => { y with pin := level }) (setTrgPin n level s)) :=
    (h.of_same (t := setTrgPin n level s) rfl rfl rfl).modifySlot_keep n _ (fun _ => rfl) id
  unfold Machine.pinEdge
  dsimp only
  split
  · exact h
  · split
    · exact sampled.slotTrigger n
    · split
      · exact sampled.oppositeEdge n
      · exact sampled

end Fits

/-! ## The tokens -/

namespace Calm

variable {s : State}

theorem slotWithdraw (n : BitVec 2) (s : State) : Calm s (slotWithdraw n s) := by
  have asked {t : State} (claimed : 1 ≤ s.claimWeight (slotPart n)) (ht : Calm s t) :
      Calm s (Machine.modifySlot n (fun x => { x with state := .withdrawing }) t) :=
    ht.behind_modifySlot n _ rfl (fun _ => .inr claimed) nofun
  unfold Machine.slotWithdraw
  split
  · exact refl s
  next m found =>
    split
    · exact refl s
    next e here =>
      obtain ⟨e', here', kind, source⟩ := claimOfSlot_eq_some found
      obtain rfl : e = e' := Option.some.inj (here.symm.trans here')
      have claimed := one_le_slotPart here kind source
      have withdrawing (b : Bool) : Calm s (setPend m (some { e with phase := .withdrawing, heldWithdraw := b }) s) :=
        setPend_same here rfl rfl rfl rfl
      dsimp only
      split
      · split
        · exact asked claimed (withdrawing _)
        · exact (removeOutgoing _ s).trans (withdrawClaim (s := Machine.removeOutgoing _ s) [] here kind)
      · split
        · exact asked claimed ((withdrawing _).trans (addOutgoing _ _))
        · exact asked claimed (withdrawing _)
      all_goals exact refl s

theorem slotLetGo (n : BitVec 2) (on : (s.slotAt n).state ≠ .disabled) : Calm s (slotLetGo n s) :=
  (settleLeases s).trans (slotRelease n ((slotAt_settleLeases n s).2 on))

theorem stopped (n : BitVec 2) (s : State) : Calm s (Machine.modifySlot n Slot.stopped s) :=
  modifySlot_flags n Slot.stopped (fun _ => rfl) (fun _ => rfl) s

theorem disableSlot (n : BitVec 2) (s : State) : Calm s (disableSlot n s) := by
  have off (idle : (s.slotAt n).inProgress = false) :
      Calm s (Machine.modifySlot n (fun x => { x with state := .disabled }) s) :=
    modifySlot n _ s rfl (fun on => absurd rfl on) (fun _ => idle)
  unfold Machine.disableSlot
  cases state : (s.slotAt n).state with
  | disabled => exact refl s
  | armed | triggered => exact off (by rw [Slot.inProgress, state])
  | claiming => exact (stopped n s).trans (slotWithdraw n _)
  | held => exact (stopped n s).trans (slotLetGo n (by rw [slotAt_stopped, state]; nofun))
  | withdrawing | releasing => exact stopped n s

theorem setCtrl (n : BitVec 2) (v : Byte) (s : State) : Calm s (Machine.modifySlot n (Slot.setCtrl v) s) :=
  modifySlot_flags n _ (fun x => by unfold Slot.setCtrl; split <;> rfl)
    (fun x => by unfold Slot.setCtrl; split <;> rfl) s

theorem fireSlot (n : BitVec 2) (s : State) : Calm s (fireSlot n s) := by
  unfold Machine.fireSlot
  exact ite (slotTrigger n s) (refl s)

theorem clearTrigger (n : BitVec 2) (s : State) : Calm s (Machine.modifySlot n Slot.clearTrigger s) := by
  refine modifySlot n _ s ?_ (fun on => ?_) (fun out => ?_)
  · unfold Slot.clearTrigger
    split <;> rfl
  · unfold Slot.clearTrigger at on
    split at on
    next triggered => exact .inl (by rw [triggered]; nofun)
    next => exact .inl on
  · unfold Slot.clearTrigger at out
    split at out
    next triggered => rw [Slot.inProgress, triggered]
    next => exact out

theorem clearMissed (n : BitVec 2) (s : State) : Calm s (Machine.modifySlot n Slot.clearMissed s) :=
  modifySlot_flags n Slot.clearMissed (fun _ => rfl) (fun _ => rfl) s

theorem clearSlotFlags (n : BitVec 2) (b : Byte) (s : State) : Calm s (clearSlotFlags n b s) := by
  have first : Calm s (if bitOf b 3 then Machine.modifySlot n Slot.clearTrigger s else s) :=
    ite (clearTrigger n s) (refl s)
  unfold Machine.clearSlotFlags
  exact ite (first.trans (clearMissed n _)) first

theorem oppositeEdge (n : BitVec 2) (s : State) : Calm s (oppositeEdge n s) := by
  unfold Machine.oppositeEdge
  cases state : (s.slotAt n).state with
  | disabled | armed | withdrawing | releasing => exact refl s
  | triggered =>
    exact modifySlot n _ s rfl (fun _ => .inl (by rw [state]; nofun)) (fun _ => by rw [Slot.inProgress, state])
  | claiming => exact slotWithdraw n s
  | held => exact slotLetGo n (by rw [state]; nofun)

theorem pinEdge (n : BitVec 2) (level : Bool) (s : State) : Calm s (pinEdge n level s) := by
  have sampled : Calm s (Machine.modifySlot n (fun y => { y with pin := level }) (setTrgPin n level s)) :=
    (of_same (s := s) (t := setTrgPin n level s) rfl rfl rfl).trans
      (modifySlot_flags n (fun y => { y with pin := level }) (fun _ => rfl) (fun _ => rfl) _)
  unfold Machine.pinEdge
  dsimp only
  exact ite (refl s) (ite (sampled.trans (slotTrigger n _)) (ite (sampled.trans (oppositeEdge n _)) sampled))

end Calm

/-! ## A slot takes a specification, or is armed with one that passes (R153) -/

/-- The list of a specification that passes the check is ascending and not empty. -/
theorem list_of_slotCheck {g : Grade} {u : Bool} {t : List Entry} {x : Slot} (h : slotCheck g u t x = none) :
    x.spec.tokens ≠ [] ∧ x.spec.tokens.Pairwise (· < ·) := by
  unfold slotCheck at h
  dsimp only at h
  split at h
  · cases h
  · split at h
    · cases h
    · split at h
      next passes =>
        simp only [Bool.and_eq_true, decide_eq_true_eq, ascending_iff] at passes
        obtain ⟨⟨⟨⟨⟨⟨⟨⟨⟨long, _⟩, _⟩, order⟩, _⟩, _⟩, _⟩, _⟩, _⟩, _⟩ := passes
        refine ⟨fun empty => ?_, order⟩
        have none := congrArg List.length empty
        simp [SlotSpec.tokens] at none
        omega
      · cases h

theorem enableSlot_apart {s : State} (n : BitVec 2) (a : s.tokensApart) : (enableSlot n s).tokensApart := by
  by_cases disabled : (s.slotAt n).state = .disabled
  · cases check : slotCheck s.grade (decide (s.member.state = .unconfigured)) s.table (s.slotAt n) with
    | some c =>
      rw [enableSlot_of_fails disabled check]
      exact (Calm.slotEvent n c s).apart a
    | none =>
      rw [enableSlot_of_passes disabled check]
      refine apart_of_idleSlot a rfl rfl (fun m => ?_)
      rcases Calm.slotAt_modifySlot_cases n m Slot.armed s with same | ⟨rfl, changed⟩
      · exact .inl same
      · refine .inr ⟨by rw [Slot.inProgress, disabled], fun _ => ?_⟩
        rw [changed]
        exact list_of_slotCheck check
  · rw [enableSlot_of_busy disabled]
    exact a

theorem writeEnable_apart {s : State} (n : BitVec 2) (v : Bool) (a : s.tokensApart) :
    (writeEnable n v s).tokensApart := by
  cases v
  · exact (Calm.disableSlot n s).apart a
  · exact enableSlot_apart n a

theorem setSpec_apart {s : State} (n : BitVec 2) (p : SlotSpec) (a : s.tokensApart) :
    (modifySlot n (Slot.setSpec p) s).tokensApart := by
  refine apart_of_idleSlot a rfl rfl (fun m => ?_)
  rcases Calm.slotAt_modifySlot_cases n m (Slot.setSpec p) s with same | ⟨rfl, changed⟩
  · exact .inl same
  · by_cases disabled : (s.slotAt m).state = .disabled
    · rw [Slot.setSpec, if_pos disabled] at changed
      refine .inr ⟨by rw [Slot.inProgress, disabled], fun on => absurd ?_ on⟩
      rw [changed]
      exact disabled
    · rw [Slot.setSpec, if_neg disabled] at changed
      exact .inl changed

end Sys2Proof.Machine
end

