-- ==== Sys2Proof/Proofs/RequestSizes.lean ====
section
/-! PROOFS. The request commands within the sizes of the collections, and with the tokens of claims kept apart (R132 to
R149, R156). -/

namespace Sys2Proof.Machine

/-! ## SLOT_STATUS and the request window -/

theorem writeSlotStatus_of (P : State → Prop) (n : BitVec 2) (b0 b1 : Byte) {s : State} (h : P s)
    (counted : ∀ (t : State) (k : Nat), P t → P { t with freeCount := k }) (fire : ∀ t, P t → P (fireSlot n t))
    (clear : ∀ t, P t → P (clearSlotFlags n b0 t)) : P (writeSlotStatus n b0 b1 s) := by
  unfold writeSlotStatus
  dsimp only
  split
  · have start := counted s (s.freeCount + 1) h
    split
    · exact clear _ (fire _ start)
    · exact fire _ (clear _ start)
  · split
    · exact fire _ h
    · exact clear _ h

namespace Fits

variable {s : State} {k j : Nat}

theorem writeSlotStatus (h : Fits k j s) (n : BitVec 2) (b0 b1 : Byte) : Fits k j (writeSlotStatus n b0 b1 s) :=
  writeSlotStatus_of (Fits k j) n b0 b1 h (fun _ _ ht => ht.of_same rfl rfl rfl) (fun _ ht => ht.fireSlot n)
    (fun _ ht => ht.clearSlotFlags n b0)

/-- The request window (R132, R179). -/
theorem takeReqByte (h : Fits k j s) (b : Byte) : Fits k j (takeReqByte b s) := by
  have emptied : Fits k j (s.withReq { s.req with asm := [] }) :=
    h.of_req _ h.fifo h.outgoing (Nat.zero_le _) h.pend (Nat.le_refl _)
  unfold Machine.takeReqByte pushRequest
  dsimp only
  split
  next short => exact h.of_req _ h.fifo h.outgoing (Nat.le_of_lt_succ short) h.pend (Nat.le_refl _)
  next =>
    split
    next room =>
      refine emptied.of_req _ ?_ emptied.outgoing emptied.asm emptied.pend (Nat.le_refl _)
      rw [List.length_append, List.length_singleton]
      exact room
    next => exact emptied.setEvent _

/-! ## The head that is taken (R133) -/

/-- The head leaves the FIFO with a place for its request, and an outgoing place where its checks ask for one. -/
theorem takeHead (h : Fits 0 0 s) {kind : Option ReqKind} {f : Request → State → State}
    (taken : ∀ r u, kindOfCode r.code = kind → Fits 1 0 u → (needsOutgoing u r = true → Fits 1 1 u) →
      Fits 0 0 (f r u)) : Fits 0 0 (takeHead kind f s) := by
  unfold Machine.takeHead
  split
  · exact h
  next r head =>
    split
    next code =>
      obtain ⟨_, places, outgoing, _⟩ := (dispatchable_eq_some s r).1 head
      have place : Fits 1 0 s := ⟨h.fifo, h.outgoing, h.asm, h.pend, h.slots, places, h.places, h.leases⟩
      have popped {j : Nat} (hs : Fits 1 j s) : Fits 1 j (popRequest s) :=
        hs.of_req _ (by
          rw [List.length_drop]
          exact (Nat.sub_le _ _).trans hs.fifo) hs.outgoing hs.asm hs.pend (Nat.le_refl _)
      exact taken r _ code (popped place) (fun needs => popped (place.oneMore_of_free (outgoing needs)))
    next => exact h

theorem takeAcquire (h : Fits 1 0 s) {r : Request} (code : kindOfCode r.code = some .acquire)
    (out : needsOutgoing s r = true → Fits 1 1 s) : Fits 0 0 (takeAcquire r s) := by
  unfold Machine.takeAcquire
  split
  · exact h.pushCompletion _
  next passes =>
    have needs : needsOutgoing s r = true := by simp only [needsOutgoing, code, passes, Option.isNone_none]
    exact ((out needs).addPend _).addOutgoing _

theorem takeSignal (h : Fits 1 0 s) {r : Request} (code : kindOfCode r.code = some .signal)
    (out : needsOutgoing s r = true → Fits 1 1 s) : Fits 0 0 (takeSignal r s) := by
  unfold Machine.takeSignal
  split
  · exact h.pushCompletion _
  next passes =>
    have needs : needsOutgoing s r = true := by simp only [needsOutgoing, code, passes, Option.isNone_none]
    exact ((out needs).addPend _).addOutgoing _

theorem takeCancel (h : Fits 1 0 s) {r : Request} (code : kindOfCode r.code = some .cancel)
    (out : needsOutgoing s r = true → Fits 1 1 s) : Fits 0 0 (takeCancel r s) := by
  unfold Machine.takeCancel
  split
  · exact h.pushCompletion _
  next passes =>
    have unused : Fits 0 0 s := h.mono (Nat.zero_le _) (Nat.le_refl _)
    split
    · exact unused
    next n found =>
      split
      · exact unused
      next e here =>
        have waits {j : Nat} (hs : Fits 1 j s) :
            Fits 0 j (Machine.addPend (cancelEntry r) (setPend n (some { e with phase := .withdrawing }) s)) :=
          (hs.setPend_some _ here).addPend _
        unfold cancelClaim
        dsimp only
        split
        · split
          · exact waits h
          · exact ((h.removeOutgoing _).withdrawClaim _ here).pushCompletion _
        next waiting =>
          have needs : needsOutgoing s r = true := by
            simp only [needsOutgoing, code, passes, cancelWaits, found, Option.bind_some, here, Option.any_some,
              waiting]
            rfl
          exact (waits (out needs)).addOutgoing _
        all_goals exact unused

theorem tellHostRelease (h : Fits k j s) (src : Source) : Fits k j (tellHostRelease src s) := by
  cases src with
  | host => exact h
  | slot n => exact h.modifySlot_keep n _ (fun _ => rfl) (fun _ => by simp [Slot.hasPlace])

theorem takeRelease (h : Fits (k + 1) j s) (r : Request) : Fits k j (takeRelease r s) := by
  have settled := h.settleLeases
  unfold Machine.takeRelease
  dsimp only
  split
  · exact settled.pushCompletion _
  · split
    · exact settled.pushCompletion _
    · exact ((settled.modifyLeases _ Lease.releasing (fun _ => rfl)).addPend _).tellHostRelease _

theorem logError (h : Fits k j s) (e : ErrKind) (hd : Header) : Fits k j (logError e hd s) := by
  rw [logError_eq]
  exact h.of_same rfl rfl rfl

theorem takeRenew (h : Fits (k + 1) j s) (r : Request) : Fits k j (takeRenew r s) := by
  have settled := h.settleLeases
  unfold Machine.takeRenew
  dsimp only
  split
  · exact settled.pushCompletion _
  · split
    · exact settled.pushCompletion _
    · exact settled.pushCompletion _
    · exact ((settled.modifyLeases _ (Lease.renewed _) (fun _ => rfl)).setEventIf _ _).pushCompletion _
    · exact (settled.logError _ _).pushCompletion _
    · exact ((settled.expireLease _).logError _ _).pushCompletion _

/-! ## SLOT_ISSUE and HELD_WITHDRAW_PLACE (R145, R156) -/

/-- The issue of a slot takes two places: the entry's and the slot's. -/
theorem issueSlot (h : Fits 2 1 s) (n : BitVec 2) : Fits 0 0 (issueSlot n s) := by
  unfold Machine.issueSlot
  dsimp only
  split
  · exact (((h.mono (Nat.le_succ _) (Nat.zero_le _)).pushCompletion _).slotEvent n _).slotReturn n _
  · refine ((h.addPend _).addOutgoing _).modifySlot n _ (fun _ => rfl) ?_
    rw [if_pos rfl]
    omega

theorem slotIssue (h : Fits 0 0 s) : Fits 0 0 (slotIssue s) := by
  unfold Machine.slotIssue
  split
  next n issues =>
    unfold State.issuableSlot at issues
    split at issues
    next ready =>
      obtain ⟨_, places, free⟩ := ready
      have room : Fits 2 0 s := ⟨h.fifo, h.outgoing, h.asm, h.pend, h.slots, places, h.places, h.leases⟩
      exact (room.oneMore_of_free free).issueSlot n
    next => cases issues
  next => exact h

theorem placeHeld (h : Fits 0 0 s) : Fits 0 0 (placeHeld s) := by
  unfold Machine.placeHeld
  split
  next room =>
    have one : Fits 0 1 s := ⟨h.fifo, room, h.asm, h.pend, h.slots, h.reserved, h.places, h.leases⟩
    split
    next m e next =>
      obtain ⟨k, _, found⟩ := List.exists_of_findSome?_eq_some next
      obtain ⟨i, _, here⟩ := Option.bind_eq_some_iff.1 found
      obtain ⟨e', here, same⟩ := Option.map_eq_some_iff.1 here
      cases same
      exact (one.setPend_some _ here).addOutgoing _
    next => exact h
  next => exact h

end Fits

/-! ## The tokens -/

namespace Calm

variable {s : State}

theorem logError (e : ErrKind) (hd : Header) (s : State) : Calm s (logError e hd s) := by
  rw [logError_eq]
  exact of_same rfl rfl rfl

theorem takeSignal (r : Request) (s : State) : Calm s (takeSignal r s) := by
  unfold Machine.takeSignal
  split
  · exact pushCompletion _ s
  · refine (addPend_noClaim ?_ s).trans (addOutgoing _ _)
    exact ReqKind.noConfusion

theorem takeCancel (r : Request) (s : State) : Calm s (takeCancel r s) := by
  unfold Machine.takeCancel
  split
  · exact pushCompletion _ s
  · split
    · exact refl s
    next n found =>
      split
      · exact refl s
      next e here =>
        obtain ⟨e', here', kind, _⟩ := claimOf_eq_some found
        obtain rfl : e = e' := Option.some.inj (here.symm.trans here')
        have noClaim : (cancelEntry r).kind ≠ .acquire := ReqKind.noConfusion
        have waits : Calm s (addPend (cancelEntry r) (setPend n (some { e with phase := .withdrawing }) s)) :=
          (setPend_same (e' := { e with phase := .withdrawing }) here rfl rfl rfl rfl).trans (addPend_noClaim noClaim _)
        have gone : Calm s (Machine.withdrawClaim n e [] (Machine.removeOutgoing (fun f => f.entry == n && f.isClaim) s)) :=
          (removeOutgoing _ s).trans (withdrawClaim (s := Machine.removeOutgoing _ s) [] here kind)
        unfold cancelClaim
        dsimp only
        split
        · exact ite waits (gone.trans (pushCompletion _ _))
        · exact waits.trans (addOutgoing _ _)
        all_goals exact refl s

/-- The slot of a record that is released is in progress with it. -/
theorem tellHostRelease {t : State} (h : Calm s t) {l : Lease} (there : l ∈ s.leases) :
    Calm s (tellHostRelease l.source t) := by
  cases source : l.source with
  | host => exact h
  | slot n => exact h.behind_modifySlot n _ rfl (fun _ => .inr (one_le_slotPart_of_lease there source)) nofun

theorem mem_of_releaseCheck {r : Request} {k : ReqKind} {l : Lease} (h : releaseCheck s r k = .ok l) : l ∈ s.leases := by
  unfold releaseCheck at h
  split at h
  · cases h
  · split at h
    · cases h
    · split at h
      next x found =>
        split at h
        · cases h
          exact List.mem_of_find?_eq_some found
        · cases h
      next => cases h
    · split at h
      next x found =>
        cases h
        exact List.mem_of_find?_eq_some found
      next => cases h

theorem takeRelease (r : Request) (s : State) : Calm s (takeRelease r s) := by
  refine (settleLeases s).trans ?_
  unfold Machine.takeRelease
  dsimp only
  generalize Machine.settleLeases s = u
  split
  · exact pushCompletion _ u
  next l found =>
    refine ite (pushCompletion _ u) (tellHostRelease ?_ (mem_of_releaseCheck found))
    refine (modifyLeases _ Lease.releasing (fun _ => rfl) (fun _ => rfl) u).trans (addPend_noClaim ?_ _)
    exact ReqKind.noConfusion

theorem takeRenew (r : Request) (s : State) : Calm s (takeRenew r s) := by
  refine (settleLeases s).trans ?_
  unfold Machine.takeRenew
  dsimp only
  generalize Machine.settleLeases s = u
  split
  · exact pushCompletion _ u
  next l found =>
    split
    · exact pushCompletion _ u
    · exact pushCompletion _ u
    · exact ((modifyLeases _ (Lease.renewed _) (fun _ => rfl) (fun _ => rfl) u).trans (setEventIf _ _ _)).trans
        (pushCompletion _ _)
    · exact (logError _ _ u).trans (pushCompletion _ _)
    · exact ((expireLease _ u).trans (logError _ _ _)).trans (pushCompletion _ _)

theorem placeHeld (s : State) : Calm s (placeHeld s) := by
  unfold Machine.placeHeld
  split
  · split
    next m e next =>
      obtain ⟨k, _, found⟩ := List.exists_of_findSome?_eq_some next
      obtain ⟨i, _, here⟩ := Option.bind_eq_some_iff.1 found
      obtain ⟨e', here, same⟩ := Option.map_eq_some_iff.1 here
      cases same
      exact (setPend_same (e' := { e with heldWithdraw := false }) here rfl rfl rfl rfl).trans (addOutgoing _ _)
    next => exact refl s
  · exact refl s

end Calm

/-! ## New claims (R138, R156) -/

theorem takeAcquire_apart {s : State} (r : Request) (a : s.tokensApart) : (takeAcquire r s).tokensApart := by
  cases passes : acquireRefusal s r with
  | some c =>
    rw [takeAcquire_of_refused passes]
    exact (Calm.pushCompletion c s).apart a
  | none =>
    have form : r.acquireOps.sound s.table s.n = true := by
      by_contra bad
      unfold acquireRefusal at passes
      simp only [Bool.eq_false_iff.2 bad, Bool.not_false, if_true] at passes
      split at passes <;> cases passes
    have free : s.conflict r.acquireOps.tokens = none := by
      unfold acquireRefusal at passes
      dsimp only at passes
      split at passes
      · cases passes
      · split at passes
        · cases passes
        · split at passes
          · cases passes
          · split at passes
            · cases passes
            · exact Option.map_eq_none_iff.1 passes
    obtain ⟨some, few, _, order, _⟩ := (AcquireOps.sound_iff _ _ _).1 form
    have list : r.acquireOps.tokens ≠ [] := by
      intro empty
      have none := congrArg List.length empty
      simp only [Request.acquireOps, List.length_map, List.length_take, List.length_cons, List.length_nil] at none some
      omega
    rw [takeAcquire_of_passes passes]
    exact apart_of_newClaim (e :=
      { tag := r.tag, source := .host, kind := .acquire, origin := r.acquireOps.tokens.head?,
        list := r.acquireOps.tokens, units := r.acquireOps.units, cls := r.acquireOps.cls, phase := .outgoing,
        progress := [], heldWithdraw := false }) a rfl rfl rfl list
      (order.imp (fun lt => Nat.ne_of_lt lt)) rfl free (fun _ => ⟨rfl, id⟩) nofun (fun _ _ => rfl)

theorem triggered_of_issuable {s : State} {n : BitVec 2} (h : s.issuableSlot = some n) :
    (s.slotAt n).state = .triggered := by
  unfold State.issuableSlot at h
  split at h
  · exact of_decide_eq_true (List.find?_some (p := fun n => decide ((s.slotAt n).state = .triggered)) h)
  · cases h

theorem issueSlot_apart {s : State} {n : BitVec 2} (slots : s.slots.length = 4)
    (triggered : (s.slotAt n).state = .triggered) (a : s.tokensApart) : (issueSlot n s).tokensApart := by
  have idle : (s.slotAt n).inProgress = false := by rw [Slot.inProgress, triggered]
  have on : (s.slotAt n).state ≠ .disabled := by rw [triggered]; nofun
  cases free : s.conflict (s.slotAt n).spec.tokens with
  | some k =>
    have sameSlot (u : State) (hu : u.slots = s.slots) :
        ((slotEvent n .conflict u).slotAt n).state = .triggered := by
      have slot : u.slotAt n = s.slotAt n := by simp only [State.slotAt, hu]
      rcases Calm.slotAt_modifySlot_cases n n (fun x => { x with cause := .conflict }) u with same | ⟨_, changed⟩
      · exact (congrArg Slot.state (same.trans slot)).trans triggered
      · exact (congrArg Slot.state changed).trans ((congrArg Slot.state slot).trans triggered)
    have told (c : Completion) : Calm s (slotReturn n false (slotEvent n .conflict (pushCompletion c s))) := by
      have state := sameSlot (pushCompletion c s) rfl
      exact ((Calm.pushCompletion c s).trans (Calm.slotEvent n _ _)).slotReturn n false
        (.inl (by rw [state]; nofun)) (.inl (by rw [Slot.inProgress, state]))
    unfold issueSlot
    simp only [free]
    exact (told _).apart a
  | none =>
    have passes : (s.slotAt n).spec.tokens ≠ [] ∧ (s.slotAt n).spec.tokens.Pairwise (· < ·) := (a.2.2 n).1 on
    obtain ⟨list, order⟩ := passes
    rw [issueSlot_of_free free]
    have slotAt (m : BitVec 2) := slotAt_modifySlot n m
      (fun y : Slot => { y with state := .claiming, heldPlace := true }) (s := s) slots
    refine apart_of_newClaim (e :=
      { tag := (s.slotAt n).spec.tag, source := .slot n, kind := .acquire,
        origin := (s.slotAt n).spec.tokens.head?, list := (s.slotAt n).spec.tokens,
        units := (s.slotAt n).spec.units.toNat, cls := (s.slotAt n).spec.cls.toNat, phase := .outgoing,
        progress := [], heldWithdraw := false }) a rfl rfl rfl list
      (order.imp (fun lt => Nat.ne_of_lt lt)) rfl free (fun m => ?_) (fun m source => ?_) (fun m source => ?_)
    · by_cases same : m = n
      · subst same
        have spec := congrArg Slot.spec ((slotAt m).trans (if_pos rfl))
        exact ⟨spec, fun _ => on⟩
      · have other := (slotAt m).trans (if_neg same)
        exact ⟨congrArg Slot.spec other, fun h off => h ((congrArg Slot.state other).trans off)⟩
    · cases source
      exact ⟨idle, congrArg Slot.inProgress ((slotAt n).trans (if_pos rfl))⟩
    · have other : m ≠ n := fun same => source (congrArg Source.slot same.symm)
      exact congrArg Slot.inProgress ((slotAt m).trans (if_neg other))

end Sys2Proof.Machine
end

