-- ==== Sys2Proof/Proofs/Steady.lean ====
section
/-! PROOFS. What an operation keeps of the counters, the sizes and the claims (R16, R99, R133, R156), and the operations
that set records anew: the purge and the resets. -/

namespace Sys2Proof.Machine

/-! ## The relation -/

/-- The presence table has its 16 entries, and the service list names no joiner twice and never this station. -/
def State.roster (s : State) : Prop :=
  s.member.peers.length = 16 ∧ (s.snap.service.map Prod.fst).Nodup ∧ ∀ r ∈ s.snap.service, r.1 ≠ s.station

/-- From s to t the counters stay sound and the collections within their sizes, and the tokens stay apart where the
frame handed over agrees with the claims. -/
structure Steady (agree : Prop) (s t : State) : Prop where
  counters : s.countersSound → t.countersSound
  roster : s.roster → t.roster
  fits : Fits 0 0 s → Fits 0 0 t
  apart : agree → Fits 0 0 s → s.tokensApart → t.tokensApart

namespace Steady

variable {a : Prop} {s t u : State}

theorem refl (s : State) : Steady a s s := ⟨id, id, id, fun _ _ => id⟩

theorem trans (h : Steady a s t) (g : Steady a t u) : Steady a s u :=
  ⟨g.counters ∘ h.counters, g.roster ∘ h.roster, g.fits ∘ h.fits,
    fun agree fits => g.apart agree (h.fits fits) ∘ h.apart agree fits⟩

/-- The later stage first: it says through which state the two meet. -/
theorem after (g : Steady a t u) (h : Steady a s t) : Steady a s u := h.trans g

theorem ite {c : Prop} [Decidable c] (ht : Steady a s t) (hu : Steady a s u) : Steady a s (if c then t else u) := by
  split <;> assumption

/-- The units change alone. -/
theorem of_units (h : OnlyUnits s t) (fits : Fits 0 0 s → Fits 0 0 t)
    (apart : a → Fits 0 0 s → s.tokensApart → t.tokensApart) : Steady a s t := by
  refine ⟨fun c => ?_, fun r => ?_, fits, apart⟩
  · rw [State.countersSound, h.line]
    exact c
  · rw [State.roster, h.member, h.snap, h.station]
    exact r

theorem of_calm (h : OnlyUnits s t) (fits : Fits 0 0 s → Fits 0 0 t) (calm : Calm s t) : Steady a s t :=
  of_units h fits (fun _ _ => calm.apart)

/-- The units stay. -/
theorem of_records (counters : s.countersSound → t.countersSound) (roster : s.roster → t.roster)
    (leases : t.leases = s.leases) (req : t.req = s.req) (slots : t.slots = s.slots) : Steady a s t :=
  ⟨counters, roster, fun h => h.of_same leases req slots,
    fun _ _ => (Calm.of_same leases (congrArg Requests.pend req) slots).apart⟩

/-- The line, the peers, the service list, the station and the units stay. -/
theorem of_same (line : t.line = s.line) (member : t.member.peers = s.member.peers)
    (service : t.snap.service = s.snap.service) (station : t.station = s.station) (leases : t.leases = s.leases)
    (req : t.req = s.req) (slots : t.slots = s.slots) : Steady a s t := by
  refine of_records (fun c => ?_) (fun r => ?_) leases req slots
  · rw [State.countersSound, line]
    exact c
  · rw [State.roster, member, service, station]
    exact r

end Steady

/-! ## Slots that change together -/

theorem slotAt_mapSlots {f : Slot → Slot} (initial : f (Slot.initial false) = Slot.initial false) {s t : State}
    (slots : t.slots = s.slots.map f) (n : BitVec 2) : t.slotAt n = f (s.slotAt n) := by
  rw [State.slotAt, slots, State.slotAt]
  conv => lhs; rw [← initial]
  exact List.getD_map _ _ f

theorem slotPlaces_mapSlots_le {f : Slot → Slot} (place : ∀ x, (f x).heldPlace = true → x.heldPlace = true)
    {s t : State} (slots : t.slots = s.slots.map f) : t.slotPlaces ≤ s.slotPlaces := by
  rw [State.slotPlaces, slots, List.filter_map, List.length_map, State.slotPlaces, ← List.countP_eq_length_filter,
    ← List.countP_eq_length_filter]
  exact List.countP_mono_left (fun x _ h => place x h)

/-! ## The purge (R85) -/

theorem length_purgeCompletions (st : Status) (p : List (Option PendEntry)) :
    (purgeCompletions st p).length = pendWeight (fun _ => 1) p := by
  have whole : pendWeight (fun _ => 1) p = (p.filterMap id).length := by
    induction p with
    | nil => rfl
    | cons e p ih =>
      simp only [pendWeight, List.map_cons, List.sum_cons] at ih ⊢
      cases e with
      | none => simpa using ih
      | some x =>
        rw [ih]
        simp [Nat.add_comm]
  rw [whole, List.length_eq_length_filter_add (l := p.filterMap id) (fun e => e.kind != .detach), purgeCompletions]
  simp only [List.length_append, List.length_map, bne, Bool.not_not]

theorem Slot.purged_spec (x : Slot) : x.purged.spec = x.spec := by
  unfold Slot.purged
  cases x.state <;> rfl

theorem Slot.purged_idle (x : Slot) : x.purged.inProgress = false := by
  cases h : x.inProgress with
  | false =>
    rw [Slot.purged_of_idle h]
    exact h
  | true => rw [Slot.purged_of_busy h]; rfl

theorem Slot.on_of_purged {x : Slot} (h : x.purged.state ≠ .disabled) : x.state ≠ .disabled := by
  intro off
  rw [Slot.purged_of_idle (by rw [Slot.inProgress, off])] at h
  exact h off

theorem Slot.place_of_purged {x : Slot} (h : x.purged.heldPlace = true) : x.heldPlace = true := by
  cases busy : x.inProgress with
  | false =>
    rw [Slot.purged_of_idle busy] at h
    exact h
  | true =>
    rw [Slot.purged_of_busy busy] at h
    cases h

theorem Slot.hasPlace_of_idle {x : Slot} (h : x.inProgress = false) : x.hasPlace := by
  rintro (state | state | state) <;> rw [Slot.inProgress, state] at h <;> cases h

theorem purgeSteps_fits (st : Status) {s : State} (h : Fits 0 0 s) : Fits 0 0 (purgeSteps st s) := by
  have slots : (purgeSteps st s).slots = s.slots.map Slot.purged := rfl
  have leases : (purgeSteps st s).leases = [] := rfl
  have cmp : (purgeSteps st s).req.cmp = s.req.cmp ++ purgeCompletions st s.req.pend := rfl
  have pend : (purgeSteps st s).req.pend = List.replicate 16 none := rfl
  refine ⟨h.fifo, Nat.zero_le _, h.asm, ?_, ?_, ?_, fun x hx => ?_, ?_⟩
  · rw [pend, List.length_replicate]
  · rw [slots, List.length_map]
    exact h.slots
  · have fewer := slotPlaces_mapSlots_le (fun _ => Slot.place_of_purged) slots
    have room := h.reserved
    have none : pendWeight (fun _ => 1) (List.replicate 16 (none : Option PendEntry)) = 0 := by decide
    rw [State.reserved, pendCount_eq, pend, cmp, List.length_append, length_purgeCompletions, none]
    rw [State.reserved, pendCount_eq] at room
    omega
  · rw [slots] at hx
    obtain ⟨y, _, rfl⟩ := List.mem_map.1 hx
    exact Slot.hasPlace_of_idle y.purged_idle
  · rw [leases]
    exact List.Pairwise.nil

theorem purgeSteps_calm (st : Status) (s : State) : Calm s (purgeSteps st s) := by
  have none : ∀ p, some p ∉ (purgeSteps st s).req.pend := by
    intro p hp
    exact absurd (List.eq_of_mem_replicate hp) nofun
  have weight := claimWeight_of_empty (t := purgeSteps st s) rfl none
  have slotAt (n : BitVec 2) : (purgeSteps st s).slotAt n = (s.slotAt n).purged := slotAt_mapSlots rfl rfl n
  refine ⟨fun φ => by rw [weight]; exact Nat.zero_le _, fun p hp => absurd hp (none p), fun n => ?_, fun n on => ?_,
    fun n _ => .inr fun _ => weight _⟩
  · rw [slotAt, Slot.purged_spec]
  · rw [slotAt] at on
    exact .inl (Slot.on_of_purged on)

theorem purgeSteps_steady {a : Prop} (st : Status) (s : State) : Steady a s (purgeSteps st s) where
  counters := id
  roster _ := ⟨List.length_replicate, List.nodup_nil, nofun⟩
  fits := purgeSteps_fits st
  apart _ _ := (purgeSteps_calm st s).apart

/-! ## Resets (R87, R184) -/

/-- Every record of the units, the member and the joiners takes its reset value. -/
theorem Steady.of_initial {a : Prop} {s t : State} {g : Grade} {trg : BitVec 4} (line : t.line.rfc = 0 ∧ t.line.tfc = 0)
    (peers : t.member.peers = List.replicate 16 Peer.cleared) (service : t.snap.service = []) (leases : t.leases = [])
    (req : t.req = .initial) (slots : t.slots = resetSlots g trg) : Steady a s t := by
  have idle : ∀ x ∈ t.slots, x.state = .disabled ∧ x.heldPlace = false := by
    intro x hx
    rw [slots] at hx
    obtain ⟨k, _, rfl⟩ := List.mem_map.1 hx
    exact ⟨rfl, rfl⟩
  have four : t.slots.length = 4 := by rw [slots]; rfl
  refine ⟨fun _ => ?_, fun _ => ?_, fun _ => ?_, fun _ _ _ => ?_⟩
  · rw [State.countersSound, line.1, line.2]
    exact ⟨Nat.zero_le _, Nat.zero_le _⟩
  · rw [State.roster, peers, service]
    exact ⟨List.length_replicate, List.nodup_nil, nofun⟩
  · have none : t.slotPlaces = 0 := by
      rw [State.slotPlaces, List.length_eq_zero_iff, List.filter_eq_nil_iff]
      exact fun x hx h => by cases (idle x hx).2.symm.trans h
    refine ⟨?_, ?_, ?_, ?_, four, ?_, fun x hx => ?_, ?_⟩
    · rw [req]; decide
    · rw [req]; decide
    · rw [req]; decide
    · rw [req]; decide
    · rw [State.reserved, none, State.pendCount, req]; decide
    · intro busy
      rw [(idle x hx).1] at busy
      simp at busy
    · rw [leases]
      exact List.Pairwise.nil
  · refine apart_of_initial leases (fun p hp => ?_) (fun n => (idle _ (slotAt_mem n four)).1)
    rw [req] at hp
    exact absurd (List.eq_of_mem_replicate hp) nofun

end Sys2Proof.Machine
end

