-- ==== Sys2Proof/Proofs/MemberSizes.lean ====
section
/-! PROOFS. The Membership Controller, the Snapshot Engine and the Digest Unit within the sizes of the collections (R67,
R85, R99, R175). -/

namespace Sys2Proof.Machine

variable {a : Prop}

open Steady

/-! ## The presence table and the joiners -/

theorem setPeer_steady (x : Addr) (p : Peer) (s : State) : Steady a s (setPeer x p s) := by
  rw [setPeer_eq]
  exact of_records id (fun r => ⟨List.length_set.trans r.1, r.2⟩) rfl rfl rfl

theorem setMState_steady (st : MState) (s : State) : Steady a s (setMState st s) := by
  rw [setMState_eq]
  exact of_records id id rfl rfl rfl

theorem listeningActions_steady (w : Bool) (s : State) : Steady a s (listeningActions w s) := by
  rw [listeningActions_eq]
  exact of_records (fun _ => ⟨Nat.zero_le _, Nat.zero_le _⟩) (fun r => ⟨List.length_replicate, r.2⟩) rfl rfl rfl

theorem enterListening_steady (w : Bool) (s : State) : Steady a s (enterListening w s) := by
  rw [enterListening_eq]
  exact (setMState_steady _ s).trans (listeningActions_steady w _)

theorem enterDetached_steady (s : State) : Steady a s (enterDetached s) := by
  rw [enterDetached_eq]
  exact of_records id id rfl rfl rfl

theorem enterLeaving_steady (s : State) : Steady a s (enterLeaving s) := by
  rw [enterLeaving_eq]
  exact of_records id (fun r => ⟨r.1, List.nodup_nil, nofun⟩) rfl rfl rfl

theorem triggerActivation_steady (s : State) : Steady a s (triggerActivation s) := by
  refine of_calm (triggerActivation_only s) (fun h => ?_) (Calm.triggerActivation s)
  rw [triggerActivation_eq]
  exact h.triggerWhere _ _

theorem triggerSignal_steady (c : BitVec 3) (s : State) : Steady a s (triggerSignal c s) := by
  refine of_calm (triggerSignal_only c s) (fun h => ?_) (Calm.triggerSignal c s)
  rw [triggerSignal_eq]
  exact h.triggerWhere _ _

theorem becomeActive_steady (s : State) : Steady a s (becomeActive s) := by
  have entered : Steady a s (enteredActive s) := of_records id id rfl rfl rfl
  rw [becomeActive_eq]
  exact entered.trans (triggerActivation_steady _)

theorem withTable_steady (x : List Entry) (s : State) : Steady a s (s.withTable x) := of_records id id rfl rfl rfl

/-- The Snapshot Engine changes, and its service list stays or loses records. -/
theorem withSnap_steady (x : Snap) (s : State) (service : x.service = s.snap.service) : Steady a s (s.withSnap x) :=
  of_same rfl rfl service rfl rfl rfl rfl

theorem chooseDonor_steady (d : Addr) (s : State) : Steady a s (chooseDonor d s) := by
  unfold chooseDonor
  split
  · exact withSnap_steady _ s rfl
  · exact withSnap_steady _ s rfl

theorem watchDonor_steady (s : State) : Steady a s (watchDonor s) := by
  unfold watchDonor
  exact Steady.ite (chooseDonor_steady _ s) (refl s)

theorem seekDonor_steady (s : State) : Steady a s (seekDonor s) := by
  unfold seekDonor
  refine Steady.ite ?_ (refl s)
  split
  · exact withSnap_steady _ s rfl
  · exact refl s

theorem idleEngine_steady (s : State) : Steady a s (idleEngine s) := withSnap_steady _ s rfl

theorem joinComplete_steady (s : State) : Steady a s (joinComplete s) :=
  (idleEngine_steady s).trans (becomeActive_steady _)

/-- The service list loses joiners, or changes what it holds of them. -/
theorem service_steady (x : Snap) (s : State)
    (names : (x.service.map Prod.fst).Sublist (s.snap.service.map Prod.fst)) : Steady a s (s.withSnap x) := by
  refine of_records id (fun r => ?_) rfl rfl rfl
  obtain ⟨peers, nodup, others⟩ := r
  refine ⟨peers, nodup.sublist names, fun r hr => ?_⟩
  obtain ⟨q, hq, same⟩ := List.mem_map.1 (names.subset (List.mem_map_of_mem (f := Prod.fst) hr))
  rw [← same]
  exact others q hq

theorem serviceRemove_steady (x : Addr) (s : State) : Steady a s (serviceRemove x s) :=
  service_steady _ s (List.filter_sublist.map _)

/-- The joiner's next index is replaced in place (R99). -/
theorem map_replace_fst (x : Addr) (i : Nat) (l : List (Addr × Nat)) :
    (l.map (fun r => if r.1 == x then (x, i) else r)).map Prod.fst = l.map Prod.fst := by
  rw [List.map_map]
  refine List.map_congr_left fun r _ => ?_
  simp only [Function.comp]
  split
  next same => exact (beq_iff_eq.1 same).symm
  next => rfl

theorem serviceAdd_steady {x : Addr} (i : Nat) {s : State} (other : x ≠ s.station) : Steady a s (serviceAdd x i s) := by
  unfold serviceAdd
  cases known : s.snap.service.any (fun r => r.1 == x) with
  | true =>
    refine service_steady _ s ?_
    simp only [if_true, map_replace_fst]
    exact List.Sublist.refl _
  | false =>
    simp only [Bool.false_eq_true, if_false]
    refine of_records id (fun r => ?_) rfl rfl rfl
    obtain ⟨peers, nodup, others⟩ := r
    refine ⟨peers, ?_, fun r hr => ?_⟩
    · show ((s.snap.service ++ [(x, i)]).map Prod.fst).Nodup
      rw [List.map_append, List.nodup_append]
      refine ⟨nodup, List.nodup_singleton _, fun y hy z hz same => ?_⟩
      obtain ⟨q, hq, rfl⟩ := List.mem_map.1 hy
      have named : q.1 = x := same.trans (List.mem_singleton.1 hz)
      have new := List.any_eq_false.1 known q hq
      exact new (beq_iff_eq.2 named)
    · rcases List.mem_append.1 hr with hr | hr
      · exact others r hr
      · rw [List.mem_singleton.1 hr]
        exact other

theorem ownSnapAccepted_steady (x : Addr) (i : Nat) (s : State) : Steady a s (ownSnapAccepted x i s) := by
  unfold ownSnapAccepted
  refine Steady.ite (serviceRemove_steady x s) (service_steady _ s ?_)
  simp only [map_replace_fst]
  exact List.Sublist.refl _

theorem serviceFrame_steady (st : MState) {sender : Addr} {own : Bool} (f : Frame) {s : State}
    (other : own = false → sender ≠ s.station) : Steady a s (serviceFrame st sender own f s) := by
  unfold serviceFrame
  cases f with
  | snap j i k hs ws => exact Steady.ite (ownSnapAccepted_steady _ _ s) (refl s)
  | snapreq d i =>
    dsimp only
    split
    · exact refl s
    next received =>
      have other := other (eq_false_of_ne_true received)
      exact Steady.ite (Steady.ite (serviceAdd_steady i other) (refl s)) (serviceRemove_steady _ s)
  | presence p d =>
    cases p with
    | joining => exact refl s
    | active | listening => exact Steady.ite (refl s) (serviceRemove_steady _ s)
  | evict g c => exact serviceRemove_steady _ s
  | release _ _ | withdraw _ | claim _ _ _ | signal _ _ | digest _ => exact refl s

theorem length_peersAfter (s : State) (sender : Addr) (f : Frame) :
    (s.peersAfter sender f).length = s.member.peers.length := by
  have showing : (s.peersShowing sender f).length = s.member.peers.length := by
    unfold State.peersShowing
    split
    · rfl
    · exact List.length_set
  unfold State.peersAfter
  split
  · exact showing
  · split
    · exact showing
    · exact List.length_set.trans showing

theorem memberFrame_steady (sender : Addr) (own : Bool) (f : Frame) (s : State) :
    Steady a s (memberFrame sender own f s) := by
  rw [memberFrame_eq]
  exact of_records id (fun r => ⟨(length_peersAfter s sender f).trans r.1, r.2⟩) rfl rfl rfl

/-! ## Leaving the line (R82, R85, R86) -/

theorem purge_steady (dest : MState) (st : Status) (s : State) : Steady a s (purge dest st s) := by
  have steps : Steady a s (purgeSteps st s) := purgeSteps_steady st s
  rw [purge_eq]
  exact Steady.ite (steps.trans (enterListening_steady _ _)) (steps.trans (enterDetached_steady _))

theorem detachJoiner_steady (s : State) : Steady a s (detachJoiner s) := by
  rw [detachJoiner_eq]
  refine (enterDetached_steady _).after ?_
  exact of_records id (fun r => ⟨List.length_replicate, r.2⟩) rfl rfl rfl

theorem leaveNow_steady (dest : MState) (st : Status) (s : State) : Steady a s (leaveNow dest st s) := by
  unfold leaveNow
  split
  · exact purge_steady _ _ _
  · exact purge_steady _ _ _
  · exact detachJoiner_steady _
  · exact detachJoiner_steady _
  all_goals exact refl s

/-- The Line Interface changes beside its counters. -/
theorem withLine_steady (l : Line) (s : State) (rfc : l.rfc = s.line.rfc) (tfc : l.tfc = s.line.tfc) :
    Steady a s (s.withLine l) := by
  refine of_records (fun c => ?_) id rfl rfl rfl
  show l.rfc ≤ _ ∧ l.tfc ≤ _
  rw [rfc, tfc]
  exact c

theorem leaveAtOnce_steady (dest : MState) (st : Status) (ends : Bool) (s : State) :
    Steady a s (leaveAtOnce dest st ends s) := by
  cases ends
  · exact leaveNow_steady dest st s
  · rw [leaveAtOnce_true]
    exact (leaveNow_steady dest st s).trans (withLine_steady _ _ rfl rfl)

theorem leave_steady (dest : MState) (st : Status) (place : HoldPlace) (s : State) :
    Steady a s (leave dest st place s) := by
  obtain ⟨_, h⟩ | ⟨l, hl, h⟩ | ⟨_, _, h⟩ := leave_cases dest st place s <;> rw [h]
  · exact refl s
  · obtain ⟨_, _, _, rfc, tfc⟩ := heldLine_hold hl
    exact withLine_steady l s rfc tfc
  · exact leaveAtOnce_steady _ _ _ _

theorem logError_steady (k : ErrKind) (h : Header) (s : State) : Steady a s (logError k h s) := by
  rw [logError_eq]
  exact of_records id id rfl rfl rfl

theorem raise_steady (k : ErrKind) (h : Header) (place : HoldPlace) (s : State) : Steady a s (raise k h place s) := by
  unfold raise
  dsimp only
  split
  · exact logError_steady k h s
  · exact (logError_steady k h s).trans (leave_steady _ _ _ _)

/-- A kind is raised after a change of the Snapshot Engine. -/
theorem raise_withSnap_steady (x : Snap) (k : ErrKind) (h : Header) (place : HoldPlace) {s : State}
    (service : x.service = s.snap.service) : Steady a s (raise k h place (s.withSnap x)) :=
  (withSnap_steady x s service).trans (raise_steady k h place _)

/-! ## Decisions and events at an accepted frame -/

theorem decideMismatch_steady (x : Addr) (own : Bool) (f : Frame) (h : Header) (s : State) :
    Steady a s (decideMismatch x own f h s) := by
  unfold decideMismatch
  cases f with
  | presence st d =>
    refine Steady.ite (refl s) ?_
    split
    · exact raise_steady _ _ _ _
    · exact refl s
  | _ => exact refl s

theorem decideEvict_steady (f : Frame) (h : Header) (s : State) : Steady a s (decideEvict f h s) := by
  unfold decideEvict
  cases f with
  | evict t c =>
    cases c
    · exact Steady.ite (raise_steady _ _ _ _) (refl s)
    · exact Steady.ite (leave_steady _ _ _ _) (refl s)
  | _ => exact refl s

theorem compareDigest_steady (x : Addr) (v : Word) (h : Header) (s : State) : Steady a s (compareDigest x v h s) := by
  have compared (t : State) (ht : Steady a s t) :
      Steady a s (if 2 ≤ t.countStatus .disagree ∧ t.countStatus .agree < t.countStatus .disagree
        then raise .divergence h .none t else t) :=
    Steady.ite (ht.trans (raise_steady _ _ _ _)) ht
  unfold compareDigest
  exact compared _ (Steady.ite (setPeer_steady _ _ s) ((setPeer_steady _ _ s).trans (raise_steady _ _ _ _)))

theorem digestFrame_steady (x : Addr) (own : Bool) (f : Frame) (h : Header) (s : State) :
    Steady a s (digestFrame x own f h s) := by
  unfold digestFrame
  cases f with
  | digest v =>
    exact Steady.ite (of_records id id rfl rfl rfl) (Steady.ite (compareDigest_steady _ _ _ _) (refl s))
  | _ => exact refl s

theorem signalFrame_steady (f : Frame) (s : State) : Steady a s (signalFrame f s) := by
  unfold signalFrame
  cases f with
  | signal m c =>
    refine Steady.ite ((triggerSignal_steady c _).after ?_) (refl s)
    exact of_records id id rfl rfl rfl
  | _ => exact refl s

theorem acceptEvents_steady (st : MState) (x : Addr) (own : Bool) (f : Frame) (h : Header) (s : State) :
    Steady a s (acceptEvents st x own f h s) :=
  Steady.ite ((digestFrame_steady _ _ _ _ s).trans (signalFrame_steady _ _)) (refl s)

/-! ## The joiner (R90 to R98) -/

theorem joinerFrame_steady (sender : Addr) (f : Frame) (s : State) : Steady a s (joinerFrame sender f s) := by
  unfold joinerFrame
  cases f with
  | withdraw o =>
    exact Steady.ite (raise_withSnap_steady _ _ _ _ rfl) (withTable_steady _ s)
  | _ => exact withTable_steady _ s

theorem takeSnap_steady (i : Nat) (k : TokenKind) (hs : List Holder) (ws : List Waiter) (s : State) :
    Steady a s (takeSnap i k hs ws s) := (withTable_steady _ s).trans (withSnap_steady _ _ rfl)

theorem joinerSnap_steady (own : Bool) (f : Frame) (s : State) : Steady a s (joinerSnap own f s) := by
  refine (seekDonor_steady _).after ((watchDonor_steady _).after ?_)
  cases f with
  | snap j i k hs ws =>
    have taken : Steady a s (takeSnap i k hs ws s) := takeSnap_steady i k hs ws s
    exact Steady.ite (Steady.ite (taken.trans (joinComplete_steady _)) taken) (refl s)
  | snapreq d i => exact Steady.ite (withSnap_steady _ s rfl) (refl s)
  | _ => exact refl s

theorem acceptSnap_steady (own : Bool) (f : Frame) (s : State) : Steady a s (acceptSnap own f s) :=
  Steady.ite (joinerSnap_steady own f s) (refl s)

end Sys2Proof.Machine
end

