-- ==== Sys2Proof/Proofs/LineSizes.lean ====
section
/-! PROOFS. The line, the resets, the configuration and the time within the sizes of the collections (R10, R16, R19, R87,
R115). -/

namespace Sys2Proof.Machine

variable {a : Prop}

open Steady

/-! ## Acceptance (R10) -/

theorem accepted_steady (own : Bool) (s : State) : Steady a s (s.withLine (s.line.accepted own)) := by
  refine of_records (fun c => ?_) id rfl rfl rfl
  obtain ⟨rfc, tfc⟩ := c
  have lowered : (s.line.accepted own).tfc ≤ s.line.tfc := by
    unfold Line.accepted lowerCounter
    dsimp only
    split <;> omega
  exact ⟨(Nat.sub_le _ _).trans rfc, lowered.trans tfc⟩

/-- The Token Table tells the units: the claims that its complete grants name have the lists granted. -/
theorem tableFrame_steady {sender : Addr} {f : Frame} {s : State} (agrees : a → s.reportsAgree sender f) :
    Steady a s (tableFrame sender f s) := by
  unfold tableFrame
  dsimp only
  set rs := (applyFrame s.table s.n s.station sender f).reports with reports
  have taken (t : State) (agreed : a → t.tokensApart → t.agreed rs) : Steady a t (takeReports rs t) :=
    of_units (takeReports_only rs t) (fun h => h.takeReports rs)
      (fun h _ apart => (Calm.takeReports rs (agreed h apart)).apart apart)
  refine (withTable_steady _ s).trans (taken _ (fun h apart => ?_))
  exact agreed_of_reportsAgree (s := s) apart (agrees h)

theorem acceptTable_steady (st : MState) {sender : Addr} {f : Frame} {s : State} (agrees : a → s.reportsAgree sender f) :
    Steady a s (acceptTable st sender f s) := by
  cases st with
  | active | leaving => exact tableFrame_steady agrees
  | joining => exact joinerFrame_steady sender f s
  | unconfigured | listening | detached => exact refl s

theorem ownFrameOwner_steady (tx : Option TxFrame) (s : State) : Steady a s (ownFrameOwner tx s) := by
  refine of_calm (ownFrameOwner_only tx s) (fun h => ?_) ?_
  · unfold ownFrameOwner
    split
    · exact h.outgoingAccepted _ _
    · exact h
  · unfold ownFrameOwner
    split
    · exact Calm.outgoingAccepted _ _ s
    · exact Calm.refl s

/-- An accepted frame, its sender another station unless the frame is the own one. -/
theorem acceptFrame_steady {sender : Addr} {tx : Option TxFrame} {f : Frame} (h : Header) {s : State}
    (agrees : a → s.reportsAgree sender f) (other : tx.isSome = false → sender ≠ s.station) :
    Steady a s (acceptFrame sender tx f h s) := by
  rw [acceptFrame_eq]
  have member : Steady a s (memberFrame sender tx.isSome f (s.withLine (s.line.accepted tx.isSome))) :=
    (accepted_steady _ s).trans (memberFrame_steady _ _ _ _)
  have agreed : a → (memberFrame sender tx.isSome f (s.withLine (s.line.accepted tx.isSome))).reportsAgree sender f := by
    intro ha
    rw [memberFrame_eq]
    exact agrees ha
  have station : (memberFrame sender tx.isSome f (s.withLine (s.line.accepted tx.isSome))).station = s.station := by
    rw [memberFrame_eq]
    rfl
  generalize memberFrame sender tx.isSome f (s.withLine (s.line.accepted tx.isSome)) = u at *
  have table := member.trans (acceptTable_steady s.member.state agreed)
  have owner := table.trans (ownFrameOwner_steady tx _)
  have kept : (ownFrameOwner tx (acceptTable s.member.state sender f u)).station = s.station :=
    ((station_of_base (base_ownFrameOwner tx _)).trans (station_of_base (base_acceptTable _ sender f u))).trans station
  have served := owner.trans (serviceFrame_steady s.member.state f (fun own => kept ▸ other own))
  exact ((((served.trans (acceptSnap_steady _ f _)).trans (acceptEvents_steady _ _ _ f h _)).trans
    (decideMismatch_steady _ _ f h _))).trans (decideEvict_steady f h _)

/-! ## Voiding (R9 to R11, R16) -/

theorem raiseCounter_le (c : Nat) : raiseCounter c ≤ Config.faultLimit := Nat.min_le_right _ _

theorem ownVoiding_steady (tx : TxFrame) (k : Option Nat) (s : State) : Steady a s (ownVoiding tx k s) := by
  have counted : Steady a s (s.withLine (s.line.ownVoided.gaveUp (tx.frame.toRaw s.station) k)) := by
    refine of_records (fun c => ?_) id rfl rfl rfl
    cases k <;> exact ⟨c.1, raiseCounter_le _⟩
  have logged := counted.trans (logError_steady .txVoided (headerSent s.station tx.frame) _)
  unfold ownVoiding
  dsimp only
  cases tx.entry with
  | none => exact logged
  | some n =>
    exact logged.trans (of_calm (outgoingVoided_only _ _ _) (fun h => h.outgoingVoided _ _) (Calm.outgoingVoided _ _ _))

theorem voidOwn_steady (tx : TxFrame) (k : Option Nat) (s : State) : Steady a s (voidOwn tx k s) := by
  have voided : Steady a s (ownVoiding tx k s) := ownVoiding_steady tx k s
  rw [voidOwn_eq]
  exact Steady.ite (voided.trans (raise_steady _ _ _ _)) voided

theorem voidOther_steady (f : RawFrame) (e : Option Failure) (s : State) : Steady a s (voidOther f e s) := by
  unfold voidOther
  cases e with
  | none => exact of_records id id rfl rfl rfl
  | some e =>
    have counted (t : State) : Steady a t
        (t.withLine { t.line.otherVoided true with driven := some (objectionSpan f e) }) :=
      of_records (fun c => ⟨raiseCounter_le _, c.2⟩) id rfl rfl rfl
    have voided := (logError_steady (a := a) .rxCheck (headerReceived e.bits f) s).trans (counted _)
    exact Steady.ite (voided.trans (raise_steady _ _ _ _)) voided

theorem outOfLine_steady (s : State) : Steady a s (outOfLine s) := withLine_steady _ s rfl rfl

theorem endedAccepted_steady (f : LineFrame) (s : State) : Steady a s (endedAccepted f s) := by
  unfold endedAccepted
  split
  · refine (outOfLine_steady _).after ((accepted_steady true s).trans ?_)
    exact withLine_steady _ (s.withLine (s.line.accepted true)) rfl rfl
  · split
    · exact (accepted_steady false s).trans (outOfLine_steady _)
    · exact (voidOther_steady _ _ s).trans (outOfLine_steady _)
  · exact refl s

theorem endedVoided_steady (f : VoidedFrame) (s : State) : Steady a s (endedVoided f s) := by
  unfold endedVoided
  split
  · exact (voidOwn_steady _ _ s).trans (outOfLine_steady _)
  · exact (voidOther_steady _ _ s).trans (outOfLine_steady _)
  · exact refl s

/-! ## The commands of the line -/

theorem frameVoided_steady (f : VoidedFrame) (s : State) : Steady a s (frameVoided f s) := by
  unfold frameVoided
  refine Steady.ite (endedVoided_steady f s) ?_
  cases f with
  | own k =>
    dsimp only [ownFrameVoided]
    split
    · exact Steady.ite (voidOwn_steady _ k s) (refl s)
    · exact refl s
  | received r k => exact Steady.ite (voidOther_steady r _ s) (refl s)

/-- The frame that a command hands to the blocks agrees with the claims of this station. -/
def State.handedAgrees (s : State) (c : Instr) : Prop :=
  ∀ sender f, s.handedOver c = some (sender, f) → s.reportsAgree sender f

theorem frameAccepted_steady (f : LineFrame) (s : State) :
    Steady (s.handedAgrees (.frameAccepted f)) s (frameAccepted f s) := by
  unfold frameAccepted
  refine Steady.ite (endedAccepted_steady f s) ?_
  cases f with
  | own =>
    dsimp only [ownFrameAccepted]
    split
    next tx sends =>
      refine Steady.ite (acceptFrame_steady _ (fun agrees => agrees _ _ ?_) nofun) (refl s)
      simp only [State.handedOver, sends, Option.map_some]
    next => exact refl s
  | received r =>
    refine Steady.ite ?_ (refl s)
    unfold receiveFrame
    split
    next fr passes =>
      refine acceptFrame_steady _ (fun agrees => agrees _ _ ?_) (fun _ => senderOf_ne_of_receiveCheck passes)
      simp only [State.handedOver, passes]
    next => exact voidOther_steady r _ s

theorem driveStart_steady (rivals : List (BitVec 7)) (s : State) : Steady a s (driveStart rivals s) := by
  have receive : Steady a s (if rivals.isEmpty then s
      else s.withLine { s.line with phase := .inFrame, recessive := 0, tx := none, begun := [] }) :=
    Steady.ite (refl s) (withLine_steady _ s rfl rfl)
  unfold driveStart
  dsimp only
  split
  · exact receive
  · exact Steady.ite receive (withLine_steady _ s rfl rfl)

theorem startBoundary_steady (rivals : List (BitVec 7)) (s : State) : Steady a s (startBoundary rivals s) :=
  Steady.ite ((watchDonor_steady s).trans (driveStart_steady rivals _)) (refl s)

/-! ## Resets and the configuration -/

theorem warmResetNow_steady (s : State) : Steady a s (warmResetNow s) := by
  have listens (c : Prop) [Decidable c] (r : State) (hr : Steady a s r) :
      Steady a s ((if c then listeningActions true r else r).withEvents .initial) := by
    have entered : Steady a s (if c then listeningActions true r else r) :=
      Steady.ite (hr.trans (listeningActions_steady true r)) hr
    exact entered.trans (of_records id id rfl rfl rfl)
  unfold warmResetNow
  exact listens _ _ (Steady.of_initial ⟨rfl, rfl⟩ rfl rfl rfl rfl rfl)

theorem warmStart_steady (ins : ResetInputs) (s : State) : Steady a s (warmStart ins s) := by
  have sampled : Steady a s
      (({ s with addrPins := ins.addr, trgPins := ins.trg } : State).withPort s.port.enterReset) :=
    of_records id id rfl rfl rfl
  unfold warmStart
  dsimp only
  split
  · exact sampled.trans (withLine_steady _ _ rfl rfl)
  · split
    next l hl =>
      obtain ⟨_, _, _, rfc, tfc⟩ := heldLine_hold hl
      exact sampled.trans (withLine_steady l _ rfc tfc)
    next => exact sampled.trans (warmResetNow_steady _)

theorem assertReset_steady (clks : Nat) (ins : ResetInputs) (s : State) : Steady a s (assertReset clks ins s) := by
  have counted : Steady a s { s with freeCount := s.freeCount + 1 } := of_records id id rfl rfl rfl
  exact Steady.ite (warmStart_steady ins s) (Steady.ite (refl s)
    (Steady.ite (counted.trans (warmStart_steady ins _)) counted))

theorem holdEnd_steady (s : State) : Steady a s (holdEnd s) := by
  unfold holdEnd
  split
  · exact refl s
  next h _ =>
    have gap : Steady a s (s.withLine { s.line with phase := .gap, recessive := 0, begun := [], hold := none }) :=
      withLine_steady _ s rfl rfl
    cases h.change with
    | warmReset => exact gap.trans (warmResetNow_steady _)
    | leave dest st => exact gap.trans (leaveNow_steady dest st _)

theorem powerFail_steady (s : State) : Steady a s (powerFail s) := by
  have slots : (powerFail s).slots = s.slots.map (fun x => { x with gnt := false }) := rfl
  have leases : (powerFail s).leases = s.leases := rfl
  have req : (powerFail s).req = s.req := rfl
  have slotAt (n : BitVec 2) : (powerFail s).slotAt n = { s.slotAt n with gnt := false } := slotAt_mapSlots rfl slots n
  refine ⟨id, id, fun h => ?_, fun _ _ => Calm.apart ⟨fun φ => Nat.le_refl _, fun p hp kind => ⟨p, hp, kind, rfl, rfl⟩,
    fun n => ?_, fun n on => .inl ?_, fun n out => .inl ?_⟩⟩
  · have fewer := slotPlaces_mapSlots_le (f := fun x => { x with gnt := false }) (fun _ => id) slots
    refine ⟨h.fifo, h.outgoing, h.asm, h.pend, ?_, ?_, fun x hx => ?_, h.leases⟩
    · rw [slots, List.length_map]
      exact h.slots
    · have room := h.reserved
      rw [State.reserved, State.pendCount, req]
      rw [State.reserved, State.pendCount] at room
      omega
    · rw [slots] at hx
      obtain ⟨y, hy, rfl⟩ := List.mem_map.1 hx
      exact h.places y hy
  · rw [slotAt]
  · rw [slotAt] at on
    exact on
  · rw [slotAt] at out
    exact out

theorem powerOn_steady (addr : Addr) (trg : BitVec 4) (s : State) : Steady a s (powerOn addr trg s) :=
  Steady.of_initial (g := s.grade) (trg := trg) ⟨rfl, rfl⟩ rfl rfl rfl rfl rfl

theorem portReady_steady (s : State) : Steady a s (portReady s) := by
  unfold portReady
  split
  · exact of_records id id rfl rfl rfl
  all_goals exact refl s

theorem startCommit_steady (s : State) : Steady a s (startCommit s) := by
  unfold startCommit
  refine Steady.ite ?_ (refl s)
  split
  · exact of_records id id rfl rfl rfl
  · exact of_records id id rfl rfl rfl

theorem commitComplete_steady (s : State) : Steady a s (commitComplete s) := by
  have taken : Steady a s (takeConfiguration s) := of_records id id rfl rfl rfl
  exact Steady.ite (taken.trans (enterListening_steady true _)) (refl s)

theorem writeField_steady (w : ConfigWrite) (s : State) : Steady a s (writeField w s) :=
  Steady.ite (of_records id id rfl rfl rfl) (refl s)

/-! ## Time -/

theorem tickLeases_fits {k j : Nat} {s : State} (h : Fits k j s) : Fits k j (tickLeases s) := by
  refine Fits.setEventIf (h.withLeases _ ?_) _ _
  have same (l : Lease) : (l.tick (s.classParams l.cls)).first = l.first := by
    unfold Lease.tick
    split <;> rfl
  simpa only [List.map_map, Function.comp_def, same] using h.leases

theorem tick_steady (s : State) : Steady a s (tick s) := by
  have restarted : Steady a s (s.withTime { s.time with prescaler := 0 }) := of_records id id rfl rfl rfl
  have counted := restarted.trans (of_calm (tickLeases_only _) tickLeases_fits (Calm.tickLeases _))
  have station (t : State) : Steady a t (tickStation t) :=
    of_records id (fun r => ⟨(List.length_map _).trans r.1, r.2⟩) rfl rfl rfl
  exact Steady.ite (Steady.ite (counted.trans (station _)) counted) (refl s)

theorem leaseExpiry_steady (k : Nat) (s : State) : Steady a s (leaseExpiry k s) := by
  unfold leaseExpiry
  split
  · exact refl s
  · exact Steady.ite (of_calm (expireLease_only k s) (fun h => h.expireLease k) (Calm.expireLease k s)) (refl s)

theorem presenceExpiry_steady (s : State) : Steady a s (presenceExpiry s) :=
  Steady.ite (of_records id id rfl rfl rfl) (refl s)

theorem digestExpiry_steady (s : State) : Steady a s (digestExpiry s) :=
  Steady.ite (of_records id id rfl rfl rfl) (refl s)

theorem dropoutExpiry_steady (x : Addr) (s : State) : Steady a s (dropoutExpiry x s) := by
  have removed : Steady a s (serviceRemove x s) := serviceRemove_steady x s
  unfold dropoutExpiry
  dsimp only
  refine Steady.ite (refl s) (Steady.ite (removed.trans ?_)
    ((removed.trans (setPeer_steady _ _ _)).trans (watchDonor_steady _)))
  exact of_records id id rfl rfl rfl

theorem listenEnd_steady (s : State) : Steady a s (listenEnd s) := by
  have joining : Steady a s (enterJoining s) := by
    have entered : Steady a s (enteredJoining s) := of_records id id rfl rfl rfl
    rw [enterJoining_eq]
    exact entered.trans (chooseDonor_steady _ _)
  have founds : Steady a s (found s) := (withTable_steady _ s).trans (becomeActive_steady _)
  exact Steady.ite (Steady.ite joining founds) (refl s)

theorem lapsedExpiry_steady (failures : Nat) (s : State) : Steady a s (lapsedExpiry failures s) := by
  have lost := (withSnap_steady (a := a) { s.snap with lapsed := none } s rfl).trans (logError_steady .donorLost .noFrame _)
  unfold lapsedExpiry
  exact Steady.ite (lost.trans (raise_withSnap_steady _ _ _ _ rfl)) lost

theorem snapshotExpiry_steady (place : HoldPlace) (s : State) : Steady a s (snapshotExpiry place s) := by
  have lost := (withSnap_steady (a := a) { s.snap with failures := s.snap.failures + 1 } s rfl).trans
    (logError_steady .donorLost .noFrame _)
  unfold snapshotExpiry
  refine Steady.ite (Steady.ite (lost.trans (raise_withSnap_steady _ _ _ _ rfl))
    (lost.trans (chooseDonor_steady _ _))) ?_
  split
  · exact lapsedExpiry_steady _ s
  · exact refl s

end Sys2Proof.Machine
end

