-- ==== Sys2Proof/Proofs/StepSizes.lean ====
section
/-! PROOFS. The port, the requests and all commands, and the statement on every step (O60). -/

namespace Sys2Proof.Machine

open Steady

section
variable {a : Prop}

/-! ## The port (R178 to R180) -/

/-- The request window and the completions change, beside the FIFO, the pending table and the outgoing list. -/
theorem windows_steady {s : State} (r : Requests) (fifo : r.fifo = s.req.fifo) (pend : r.pend = s.req.pend)
    (outgoing : r.outgoing = s.req.outgoing) (asm : r.asm.length ≤ s.req.asm.length)
    (cmp : r.cmp.length ≤ s.req.cmp.length) : Steady a s (s.withReq r) := by
  refine of_calm (OnlyUnits.withReq s r) (fun h => ?_) (Calm.of_same rfl pend rfl)
  refine h.of_req r (fifo ▸ h.fifo) (outgoing ▸ h.outgoing) (asm.trans h.asm) (pend ▸ h.pend) ?_
  rw [pend]
  omega

theorem withPort_steady (p : Port) (s : State) : Steady a s (s.withPort p) := of_records id id rfl rfl rfl

theorem endTransaction_steady (s : State) : Steady a s (endTransaction s) := by
  unfold endTransaction
  exact (withPort_steady _ s).trans (windows_steady _ rfl rfl rfl (Nat.zero_le _) (Nat.le_refl _))

theorem openTransaction_steady (k : Txn) (x : BitVec 7) (s : State) : Steady a s (openTransaction k x s) :=
  (endTransaction_steady s).trans (withPort_steady _ _)

theorem beginTransaction_steady (w : Bool) (x : BitVec 7) (s : State) : Steady a s (beginTransaction w x s) :=
  Steady.ite (openTransaction_steady _ x s) ((endTransaction_steady s).trans (withPort_steady _ _))

theorem inTransaction_steady (k : Txn) (x : BitVec 7) (s : State) : Steady a s (inTransaction k x s) :=
  Steady.ite (refl s) (openTransaction_steady k x s)

theorem inWrite_steady (r : Reg) (s : State) : Steady a s (s.inWrite r) :=
  (inTransaction_steady _ _ s).trans (withPort_steady _ _)

theorem passBy_steady (s : State) : Steady a s (passBy s) := by
  rw [passBy_eq]
  exact withPort_steady _ s

theorem readCmpByte_steady (s : State) : Steady a s (readCmpByte s) := by
  have read (p : Port) (c : Prop) [Decidable c] : Steady a s (if c then (s.withPort p).withReq
      { s.req with cmp := s.req.cmp.drop 1 } else s.withPort p) := by
    refine Steady.ite ((withPort_steady p s).trans (windows_steady _ rfl rfl rfl (Nat.le_refl _) ?_)) (withPort_steady p s)
    rw [List.length_drop]
    exact Nat.sub_le _ _
  exact read _ _

theorem readByte_steady (x : BitVec 7) (s : State) : Steady a s (readByte x s) := by
  have start : Steady a s (inTransaction .read x s) := inTransaction_steady .read x s
  unfold readByte
  dsimp only
  split
  · exact start.trans (readCmpByte_steady _)
  · split
    · exact start.trans (withPort_steady _ _)
    · exact start.trans (withPort_steady _ _)

theorem takeReqByte_steady (b : Byte) (s : State) : Steady a s (takeReqByte b s) := by
  refine of_calm (takeReqByte_only b s) (fun h => h.takeReqByte b) ?_
  unfold takeReqByte pushRequest
  exact Calm.ite (Calm.of_same rfl rfl rfl) (Calm.ite (Calm.of_same rfl rfl rfl) (Calm.of_same rfl rfl rfl))

/-! ## The slot registers -/

theorem slotWrite_steady {f : BitVec 2 → State → State} (hf : ∀ n s, Steady a s (f n s)) (s : State) :
    Steady a s (slotWrite f s) := Steady.ite (hf _ s) (refl s)

theorem writeEnable_steady (n : BitVec 2) (v : Bool) (s : State) : Steady a s (writeEnable n v s) :=
  of_units (writeEnable_only n v s) (fun h => h.writeEnable n v) (fun _ _ => writeEnable_apart n v)

theorem writeSlotCtrl_steady (n : BitVec 2) (v : Byte) (s : State) : Steady a s (writeSlotCtrl n v s) :=
  of_units (writeSlotCtrl_only n v s) (fun h => h.writeSlotCtrl n v)
    (fun _ _ apart => writeEnable_apart n _ ((Calm.setCtrl n v s).apart apart))

theorem setSpec_steady (n : BitVec 2) (p : SlotSpec) (s : State) : Steady a s (modifySlot n (Slot.setSpec p) s) :=
  of_units (modifySlot_only n _ s) (fun h => h.setSpec n p) (fun _ _ => setSpec_apart n p)

theorem fireSlot_steady (n : BitVec 2) (s : State) : Steady a s (fireSlot n s) :=
  of_calm (fireSlot_only n s) (fun h => h.fireSlot n) (Calm.fireSlot n s)

theorem clearSlotFlags_steady (n : BitVec 2) (b : Byte) (s : State) : Steady a s (clearSlotFlags n b s) :=
  of_calm (clearSlotFlags_only n b s) (fun h => h.clearSlotFlags n b) (Calm.clearSlotFlags n b s)

theorem writeSlotStatus_steady (n : BitVec 2) (b0 b1 : Byte) (s : State) : Steady a s (writeSlotStatus n b0 b1 s) :=
  writeSlotStatus_of (Steady a s) n b0 b1 (refl s) (fun _ _ h => h.trans (of_records id id rfl rfl rfl))
    (fun _ h => h.trans (fireSlot_steady n _)) (fun _ h => h.trans (clearSlotFlags_steady n b0 _))

theorem pinEdge_steady (n : BitVec 2) (level : Bool) (s : State) : Steady a s (pinEdge n level s) := by
  obtain ⟨x, units⟩ := pinEdge_only n level s
  refine ⟨fun c => ?_, fun r => ?_, fun h => h.pinEdge n level, fun _ _ => (Calm.pinEdge n level s).apart⟩
  · rw [State.countersSound, units.line]
    exact c
  · rw [State.roster, units.member, units.snap, units.station]
    exact r

/-! ## Writes of registers -/

theorem withErrors_steady (e : Errors) (s : State) : Steady a s (s.withErrors e) := of_records id id rfl rfl rfl
theorem withEvents_steady (e : Events) (s : State) : Steady a s (s.withEvents e) := of_records id id rfl rfl rfl

theorem writeControl_steady (b : Byte) (ins : ResetInputs) (s : State) : Steady a s (writeControl b ins s) := by
  have any : Steady a s (setWakeAny (bitOf b 2) s) := withEvents_steady _ s
  have commit : Steady a s (if bitOf b 0 then startCommit (setWakeAny (bitOf b 2) s) else setWakeAny (bitOf b 2) s) :=
    Steady.ite (any.trans (startCommit_steady _)) any
  exact Steady.ite (commit.trans (warmStart_steady ins _)) commit

theorem writeRegister_steady (r : Reg) (bs : List Byte) (ins : ResetInputs) (s : State) :
    Steady a s (writeRegister r bs ins s) := by
  cases r with
  | control => exact writeControl_steady _ ins s
  | reqData => exact takeReqByte_steady _ s
  | slotCtrl => exact slotWrite_steady (fun n => writeSlotCtrl_steady n _) s
  | slotSpec => exact slotWrite_steady (fun n => setSpec_steady n _) s
  | slotStatus => exact slotWrite_steady (fun n => writeSlotStatus_steady n _ _) s
  | event | irqEn | wakeEn | signalLatch => exact withEvents_steady _ s
  | errStatus | errMask | errFirst => exact withErrors_steady _ s
  | leaseSel | pendSel | peerSel | slotSel | kindSel => exact withPort_steady _ s
  | kindData | presencePeriod | dropout | digestInterval | tickDiv | bitDiv | configFlags | lease1 | lease2
  | lease3 => exact writeField_steady _ s
  | _ => exact refl s

theorem writeByte_steady (x : BitVec 7) (b : Byte) (ins : ResetInputs) (s : State) : Steady a s (writeByte x b ins s) := by
  have start : Steady a s (inTransaction .write x s) := inTransaction_steady .write x s
  unfold writeByte
  dsimp only
  split
  · exact start.trans (withPort_steady _ _)
  · split
    · exact start.trans (withPort_steady _ _)
    · split
      · exact (start.trans (withPort_steady _ _)).trans (writeRegister_steady _ _ ins _)
      · exact start.trans (withPort_steady _ _)

/-! ## Requests -/

theorem takeHead_steady {k : Option ReqKind} {f : Request → State → State} {s : State}
    (counters : ∀ r u, u.countersSound → (f r u).countersSound) (roster : ∀ r u, u.roster → (f r u).roster)
    (fits : ∀ r u, kindOfCode r.code = k → Fits 1 0 u → (needsOutgoing u r = true → Fits 1 1 u) → Fits 0 0 (f r u))
    (apart : ∀ r u, u.tokensApart → (f r u).tokensApart) : Steady a s (takeHead k f s) := by
  have popped : Steady a s (popRequest s) :=
    of_calm (OnlyUnits.withReq s _) (fun h => h.of_req _ (by
      rw [List.length_drop]
      exact (Nat.sub_le _ _).trans h.fifo) h.outgoing h.asm h.pend (Nat.le_refl _)) (Calm.of_same rfl rfl rfl)
  have kept (P : State → Prop) (h : P s) (taken : ∀ r, P (f r (popRequest s))) : P (takeHead k f s) := by
    unfold takeHead
    split
    · exact h
    · split
      · exact taken _
      · exact h
  exact ⟨fun c => kept _ c (fun r => counters r _ c), fun p => kept _ p (fun r => roster r _ p), fun h => h.takeHead fits,
    fun agrees h p => kept _ p (fun r => apart r _ (popped.apart agrees h p))⟩

/-- A request that changes the units alone. -/
theorem request_steady {k : Option ReqKind} {f : Request → State → State} {s : State} (only : ∀ r u, OnlyUnits u (f r u))
    (fits : ∀ r u, kindOfCode r.code = k → Fits 1 0 u → (needsOutgoing u r = true → Fits 1 1 u) → Fits 0 0 (f r u))
    (apart : ∀ r u, u.tokensApart → (f r u).tokensApart) : Steady a s (takeHead k f s) := by
  refine takeHead_steady (fun r u c => ?_) (fun r u p => ?_) fits apart
  · rw [State.countersSound, (only r u).line]
    exact c
  · rw [State.roster, (only r u).member, (only r u).snap, (only r u).station]
    exact p

theorem renew_steady (s : State) : Steady a s (takeHead (some .renew) takeRenew s) := by
  refine takeHead_steady (fun r u c => ?_) (fun r u p => ?_) (fun r u _ h _ => h.takeRenew r)
    (fun r u => (Calm.takeRenew r u).apart)
  · obtain ⟨e, units⟩ := takeRenew_only r u
    rw [State.countersSound, units.line]
    exact c
  · obtain ⟨e, units⟩ := takeRenew_only r u
    rw [State.roster, units.member, units.snap, units.station]
    exact p

theorem enterLeaving_calm (s : State) : Calm s (enterLeaving s) := by
  rw [enterLeaving_eq]
  exact Calm.of_same rfl rfl rfl

theorem detach_steady (s : State) : Steady a s (takeHead (some .detach) takeDetach s) := by
  refine takeHead_steady (fun r u c => ?_) (fun r u p => ?_) (fun r u _ h _ => ?_) (fun r u apart => ?_)
  · unfold takeDetach
    split
    · exact (enterLeaving_steady (a := True) _).counters c
    · exact c
  · unfold takeDetach
    split
    · exact (enterLeaving_steady (a := True) _).roster p
    · exact p
  · unfold takeDetach
    split
    · exact (enterLeaving_steady (a := True) _).fits (h.addPend _)
    · exact h.pushCompletion _
  · unfold takeDetach
    split
    · refine ((Calm.addPend_noClaim ?_ u).trans (enterLeaving_calm _)).apart apart
      exact ReqKind.noConfusion
    · exact (Calm.pushCompletion _ u).apart apart

theorem listeningActions_units (w : Bool) (s : State) : (listeningActions w s).leases = s.leases ∧
    (listeningActions w s).req = s.req ∧ (listeningActions w s).slots = s.slots := by
  rw [listeningActions_eq]
  exact ⟨rfl, rfl, rfl⟩

theorem enterListening_units (w : Bool) (s : State) : (enterListening w s).leases = s.leases ∧
    (enterListening w s).req = s.req ∧ (enterListening w s).slots = s.slots := by
  rw [enterListening_eq]
  exact listeningActions_units w (setMState .listening s)

theorem join_steady (s : State) : Steady a s (takeHead (some .join) takeJoin s) := by
  have answered (P : State → Prop) (r : Request) (u : State) (pushed : ∀ c v, P v → P (pushCompletion c v)) (here : P u)
      (entered : P (enterListening true u)) : P (takeJoin r u) := by
    unfold takeJoin
    split
    · exact pushed _ _ entered
    · exact pushed _ _ here
  have steady (u : State) : Steady True u (enterListening true u) := enterListening_steady true u
  refine takeHead_steady (fun r u c => answered _ r u (fun _ _ => id) c ((steady u).counters c))
    (fun r u p => answered _ r u (fun _ _ => id) p ((steady u).roster p)) (fun r u _ h _ => ?_)
    (fun r u apart => answered _ r u (fun c v => (Calm.pushCompletion c v).apart) apart ?_)
  · obtain ⟨leases, req, slots⟩ := enterListening_units true u
    unfold takeJoin
    split
    · exact (h.of_same leases req slots).pushCompletion _
    · exact h.pushCompletion _
  · obtain ⟨leases, req, slots⟩ := enterListening_units true u
    exact (Calm.of_same leases (congrArg Requests.pend req) slots).apart apart

theorem slotIssue_steady (s : State) : Steady a s (slotIssue s) := by
  refine of_units (slotIssue_only s) Fits.slotIssue (fun _ h apart => ?_)
  cases issues : s.issuableSlot with
  | none =>
    rw [slotIssue_of_none issues]
    exact apart
  | some n =>
    rw [slotIssue_of_some issues]
    exact issueSlot_apart h.slots (triggered_of_issuable issues) apart

/-! ## All commands -/

theorem live_steady {f : State → State} {s t : State} (hf : Steady a s (f s)) (ht : live f s = .next t) :
    Steady a s t := by
  obtain rfl | ⟨_, rfl⟩ := live_next ht
  · exact refl _
  · exact hf

theorem hostWrite_steady {r : Reg} {f : State → State} {s t : State} (hf : ∀ u, Steady a u (f u))
    (ht : hostWrite r f s = .next t) : Steady a s t := by
  obtain rfl | ⟨_, rfl⟩ := hostWrite_next ht
  · exact passBy_steady s
  · exact (inWrite_steady r s).trans (hf _)

theorem onPort_steady {f : State → State} {s t : State} (hf : Steady a s (f s)) (ht : onPort f s = .next t) :
    Steady a s t := by
  obtain rfl | ⟨_, rfl⟩ := onPort_next ht
  · exact passBy_steady s
  · exact hf

theorem exec_steady {s t : State} (c : Instr) (ht : exec c s = .next t) : Steady (s.handedAgrees c) s t := by
  cases c with
  | powerOnReset x trg => injection ht with ht; subst ht; exact powerOn_steady x trg s
  | rstnWarmReset k p pl => exact live_steady (assertReset_steady k _ s) ht
  | warmReset p pl => exact hostWrite_steady (warmStart_steady _) ht
  | portReady => exact live_steady (portReady_steady s) ht
  | commit => exact hostWrite_steady startCommit_steady ht
  | commitComplete => exact live_steady (commitComplete_steady s) ht
  | configWrite w => exact hostWrite_steady (writeField_steady w) ht
  | registerWrite x d =>
    cases d with
    | command w => exact live_steady (f := beginTransaction w x) (beginTransaction_steady w x s) ht
    | data b ins => exact onPort_steady (writeByte_steady x b ins s) ht
  | transactionEnd => exact live_steady (endTransaction_steady s) ht
  | reqData b => exact hostWrite_steady (takeReqByte_steady b) ht
  | cmpData => exact onPort_steady (readByte_steady cmpDataAddr s) ht
  | eventClear v => exact hostWrite_steady (f := clearEvents v) (fun _ => withEvents_steady _ _) ht
  | irqEn v => exact hostWrite_steady (f := setIrqEn v) (fun _ => withEvents_steady _ _) ht
  | wakeEn v => exact hostWrite_steady (f := setWakeEn v) (fun _ => withEvents_steady _ _) ht
  | wakeAny v => exact hostWrite_steady (f := setWakeAny v) (fun _ => withEvents_steady _ _) ht
  | signalLatchClear v => exact hostWrite_steady (f := clearLatch v) (fun _ => withEvents_steady _ _) ht
  | errStatusClear v => exact hostWrite_steady (f := clearErrStatus v) (fun _ => withErrors_steady _ _) ht
  | errMask v => exact hostWrite_steady (f := setErrMask v) (fun _ => withErrors_steady _ _) ht
  | errFirstClear v => exact hostWrite_steady (f := clearErrFirst) (fun _ => withErrors_steady _ _) ht
  | slotEnable v => exact hostWrite_steady (slotWrite_steady (fun n => writeEnable_steady n v)) ht
  | slotCtrl v => exact hostWrite_steady (slotWrite_steady (fun n => writeSlotCtrl_steady n v)) ht
  | fire => exact hostWrite_steady (slotWrite_steady fireSlot_steady) ht
  | triggerFlagClear =>
    exact hostWrite_steady (slotWrite_steady (fun n u => of_calm (modifySlot_only n _ u) (fun h => h.clearTrigger n)
      (Calm.clearTrigger n u))) ht
  | missedClear =>
    exact hostWrite_steady (slotWrite_steady (fun n u => of_calm (modifySlot_only n _ u) (fun h => h.clearMissed n)
      (Calm.clearMissed n u))) ht
  | trgEdge n l => exact live_steady (pinEdge_steady n l s) ht
  | acquire =>
    exact live_steady (request_steady takeAcquire_only (fun _ _ code h out => h.takeAcquire code out) (fun r _ => takeAcquire_apart r)) ht
  | release =>
    exact live_steady (request_steady takeRelease_only (fun r _ _ h _ => h.takeRelease r)
      (fun r u => (Calm.takeRelease r u).apart)) ht
  | renew => exact live_steady (renew_steady s) ht
  | cancel =>
    exact live_steady (request_steady takeCancel_only (fun _ _ code h out => h.takeCancel code out)
      (fun r u => (Calm.takeCancel r u).apart)) ht
  | signal =>
    exact live_steady (request_steady takeSignal_only (fun _ _ code h out => h.takeSignal code out)
      (fun r u => (Calm.takeSignal r u).apart)) ht
  | query =>
    exact live_steady (request_steady takeQuery_only (fun _ _ _ h _ => h.pushCompletion _)
      (fun _ u => (Calm.pushCompletion _ u).apart)) ht
  | detach => exact live_steady (detach_steady s) ht
  | join => exact live_steady (join_steady s) ht
  | unknownRequest =>
    exact live_steady (request_steady takeUnknown_only (fun _ _ _ h _ => h.pushCompletion _)
      (fun _ u => (Calm.pushCompletion _ u).apart)) ht
  | slotIssue => exact live_steady (slotIssue_steady s) ht
  | heldWithdrawPlace => exact live_steady (of_calm (placeHeld_only s) Fits.placeHeld (Calm.placeHeld s)) ht
  | lineWaitDone => exact live_steady (f := lineWaitDone) (Steady.ite (withLine_steady _ s rfl rfl) (refl s)) ht
  | idleGap => exact live_steady (f := idleGap) (Steady.ite (withLine_steady _ s rfl rfl) (refl s)) ht
  | yieldTimeout => exact live_steady (f := yieldTimeout) (Steady.ite (withLine_steady _ s rfl rfl) (refl s)) ht
  | transmitStart rs => exact live_steady (startBoundary_steady rs s) ht
  | frameAccepted f => exact live_steady (frameAccepted_steady f s) ht
  | frameVoided f => exact live_steady (frameVoided_steady f s) ht
  | abortHoldEnd => exact live_steady (holdEnd_steady s) ht
  | tick => exact live_steady (tick_steady s) ht
  | leaseExpiry k => exact live_steady (leaseExpiry_steady _ s) ht
  | presenceTimerExpiry => exact live_steady (presenceExpiry_steady s) ht
  | dropoutExpiry x => exact live_steady (dropoutExpiry_steady x s) ht
  | listenIntervalEnd => exact live_steady (listenEnd_steady s) ht
  | snapshotTimerExpiry p => exact live_steady (snapshotExpiry_steady p s) ht
  | digestTimerExpiry => exact live_steady (digestExpiry_steady s) ht
  | powerFail => exact live_steady (powerFail_steady s) ht

end

/-! ## The sizes -/

/-- Joiners named once each, and never this station, are 15 at most. -/
theorem length_service_le {s : State} (h : s.roster) : s.snap.service.length ≤ 15 := by
  obtain ⟨_, nodup, others⟩ := h
  have all : (s.station :: s.snap.service.map Prod.fst).Nodup := by
    refine List.nodup_cons.2 ⟨fun named => ?_, nodup⟩
    obtain ⟨r, hr, same⟩ := List.mem_map.1 named
    exact others r hr same
  have numbers : ((s.station :: s.snap.service.map Prod.fst).map BitVec.toNat).Nodup :=
    all.map (fun _ _ same => BitVec.eq_of_toNat_eq same)
  have within : (s.station :: s.snap.service.map Prod.fst).map BitVec.toNat ⊆ List.range 16 := by
    intro x hx
    obtain ⟨y, _, rfl⟩ := List.mem_map.1 hx
    exact List.mem_range.2 y.isLt
  have few := (List.subperm_of_subset numbers within).length_le
  simp only [List.length_map, List.length_cons, List.length_range] at few
  omega

theorem sized_iff (s : State) : s.sized ↔ Fits 0 0 s ∧ s.roster := by
  constructor
  · rintro ⟨fifo, outgoing, asm, pend, peers, slots, reserved, _, places, _, nodup, others, leases⟩
    exact ⟨⟨fifo, outgoing, asm, pend, slots, reserved, places, leases⟩, peers, nodup, others⟩
  · rintro ⟨h, roster⟩
    have few := length_service_le roster
    obtain ⟨peers, nodup, others⟩ := roster
    have cmp : s.req.cmp.length ≤ Config.places := by
      have reserved := h.reserved
      rw [State.reserved] at reserved
      omega
    exact ⟨h.fifo, h.outgoing, h.asm, h.pend, peers, h.slots, h.reserved, cmp, h.places, few, nodup, others, h.leases⟩

/-- Settles O60: each command keeps the counters, the sizes as `Fits` and the service list, and the tokens apart where
the frame handed over agrees with the claims. -/
theorem everyStepKeepsCountersAndSizes : Obligations.EveryStepKeepsCountersAndSizes := by
  intro s t counters sized hstep
  cases hq : s.pending with
  | nil =>
    rw [stepRunsTheFrontCommand.2 s hq] at hstep
    injection hstep with hstep
    subst hstep
    exact ⟨counters, sized, fun apart _ => apart⟩
  | cons c rest =>
    rw [stepRunsTheFrontCommand.1 c rest s hq] at hstep
    obtain ⟨fits, roster⟩ := (sized_iff s).1 sized
    have taken : Steady True s (s.withPending rest) := of_records id id rfl rfl rfl
    have kept := exec_steady (s := s.withPending rest) c hstep
    refine ⟨kept.counters counters, (sized_iff t).2 ⟨kept.fits (taken.fits fits), kept.roster roster⟩,
      fun apart agrees => ?_⟩
    exact kept.apart (fun sender f hand => agrees c rest sender f rfl hand) (taken.fits fits)
      (taken.apart trivial fits apart)

end Sys2Proof.Machine
end
